-- ==== Sys2Proof/Word.lean ====
section
/-!
DEFINITION. The words of the 2196: octets, 16-bit values and 32-bit counters.
-/

namespace Sys2Proof

/-- One octet of the trunk, of the tributary link or of a message body. -/
abbrev Byte := BitVec 8

/-- A 16-bit value: the tick counter, a stamp, an epoch, a check code (R17, R148, R201). -/
abbrev Word := BitVec 16

/-- A 32-bit counter that wraps from 4294967295 to 0 ("Conventions", Counters). -/
abbrev Counter := BitVec 32

end Sys2Proof
end

