-- ==== Sys2Proof/Config.lean ====
section
/-!
DEFINITION. What the part fixes: its capacities, the octet values with a meaning, and its default settings.
The spec leaves no result of a step open, so there is no free value here (log entry 1).
-/

namespace Sys2Proof.Config

/-- Circuits 0–95 (R42). -/
abbrev circuits : Nat := 96
/-- Positions 0–1007 of a superframe, and entries of a plan bank (R13, R19). -/
abbrev positions : Nat := 1008
/-- Segments 0–1535 (R66). -/
abbrev segments : Nat := 1536
/-- Octets of a segment (R66). -/
abbrev segmentSize : Nat := 32
/-- Descriptors 0–319 (R67). -/
abbrev descriptors : Nat := 320
/-- Event kinds 0–15 (R180). -/
abbrev eventKinds : Nat := 16
/-- Bindings 0–5 (R193). -/
abbrev bindings : Nat := 6
/-- Canned slots 0–3 (R196). -/
abbrev cannedSlots : Nat := 4
/-- Class queues 0–3 (R85). -/
abbrev classes : Nat := 4

/-- The longest message body (R68). -/
abbrev maxBody : Nat := 248
/-- The most credits held (R87). -/
abbrev maxCredits : Nat := 32
/-- The most reject entries held (R119). -/
abbrev rejectDepth : Nat := 8
/-- The most requests waiting (R142). -/
abbrev requestDepth : Nat := 4
/-- The depth of the circuit 0 add queue (R125). -/
abbrev circuit0Depth : Nat := 8
/-- The most entries of the notice stack (R184). -/
abbrev stackDepth : Nat := 4
/-- The most entries of the fault list (R197). -/
abbrev faultDepth : Nat := 16
/-- The largest value of the stall timer and of the credit-stall timer (R63, R99). -/
abbrev timerLimit : Nat := 1000

/-- The idle octet C3h (R202). -/
abbrev idleOctet : Byte := 0xC3
/-- The opener 5Ah (R202). -/
abbrev openerOctet : Byte := 0x5A
/-- The switch mark DFh (R202). -/
abbrev switchMark : Byte := 0xDF
/-- The start octet A5h of a T-frame (R205). -/
abbrev startOctet : Byte := 0xA5

/-- Type codes of the T-frames (R205). -/
abbrev typeDeliver : Byte := 0x01
/-- Type code of REJECT (R205). -/
abbrev typeReject : Byte := 0x02
/-- Type code of ADD (R205). -/
abbrev typeAdd : Byte := 0x11
/-- Type code of CREDIT (R205). -/
abbrev typeCredit : Byte := 0x12

/-- Message type RESPONSE (R203). -/
abbrev messageResponse : Byte := 0x80
/-- Message type NOTICE (R203). -/
abbrev messageNotice : Byte := 0x81

/-- The code of the Alvajen family (R206). -/
abbrev familyCode : Byte := 0x2B
/-- The revision of the part (R206). -/
abbrev revisionCode : Byte := 0x01

/-- The lease setting after reset, about 30 s (R148). -/
abbrev defaultLease : Nat := 15000
/-- The segment reserve level after reset (R84). -/
abbrev defaultSegReserve : Nat := 32
/-- The descriptor reserve level after reset (R84). -/
abbrev defaultDescReserve : Nat := 8
/-- The quanta of classes 1–3 after reset (R105). -/
abbrev defaultQuantum : Nat := 256
/-- The notice timeout after reset (R188). -/
abbrev defaultNoticeTimeout : Nat := 500
/-- The retries after reset (R188). -/
abbrev defaultRetries : Nat := 3
/-- The stall limit of every circuit after reset (R43). -/
abbrev defaultStallLimit : Nat := 250

/-- What an octet of the segment store that nothing has written reads as: DESIGN CHOICE (log entry 2). -/
abbrev unwrittenOctet : Byte := 0

end Sys2Proof.Config
end

