-- ==== Sys2Proof/Syntax.lean ====
section
/-!
DEFINITION. The commands the 2196 takes: one constructor for each row of spec/opcode_table.json.
The rows that happen outside the part carry what the outside supplies: an octet, the levels found on pins.
The rows of the part's own steps name which of several like mechanisms takes the step.
A request kind carries nothing: its parameters stand in the request the engine has in hand (R143).
-/

namespace Sys2Proof

/-- The steps of the part (spec/95_what_each_step_holds.md). -/
inductive Instr
  /-- POWER_ON_RESET (R3): the levels found on NA0–NA5, TI_LP and TB_RDY at the end of the reset. -/
  | powerOnReset (straps : BitVec 6) (linePresent ready : Bool)
  /-- RESET_PIN (R3): RST_N is driven low. -/
  | resetPin
  /-- RST_N_RISE (R24): RST_N rises, with the levels then found on NA0–NA5. -/
  | rstNRise (straps : BitVec 6)
  /-- OCTET_ARRIVAL (R2): one octet on trunk-in. -/
  | octetArrival (octet : Byte)
  /-- TI_LP_FALL (R11). -/
  | tiLpFall
  /-- TI_LP_RISE (R12). -/
  | tiLpRise
  /-- TICK (R17). -/
  | tick
  /-- STALL (R63) of the receive context of a circuit. -/
  | stall (circuit : Nat)
  /-- CONFIRM_WINDOW_EXPIRY (R33). -/
  | confirmWindowExpiry
  /-- AGE_OUT (R97) of the head of a class queue. -/
  | ageOut (cls : Nat)
  /-- CREDIT_STALL (R99). -/
  | creditStall
  /-- OWNER_LOST (R151). -/
  | ownerLost
  /-- NOTICE_TIMEOUT (R190). -/
  | noticeTimeout
  /-- READY_FALL (R108): TB_RDY falls. -/
  | readyFall
  /-- READY_RISE (R108): TB_RDY rises. -/
  | readyRise
  /-- ADD (R113): the good octet that is the last check octet of an ADD frame whose check matches. -/
  | add (octet : Byte)
  /-- CREDIT (R117): the good octet that is the last check octet of a CREDIT frame whose check matches. -/
  | credit (octet : Byte)
  /-- FRAME_DROPPED (R112): the good octet at which the parser drops a frame for type, length or check. -/
  | frameDropped (octet : Byte)
  /-- FRAMING_ERROR (R111): an octet with its stop bit at 0, its bits discarded. -/
  | framingError
  /-- HUNT_OCTET (R109): a good octet other than A5h taken in HUNT. -/
  | huntOctet (octet : Byte)
  /-- DELIVERY_CHOICE (R88). -/
  | deliveryChoice
  /-- DELIVERY_COMPLETE (R92). -/
  | deliveryComplete
  /-- REJECT_START (R118). -/
  | rejectStart
  /-- REJECT_SENT (R120). -/
  | rejectSent
  /-- RESPONSE_ADMITTED (R136). -/
  | responseAdmitted
  /-- NOTICE_ADMITTED (R137). -/
  | noticeAdmitted
  /-- REQUEST_TAKE (R143). -/
  | requestTake
  /-- IDENTIFY (R161). -/
  | identify
  /-- CLAIM (R149). -/
  | claim
  /-- RELEASE (R150). -/
  | release
  /-- SET_LEASE (R151). -/
  | setLease
  /-- READ_PLAN (R164). -/
  | readPlan
  /-- WRITE_PLAN (R27). -/
  | writePlan
  /-- COPY_PLAN (R28). -/
  | copyPlan
  /-- ARM_SWAP (R30). -/
  | armSwap
  /-- CANCEL_SWAP (R37). -/
  | cancelSwap
  /-- CONFIRM_SWAP (R34). -/
  | confirmSwap
  /-- READ_CIRCUIT (R167). -/
  | readCircuit
  /-- WRITE_CIRCUIT (R44). -/
  | writeCircuit
  /-- START_CIRCUIT (R47). -/
  | startCircuit
  /-- STOP_CIRCUIT (R48). -/
  | stopCircuit
  /-- READ_COUNTERS (R170). -/
  | readCounters
  /-- READ_POOL (R171). -/
  | readPool
  /-- WRITE_POOL (R81). -/
  | writePool
  /-- READ_SCHED (R103). -/
  | readSched
  /-- WRITE_SCHED (R102). -/
  | writeSched
  /-- READ_EVENTS (R173). -/
  | readEvents
  /-- WRITE_EVENT_CONFIG (R174). -/
  | writeEventConfig
  /-- ACK_EVENTS (R175). -/
  | ackEvents
  /-- NOTICE_ACK (R191). -/
  | noticeAck
  /-- READ_FAULTS (R176). -/
  | readFaults
  /-- CLEAR_FAULTS (R176). -/
  | clearFaults
  /-- WRITE_BINDING (R177). -/
  | writeBinding
  /-- READ_BINDINGS (R177). -/
  | readBindings
  /-- LOAD_CANNED (R178). -/
  | loadCanned
  /-- RESET_TRAFFIC (R155). -/
  | resetTraffic
  /-- RESET_FULL (R156). -/
  | resetFull
  /-- GOOD_OCTET (R109): a good octet the parser takes without ending or dropping a frame. -/
  | goodOctet (octet : Byte)
  deriving DecidableEq, Repr

end Sys2Proof
end

