-- ==== Sys2Proof/Machine/Table.lean ====
section
/-!
DEFINITION. A table of a fixed number of like things: a list with its length.
-/

namespace Sys2Proof.Machine

/-- `n` like things, numbered 0 to `n - 1`. -/
structure Table (α : Type) (n : Nat) where
  cells : List α
  size : cells.length = n
  deriving DecidableEq, Repr

/-- Every place holds `a`. -/
def Table.fill {α : Type} (n : Nat) (a : α) : Table α n := ⟨List.replicate n a, List.length_replicate⟩

/-- The place numbered `i`. -/
def Table.get {α : Type} {n : Nat} (t : Table α n) (i : Fin n) : α :=
  t.cells[i.val]'(by rw [t.size]; exact i.isLt)

/-- `t` with `a` at the place numbered `i`. -/
def Table.put {α : Type} {n : Nat} (t : Table α n) (i : Fin n) (a : α) : Table α n :=
  ⟨t.cells.set i.val a, by rw [List.length_set]; exact t.size⟩

/-- `t` with the place numbered `i` changed by `f`. -/
def Table.change {α : Type} {n : Nat} (t : Table α n) (i : Fin n) (f : α → α) : Table α n :=
  t.put i (f (t.get i))

/-- Every place changed by `f`. -/
def Table.map {α β : Type} {n : Nat} (f : α → β) (t : Table α n) : Table β n :=
  ⟨t.cells.map f, by rw [List.length_map]; exact t.size⟩

end Sys2Proof.Machine
end

