-- ==== Sys2Proof/Machine/Blocks.lean ====
section
/-!
DEFINITION. What each of the nine blocks holds, as plain data, and what each holds after a reset.
-/

namespace Sys2Proof.Machine

/-- A circuit number 0–95. -/
abbrev Circuit := Fin Config.circuits
/-- A segment number 0–1535. -/
abbrev Segment := Fin Config.segments
/-- A descriptor number 0–319. -/
abbrev DescNo := Fin Config.descriptors
/-- A class 0–3. -/
abbrev Class := Fin Config.classes
/-- One of the classes 1–3, numbered from 0: lane `l` is class `l + 1`. -/
abbrev Lane := Fin 3

/-- The levels on the input pins that carry no data. -/
structure Pins where
  rstN : Bool
  tiLp : Bool
  tbRdy : Bool
  straps : BitVec 6
  deriving DecidableEq, Repr

/-! ### Alignment unit -/

/-- The alignment states (section 1.2). -/
inductive AlignState
  | search | verify | locked | holdover
  deriving DecidableEq, Repr

/-- What the alignment unit holds (section 1.2). -/
structure Align where
  state : AlignState
  frame : BitVec 4
  slot : BitVec 6
  verifyCount : Nat
  badCount : Nat
  latch : Bool
  badMarks : Counter
  losses : Counter
  deriving DecidableEq, Repr

/-- The alignment unit after the three resets (R3). -/
def Align.reset : Align :=
  ⟨.search, 0, 0, 1, 0, false, 0, 0⟩

/-! ### Slot engine -/

/-- The action of a plan entry (R20). -/
inductive Action
  | pass | tap | take | insert
  deriving DecidableEq, Repr

/-- A plan entry (R20). -/
structure PlanEntry where
  action : Action
  circuit : Circuit
  deriving DecidableEq, Repr

/-- A plan bank (R19). -/
abbrev Plan := Table PlanEntry Config.positions

/-- The bank letters (R19). -/
inductive Bank
  | a | b
  deriving DecidableEq, Repr

/-- The swap modes (R30). -/
inductive SwapMode
  | next | signal
  deriving DecidableEq, Repr

/-- The causes SWAP_DONE carries (R180). -/
inductive SwapCause
  | request | binding | revert
  deriving DecidableEq, Repr

/-- The armed-swap record (section 2.6). -/
structure ArmedSwap where
  mode : SwapMode
  window : Nat
  cause : SwapCause
  deriving DecidableEq, Repr

/-- The swap states (section 2.6). -/
inductive SwapState
  | idle | armedNext | armedSignal | confirmWait | revertPending
  deriving DecidableEq, Repr

/-- What the slot engine holds (R19, section 2.6). -/
structure SlotEngine where
  bankA : Plan
  bankB : Plan
  active : Bank
  swap : SwapState
  armed : Option ArmedSwap
  countdown : Option Nat
  aligned : Bool
  deriving DecidableEq, Repr

/-- A PASS entry, held with circuit 0 (R20). -/
def PlanEntry.passEntry : PlanEntry := ⟨.pass, 0⟩

/-- The node address the straps give: the strap value plus one, and 63 for 63 (R24). -/
def addressOfStraps (straps : BitVec 6) : BitVec 6 :=
  if straps = 63 then 63 else straps + 1

/-- The bootstrap plan of a node address N: TAKE circuit 0 at N − 1, INSERT circuit 0 at 503 + N (R25). -/
def bootstrapPlan (address : BitVec 6) : Plan :=
  ((Table.fill Config.positions PlanEntry.passEntry).put (Fin.ofNat _ (address.toNat - 1)) ⟨.take, 0⟩).put
    (Fin.ofNat _ (503 + address.toNat)) ⟨.insert, 0⟩

/-- The slot engine after the three resets (R25, R31). -/
def SlotEngine.reset (address : BitVec 6) : SlotEngine :=
  ⟨bootstrapPlan address, bootstrapPlan address, .a, .idle, none, none, false⟩

/-! ### Receive side -/

/-- The fifteen counters of a circuit record, in the order of R46. -/
structure CircuitCounters where
  received : Counter
  octetsReceived : Counter
  headerErrors : Counter
  checkErrors : Counter
  stalls : Counter
  skipsSpace : Counter
  skipsQuota : Counter
  seqGaps : Counter
  strays : Counter
  delivered : Counter
  agedOut : Counter
  flushed : Counter
  addRejects : Counter
  emitted : Counter
  octetsEmitted : Counter
  deriving DecidableEq, Repr

/-- Every counter at 0. -/
def CircuitCounters.zero : CircuitCounters := ⟨0, 0, 0, 0, 0, 0, 0, 0, 0, 0, 0, 0, 0, 0, 0⟩

/-- A circuit record (R42); `active` is its state and `held` its held segments (R80). -/
structure CircuitRecord where
  active : Bool
  dropEnable : Bool
  addEnable : Bool
  quota : Nat
  eligible : Bool
  stallLimit : Nat
  addDepth : Nat
  seqCheck : Bool
  held : Nat
  expected : Option (BitVec 4)
  emitSeq : BitVec 4
  counters : CircuitCounters
  deriving DecidableEq, Repr

/-- The record of circuit 0 after the three resets (R43, R130). -/
def CircuitRecord.resetManagement : CircuitRecord :=
  ⟨true, true, true, 64, true, Config.defaultStallLimit, 8, false, 0, none, 0, .zero⟩

/-- The record of each of circuits 1–95 after the three resets (R43, R130). -/
def CircuitRecord.resetTraffic : CircuitRecord :=
  ⟨false, false, false, 8, false, Config.defaultStallLimit, 4, false, 0, none, 0, .zero⟩

/-- The states of a receive context (section 3.4). -/
inductive RxState
  | stopped | hunt | head | body | check | skip
  deriving DecidableEq, Repr

/-- What a receive context holds (R51). -/
structure RxContext where
  state : RxState
  header : List Byte
  length : Nat
  cls : Class
  seq : BitVec 4
  mark : Bool
  desc : Option DescNo
  bodyCount : Nat
  crc : Word
  checkOctets : List Byte
  skipCount : Nat
  timer : Nat
  deriving DecidableEq, Repr

/-- The preset of the check code (R201). -/
def crcPreset : Word := 0xFFFF

/-- A context in a state that holds no message and no collected octet. -/
def RxContext.empty (state : RxState) : RxContext :=
  ⟨state, [], 0, 0, 0, false, none, 0, crcPreset, [], 0, 0⟩

/-! ### Segment pool -/

/-- Where a message comes from (R68). -/
inductive Origin
  | trunk | tributary | response | notice | canned
  deriving DecidableEq, Repr

/-- The states of a descriptor that is not FREE (R68, R70). -/
inductive DescState
  | assembling | queued | delivering | request | addQueued | emitting
  deriving DecidableEq, Repr

/-- A descriptor that is not FREE (R68). -/
structure Descriptor where
  state : DescState
  circuit : Circuit
  cls : Class
  mark : Bool
  seq : Option (BitVec 4)
  length : Nat
  chain : List Segment
  stamp : Option Word
  origin : Origin
  deriving DecidableEq, Repr

/-- The octets of the segments: octet o of segment g at address 32 g + o. -/
abbrev Memory := List Host.Cell

/-- What the segment pool holds (R66, R67, R81); a FREE descriptor is `none`. -/
structure Pool where
  freeSegs : List Segment
  freeDescs : List DescNo
  descs : Table (Option Descriptor) Config.descriptors
  store : Memory
  segReserve : Nat
  descReserve : Nat
  deriving DecidableEq, Repr

/-- Every segment, every descriptor free, in ascending order (R84). -/
def Pool.emptied (store : Memory) (segReserve descReserve : Nat) : Pool :=
  ⟨List.finRange Config.segments, List.finRange Config.descriptors, .fill _ none, store, segReserve, descReserve⟩

/-- The pool after the three resets (R84). -/
def Pool.reset : Pool := .emptied [] Config.defaultSegReserve Config.defaultDescReserve

/-! ### Delivery unit -/

/-- What the delivery unit holds (R85, R86). -/
structure Delivery where
  queues : Table (List DescNo) Config.classes
  quanta : Table Nat 3
  deficits : Table Nat 3
  round : Lane
  credits : Nat
  ageLimits : Table Nat Config.classes
  stallLimit : Nat
  stallTimer : Nat
  stallReported : Bool
  inDelivery : Option DescNo
  retries : Counter
  discarded : Counter
  deriving DecidableEq, Repr

/-- The delivery unit after the three resets (R105). -/
def Delivery.reset : Delivery :=
  ⟨.fill _ [], .fill _ Config.defaultQuantum, .fill _ 0, 0, 0, .fill _ 0, 0, 0, false, none, 0, 0⟩

/-! ### Tributary interface -/

/-- The states of the parser (section 6.3). -/
inductive ParserState
  | hunt | type | length | payload | check
  deriving DecidableEq, Repr

/-- What the parser keeps (section 6.3); the count of payload octets taken is the length of the buffer. -/
structure Parser where
  state : ParserState
  type : Byte
  lenOctets : List Byte
  length : Nat
  crc : Word
  buffer : List Byte
  checkOctets : List Byte
  deriving DecidableEq, Repr

/-- The parser in HUNT with no frame in collection. -/
def Parser.hunting : Parser := ⟨.hunt, 0, [], 0, crcPreset, [], []⟩

/-- The reasons of a REJECT (R206). -/
inductive RejectReason
  | stopped | notAdd | queueFull | noSpace | badLength
  deriving DecidableEq, Repr

/-- The kinds of a dropped frame (R112). -/
inductive LinkError
  | type | length | check | framing | value
  deriving DecidableEq, Repr

/-- A reject entry (R119). -/
structure RejectEntry where
  tag : Byte
  circuit : Byte
  reason : RejectReason
  deriving DecidableEq, Repr

/-- The states of the transmitter (section 6.6). -/
inductive TxState
  | idle | sendingDeliver | sendingReject
  deriving DecidableEq, Repr

/-- The link counters, in the order of R122. -/
structure LinkCounters where
  huntOctets : Counter
  framingErrors : Counter
  typeErrors : Counter
  lengthErrors : Counter
  checkErrors : Counter
  valueErrors : Counter
  addAccepted : Counter
  creditAccepted : Counter
  rejectsSent : Counter
  rejectsUnsent : Counter
  rejectsOutOfRange : Counter
  deriving DecidableEq, Repr

/-- Every link counter at 0. -/
def LinkCounters.zero : LinkCounters := ⟨0, 0, 0, 0, 0, 0, 0, 0, 0, 0, 0⟩

/-- What the tributary interface holds (sections 6.1 to 6.7); `frame` is the T-frame on the line. -/
structure Tributary where
  ready : Bool
  parser : Parser
  rejects : List RejectEntry
  tx : TxState
  frame : List Byte
  counters : LinkCounters
  deriving DecidableEq, Repr

/-- The tributary interface after the three resets, with the level of TB_RDY at their end (R123). -/
def Tributary.reset (ready : Bool) : Tributary :=
  ⟨ready, .hunting, [], .idle, [], .zero⟩

/-! ### Insertion side -/

/-- The states of an emitter (R126). -/
inductive EmitState
  | idle | head | body | check
  deriving DecidableEq, Repr

/-- What an emitter holds (R126). -/
structure Emitter where
  state : EmitState
  desc : Option DescNo
  headerCount : Nat
  bodyCount : Nat
  checkCount : Nat
  crc : Word
  deriving DecidableEq, Repr

/-- An emitter in IDLE with no message (R140). -/
def Emitter.idle : Emitter := ⟨.idle, none, 0, 0, 0, crcPreset⟩

/-! ### Event unit -/

/-- The sixteen event kinds (R180). -/
inductive EventKind
  | alignLost | alignGained | swapDone | swapReverted | poolReserve | poolEmpty | descEmpty | circuitFault
  | ageOut | creditStall | tribError | addReject | ownerLost | ownerChanged | mgmtOverrun | bindingMiss
  deriving DecidableEq, Repr

/-- An event record (R181). -/
structure EventRecord where
  pending : Bool
  repeatCount : Byte
  enabled : Bool
  level : Fin 8
  detail : Option (List Byte)
  lastTick : Word
  deriving DecidableEq, Repr

/-- An event record after the three resets (R181). -/
def EventRecord.reset : EventRecord := ⟨false, 0, false, 0, none, 0⟩

/-- An entry of the notice stack (R184). -/
structure StackEntry where
  sequence : Byte
  kind : EventKind
  level : Fin 8
  sends : Nat
  timer : Nat
  deriving DecidableEq, Repr

/-- The actions of a binding with their operands (R193). -/
inductive BindingAction
  | swap
  | circuitStop (c : Circuit)
  | circuitStart (c : Circuit)
  | sendCanned (slot : Fin Config.cannedSlots) (c : Circuit)
  | flushClass (q : Class)
  deriving DecidableEq, Repr

/-- What happens when a binding's count reaches 0 (R193). -/
inductive EndMode
  | notify | silent
  deriving DecidableEq, Repr

/-- A binding in use (R193). -/
structure Binding where
  kind : EventKind
  action : BindingAction
  count : Nat
  endMode : EndMode
  armed : Bool
  enabled : Bool
  deriving DecidableEq, Repr

/-- A canned slot that is not empty (R196). -/
structure Canned where
  body : List Byte
  cls : Class
  mark : Bool
  deriving DecidableEq, Repr

/-- The causes of a receive fault (R64). -/
inductive FaultCause
  | header | check | stall | skipSpace | skipQuota | seqGap
  deriving DecidableEq, Repr

/-- An entry of the fault list (R197); `causes` is the cause set in the bits of R204. -/
structure FaultEntry where
  circuit : Circuit
  causes : Byte
  firstTick : Word
  deriving DecidableEq, Repr

/-- An occurrence handed to the event unit (R180). `barred` names the bindings whose failed action has given rise to it,
with no success between (log entry 9). -/
structure Occurrence where
  kind : EventKind
  detail : Option (List Byte)
  barred : List (Fin Config.bindings)
  deriving DecidableEq, Repr

/-- What the event unit holds (R199); the head of `stack` is its top entry. -/
structure Events where
  records : Table EventRecord Config.eventKinds
  floor : Fin 8
  timeout : Nat
  retries : Nat
  stack : List StackEntry
  sequence : Byte
  bindings : Table (Option Binding) Config.bindings
  canned : Table (Option Canned) Config.cannedSlots
  faults : List FaultEntry
  overflow : Bool
  misses : Counter
  abandoned : Counter
  inbox : List Occurrence
  deriving DecidableEq, Repr

/-- The event unit after the three resets (R199). -/
def Events.reset : Events :=
  ⟨.fill _ .reset, 0, Config.defaultNoticeTimeout, Config.defaultRetries, [], 0, .fill _ none, .fill _ none, [],
    false, 0, 0, []⟩

/-! ### Circuit 0 arbiter -/

/-- The response offer (R134); `tried` says that its first request of the pool has been made (R76). -/
structure ResponseOffer where
  body : List Byte
  tried : Bool
  deriving DecidableEq, Repr

/-- The notice offer (R134, R186); `resend` tells a re-send offer from a new one, and `record` is the record of its kind
when it was formed. -/
structure NoticeOffer where
  resend : Bool
  kind : EventKind
  level : Fin 8
  sequence : Byte
  body : List Byte
  record : EventRecord
  tried : Bool
  deriving DecidableEq, Repr

/-- The two offers the arbiter can hold (R134). -/
structure Arbiter where
  response : Option ResponseOffer
  notice : Option NoticeOffer
  deriving DecidableEq, Repr

/-- The arbiter after the three resets (R140). -/
def Arbiter.reset : Arbiter := ⟨none, none⟩

/-! ### Management engine -/

/-- The states of the engine (R143). -/
inductive EngineState
  | idle | executing | holding | resetting
  deriving DecidableEq, Repr

/-- The ownership record (R148). -/
inductive Ownership
  | unowned
  | owned (id : BitVec 4) (epoch : Word) (countdown : Option Nat)
  deriving DecidableEq, Repr

/-- The entry of the duplicate cache (R145). -/
structure CacheEntry where
  id : BitVec 4
  tag : Byte
  body : List Byte
  deriving DecidableEq, Repr

/-- The engine counters, in the order of R158. -/
structure EngineCounters where
  malformed : Counter
  foreign : Counter
  overruns : Counter
  duplicates : Counter
  executed : Counter
  refused : Counter
  deriving DecidableEq, Repr

/-- Every engine counter at 0. -/
def EngineCounters.zero : EngineCounters := ⟨0, 0, 0, 0, 0, 0⟩

/-- What the management engine holds (R159); the response it holds is the response offer. -/
structure Engine where
  state : EngineState
  queue : List DescNo
  inHand : Option (List Byte)
  noted : Option DescNo
  owner : Ownership
  lease : Nat
  cache : Option CacheEntry
  counters : EngineCounters
  deriving DecidableEq, Repr

/-- The management engine after the three resets (R159). -/
def Engine.reset : Engine :=
  ⟨.idle, [], none, none, .unowned, Config.defaultLease, none, .zero⟩

/-! ### Steps fallen due -/

/-- The steps of the part that have fallen due and are not yet taken (log entries 6 and 7). A tick makes the first
six due (R18); `attempts` counts the attempts of the circuit 0 arbiter, one for each occasion, and `partTwo` is the second
part of one begun (R135). -/
structure Owed where
  stalls : List Circuit
  confirm : Bool
  ages : Bool
  creditStall : Option Nat
  ownerLost : Bool
  noticeTimeout : Bool
  attempts : Nat
  partTwo : Bool
  deriving DecidableEq, Repr

/-- Nothing is owed. -/
def Owed.none : Owed := ⟨[], false, false, .none, false, false, 0, false⟩

end Sys2Proof.Machine
end

