-- ==== Sys2Proof/Machine/State.lean ====
section
/-!
DEFINITION. The state of the part: everything the spec gives it, and the queue of commands waiting.
-/

namespace Sys2Proof.Machine

/-- The 2196. `pending` is the queue of commands, first in, first out; the other fields are named by the block
that holds them (INVENTORY.md, State). -/
structure State where
  pending : List Instr
  pins : Pins
  toData : Byte
  tickCounter : Word
  nodeAddress : BitVec 6
  align : Align
  slot : SlotEngine
  circuits : Table CircuitRecord Config.circuits
  contexts : Table RxContext Config.circuits
  pool : Pool
  delivery : Delivery
  trib : Tributary
  addQueues : Table (List DescNo) Config.circuits
  emitters : Table Emitter Config.circuits
  arbiter : Arbiter
  engine : Engine
  events : Events
  owed : Owed
  deriving DecidableEq, Repr

/-- No command of the part stops with a fault: the spec names no condition that stops it (log entry 4). -/
inductive Fault
  deriving DecidableEq, Repr

/-- Why a command has no meaning. -/
inductive Refusal
  /-- A command the model has not reached. Raised by no command of this model; safe. -/
  | notModelled (mnemonic : String)
  deriving DecidableEq, Repr

/-- Every block at its reset value (R3, R17, R25, R31, R43, R84, R105, R123, R140, R159, R199), for the levels found
on the pins at the end of the reset; the straps give the node address (R24). -/
def State.resetWith (pending : List Instr) (pins : Pins) (toData : Byte) : State where
  pending := pending
  pins := pins
  toData := toData
  tickCounter := 0
  nodeAddress := addressOfStraps pins.straps
  align := .reset
  slot := .reset (addressOfStraps pins.straps)
  circuits := (Table.fill _ .resetTraffic).put 0 .resetManagement
  contexts := (Table.fill _ (.empty .stopped)).put 0 (.empty .hunt)
  pool := .reset
  delivery := .reset
  trib := .reset pins.tbRdy
  addQueues := .fill _ []
  emitters := .fill _ .idle
  arbiter := .reset
  engine := .reset
  events := .reset
  owed := .none

/-- The part right after a power-on reset, with RST_N high, the other pins low and no octet yet sent
(DESIGN CHOICE, log entry 12). -/
def State.reset : State := .resetWith [] ⟨true, false, false, 0⟩ 0

end Sys2Proof.Machine
end

