-- ==== Sys2Proof/Machine/Operands.lean ====
section
/-!
DEFINITION. Octet layouts and code values: how fields are laid out in octets (R200, R203, R204) and the numeric
codes of statuses, request kinds, events and the other named values (R206).
-/

namespace Sys2Proof.Machine

/-! ### Fields in octets -/

/-- A number in one octet. -/
def octet (n : Nat) : Byte := BitVec.ofNat 8 n

/-- A number in two octets, most significant first (R200). -/
def octets2 (n : Nat) : List Byte := [octet (n / 256), octet n]

/-- A counter in four octets, most significant first (R200). -/
def octets4 (c : Counter) : List Byte :=
  [octet (c.toNat / 16777216), octet (c.toNat / 65536), octet (c.toNat / 256), octet c.toNat]

/-- The number two octets carry, most significant first (R200). -/
def number2 (high low : Byte) : Nat := high.toNat * 256 + low.toNat

/-- No or off 0, yes or on 1 (R206). -/
def flagOctet (b : Bool) : Byte := if b then 1 else 0

/-- The flag an octet carries: 0 or 1, any other value out of range (R160, R206). -/
def flagOf (b : Byte) : Option Bool :=
  if b = 0 then some false else if b = 1 then some true else none

/-- The octet at place `i` of a list, 0 beyond its end. -/
def at0 (l : List Byte) (i : Nat) : Byte := l.getD i 0

/-- The two-octet number at places `i` and `i + 1` of a list. -/
def number2At (l : List Byte) (i : Nat) : Nat := number2 (at0 l i) (at0 l (i + 1))

/-- The circuit a circuit octet names, if it is 0–95. -/
def circuitOf (b : Byte) : Option Circuit :=
  if h : b.toNat < Config.circuits then some ⟨b.toNat, h⟩ else none

/-- The class an octet names, if it is 0–3. -/
def classOf (b : Byte) : Option Class :=
  if h : b.toNat < Config.classes then some ⟨b.toNat, h⟩ else none

/-- The octet of a circuit number. -/
def circuitOctet (c : Circuit) : Byte := octet c.val

/-- The second header octet of a message: class, sequence, mark and a 0 (R202). -/
def headerOctet (cls : Class) (seq : BitVec 4) (mark : Bool) : Byte :=
  octet (cls.val * 64 + seq.toNat * 4 + if mark then 2 else 0)

/-- The class in bits 7–6 of a second header octet (R202). -/
def headerClass (b : Byte) : Class := Fin.ofNat _ (b.toNat / 64)

/-- The sequence in bits 5–2 of a second header octet (R202). -/
def headerSeq (b : Byte) : BitVec 4 := BitVec.ofNat 4 (b.toNat / 4)

/-- The mark in bit 1 of a second header octet (R202). -/
def headerMark (b : Byte) : Bool := b.getLsbD 1

/-! ### Codes (R206) -/

/-- Alignment state codes. -/
def AlignState.code : AlignState → Byte
  | .search => 0 | .verify => 1 | .locked => 2 | .holdover => 3

/-- Plan action codes. -/
def Action.code : Action → Byte
  | .pass => 0 | .tap => 1 | .take => 2 | .insert => 3

/-- The plan action a code names. -/
def Action.ofCode (b : Byte) : Option Action :=
  if b = 0 then some .pass else if b = 1 then some .tap
  else if b = 2 then some .take else if b = 3 then some .insert else none

/-- Bank codes. -/
def Bank.code : Bank → Byte
  | .a => 0 | .b => 1

/-- The bank a code names. -/
def Bank.ofCode (b : Byte) : Option Bank :=
  if b = 0 then some .a else if b = 1 then some .b else none

/-- The swap mode a code names. -/
def SwapMode.ofCode (b : Byte) : Option SwapMode :=
  if b = 0 then some .next else if b = 1 then some .signal else none

/-- Swap cause codes. -/
def SwapCause.code : SwapCause → Byte
  | .request => 0 | .binding => 1 | .revert => 2

/-- Swap state codes. -/
def SwapState.code : SwapState → Byte
  | .idle => 0 | .armedNext => 1 | .armedSignal => 2 | .confirmWait => 3 | .revertPending => 4

/-- Receive context state codes. -/
def RxState.code : RxState → Byte
  | .stopped => 0 | .hunt => 1 | .head => 2 | .body => 3 | .check => 4 | .skip => 5

/-- Emitter state codes. -/
def EmitState.code : EmitState → Byte
  | .idle => 0 | .head => 1 | .body => 2 | .check => 3

/-- Reject reason codes. -/
def RejectReason.code : RejectReason → Byte
  | .stopped => 1 | .notAdd => 2 | .queueFull => 3 | .noSpace => 4 | .badLength => 5

/-- Link error kind codes. -/
def LinkError.code : LinkError → Byte
  | .type => 1 | .length => 2 | .check => 3 | .framing => 4 | .value => 5

/-- The bit of a fault cause in a cause set (R204). -/
def FaultCause.code : FaultCause → Byte
  | .header => 0x01 | .check => 0x02 | .stall => 0x04 | .skipSpace => 0x08 | .skipQuota => 0x10 | .seqGap => 0x20

/-- Event kind numbers (R180). -/
def EventKind.num : EventKind → Fin Config.eventKinds
  | .alignLost => 0 | .alignGained => 1 | .swapDone => 2 | .swapReverted => 3
  | .poolReserve => 4 | .poolEmpty => 5 | .descEmpty => 6 | .circuitFault => 7
  | .ageOut => 8 | .creditStall => 9 | .tribError => 10 | .addReject => 11
  | .ownerLost => 12 | .ownerChanged => 13 | .mgmtOverrun => 14 | .bindingMiss => 15

/-- The event kinds in the order of their numbers. -/
def EventKind.all : List EventKind :=
  [.alignLost, .alignGained, .swapDone, .swapReverted, .poolReserve, .poolEmpty, .descEmpty, .circuitFault,
    .ageOut, .creditStall, .tribError, .addReject, .ownerLost, .ownerChanged, .mgmtOverrun, .bindingMiss]

/-- The event kind a number names, if it is 0–15. -/
def EventKind.ofCode (b : Byte) : Option EventKind := EventKind.all[b.toNat]?

/-- The octet of an event kind. -/
def EventKind.code (k : EventKind) : Byte := octet k.num.val

/-- Binding action codes. -/
def BindingAction.code : BindingAction → Byte
  | .swap => 1 | .circuitStop _ => 2 | .circuitStart _ => 3 | .sendCanned _ _ => 4 | .flushClass _ => 5

/-- Operand A of a binding action, 0 where it has none (R177). -/
def BindingAction.operandA : BindingAction → Byte
  | .swap => 0
  | .circuitStop c => circuitOctet c
  | .circuitStart c => circuitOctet c
  | .sendCanned i _ => octet i.val
  | .flushClass q => octet q.val

/-- Operand B of a binding action, 0 where it has none (R177). -/
def BindingAction.operandB : BindingAction → Byte
  | .swap => 0
  | .circuitStop _ => 0
  | .circuitStart _ => 0
  | .sendCanned _ c => circuitOctet c
  | .flushClass _ => 0

/-- A circuit from 1 to 95. -/
def trafficCircuitOf (b : Byte) : Option Circuit := if b = 0 then none else circuitOf b

/-- The canned slot an octet names, if it is 0–3. -/
def cannedSlotOf (b : Byte) : Option (Fin Config.cannedSlots) :=
  if h : b.toNat < Config.cannedSlots then some ⟨b.toNat, h⟩ else none

/-- The binding an octet names, if it is 0–5. -/
def bindingIndexOf (b : Byte) : Option (Fin Config.bindings) :=
  if h : b.toNat < Config.bindings then some ⟨b.toNat, h⟩ else none

/-- The action a code and its operands name; an operand the action uses must be in its range (R177). -/
def BindingAction.ofCode (action operandA operandB : Byte) : Option BindingAction :=
  if action = 1 then some .swap
  else if action = 2 then (trafficCircuitOf operandA).map .circuitStop
  else if action = 3 then (trafficCircuitOf operandA).map .circuitStart
  else if action = 4 then
    match cannedSlotOf operandA, trafficCircuitOf operandB with
    | some i, some c => some (.sendCanned i c)
    | _, _ => none
  else if action = 5 then (classOf operandA).map .flushClass
  else none

/-- End mode codes. -/
def EndMode.code : EndMode → Byte
  | .notify => 0 | .silent => 1

/-- The end mode a code names. -/
def EndMode.ofCode (b : Byte) : Option EndMode :=
  if b = 0 then some .notify else if b = 1 then some .silent else none

/-- Why a binding action failed (R195). -/
inductive ActionFailure
  | swapBusy | invalidPlan | stopped | active | emptySlot | noRoom | noGrant
  deriving DecidableEq, Repr

/-- Binding failure cause codes. -/
def ActionFailure.code : ActionFailure → Byte
  | .swapBusy => 1 | .invalidPlan => 2 | .stopped => 3 | .active => 4 | .emptySlot => 5 | .noRoom => 6 | .noGrant => 7

/-- What a plan that fails validation lacks (R26). -/
inductive PlanLack
  | missingDrop | missingInsert
  deriving DecidableEq, Repr

/-- Validation detail codes. -/
def PlanLack.code : PlanLack → Byte
  | .missingDrop => 1 | .missingInsert => 2

/-- The statuses of a response (R153). -/
inductive Status
  | ok | notOwner | stale | badRequest | range | state | invalidPlan | order
  deriving DecidableEq, Repr

/-- Status codes. -/
def Status.code : Status → Byte
  | .ok => 0 | .notOwner => 1 | .stale => 2 | .badRequest => 3 | .range => 4 | .state => 5 | .invalidPlan => 6 | .order => 7

/-! ### Requests -/

/-- The request kinds (R206). -/
inductive RequestKind
  | identify | claim | release | setLease
  | readPlan | writePlan | copyPlan | armSwap | cancelSwap | confirmSwap
  | readCircuit | writeCircuit | startCircuit | stopCircuit | readCounters
  | readPool | writePool | readSched | writeSched
  | readEvents | writeEventConfig | ackEvents | noticeAck | readFaults | clearFaults
  | writeBinding | readBindings | loadCanned | reset
  deriving DecidableEq, Repr

/-- Request kind codes (R206). -/
def RequestKind.code : RequestKind → Byte
  | .identify => 0x01 | .claim => 0x02 | .release => 0x03 | .setLease => 0x04
  | .readPlan => 0x10 | .writePlan => 0x11 | .copyPlan => 0x12 | .armSwap => 0x13
  | .cancelSwap => 0x14 | .confirmSwap => 0x15
  | .readCircuit => 0x20 | .writeCircuit => 0x21 | .startCircuit => 0x22 | .stopCircuit => 0x23
  | .readCounters => 0x24
  | .readPool => 0x30 | .writePool => 0x31 | .readSched => 0x32 | .writeSched => 0x33
  | .readEvents => 0x40 | .writeEventConfig => 0x41 | .ackEvents => 0x42 | .noticeAck => 0x43
  | .readFaults => 0x44 | .clearFaults => 0x45
  | .writeBinding => 0x46 | .readBindings => 0x47 | .loadCanned => 0x48
  | .reset => 0x50

/-- Every request kind. -/
def RequestKind.all : List RequestKind :=
  [.identify, .claim, .release, .setLease, .readPlan, .writePlan, .copyPlan, .armSwap, .cancelSwap, .confirmSwap,
    .readCircuit, .writeCircuit, .startCircuit, .stopCircuit, .readCounters, .readPool, .writePool, .readSched,
    .writeSched, .readEvents, .writeEventConfig, .ackEvents, .noticeAck, .readFaults, .clearFaults, .writeBinding,
    .readBindings, .loadCanned, .reset]

/-- The request kind a kind octet names; any other octet is an unknown kind (R146). -/
def RequestKind.ofCode (b : Byte) : Option RequestKind := RequestKind.all.find? (·.code == b)

/-- Whether a kind allows a parameter length (R160). -/
def RequestKind.allowsLength : RequestKind → Nat → Bool
  | .identify, n | .release, n | .copyPlan, n | .cancelSwap, n | .confirmSwap, n | .readSched, n
  | .readEvents, n | .readFaults, n | .clearFaults, n | .readBindings, n => n == 0
  | .claim, n | .setLease, n => n == 2
  | .readPlan, n => n == 4
  | .writePlan, n => 3 ≤ n && n ≤ 67 && n % 2 == 1
  | .armSwap, n => n == 3
  | .readCircuit, n | .startCircuit, n => n == 1
  | .writeCircuit, n => n == 10
  | .stopCircuit, n => n == 2
  | .readCounters, n => n == 2
  | .readPool, n => n == 2
  | .writePool, n => n == 3
  | .writeSched, n => n == 16
  | .writeEventConfig, n => n == 20
  | .ackEvents, n => 1 ≤ n && n ≤ 16
  | .noticeAck, n => n == 2
  | .writeBinding, n => n == 10
  | .loadCanned, n => 4 ≤ n && n ≤ 35
  | .reset, n => n == 1

/-- Whether a request of a kind with given parameters is a modifying one (R147, R170). -/
def RequestKind.modifies (params : List Byte) : RequestKind → Bool
  | .identify | .readPlan | .readCircuit | .readPool | .readSched | .readEvents | .readFaults | .readBindings => false
  | .claim => false
  | .readCounters => at0 params 1 != 0
  | .release | .setLease | .writePlan | .copyPlan | .armSwap | .cancelSwap | .confirmSwap => true
  | .writeCircuit | .startCircuit | .stopCircuit | .writePool | .writeSched | .writeEventConfig => true
  | .ackEvents | .noticeAck | .clearFaults | .writeBinding | .loadCanned | .reset => true

/-- The target octet of a request body (R141, R203). -/
def requestTarget (body : List Byte) : Byte := at0 body 0
/-- The second octet of a request body: the controller id and four bits that must be 0. -/
def requestIdOctet (body : List Byte) : Byte := at0 body 1
/-- The controller id of a request body. -/
def requestId (body : List Byte) : BitVec 4 := BitVec.ofNat 4 ((requestIdOctet body).toNat / 16)
/-- Whether the four bits of the second octet that must be 0 are 0. -/
def requestIdClean (body : List Byte) : Bool := (requestIdOctet body).toNat % 16 == 0
/-- The tag of a request body. -/
def requestTag (body : List Byte) : Byte := at0 body 2
/-- The kind octet of a request body. -/
def requestKindOctet (body : List Byte) : Byte := at0 body 3
/-- The parameters of a request body. -/
def requestParams (body : List Byte) : List Byte := body.drop 4

/-- A plan entry in two octets: the action code, then the circuit (R203). -/
def PlanEntry.octets (e : PlanEntry) : List Byte := [e.action.code, circuitOctet e.circuit]

/-- The entries a list of octets carries, each two octets; `none` if one is out of range (R20, R27). A PASS entry
is held with circuit 0. -/
def planEntriesOf : List Byte → Option (List PlanEntry)
  | [] => some []
  | a :: c :: rest =>
    match Action.ofCode a, circuitOf c, planEntriesOf rest with
    | some action, some circuit, some more =>
      some (⟨action, if action = .pass then 0 else circuit⟩ :: more)
    | _, _, _ => none
  | [_] => none

/-- A fault entry in four octets (R204). -/
def FaultEntry.octets (e : FaultEntry) : List Byte :=
  [circuitOctet e.circuit, e.causes] ++ octets2 e.firstTick.toNat

/-- The fifteen counters of a circuit in the order of R46. -/
def CircuitCounters.list (k : CircuitCounters) : List Counter :=
  [k.received, k.octetsReceived, k.headerErrors, k.checkErrors, k.stalls, k.skipsSpace, k.skipsQuota, k.seqGaps,
    k.strays, k.delivered, k.agedOut, k.flushed, k.addRejects, k.emitted, k.octetsEmitted]

/-- The eleven link counters in the order of R122. -/
def LinkCounters.list (k : LinkCounters) : List Counter :=
  [k.huntOctets, k.framingErrors, k.typeErrors, k.lengthErrors, k.checkErrors, k.valueErrors, k.addAccepted,
    k.creditAccepted, k.rejectsSent, k.rejectsUnsent, k.rejectsOutOfRange]

/-- The six engine counters in the order of R158. -/
def EngineCounters.list (k : EngineCounters) : List Counter :=
  [k.malformed, k.foreign, k.overruns, k.duplicates, k.executed, k.refused]

/-- Counters in four octets each. -/
def counterOctets (l : List Counter) : List Byte := l.flatMap octets4

end Sys2Proof.Machine
end

