-- ==== Sys2Proof/Machine/Flags.lean ====
section
/-!
DEFINITION. Judgements: the check code (R201), the marks (R1, R4), a header (R54), a plan's validation (R26), the
tests of an allocation request (R71–R75) and the threshold of notices (R185).
-/

namespace Sys2Proof.Machine

/-! ### Check code (R201) -/

/-- One bit into the check register. -/
def crcBit (reg : Word) (bit : Bool) : Word :=
  let shifted := reg <<< 1
  if reg.getLsbD 15 == bit then shifted else shifted ^^^ 0x1021

/-- One octet into the check register, bit 7 first. -/
def crcOctet (reg : Word) (b : Byte) : Word :=
  [7, 6, 5, 4, 3, 2, 1, 0].foldl (fun r i => crcBit r (b.getLsbD i)) reg

/-- The check code of a list of octets. -/
def crcOf (l : List Byte) : Word := l.foldl crcOctet crcPreset

/-- The two check octets, high octet first. -/
def checkOctetsOf (reg : Word) : List Byte := octets2 reg.toNat

/-! ### Marks -/

/-- Whether an octet at the mark place of frame `f` is a good mark (R1). -/
def goodMark (f : BitVec 4) (b : Byte) : Bool :=
  b == 0xB0 + f.zeroExtend 8 || (f == 15 && b == Config.switchMark)

/-- The frame an octet in SEARCH is a candidate for (R4). -/
def candidateFrame (b : Byte) : Option (BitVec 4) :=
  if b.extractLsb' 4 4 = 0xB then some (b.extractLsb' 0 4)
  else if b = Config.switchMark then some 15
  else none

/-- The position of the payload octet at slot `s` of frame `f` (R13). -/
def positionOf (f : BitVec 4) (s : BitVec 6) : Nat := 63 * f.toNat + (s.toNat - 1)

/-! ### Messages -/

/-- The segments of a body of length L: ceil(L ÷ 32) (R55). -/
def segmentsFor (length : Nat) : Nat := (length + 31) / Config.segmentSize

/-- Whether a header is good: a length 1–248 and the must-be-zero bit at 0 (R54). -/
def goodHeader (lengthOctet second : Byte) : Bool :=
  1 ≤ lengthOctet.toNat && lengthOctet.toNat ≤ Config.maxBody && !second.getLsbD 0

/-! ### Plans -/

/-- Whether an entry drops circuit 0 (R26). -/
def PlanEntry.dropsManagement (e : PlanEntry) : Bool := (e.action == .tap || e.action == .take) && e.circuit == 0
/-- Whether an entry inserts circuit 0 (R26). -/
def PlanEntry.insertsManagement (e : PlanEntry) : Bool := e.action == .insert && e.circuit == 0

/-- What a plan lacks, the drop named first; `none` if it passes validation (R26). -/
def planLack (plan : Plan) : Option PlanLack :=
  if plan.cells.any PlanEntry.dropsManagement then
    if plan.cells.any PlanEntry.insertsManagement then none else some .missingInsert
  else some .missingDrop

/-! ### Allocation -/

/-- The failure kinds of an allocation request (R71). -/
inductive AllocFailure
  | quota | space | descriptors
  deriving DecidableEq, Repr

/-- Whether a circuit is reserve eligible; circuit 0 always is (R75). -/
def eligible (s : State) (c : Circuit) : Bool := c == 0 || (s.circuits.get c).eligible

/-- Whether the quota test fails (R72). -/
def quotaFails (s : State) (c : Circuit) (n : Nat) : Bool :=
  (s.circuits.get c).quota < (s.circuits.get c).held + n

/-- Whether the segment space test fails (R73). -/
def spaceFails (s : State) (c : Circuit) (n : Nat) : Bool :=
  s.pool.freeSegs.length < n ||
    (!eligible s c && s.pool.freeSegs.length - n ≤ s.pool.segReserve)

/-- Whether the descriptor test fails (R74). -/
def descriptorsFail (s : State) (c : Circuit) : Bool :=
  s.pool.freeDescs.length == 0 ||
    (!eligible s c && s.pool.freeDescs.length - 1 ≤ s.pool.descReserve)

/-- The first test that fails (R71). -/
def allocFailure (s : State) (c : Circuit) (n : Nat) : Option AllocFailure :=
  if quotaFails s c n then some .quota
  else if spaceFails s c n then some .space
  else if descriptorsFail s c then some .descriptors
  else none

/-- Whether the free segment count passes from above the level to at or below it (R82). -/
def crossesReserve (countBefore levelBefore countAfter levelAfter : Nat) : Bool :=
  levelBefore < countBefore && countAfter ≤ levelAfter

/-! ### Ages and notices -/

/-- An age: the tick counter minus a stamp, modulo 65536 (R17). -/
def ageOf (tick stamp : Word) : Nat := (tick - stamp).toNat

/-- The threshold T: the greater of the floor and the level of the top entry (R185). -/
def noticeThreshold (e : Events) : Fin 8 :=
  match e.stack with
  | [] => e.floor
  | top :: _ => if e.floor < top.level then top.level else e.floor

/-- Whether a kind is a candidate for a notice (R185). -/
def isCandidate (e : Events) (k : EventKind) : Bool :=
  let r := e.records.get k.num
  r.pending && r.enabled && noticeThreshold e < r.level && !e.stack.any (·.kind == k)

/-- Of two candidates the one of the higher level, the first named if they are equal (R185). -/
def higherCandidate (e : Events) (best : Option EventKind) (k : EventKind) : Option EventKind :=
  if isCandidate e k then
    match best with
    | none => some k
    | some b => if (e.records.get b.num).level < (e.records.get k.num).level then some k else some b
  else best

/-- The kind the selection names: none with 4 entries on the stack, else the candidate of the highest level and,
among equals, of the lowest number (R185). -/
def selectedKind (e : Events) : Option EventKind :=
  if Config.stackDepth ≤ e.stack.length then none
  else EventKind.all.foldl (higherCandidate e) none

end Sys2Proof.Machine
end

