-- ==== Sys2Proof/Machine/Memory.lean ====
section
/-!
DEFINITION. The octets of the segments (R66): a list of cells in one canonical form, read and written an octet at a
time, and the bodies of messages laid out along their chains (R57, R68).
-/

namespace Sys2Proof.Machine

/-- The octet at an address; an unlisted address reads as `Config.unwrittenOctet` (log entry 2). -/
def Memory.read : Memory → Nat → Byte
  | [], _ => Config.unwrittenOctet
  | (k, v) :: rest, a => if k = a then v else Memory.read rest a

/-- A cell put in front, unless it holds what an unlisted address reads as. -/
def Memory.cons (a : Nat) (b : Byte) (m : Memory) : Memory :=
  if b = Config.unwrittenOctet then m else (a, b) :: m

/-- The octet at an address written. -/
def Memory.write : Memory → Nat → Byte → Memory
  | [], a, b => Memory.cons a b []
  | (k, v) :: rest, a, b =>
    if a < k then Memory.cons a b ((k, v) :: rest)
    else if a = k then Memory.cons a b rest
    else (k, v) :: Memory.write rest a b

/-- The canonical form: addresses strictly rising, no cell equal to what an unlisted address reads as. -/
def Memory.wf : Memory → Bool
  | [] => true
  | (k, v) :: rest => v != Config.unwrittenOctet && rest.all (fun cell => k < cell.1) && Memory.wf rest

/-- The address of octet `i` of a body: the octet i mod 32 of the segment i ÷ 32 of its chain (R57, R68). -/
def bodyAddress (chain : List Segment) (i : Nat) : Option Nat :=
  (chain[i / Config.segmentSize]?).map fun g => g.val * Config.segmentSize + i % Config.segmentSize

/-- Octet `i` of a body stored in its chain. -/
def storeOctet (chain : List Segment) (i : Nat) (b : Byte) (m : Memory) : Memory :=
  match bodyAddress chain i with
  | some a => m.write a b
  | none => m

/-- Octet `i` of a body read from its chain. -/
def bodyOctet (m : Memory) (chain : List Segment) (i : Nat) : Byte :=
  match bodyAddress chain i with
  | some a => m.read a
  | none => Config.unwrittenOctet

/-- Octets stored in a chain from place `i` on. -/
def storeFrom (chain : List Segment) : Nat → List Byte → Memory → Memory
  | _, [], m => m
  | i, b :: rest, m => storeFrom chain (i + 1) rest (storeOctet chain i b m)

/-- A whole body stored in its chain. -/
def storeBody (chain : List Segment) (body : List Byte) (m : Memory) : Memory := storeFrom chain 0 body m

/-- A body of length `length` read from its chain in order. -/
def readBody (m : Memory) (chain : List Segment) (length : Nat) : List Byte :=
  (List.range length).map (bodyOctet m chain)

end Sys2Proof.Machine
end

