-- ==== Sys2Proof/Machine/Ops.lean ====
section
/-!
DEFINITION. The shared operations: raising an event, counting in a circuit record, the pool's grants and frees
(R71, R78), the admission of a message to an add queue, and the report of a receive fault (R64).
-/

namespace Sys2Proof.Machine

/-! ### Raising events and counting -/

/-- A block hands the event unit an occurrence (R180); it is taken when the step that raised it is done (R182). -/
def raise (k : EventKind) (detail : Option (List Byte)) (s : State) : State :=
  { s with events := { s.events with inbox := s.events.inbox ++ [⟨k, detail, []⟩] } }

/-- A circuit record changed. -/
def changeRecord (c : Circuit) (f : CircuitRecord → CircuitRecord) (s : State) : State :=
  { s with circuits := s.circuits.change c f }

/-- The counters of a circuit changed. -/
def count (c : Circuit) (f : CircuitCounters → CircuitCounters) (s : State) : State :=
  changeRecord c (fun r => { r with counters := f r.counters }) s

/-- The counters of the link changed. -/
def countLink (f : LinkCounters → LinkCounters) (s : State) : State :=
  { s with trib := { s.trib with counters := f s.trib.counters } }

/-- The counters of the engine changed. -/
def countEngine (f : EngineCounters → EngineCounters) (s : State) : State :=
  { s with engine := { s.engine with counters := f s.engine.counters } }

/-- A receive context replaced. -/
def setContext (c : Circuit) (ctx : RxContext) (s : State) : State :=
  { s with contexts := s.contexts.put c ctx }

/-- An emitter replaced. -/
def setEmitter (c : Circuit) (e : Emitter) (s : State) : State :=
  { s with emitters := s.emitters.put c e }

/-- An add queue replaced. -/
def setAddQueue (c : Circuit) (q : List DescNo) (s : State) : State :=
  { s with addQueues := s.addQueues.put c q }

/-- A class queue replaced. -/
def setClassQueue (q : Class) (l : List DescNo) (s : State) : State :=
  { s with delivery := { s.delivery with queues := s.delivery.queues.put q l } }

/-- A descriptor replaced. -/
def setDesc (d : DescNo) (x : Option Descriptor) (s : State) : State :=
  { s with pool := { s.pool with descs := s.pool.descs.put d x } }

/-- A descriptor that is not FREE changed; a FREE one left. -/
def changeDesc (d : DescNo) (f : Descriptor → Descriptor) (s : State) : State :=
  setDesc d ((s.pool.descs.get d).map f) s

/-- The octets of the segments replaced. -/
def setStore (m : Memory) (s : State) : State := { s with pool := { s.pool with store := m } }

/-! ### The circuit 0 arbiter's occasions -/

/-- One more attempt of the circuit 0 arbiter falls due: each occasion has its own (R135; log entry 7). -/
def oweAttempt (s : State) : State := { s with owed := { s.owed with attempts := s.owed.attempts + 1 } }

/-- The pool informs the waiting requesters: an attempt falls due if an offer is held (R77, R135). -/
def informRequesters (s : State) : State :=
  if s.arbiter.response.isSome || s.arbiter.notice.isSome then oweAttempt s else s

/-! ### Grants and frees -/

/-- What a requester names and fills in when it asks for storage (R68, R71). -/
structure NewMessage where
  state : DescState
  circuit : Circuit
  cls : Class
  mark : Bool
  seq : Option (BitVec 4)
  length : Nat
  origin : Origin
  deriving DecidableEq, Repr

/-- The descriptor a grant makes, with the chain the pool gives it. -/
def NewMessage.descriptor (m : NewMessage) (chain : List Segment) : Descriptor :=
  ⟨m.state, m.circuit, m.cls, m.mark, m.seq, m.length, chain, none, m.origin⟩

/-- The lists, the descriptor and the held count after a grant of the head descriptor `d` (R71). -/
def takeStorage (m : NewMessage) (d : DescNo) (s : State) : State :=
  changeRecord m.circuit (fun r => { r with held := r.held + segmentsFor m.length })
    { s with pool := { s.pool with
        freeSegs := s.pool.freeSegs.drop (segmentsFor m.length)
        freeDescs := s.pool.freeDescs.tail
        descs := s.pool.descs.put d (some (m.descriptor (s.pool.freeSegs.take (segmentsFor m.length)))) } }

/-- POOL_RESERVE if the free segment count has passed down to the level, from `countBefore` and `levelBefore` (R82). -/
def judgeReserve (countBefore levelBefore : Nat) (s : State) : State :=
  if crossesReserve countBefore levelBefore s.pool.freeSegs.length s.pool.segReserve then
    raise .poolReserve (some (octets2 s.pool.freeSegs.length)) s
  else s

/-- A request judged by the three tests and granted whole or refused whole (R71). -/
def allocate (m : NewMessage) (s : State) : Except AllocFailure (DescNo × State) :=
  match allocFailure s m.circuit (segmentsFor m.length), s.pool.freeDescs with
  | some f, _ => .error f
  | none, [] => .error .descriptors
  | none, d :: _ => .ok (d, judgeReserve s.pool.freeSegs.length s.pool.segReserve (takeStorage m d s))

/-- What a refusal raises: POOL_EMPTY for segment space, DESC_EMPTY for descriptors, nothing for quota (R76). -/
def raiseRefusal (f : AllocFailure) (c : Circuit) (length : Nat) (s : State) : State :=
  match f with
  | .quota => s
  | .space => raise .poolEmpty (some [circuitOctet c, octet (segmentsFor length)]) s
  | .descriptors => raise .descEmpty (some [circuitOctet c]) s

/-- A message granted in ADD_QUEUED: its body is written and it joins the tail of its add queue in the same step
(R70, R71). -/
def enqueue (m : NewMessage) (body : List Byte) (s : State) : Except AllocFailure (DescNo × State) :=
  match allocate m s with
  | .error f => .error f
  | .ok (d, t) =>
    .ok (d, setAddQueue m.circuit (t.addQueues.get m.circuit ++ [d])
      (setStore (storeBody (s.pool.freeSegs.take (segmentsFor m.length)) body t.pool.store) t))

/-- A free: the chain to the tail of the free segments, the descriptor to the tail of the free descriptors, the held
count lowered, the waiting requesters informed (R78). A descriptor already FREE is left. -/
def free (d : DescNo) (s : State) : State :=
  match s.pool.descs.get d with
  | none => s
  | some x =>
    informRequesters (changeRecord x.circuit (fun r => { r with held := r.held - x.chain.length })
      { s with pool := { s.pool with
          freeSegs := s.pool.freeSegs ++ x.chain
          freeDescs := s.pool.freeDescs ++ [d]
          descs := s.pool.descs.put d none } })

/-- The body of a message in the pool, in order. -/
def bodyOf (s : State) (x : Descriptor) : List Byte := readBody s.pool.store x.chain x.length

/-- A message flushed: freed and counted as flushed against its circuit (R49, R101, R132). -/
def flush (d : DescNo) (s : State) : State :=
  match s.pool.descs.get d with
  | none => s
  | some x => free d (count x.circuit (fun k => { k with flushed := k.flushed + 1 }) s)

/-- Messages flushed one after the other. -/
def flushAll (l : List DescNo) (s : State) : State := l.foldl (fun t d => flush d t) s

/-! ### The fault list -/

/-- The snapshot of the fault list that CIRCUIT_FAULT carries: the overflow flag, the count, the entries (R197, R204). -/
def faultSnapshot (e : Events) : List Byte :=
  [flagOctet e.overflow, octet e.faults.length] ++ e.faults.flatMap FaultEntry.octets

/-- The event unit takes a receive fault into its list, and may raise CIRCUIT_FAULT (R64, R197). -/
def reportFault (c : Circuit) (cause : FaultCause) (s : State) : State :=
  if s.events.faults.any (·.circuit == c) then
    { s with events := { s.events with faults := s.events.faults.map fun e =>
        if e.circuit = c then { e with causes := e.causes ||| cause.code } else e } }
  else if s.events.faults.length < Config.faultDepth then
    let t := { s with events := { s.events with faults := s.events.faults ++ [⟨c, cause.code, s.tickCounter⟩] } }
    raise .circuitFault (some (faultSnapshot t.events)) t
  else if s.events.overflow then s
  else
    let t := { s with events := { s.events with overflow := true } }
    raise .circuitFault (some (faultSnapshot t.events)) t

end Sys2Proof.Machine
end

