-- ==== Sys2Proof/Machine/Circuits.lean ====
section
/-!
DEFINITION. Circuits and the receive side: starting and stopping a circuit (R47–R49), and a receive context from
opener to hand-off (R51–R63).
-/

namespace Sys2Proof.Machine

/-! ### Starting and stopping -/

/-- START_CIRCUIT taken: ACTIVE, the context in HUNT, the expected sequence absent, the emitter IDLE (R47). -/
def startCircuit (c : Circuit) (s : State) : State :=
  setEmitter c .idle
    (setContext c (.empty .hunt) (changeRecord c (fun r => { r with active := true, expected := none }) s))

/-- The messages of a circuit in a list of descriptors. -/
def ofCircuit (s : State) (c : Circuit) (l : List DescNo) : List DescNo :=
  l.filter fun d => (s.pool.descs.get d).any (·.circuit == c)

/-- The messages of a list of descriptors that are not of a circuit. -/
def notOfCircuit (s : State) (c : Circuit) (l : List DescNo) : List DescNo :=
  l.filter fun d => !(s.pool.descs.get d).any (·.circuit == c)

/-- The four class queues one after the other, each from its head. -/
def classQueued (s : State) : List DescNo := s.delivery.queues.cells.flatten

/-- The messages a STOP with FLUSH takes out of the queues: those of the circuit in the class queues, then those in
its add queue (R49, R100; the order is DESIGN CHOICE, log entry 10). -/
def stopFlushed (c : Circuit) (s : State) : List DescNo :=
  ofCircuit s c (classQueued s) ++ s.addQueues.get c

/-- The queues with the circuit's messages taken out: of each class queue what `rest` leaves of it, in its order, and of
its add queue nothing (R49, R100). -/
def dropFromQueues (c : Circuit) (rest : List DescNo → List DescNo) (s : State) : State :=
  setAddQueue c [] { s with delivery := { s.delivery with queues := s.delivery.queues.map rest } }

/-- The message in assembly freed, and the context STOPPED with its timer cleared (R48). -/
def stopContext (c : Circuit) (s : State) : State :=
  setContext c (.empty .stopped) <|
    match (s.contexts.get c).desc with
    | some d => free d s
    | none => s

/-- The message in emission flushed, and the emitter IDLE (R48, R132). -/
def stopEmitter (c : Circuit) (s : State) : State :=
  setEmitter c .idle <|
    match (s.emitters.get c).desc with
    | some d => flush d s
    | none => s

/-- The number of messages a stop counts as flushed (R169). -/
def stopFlushedCount (c : Circuit) (withFlush : Bool) (s : State) : Nat :=
  (if (s.emitters.get c).desc.isSome then 1 else 0) + (if withFlush then (stopFlushed c s).length else 0)

/-- STOP_CIRCUIT taken, with FLUSH or with KEEP (R48, R49). -/
def stopCircuit (c : Circuit) (withFlush : Bool) (s : State) : State :=
  let t := stopEmitter c (stopContext c (changeRecord c (fun r => { r with active := false }) s))
  if withFlush then flushAll (stopFlushed c s) (dropFromQueues c (notOfCircuit s c) t) else t

/-- A binding's CIRCUIT_START action (R47, R195). -/
def boundStart (c : Circuit) (s : State) : Option ActionFailure × State :=
  if (s.circuits.get c).active then (some .active, s) else (none, startCircuit c s)

/-- A binding's CIRCUIT_STOP action: STOP_CIRCUIT with KEEP (R48, R195). -/
def boundStop (c : Circuit) (s : State) : Option ActionFailure × State :=
  if (s.circuits.get c).active then (none, stopCircuit c false s) else (some .stopped, s)

/-! ### The receive context -/

/-- HUNT (R52, R53). -/
def receiveHunt (c : Circuit) (b : Byte) (s : State) : State :=
  if !(s.circuits.get c).dropEnable then s
  else if b = Config.openerOctet then setContext c (.empty .head) s
  else if b = Config.idleOctet then s
  else count c (fun k => { k with strays := k.strays + 1 }) s

/-- A bad header: counted, reported, HUNT (R54). -/
def headerBad (c : Circuit) (s : State) : State :=
  setContext c (.empty .hunt)
    (reportFault c .header (count c (fun k => { k with headerErrors := k.headerErrors + 1 }) s))

/-- The context after a grant: BODY with the body count at 0 (R55). -/
def bodyContext (m : NewMessage) (d : DescNo) (header : List Byte) (crc : Word) : RxContext :=
  { RxContext.empty .body with
    header := header, length := m.length, cls := m.cls, seq := m.seq.getD 0, mark := m.mark, desc := some d, crc := crc }

/-- The context of a header that is skipped: SKIP with L + 2 octets to pass over (R56). -/
def skipContext (m : NewMessage) (header : List Byte) (crc : Word) : RxContext :=
  { RxContext.empty .skip with
    header := header, length := m.length, cls := m.cls, seq := m.seq.getD 0, mark := m.mark, crc := crc,
    skipCount := m.length + 2 }

/-- What a skip counts and reports, by the failure kind (R56). -/
def countSkip (c : Circuit) (f : AllocFailure) (s : State) : State :=
  match f with
  | .quota => reportFault c .skipQuota (count c (fun k => { k with skipsQuota := k.skipsQuota + 1 }) s)
  | .space => reportFault c .skipSpace (count c (fun k => { k with skipsSpace := k.skipsSpace + 1 }) s)
  | .descriptors => reportFault c .skipSpace (count c (fun k => { k with skipsSpace := k.skipsSpace + 1 }) s)

/-- The storage request of a good header (R55). -/
def headerMessage (c : Circuit) (lengthOctet second : Byte) : NewMessage :=
  ⟨.assembling, c, headerClass second, headerMark second, some (headerSeq second), lengthOctet.toNat, .trunk⟩

/-- A good header: storage granted and BODY, or refused and SKIP (R55, R56). -/
def headerGood (c : Circuit) (lengthOctet second : Byte) (crc : Word) (s : State) : State :=
  let m := headerMessage c lengthOctet second
  match allocate m s with
  | .ok (d, t) => setContext c (bodyContext m d [lengthOctet, second] crc) t
  | .error f =>
    setContext c (skipContext m [lengthOctet, second] crc) (countSkip c f (raiseRefusal f c m.length s))

/-- HEAD: the two header octets, whatever their values (R54). -/
def receiveHead (c : Circuit) (b : Byte) (s : State) : State :=
  let ctx := s.contexts.get c
  let crc := crcOctet ctx.crc b
  match ctx.header with
  | [] => setContext c { ctx with header := [b], crc := crc, timer := 0 } s
  | first :: _ => if goodHeader first b then headerGood c first b crc s else headerBad c s

/-- BODY: the octet stored at the next place of the chain (R57). -/
def receiveBody (c : Circuit) (b : Byte) (s : State) : State :=
  let ctx := s.contexts.get c
  let chain := match ctx.desc with
    | some d => ((s.pool.descs.get d).map (·.chain)).getD []
    | none => []
  let n := ctx.bodyCount + 1
  setContext c
    { ctx with bodyCount := n, crc := crcOctet ctx.crc b, timer := 0, checkOctets := []
               state := if ctx.length ≤ n then .check else .body }
    (setStore (storeOctet chain ctx.bodyCount b s.pool.store) s)

/-- A gap is counted and reported when the sequence check is on, an expectation is held and another sequence came; the
expected sequence then becomes the received one plus one, modulo 16 (R59). -/
def judgeSequence (c : Circuit) (seq : BitVec 4) (s : State) : State :=
  let r := s.circuits.get c
  let gap := r.seqCheck && r.expected.any (· != seq)
  let t := if gap then reportFault c .seqGap (count c (fun k => { k with seqGaps := k.seqGaps + 1 }) s) else s
  changeRecord c (fun r => { r with expected := some (seq + 1) }) t

/-- The hand-off: a class queue for circuits 1–95 (R60), the request queue for circuit 0, where a fifth message is
freed and MGMT_OVERRUN raised (R61, R142). -/
def handOn (c : Circuit) (cls : Class) (d : DescNo) (s : State) : State :=
  if c = 0 then
    if s.engine.queue.length < Config.requestDepth then
      changeDesc d (fun x => { x with state := .request }) { s with engine := { s.engine with queue := s.engine.queue ++ [d] } }
    else
      raise .mgmtOverrun none
        (free d (countEngine (fun k => { k with overruns := k.overruns + 1 }) s))
  else
    changeDesc d (fun x => { x with state := .queued }) (setClassQueue cls (s.delivery.queues.get cls ++ [d]) s)

/-- A matching check: stamp, counters, sequence check, hand-off, HUNT (R58). -/
def checkMatch (c : Circuit) (ctx : RxContext) (d : DescNo) (s : State) : State :=
  let stamped := changeDesc d (fun x => { x with stamp := some s.tickCounter }) s
  let counted := count c (fun k => { k with received := k.received + 1
                                            octetsReceived := k.octetsReceived + BitVec.ofNat 32 ctx.length }) stamped
  setContext c (.empty .hunt) (handOn c ctx.cls d (judgeSequence c ctx.seq counted))

/-- A mismatching check: counted, reported, the message freed, HUNT (R58). -/
def checkMismatch (c : Circuit) (d : DescNo) (s : State) : State :=
  setContext c (.empty .hunt)
    (free d (reportFault c .check (count c (fun k => { k with checkErrors := k.checkErrors + 1 }) s)))

/-- CHECK: the two check octets, high octet first (R58). -/
def receiveCheck (c : Circuit) (b : Byte) (s : State) : State :=
  let ctx := s.contexts.get c
  match ctx.checkOctets, ctx.desc with
  | [], _ => setContext c { ctx with checkOctets := [b], timer := 0 } s
  | high :: _, some d => if [high, b] = checkOctetsOf ctx.crc then checkMatch c ctx d s else checkMismatch c d s
  | _ :: _, none => setContext c (.empty .hunt) s

/-- SKIP: one octet passed over; at 0 the context returns to HUNT (R62). -/
def receiveSkip (c : Circuit) (s : State) : State :=
  let ctx := s.contexts.get c
  if ctx.skipCount ≤ 1 then setContext c (.empty .hunt) s
  else setContext c { ctx with skipCount := ctx.skipCount - 1, timer := 0 } s

/-- An octet the slot engine gives to a circuit (R41). -/
def receiveOctet (c : Circuit) (b : Byte) (s : State) : State :=
  match (s.contexts.get c).state with
  | .stopped => s
  | .hunt => receiveHunt c b s
  | .head => receiveHead c b s
  | .body => receiveBody c b s
  | .check => receiveCheck c b s
  | .skip => receiveSkip c s

/-! ### The stall timer -/

/-- Whether the stall timer runs: HEAD, BODY, CHECK and SKIP (R63). -/
def RxState.timed : RxState → Bool
  | .stopped => false
  | .hunt => false
  | .head => true
  | .body => true
  | .check => true
  | .skip => true

/-- The tick at one context: its timer raised, up to 1000 (R63). -/
def tickContext (ctx : RxContext) : RxContext :=
  if ctx.state.timed then { ctx with timer := min (ctx.timer + 1) Config.timerLimit } else ctx

/-- Whether a context's timer has reached or passed a stall limit that is not 0 (R63). -/
def stalled (r : CircuitRecord) (ctx : RxContext) : Bool :=
  ctx.state.timed && r.stallLimit != 0 && r.stallLimit ≤ ctx.timer

/-- A stall: the message freed, stalls counted, the fault reported except from SKIP, HUNT (R63). -/
def stallContext (c : Circuit) (s : State) : State :=
  let ctx := s.contexts.get c
  let freed := match ctx.desc with
    | some d => free d s
    | none => s
  let counted := count c (fun k => { k with stalls := k.stalls + 1 }) freed
  setContext c (.empty .hunt) (if ctx.state = .skip then counted else reportFault c .stall counted)

end Sys2Proof.Machine
end

