-- ==== Sys2Proof/Machine/Delivery.lean ====
section
/-!
DEFINITION. The delivery unit: credits, the choice of the next message, completion and abort, aging, the credit
stall and the flush of a class (R85–R106), with the DELIVER frame it hands to the transmitter (R91, R121).
-/

namespace Sys2Proof.Machine

/-- Credits accepted: added up to 32, the excess counted, the credit-stall episode ended (R87, R99). -/
def acceptCredits (n : Nat) (s : State) : State :=
  { s with delivery := { s.delivery with
      credits := min (s.delivery.credits + n) Config.maxCredits
      discarded := s.delivery.discarded + BitVec.ofNat 32 (s.delivery.credits + n - Config.maxCredits)
      stallTimer := 0
      stallReported := false } }

/-- Whether a class queue holds a message. -/
def anyQueued (s : State) : Bool := s.delivery.queues.cells.any fun q => !q.isEmpty

/-- The number of messages in the four class queues together (R99). -/
def queuedCount (s : State) : Nat := (s.delivery.queues.cells.map List.length).sum

/-- The conditions of a choice: the transmitter idle with no REJECT waiting and READY high, a credit, a message
queued, none in delivery (R88, R118). -/
def choicePossible (s : State) : Bool :=
  s.trib.tx == .idle && s.trib.rejects.isEmpty && s.trib.ready && 1 ≤ s.delivery.credits &&
    anyQueued s && s.delivery.inDelivery.isNone

/-- The body length of a message. -/
def lengthOf (s : State) (d : DescNo) : Nat := ((s.pool.descs.get d).map (·.length)).getD 0

/-- The class after a class in the round: 1, 2, 3, 1 (R90). -/
def nextLane (l : Lane) : Lane := if l = 0 then 1 else if l = 1 then 2 else 0

/-- What the search of R90 settles: the class chosen from, and the deficits then. -/
structure Choice where
  lane : Lane
  deficits : Table Nat 3
  deriving DecidableEq, Repr

/-- The search among classes 1–3 from a class on (R90), for at most `visits` visits. `heads` gives the body length of
the head of each queue, `none` for an empty one. -/
def searchRound (heads : Table (Option Nat) 3) (quanta : Table Nat 3) : Nat → Lane → Table Nat 3 → Option Choice
  | 0, _, _ => none
  | visits + 1, l, deficits =>
    match heads.get l with
    | none => searchRound heads quanta visits (nextLane l) (deficits.put l 0)
    | some length =>
      if length ≤ deficits.get l then some ⟨l, deficits.change l (· - length)⟩
      else searchRound heads quanta visits (nextLane l) (deficits.change l (· + quanta.get l))

/-- More visits than a search can take: every visit to a class that holds a message raises its deficit by a quantum, so
that it is chosen from after no more visits than its head has octets, and there are three classes (R90). -/
def searchVisits (heads : Table (Option Nat) 3) : Nat := 3 * ((heads.cells.map fun h => h.getD 0).sum + 2)

/-- The body length of the head of a queue, `none` for an empty one. -/
def headLength (s : State) (q : List DescNo) : Option Nat := q.head?.map (lengthOf s)

/-- The body lengths of the heads of the queues of classes 1–3. -/
def laneHeads (s : State) : Table (Option Nat) 3 :=
  ⟨[headLength s (s.delivery.queues.get 1), headLength s (s.delivery.queues.get 2),
    headLength s (s.delivery.queues.get 3)], rfl⟩

/-- A T-frame: start, type, payload length, payload, check (R205). -/
def tFrame (type : Byte) (payload : List Byte) : List Byte :=
  let covered := type :: octets2 payload.length ++ payload
  Config.startOctet :: covered ++ checkOctetsOf (crcOf covered)

/-- The DELIVER frame of a message (R121, R205). -/
def deliverFrame (s : State) (x : Descriptor) : List Byte :=
  tFrame Config.typeDeliver
    ([circuitOctet x.circuit, octet x.cls.val, flagOctet x.mark, octet (x.seq.getD 0).toNat] ++
      octets2 (x.stamp.getD 0).toNat ++ [octet x.length] ++ bodyOf s x)

/-- A message chosen: out of its queue, DELIVERING, a credit spent, its frame on the line (R91). -/
def startDelivery (q : Class) (s : State) : State :=
  match s.delivery.queues.get q with
  | [] => s
  | d :: rest =>
    let frame := match s.pool.descs.get d with
      | some x => deliverFrame s x
      | none => []
    let t := changeDesc d (fun x => { x with state := .delivering }) (setClassQueue q rest s)
    { t with
      delivery := { t.delivery with inDelivery := some d, credits := t.delivery.credits - 1 }
      trib := { t.trib with tx := .sendingDeliver, frame := frame } }

/-- A choice: the head of class queue 0 if there is one (R89), else the search among classes 1–3 (R90). -/
def chooseDelivery (s : State) : State :=
  if !(s.delivery.queues.get 0).isEmpty then startDelivery 0 s
  else
    match searchRound (laneHeads s) s.delivery.quanta (searchVisits (laneHeads s)) s.delivery.round s.delivery.deficits with
    | none => s
    | some ch =>
      startDelivery ch.lane.succ
        { s with delivery := { s.delivery with deficits := ch.deficits, round := ch.lane } }

/-- The transmitter back in IDLE with no frame on the line. -/
def idleTransmitter (s : State) : State := { s with trib := { s.trib with tx := .idle, frame := [] } }

/-- No message in delivery. -/
def endDelivery (s : State) : State := { s with delivery := { s.delivery with inDelivery := none } }

/-- The last check octet of a DELIVER frame has been sent: the message is counted and freed (R92, R121). -/
def completeDelivery (s : State) : State :=
  match s.delivery.inDelivery with
  | none => idleTransmitter s
  | some d =>
    let counted := match s.pool.descs.get d with
      | some x => count x.circuit (fun k => { k with delivered := k.delivered + 1 }) s
      | none => s
    idleTransmitter (endDelivery (free d counted))

/-- The deficit of a class 1–3 raised by a length; class 0 has none (R95). -/
def restoreDeficit (q : Class) (length : Nat) (s : State) : State :=
  if h : q.val = 0 then s
  else { s with delivery := { s.delivery with deficits := s.delivery.deficits.change (q.pred (by intro e; exact h (by rw [e]; rfl))) (· + length) } }

/-- The message in delivery returned to the head of its class queue (R95). -/
def abortDelivery (s : State) : State :=
  match s.delivery.inDelivery with
  | none => s
  | some d =>
    let returned := match s.pool.descs.get d with
      | some x =>
        restoreDeficit x.cls x.length
          (setClassQueue x.cls (d :: s.delivery.queues.get x.cls) (changeDesc d (fun x => { x with state := .queued }) s))
      | none => s
    endDelivery { returned with delivery := { returned.delivery with retries := returned.delivery.retries + 1 } }

/-- READY has fallen: the credits are void, and a DELIVER frame in progress is cut off (R93, R95, R121). -/
def readyFallen (s : State) : State :=
  let t := { s with delivery := { s.delivery with credits := 0 } }
  if s.trib.tx = .sendingDeliver then idleTransmitter (abortDelivery t) else t

/-! ### Aging and the credit stall -/

/-- Whether the head of a class queue exceeds the class's age limit (R97). -/
def headOverAge (s : State) (q : Class) : Bool :=
  match s.delivery.queues.get q with
  | [] => false
  | d :: _ =>
    s.delivery.ageLimits.get q != 0 &&
      (((s.pool.descs.get d).bind (·.stamp)).any fun stamp => s.delivery.ageLimits.get q < ageOf s.tickCounter stamp)

/-- The classes whose head is over age, in ascending order. -/
def overAgeClasses (s : State) : List Class := [0, 1, 2, 3].filter (headOverAge s)

/-- The head of a class queue aged out: freed, counted, AGE_OUT raised (R97). -/
def ageOutHead (q : Class) (s : State) : State :=
  match s.delivery.queues.get q with
  | [] => s
  | d :: rest =>
    match s.pool.descs.get d with
    | none => setClassQueue q rest s
    | some x =>
      raise .ageOut (some [octet q.val, circuitOctet x.circuit])
        (count x.circuit (fun k => { k with agedOut := k.agedOut + 1 }) (free d (setClassQueue q rest s)))

/-- The credit-stall check of a tick: the timer, and whether CREDIT_STALL falls due with the number of messages then
queued as its detail (R99). -/
def creditStallCheck (s : State) : State :=
  if anyQueued s && s.delivery.credits == 0 then
    let timer := min (s.delivery.stallTimer + 1) Config.timerLimit
    let t := { s with delivery := { s.delivery with stallTimer := timer } }
    if s.delivery.stallLimit != 0 && s.delivery.stallLimit ≤ timer && !s.delivery.stallReported then
      { t with owed := { t.owed with creditStall := some (queuedCount s) } }
    else t
  else { s with delivery := { s.delivery with stallTimer := 0 } }

/-- The tick at the delivery unit: the age check, and the credit-stall check once no head is over age (R97, R99). -/
def tickDelivery (s : State) : State :=
  if (overAgeClasses s).isEmpty then creditStallCheck s
  else { s with owed := { s.owed with ages := true } }

/-- CREDIT_STALL raised and stall reported set (R99). -/
def reportCreditStall (queued : Nat) (s : State) : State :=
  raise .creditStall (some (octets2 queued)) { s with delivery := { s.delivery with stallReported := true } }

/-- A binding's FLUSH_CLASS action; it never fails (R101). The messages are freed from the head of the queue on: DESIGN
CHOICE, which shows in the free lists (R78; log entry 10). -/
def flushClass (q : Class) (s : State) : State :=
  flushAll (s.delivery.queues.get q) (setClassQueue q [] s)

/-- What a TRAFFIC reset leaves of the delivery unit: settings and counters (R106). -/
def clearDelivery (e : Delivery) : Delivery :=
  { e with queues := .fill _ [], deficits := .fill _ 0, round := 0, credits := 0, stallTimer := 0,
           stallReported := false, inDelivery := none }

end Sys2Proof.Machine
end

