-- ==== Sys2Proof/Machine/Insertion.lean ====
section
/-!
DEFINITION. The insertion side: an emitter's octets (R126–R130), the FULL reset it brings into effect (R157), and the
admission of canned messages (R138).
-/

namespace Sys2Proof.Machine

/-! ### FULL reset -/

/-- The FULL reset in effect: the same reset as the reset pin in every block, with the straps sampled (R157). -/
def fullReset (s : State) : State := .resetWith s.pending s.pins s.toData

/-! ### Emitters -/

/-- The emitter's take of the head of its add queue: EMITTING with the emit sequence written, which advances; the
opener is supplied (R127, R130). On circuit 0 the take gives the arbiter an occasion (R135). -/
def emitterTake (c : Circuit) (d : DescNo) (rest : List DescNo) (s : State) : State :=
  let seq := (s.circuits.get c).emitSeq
  let t := setEmitter c { Emitter.idle with state := .head, desc := some d }
    (changeRecord c (fun r => { r with emitSeq := seq + 1 })
      (changeDesc d (fun x => { x with state := .emitting, seq := some seq }) (setAddQueue c rest s)))
  if c = 0 then informRequesters t else t

/-- The emission complete: counted, reported for a response, freed, IDLE (R129). The report that names the noted
descriptor brings the FULL reset into effect (R157). -/
def emissionComplete (c : Circuit) (d : DescNo) (x : Descriptor) (s : State) : State :=
  if x.origin = .response ∧ s.engine.state = .resetting ∧ s.engine.noted = some d then fullReset s
  else
    setEmitter c .idle (free d (count c (fun k => { k with emitted := k.emitted + 1
                                                           octetsEmitted := k.octetsEmitted + BitVec.ofNat 32 x.length }) s))

/-- The next octet of a message in emission (R128). -/
def emitNext (c : Circuit) (e : Emitter) (d : DescNo) (x : Descriptor) (s : State) : Byte × State :=
  match e.state with
  | .idle => (Config.idleOctet, s)
  | .head =>
    if e.headerCount = 0 then
      (octet x.length, setEmitter c { e with headerCount := 1, crc := crcOctet e.crc (octet x.length) } s)
    else
      let b := headerOctet x.cls (x.seq.getD 0) x.mark
      (b, setEmitter c { e with state := .body, bodyCount := 0, crc := crcOctet e.crc b } s)
  | .body =>
    let b := bodyOctet s.pool.store x.chain e.bodyCount
    (b, setEmitter c { e with
          bodyCount := e.bodyCount + 1, crc := crcOctet e.crc b, checkCount := 0
          state := if x.length ≤ e.bodyCount + 1 then .check else .body } s)
  | .check =>
    if e.checkCount = 0 then (at0 (checkOctetsOf e.crc) 0, setEmitter c { e with checkCount := 1 } s)
    else (at0 (checkOctetsOf e.crc) 1, emissionComplete c d x s)

/-- The octet an emitter supplies when it is asked, and the state it leaves (R127, R128). -/
def emitterSupply (c : Circuit) (s : State) : Byte × State :=
  let e := s.emitters.get c
  match e.state, e.desc.bind fun d => (s.pool.descs.get d).map fun x => (d, x) with
  | .idle, _ =>
    match s.addQueues.get c with
    | [] => (Config.idleOctet, s)
    | d :: rest => (Config.openerOctet, emitterTake c d rest s)
  | _, some (d, x) => emitNext c e d x s
  | _, none => (Config.idleOctet, setEmitter c .idle s)

/-! ### Add queues -/

/-- The depth of an add queue: 8 for circuit 0, else the add depth of the record (R125). -/
def queueDepth (s : State) (c : Circuit) : Nat :=
  if c = 0 then Config.circuit0Depth else (s.circuits.get c).addDepth

/-- Whether an add queue has room (R125). -/
def hasRoom (s : State) (c : Circuit) : Bool := (s.addQueues.get c).length < queueDepth s c

/-- A binding's SEND_CANNED action: the four tests of R138 in their order. -/
def boundSend (i : Fin Config.cannedSlots) (c : Circuit) (s : State) : Option ActionFailure × State :=
  match s.events.canned.get i with
  | none => (some .emptySlot, s)
  | some slot =>
    if !(s.circuits.get c).active then (some .stopped, s)
    else if !hasRoom s c then (some .noRoom, s)
    else
      match enqueue ⟨.addQueued, c, slot.cls, slot.mark, none, slot.body.length, .canned⟩ slot.body s with
      | .ok (_, t) => (none, t)
      | .error f => (some .noGrant, raiseRefusal f c slot.body.length s)

end Sys2Proof.Machine
end

