-- ==== Sys2Proof/Machine/Slots.lean ====
section
/-!
DEFINITION. The slot engine: the banks, arming, swapping and reverting (R19–R40).
-/

namespace Sys2Proof.Machine

/-- The other bank. -/
def Bank.other : Bank → Bank
  | .a => .b
  | .b => .a

/-- The plan of a bank letter. -/
def SlotEngine.plan (e : SlotEngine) : Bank → Plan
  | .a => e.bankA
  | .b => e.bankB

/-- The plan of a bank letter replaced. -/
def SlotEngine.setPlan (e : SlotEngine) (bank : Bank) (p : Plan) : SlotEngine :=
  match bank with
  | .a => { e with bankA := p }
  | .b => { e with bankB := p }

/-- The active bank (R19). -/
def SlotEngine.activePlan (e : SlotEngine) : Plan := e.plan e.active
/-- The standby bank (R19). -/
def SlotEngine.standbyPlan (e : SlotEngine) : Plan := e.plan e.active.other

/-- The entry of a position in a plan. -/
def planEntry (p : Plan) (position : Nat) : PlanEntry :=
  if h : position < Config.positions then p.get ⟨position, h⟩ else .passEntry

/-- Entries written into a plan from a position on (R27). -/
def writeEntries (p : Plan) (first : Nat) : List PlanEntry → Plan
  | [] => p
  | e :: rest =>
    writeEntries (if h : first < Config.positions then p.put ⟨first, h⟩ e else p) (first + 1) rest

/-- The detail of SWAP_DONE: the bank now active and the cause (R180). -/
def swapDetail (active : Bank) (cause : SwapCause) : List Byte := [active.code, cause.code]

/-- A swap performed: the selector exchanged, the record discarded, SWAP_DONE raised, and the confirm window
entered if W is above 0 (R32). Without a record nothing is performed. -/
def performSwap (s : State) : State :=
  match s.slot.armed with
  | none => s
  | some record =>
    raise .swapDone (some (swapDetail s.slot.active.other record.cause))
      { s with slot := { s.slot with
          active := s.slot.active.other
          armed := none
          swap := if record.window = 0 then .idle else .confirmWait
          countdown := if record.window = 0 then none else some record.window } }

/-- A revert performed: the selector exchanged back, SWAP_DONE and SWAP_REVERTED raised (R33). -/
def performRevert (s : State) : State :=
  raise .swapReverted (some [s.slot.active.other.code])
    (raise .swapDone (some (swapDetail s.slot.active.other .revert))
      { s with slot := { s.slot with active := s.slot.active.other, swap := .idle, countdown := none } })

/-- A swap armed; one of mode NEXT is performed at once when unaligned (R30, R35). -/
def armSwapRecord (record : ArmedSwap) (s : State) : State :=
  match record.mode with
  | .signal => { s with slot := { s.slot with swap := .armedSignal, armed := some record } }
  | .next =>
    let t := { s with slot := { s.slot with swap := .armedNext, armed := some record } }
    if s.slot.aligned then t else performSwap t

/-- A binding's SWAP action: an ARM_SWAP of mode NEXT with W = 0 and cause BINDING (R38, R195). -/
def boundSwap (s : State) : Option ActionFailure × State :=
  if s.slot.swap ≠ .idle then (some .swapBusy, s)
  else if (planLack s.slot.standbyPlan).isSome then (some .invalidPlan, s)
  else (none, armSwapRecord ⟨.next, 0, .binding⟩ s)

/-- Alignment has been gained: the swap state does not change (R31, R35). -/
def slotAlignmentGained (s : State) : State := { s with slot := { s.slot with aligned := true } }

/-- Alignment has been lost: a swap of mode NEXT or a revert that waits for a boundary is performed at once (R35). -/
def slotAlignmentLost (s : State) : State :=
  let t := { s with slot := { s.slot with aligned := false } }
  match s.slot.swap with
  | .armedNext => performSwap t
  | .revertPending => performRevert t
  | .armedSignal => t
  | .confirmWait => t
  | .idle => t

/-- A superframe boundary, with or without a switch (R36). -/
def slotBoundary (withSwitch : Bool) (s : State) : State :=
  match s.slot.swap with
  | .idle => s
  | .armedNext => performSwap s
  | .armedSignal => if withSwitch then performSwap s else s
  | .confirmWait => s
  | .revertPending => performRevert s

/-- The confirm countdown has reached 0: REVERT_PENDING, and the revert at once when unaligned (R33). -/
def confirmWindowEnd (s : State) : State :=
  let t := { s with slot := { s.slot with swap := .revertPending, countdown := none } }
  if s.slot.aligned then t else performRevert t

/-- What a TRAFFIC reset does to the swap: an armed one is discarded, with no event (R39). -/
def clearArmedSwap (e : SlotEngine) : SlotEngine :=
  match e.swap with
  | .armedNext => { e with swap := .idle, armed := none }
  | .armedSignal => { e with swap := .idle, armed := none }
  | .confirmWait => e
  | .revertPending => e
  | .idle => e

end Sys2Proof.Machine
end

