-- ==== Sys2Proof/Machine/Events.lean ====
section
/-!
DEFINITION. The event unit: occurrences and bindings (R182, R194, R195), the selection of notices and the notice
offer (R185–R187), the notice stack and its timer (R188–R191).
-/

namespace Sys2Proof.Machine

/-! ### Records -/

/-- The event unit replaced. -/
def setEvents (e : Events) (s : State) : State := { s with events := e }

/-- A record changed. -/
def Events.changeRecord (e : Events) (k : EventKind) (f : EventRecord → EventRecord) : Events :=
  { e with records := e.records.change k.num f }

/-- The repeat count raised by one and held at 255 (R181). -/
def raiseRepeat (n : Byte) : Byte := if n = 255 then 255 else n + 1

/-- An occurrence in its record: pending, counted, with its detail and tick (R182, points 1 to 4). -/
def recordOccurrence (k : EventKind) (detail : Option (List Byte)) (s : State) : State :=
  setEvents (s.events.changeRecord k fun r =>
    { r with pending := true, repeatCount := raiseRepeat r.repeatCount, detail := detail, lastTick := s.tickCounter }) s

/-- A record cleared: not pending, repeat count 0, detail absent (R183). -/
def EventRecord.clear (r : EventRecord) : EventRecord := { r with pending := false, repeatCount := 0, detail := none }

/-- The record of a kind cleared. -/
def clearRecord (k : EventKind) (s : State) : State := setEvents (s.events.changeRecord k EventRecord.clear) s

/-! ### Notices -/

/-- The detail octets of a notice: an absent CIRCUIT_FAULT detail is an empty list with the flag clear (R187). -/
def noticeDetail (k : EventKind) (r : EventRecord) : List Byte :=
  r.detail.getD (if k = .circuitFault then [0, 0] else [])

/-- A notice body (R187, R203). -/
def noticeBody (s : State) (k : EventKind) (sequence : Byte) (level : Fin 8) : List Byte :=
  let r := s.events.records.get k.num
  [s.nodeAddress.zeroExtend 8, Config.messageNotice, sequence, k.code, octet level.val, r.repeatCount] ++
    octets2 r.lastTick.toNat ++ noticeDetail k r

/-- A new offer for a kind, with its record's level and the notice sequence counter (R187). -/
def newOffer (s : State) (k : EventKind) : NoticeOffer :=
  let r := s.events.records.get k.num
  ⟨false, k, r.level, s.events.sequence, noticeBody s k s.events.sequence r.level, r, false⟩

/-- A re-send offer for a stack entry, with the entry's level and sequence (R187). -/
def resendOffer (s : State) (e : StackEntry) : NoticeOffer :=
  ⟨true, e.kind, e.level, e.sequence, noticeBody s e.kind e.sequence e.level, s.events.records.get e.kind.num, false⟩

/-- A notice offer made or replaced at the arbiter: an occasion for an attempt (R134, R135). -/
def makeOffer (o : NoticeOffer) (s : State) : State :=
  oweAttempt { s with arbiter := { s.arbiter with notice := some o } }

/-- The notice offer withdrawn; it leaves no trace (R186). -/
def withdrawOffer (s : State) : State := { s with arbiter := { s.arbiter with notice := none } }

/-- An offer that stands if it is as it would be formed now, and else is replaced (R186). It keeps the record it was formed
from, so a change of any item of that record replaces it (log entry 22). -/
def keepOrReplace (held formed : NoticeOffer) (s : State) : State :=
  if { held with tried := false } = formed then s else makeOffer formed s

/-- The selection made anew, and the notice offer kept in step with it (R185, R186). -/
def selectNotice (s : State) : State :=
  match s.arbiter.notice with
  | none =>
    match selectedKind s.events with
    | none => s
    | some k => makeOffer (newOffer s k) s
  | some held =>
    if held.resend then
      match s.events.stack with
      | [] => s
      | top :: _ => keepOrReplace held (resendOffer s top) s
    else
      match selectedKind s.events with
      | none => withdrawOffer s
      | some k => keepOrReplace held (newOffer s k) s

/-! ### Bindings -/

/-- The binding in use that names a kind (R193). -/
def boundTo (e : Events) (k : EventKind) : Option (Fin Config.bindings) :=
  (List.finRange Config.bindings).find? fun i => (e.bindings.get i).any (·.kind == k)

/-- An action performed at the block that owns the state concerned (R194). -/
def performAction (a : BindingAction) (s : State) : Option ActionFailure × State :=
  match a with
  | .swap => boundSwap s
  | .circuitStop c => boundStop c s
  | .circuitStart c => boundStart c s
  | .sendCanned i c => boundSend i c s
  | .flushClass q => (none, flushClass q s)

/-- A binding after a success: the count lowered, and ended at 0 by its end mode (R194). -/
def Binding.afterSuccess (b : Binding) : Binding :=
  let n := b.count - 1
  if n = 0 then
    match b.endMode with
    | .notify => { b with count := n, armed := false }
    | .silent => { b with count := n, enabled := false }
  else { b with count := n }

/-- Whether a success leaves the record pending: only the last of a NOTIFY binding (R194). -/
def Binding.leavesPending (b : Binding) : Bool := b.count - 1 == 0 && b.endMode == .notify

/-- A success: the binding adjusted, and the record cleared unless a NOTIFY binding ends (R194). -/
def bindingSucceeded (i : Fin Config.bindings) (b : Binding) (s : State) : State :=
  let t := setEvents { s.events with bindings := s.events.bindings.put i (some b.afterSuccess) } s
  if b.leavesPending then t else clearRecord b.kind t

/-- A failure: binding misses raised, BINDING_MISS raised with the index, the kind and the cause (R195). -/
def bindingFailed (i : Fin Config.bindings) (k : EventKind) (f : ActionFailure) (s : State) : State :=
  raise .bindingMiss (some [octet i.val, k.code, f.code])
    (setEvents { s.events with misses := s.events.misses + 1 } s)

/-- The binding of an occurrence consulted (R182 point 5, R194): the state, and the binding whose action failed.
A binding whose failed action has given rise to the occurrence does not act on it (log entry 9). -/
def consultBinding (o : Occurrence) (s : State) : Option (Fin Config.bindings) × State :=
  match boundTo s.events o.kind with
  | none => (none, s)
  | some i =>
    match s.events.bindings.get i with
    | none => (none, s)
    | some b =>
      if b.armed && b.enabled && !o.barred.contains i && o.kind != .bindingMiss then
        match (performAction b.action s).1 with
        | none => (none, bindingSucceeded i b (performAction b.action s).2)
        | some f => (some i, bindingFailed i o.kind f (performAction b.action s).2)
      else (none, s)

/-! ### Occurrences -/

/-- The inbox replaced. -/
def setInbox (l : List Occurrence) (s : State) : State := { s with events := { s.events with inbox := l } }

/-- The bindings barred in the occurrences that an occurrence gives rise to: a failure bars its binding beside those
barred before it, and a success begins a chain anew (R195; log entry 9). -/
def barredAfter (o : Occurrence) (failed : Option (Fin Config.bindings)) : List (Fin Config.bindings) :=
  match failed with
  | none => []
  | some i => i :: o.barred

/-- One occurrence taken (R182). The occurrences it gives rise to join the inbox behind those already there, in the
order they were raised (log entry 8). Those already there keep the bindings barred in them, whatever succeeds before they
are taken: DESIGN CHOICE, since R194 and R195 leave it open (log entry 29). -/
def takeOccurrence (o : Occurrence) (rest : List Occurrence) (s : State) : State :=
  let taken := consultBinding o (recordOccurrence o.kind o.detail (setInbox [] s))
  let further := taken.2.events.inbox.map fun x => { x with barred := barredAfter o taken.1 }
  selectNotice (setInbox (rest ++ further) taken.2)

/-- The occurrences of the inbox taken one after the other, at most `n` of them. -/
def takeInbox : Nat → State → State
  | 0, s => s
  | n + 1, s =>
    match s.events.inbox with
    | [] => s
    | o :: rest => takeInbox n (takeOccurrence o rest s)

/-- More successes than a binding can still have: one that is not armed and enabled does not act (R194). -/
def Binding.successesLeft (b : Binding) : Nat := if b.armed && b.enabled then b.count + 1 else 0

/-- The successes the bindings still allow, together. -/
def successesLeft (e : Events) : Nat := (e.bindings.cells.map fun b => (b.map Binding.successesLeft).getD 0).sum

/-- As many occurrences as a chain can have: every success uses one of those left, and a failure bars its binding, so that
an occurrence gives rise to at most 126 others without a success (log entry 9). -/
def occurrenceBound (s : State) : Nat := 127 * (successesLeft s.events + s.events.inbox.length)

/-- Every occurrence raised in the step is taken, and those they give rise to (R182). -/
def takeOccurrences (s : State) : State := takeInbox (occurrenceBound s) s

/-! ### The notice stack -/

/-- The timer of the top entry set to the full notice timeout (R189). -/
def restartTop (e : Events) : Events :=
  match e.stack with
  | [] => e
  | top :: below => { e with stack := { top with timer := e.timeout } :: below }

/-- The top entry popped, and the timer of the entry then on top restarted (R189–R191). -/
def popStack (e : Events) : Events := restartTop { e with stack := e.stack.tail }

/-- A new notice has entered the queue: pushed with sends made 1, and the sequence counter advanced (R188). -/
def pushNotice (o : NoticeOffer) (e : Events) : Events :=
  { e with stack := ⟨o.sequence, o.kind, o.level, 1, e.timeout⟩ :: e.stack, sequence := e.sequence + 1 }

/-- A re-send has entered the queue: sends made raised and the timer set (R190). -/
def countResend (e : Events) : Events :=
  match e.stack with
  | [] => e
  | top :: below => { e with stack := { top with sends := top.sends + 1, timer := e.timeout } :: below }

/-- The arbiter tells the event unit that its notice has entered the queue (R137). -/
def noticeEntered (o : NoticeOffer) (s : State) : State :=
  selectNotice (setEvents (if o.resend then countResend s.events else pushNotice o s.events) s)

/-- Whether a re-send offer is held (R189). -/
def resendHeld (s : State) : Bool := s.arbiter.notice.any (·.resend)

/-- The tick at the notice stack: the top entry's timer lowered, its expiry falling due at 0 (R189). -/
def tickNotice (s : State) : State :=
  match s.events.stack with
  | [] => s
  | top :: below =>
    if resendHeld s || top.timer == 0 then s
    else
      let t := setEvents { s.events with stack := { top with timer := top.timer - 1 } :: below } s
      if top.timer = 1 then { t with owed := { t.owed with noticeTimeout := true } } else t

/-- The top entry's timer has expired: a re-send offer, or the entry abandoned (R190). -/
def noticeExpired (s : State) : State :=
  match s.events.stack with
  | [] => s
  | top :: _ =>
    if top.sends < 1 + s.events.retries then makeOffer (resendOffer s top) s
    else
      selectNotice (setEvents { popStack s.events with abandoned := s.events.abandoned + 1 } s)

/-- NOTICE_ACK taken: the top entry popped, its re-send withdrawn, its record cleared if asked, the selection made
anew (R191). -/
def acknowledgeTop (clear : Bool) (s : State) : State :=
  match s.events.stack with
  | [] => s
  | top :: _ =>
    let popped := setEvents (popStack s.events) (if resendHeld s then withdrawOffer s else s)
    selectNotice (if clear then clearRecord top.kind popped else popped)

end Sys2Proof.Machine
end

