-- ==== Sys2Proof/Machine/Arbiter.lean ====
section
/-!
DEFINITION. The circuit 0 arbiter: an attempt in its two parts (R135), and the admission of a notice (R137) and of a
response (R136).
-/

namespace Sys2Proof.Machine

/-- The message a circuit 0 offer asks storage for: class 0, mark 0, no sequence (R136, R137). -/
def offerMessage (origin : Origin) (body : List Byte) : NewMessage :=
  ⟨.addQueued, 0, 0, false, none, body.length, origin⟩

/-- The notice offer replaced. -/
def setNoticeOffer (o : Option NoticeOffer) (s : State) : State := { s with arbiter := { s.arbiter with notice := o } }

/-- The response offer replaced. -/
def setResponseOffer (o : Option ResponseOffer) (s : State) : State :=
  { s with arbiter := { s.arbiter with response := o } }

/-- Part 1 of an attempt: the notice offer, if it is held and the queue has room (R135, R137). The first request
refused raises what R76 gives; a retry raises nothing. -/
def tryNotice (s : State) : State :=
  match s.arbiter.notice with
  | none => s
  | some o =>
    if !hasRoom s 0 then s
    else
      match enqueue (offerMessage .notice o.body) o.body s with
      | .ok (_, t) => noticeEntered o (setNoticeOffer none t)
      | .error f =>
        setNoticeOffer (some { o with tried := true }) (if o.tried then s else raiseRefusal f 0 o.body.length s)

/-- The engine is told that its response has been queued: it leaves HOLDING, or notes the descriptor of the FULL
response (R136, R154, R156). -/
def responseQueued (d : DescNo) (s : State) : State :=
  match s.engine.state with
  | .holding => { s with engine := { s.engine with state := .idle } }
  | .resetting => { s with engine := { s.engine with noted := some d } }
  | .idle => s
  | .executing => s

/-- Part 2 of an attempt: the response offer, if it is held and the queue has room (R135, R136). -/
def tryResponse (s : State) : State :=
  match s.arbiter.response with
  | none => s
  | some o =>
    if !hasRoom s 0 then s
    else
      match enqueue (offerMessage .response o.body) o.body s with
      | .ok (d, t) => responseQueued d (setResponseOffer none t)
      | .error f =>
        setResponseOffer (some { o with tried := true }) (if o.tried then s else raiseRefusal f 0 o.body.length s)

/-- An attempt begun: part 1, with part 2 to follow if a response offer is held (R135). -/
def beginAttempt (s : State) : State :=
  tryNotice { s with owed := { s.owed with attempts := s.owed.attempts - 1, partTwo := s.arbiter.response.isSome } }

/-- An attempt ended: part 2 (R135). -/
def endAttempt (s : State) : State := tryResponse { s with owed := { s.owed with partTwo := false } }

end Sys2Proof.Machine
end

