-- ==== Sys2Proof/Machine/Engine.lean ====
section
/-!
DEFINITION. The management engine: taking, screening and judging a request (R143–R147), the ownership record and the
lease (R148–R151), and forming a response (R153).
-/

namespace Sys2Proof.Machine

/-! ### Ownership -/

/-- A countdown set to a lease setting: absent when the setting is 0 (R148, R151). -/
def leaseCountdown (lease : Nat) : Option Nat := if lease = 0 then none else some lease

/-- The ownership record replaced. -/
def setOwner (o : Ownership) (s : State) : State := { s with engine := { s.engine with owner := o } }

/-- Whether a controller id is the owner's. -/
def ownedBy (o : Ownership) (id : BitVec 4) : Bool :=
  match o with
  | .unowned => false
  | .owned owner _ _ => owner == id

/-- A request from the owner sets the countdown to the lease setting (R147, R151). -/
def refreshLease (id : BitVec 4) (s : State) : State :=
  match s.engine.owner with
  | .unowned => s
  | .owned owner epoch _ => if owner = id then setOwner (.owned owner epoch (leaseCountdown s.engine.lease)) s else s

/-- The tick at the ownership record: the countdown lowered, its end falling due at 0 (R151). -/
def tickLease (s : State) : State :=
  match s.engine.owner with
  | .owned owner epoch (some (n + 1)) =>
    let t := setOwner (.owned owner epoch (some n)) s
    if n = 0 then { t with owed := { t.owed with ownerLost := true } } else t
  | .owned _ _ (some 0) => s
  | .owned _ _ none => s
  | .unowned => s

/-- The lease has run out: UNOWNED, and OWNER_LOST raised with the old owner's id (R151). -/
def leaseEnd (s : State) : State :=
  match s.engine.owner with
  | .unowned => s
  | .owned owner _ _ => raise .ownerLost (some [owner.zeroExtend 8]) (setOwner .unowned s)

/-! ### Responses -/

/-- A response body (R153, R203). -/
def responseBody (s : State) (request : List Byte) (status : Status) (results : List Byte) : List Byte :=
  [s.nodeAddress.zeroExtend 8, Config.messageResponse, requestIdOctet request, requestTag request,
    requestKindOctet request, status.code] ++ results

/-- A response offer made to the arbiter (R134, R154). -/
def offerResponse (body : List Byte) (s : State) : State := oweAttempt (setResponseOffer (some ⟨body, false⟩) s)

/-- A response counted: requests executed, and requests refused if the status is not OK (R153, R158). -/
def countResponse (status : Status) (s : State) : State :=
  countEngine (fun k => { k with executed := k.executed + 1
                                 refused := if status = .ok then k.refused else k.refused + 1 }) s

/-- A response recorded in the duplicate cache (R145, R153). -/
def cacheResponse (request body : List Byte) (s : State) : State :=
  { s with engine := { s.engine with cache := some ⟨requestId request, requestTag request, body⟩ } }

/-- The engine in a state with no request in hand. -/
def setEngine (e : EngineState) (s : State) : State := { s with engine := { s.engine with state := e, inHand := none } }

/-- A response formed, counted, recorded if it is to be, and held for the arbiter (R153, R154). -/
def respond (request : List Byte) (status : Status) (results : List Byte) (recorded : Bool) (s : State) : State :=
  let body := responseBody s request status results
  let counted := countResponse status s
  setEngine .holding (offerResponse body (if recorded then cacheResponse request body counted else counted))

/-! ### Taking and judging a request -/

/-- Whether a request matches the duplicate cache (R145). -/
def matchesCache (cache : CacheEntry) (request : List Byte) : Bool :=
  cache.id == requestId request && requestIdClean request && cache.tag == requestTag request

/-- Whether the id octet of a request is good: an id other than 0 and the four bits at 0 (R146). -/
def goodIdOctet (request : List Byte) : Bool := requestId request != 0 && requestIdClean request

/-- The kind of a request whose kind is known and allows its parameter length (R146, R160). -/
def goodKind (request : List Byte) : Option RequestKind :=
  match RequestKind.ofCode (requestKindOctet request) with
  | none => none
  | some k => if k.allowsLength (requestParams request).length then some k else none

/-- A request that has passed screening judged: the cache (R145), the form (R146), ownership (R147). One that passes
stays in hand for execution. -/
def judgeRequest (request : List Byte) (s : State) : State :=
  match s.engine.cache.filter fun cache => matchesCache cache request with
  | some cache =>
    setEngine .holding (offerResponse cache.body (countEngine (fun k => { k with duplicates := k.duplicates + 1 }) s))
  | none =>
    if !goodIdOctet request then respond request .badRequest [] false s
    else
      match goodKind request with
      | none => respond request .badRequest [] true s
      | some k =>
        if k.modifies (requestParams request) && !ownedBy s.engine.owner (requestId request) then
          respond request .notOwner [] true s
        else refreshLease (requestId request) s

/-- A request screened for length and target (R144), then judged. -/
def screenRequest (request : List Byte) (s : State) : State :=
  if request.length < 4 then
    setEngine .idle (countEngine (fun k => { k with malformed := k.malformed + 1 }) s)
  else if requestTarget request ≠ s.nodeAddress.zeroExtend 8 then
    setEngine .idle (countEngine (fun k => { k with foreign := k.foreign + 1 }) s)
  else judgeRequest request s

/-- The request at the head of the queue copied into the engine and freed: EXECUTING (R143). -/
def copyRequest (d : DescNo) (rest : List DescNo) (request : List Byte) (s : State) : State :=
  let t := free d { s with engine := { s.engine with queue := rest } }
  { t with engine := { t.engine with state := .executing, inHand := some request } }

/-- The body of a message, empty for a FREE descriptor. -/
def messageBody (s : State) (d : DescNo) : List Byte := ((s.pool.descs.get d).map (bodyOf s)).getD []

/-- REQUEST_TAKE: in IDLE, the head of the request queue taken, screened and judged (R143–R147). -/
def takeRequest (s : State) : State :=
  match s.engine.state, s.engine.queue with
  | .idle, d :: rest =>
    let request := messageBody s d
    screenRequest request (copyRequest d rest request s)
  | _, _ => s

/-! ### Executing a request -/

/-- What an execution returns: a status, the results, the state it left (R153). -/
structure Executed where
  status : Status
  results : List Byte
  state : State

/-- A request of kind `k` in hand executed by its owning block and answered (R153). With no such request in hand the
step does not take place (log entry 4). -/
def execute (k : RequestKind) (run : List Byte → State → Executed) (s : State) : State :=
  match s.engine.state, s.engine.inHand with
  | .executing, some request =>
    if RequestKind.ofCode (requestKindOctet request) = some k then
      let r := run (requestParams request) s
      respond request r.status r.results true r.state
    else s
  | _, _ => s

end Sys2Proof.Machine
end

