-- ==== Sys2Proof/Machine/Due.lean ====
section
/-!
DEFINITION. The steps a tick makes due (R18), the arbiter's attempt (R135), and how a command is taken: what is owed
comes first, then the command, then the occurrences it has raised (log entries 6, 7 and 8).
-/

namespace Sys2Proof.Machine

/-! ### The tick -/

/-- The circuits whose context stalls at this tick (R63). -/
def stalledCircuits (s : State) : List Circuit :=
  (List.finRange Config.circuits).filter fun c => stalled (s.circuits.get c) (s.contexts.get c)

/-- The tick at the receive contexts (R63). -/
def tickContexts (s : State) : State :=
  let t := { s with contexts := s.contexts.map tickContext }
  { t with owed := { t.owed with stalls := stalledCircuits t } }

/-- The tick at the slot engine: the confirm countdown lowered, its end falling due at 0 (R33). -/
def tickConfirm (s : State) : State :=
  match s.slot.swap, s.slot.countdown with
  | .confirmWait, some (n + 1) =>
    let t := { s with slot := { s.slot with countdown := some n } }
    if n = 0 then { t with owed := { t.owed with confirm := true } } else t
  | _, _ => s

/-- A tick: the counter, then each mechanism that counts in ticks (R17, R18). -/
def takeTick (s : State) : State :=
  tickNotice (tickLease (tickDelivery (tickConfirm (tickContexts { s with tickCounter := s.tickCounter + 1 }))))

/-! ### The steps made due -/

/-- STALL of a context, if it is owed (R63). -/
def stallOwed (c : Circuit) (s : State) : State :=
  if s.owed.stalls.contains c then
    let t := { s with owed := { s.owed with stalls := s.owed.stalls.erase c } }
    if stalled (t.circuits.get c) (t.contexts.get c) then stallContext c t else t
  else s

/-- CONFIRM_WINDOW_EXPIRY, if it is owed (R33). -/
def confirmOwed (s : State) : State :=
  if s.owed.confirm then
    let t := { s with owed := { s.owed with confirm := false } }
    if s.slot.swap = .confirmWait then confirmWindowEnd t else t
  else s

/-- The age check ends when no head is over age, and the credit-stall check of the tick follows it (R97, R99). -/
def endAgeCheck (s : State) : State :=
  if s.owed.ages && (overAgeClasses s).isEmpty then creditStallCheck { s with owed := { s.owed with ages := false } }
  else s

/-- AGE_OUT of the head of a class queue, if the age check is under way and the head is over age (R97). -/
def ageOutOwed (q : Class) (s : State) : State :=
  if s.owed.ages && headOverAge s q then ageOutHead q s else s

/-- CREDIT_STALL, if it is owed (R99). -/
def creditStallOwed (s : State) : State :=
  match s.owed.creditStall with
  | none => s
  | some queued => reportCreditStall queued { s with owed := { s.owed with creditStall := none } }

/-- OWNER_LOST, if it is owed (R151). -/
def ownerLostOwed (s : State) : State :=
  if s.owed.ownerLost then leaseEnd { s with owed := { s.owed with ownerLost := false } } else s

/-- Whether the top entry's timer stands expired, with no re-send made for it (R189, R190). -/
def topExpired (s : State) : Bool := !resendHeld s && s.events.stack.head?.any (·.timer == 0)

/-- NOTICE_TIMEOUT, if it is owed and the entry whose timer expired is still on top (R190). -/
def noticeTimeoutOwed (s : State) : State :=
  if s.owed.noticeTimeout then
    let t := { s with owed := { s.owed with noticeTimeout := false } }
    if topExpired t then noticeExpired t else t
  else s

/-- Part 1 of an attempt, if one is owed (R135, R137). -/
def noticePartOwed (s : State) : State := if s.owed.attempts = 0 then s else beginAttempt s

/-- Part 2 of an attempt begun, if it is owed (R135, R136). -/
def responsePartOwed (s : State) : State := if s.owed.partTwo then endAttempt s else s

/-! ### The attempts owed -/

/-- One attempt owed, in its two parts, and the occurrences it raised (R135). -/
def attemptTaken (s : State) : State := takeOccurrences (responsePartOwed (noticePartOwed s))

/-- The attempts owed, at most `n` of them: an attempt may admit a notice, and the selection that follows may make the
offer that calls for the next (R135, R188). -/
def settleAttempts : Nat → State → State
  | 0, s => s
  | n + 1, s => if s.owed.attempts = 0 then s else settleAttempts n (attemptTaken s)

/-- The most attempts taken beyond those already due (DESIGN CHOICE, log entry 7). An admission or the first refusal of an
offer formed anew can give rise to another, and R186 lets a refused offer whose record changes at every refusal do so
without end. -/
def attemptBound : Nat := 1024

/-- Every attempt owed taken, one for each occasion, and those they give rise to (R135; log entry 7). -/
def attemptsTaken (s : State) : State := settleAttempts (s.owed.attempts + attemptBound) s

/-- The attempt begun is ended and every attempt owed is taken, before anything else (R135; log entry 7). -/
def attemptsFirst (s : State) : State := attemptsTaken (takeOccurrences (responsePartOwed s))

/-! ### Everything owed, in a fixed order -/

/-- What follows a step that has fallen due: the occurrences it raised, the end of the age check, and the attempts it made
due, before the next such step (DESIGN CHOICE of the order, log entries 6 and 7). -/
def stepFollowed (s : State) : State := attemptsTaken (endAgeCheck (takeOccurrences s))

/-- A step taken if it is due, with what follows it. -/
def takeIfDue (due : Bool) (f : State → State) (s : State) : State := if due then stepFollowed (f s) else s

/-- The stalls owed, one circuit after the other. -/
def settleStalls (l : List Circuit) (s : State) : State := l.foldl (fun t c => stepFollowed (stallOwed c t)) s

/-- The first over-age head aged out, and its occurrence taken before the next head is examined: DESIGN CHOICE, since R97
and R182 leave open which comes first (log entry 28). -/
def ageOutFirst (s : State) : State :=
  match overAgeClasses s with
  | [] => s
  | q :: _ => stepFollowed (ageOutOwed q s)

/-- The age check taken to its end, at most `n` messages aged out. -/
def settleAges : Nat → State → State
  | 0, s => endAgeCheck s
  | n + 1, s => if s.owed.ages && !(overAgeClasses s).isEmpty then settleAges n (ageOutFirst s) else endAgeCheck s

/-- The steps a tick has made due, one after the other, each with the attempts it makes due (log entries 6 and 7). -/
def settleTick (s : State) : State :=
  let unstalled := settleStalls s.owed.stalls s
  let confirmed := takeIfDue unstalled.owed.confirm confirmOwed unstalled
  let aged := settleAges (queuedCount confirmed) confirmed
  let credited := takeIfDue aged.owed.creditStall.isSome creditStallOwed aged
  let owned := takeIfDue credited.owed.ownerLost ownerLostOwed credited
  takeIfDue owned.owed.noticeTimeout noticeTimeoutOwed owned

/-- Every step owed taken: the attempts due, then what the tick made due, each step with the attempts it makes due
(DESIGN CHOICE of the order, log entries 6 and 7). -/
def settleOwed (s : State) : State := settleTick (attemptsFirst s)

/-- The state a command finds: every step owed has been taken. -/
def settle (s : State) : State := if s.owed = .none then s else settleOwed s

/-! ### Taking a command -/

/-- A command of the running part: what is owed first, then the command, then the occurrences raised. An occurrence
raised by the octet of position 1007 is so taken after the boundary that octet announces, and a SWAP bound to it is armed
for the next one: DESIGN CHOICE, since R36 leaves the order open (log entry 27). While RST_N is low the part takes nothing
(R3, R107; log entry 15). -/
def perform (f : State → State) (s : State) : Host.Outcome State Fault Refusal :=
  .next (if s.pins.rstN then takeOccurrences (f (settle s)) else s)

/-- A step that has fallen due, taken by name: the attempts due come first (R135; log entry 7), then the step, then the
occurrences raised and the end of the age check. -/
def performOwed (f : State → State) (s : State) : Host.Outcome State Fault Refusal :=
  .next (if s.pins.rstN then endAgeCheck (takeOccurrences (f (attemptsFirst s))) else s)

/-- Part 1 of the next attempt owed. The occurrences it raises are taken when the attempt is done: at once if no response
offer is held, else after part 2 (R135). -/
def noticeStep (s : State) : State :=
  let t := noticePartOwed (takeOccurrences (responsePartOwed s))
  if t.owed.partTwo then t else takeOccurrences t

/-- Part 2 of the attempt begun, or the whole of the next attempt owed (R135). -/
def responseStep (s : State) : State :=
  takeOccurrences (responsePartOwed (if s.owed.partTwo then s else noticePartOwed s))

end Sys2Proof.Machine
end

