-- ==== Sys2Proof/Machine/Ownership.lean ====
section
/-!
DEFINITION. REQUEST_TAKE (R143), and the requests the management engine executes itself: IDENTIFY, CLAIM, RELEASE and
SET_LEASE (R161–R163).
-/

namespace Sys2Proof.Machine

/-- A request taken, with results. -/
def accepted (results : List Byte) (s : State) : Executed := ⟨.ok, results, s⟩
/-- A request refused with a status and no results: nothing is changed. -/
def refusedWith (status : Status) (s : State) : Executed := ⟨status, [], s⟩

/-! ### What the results say of ownership -/

/-- The ownership state, the owner id and the epoch (R161, R162). -/
def ownerOctets (o : Ownership) : List Byte :=
  match o with
  | .unowned => [0, 0] ++ octets2 0
  | .owned id epoch _ => [1, id.zeroExtend 8] ++ octets2 epoch.toNat

/-- The lease countdown, 0 where it is absent (R161, R162). -/
def leaseLeft (o : Ownership) : Nat :=
  match o with
  | .unowned => 0
  | .owned _ _ countdown => countdown.getD 0

/-! ### The requests -/

/-- IDENTIFY (R161, R203). -/
def identifyResults (s : State) : List Byte :=
  [Config.familyCode, Config.revisionCode, s.nodeAddress.zeroExtend 8, s.align.state.code, s.slot.swap.code,
    s.slot.active.code] ++ octets2 (s.slot.countdown.getD 0) ++ ownerOctets s.engine.owner ++
    octets2 s.engine.lease ++ octets2 (leaseLeft s.engine.owner)

/-- IDENTIFY executed (R161). -/
def identifyRun (_params : List Byte) (s : State) : Executed := accepted (identifyResults s) s

/-- The results of a CLAIM, in both its outcomes (R162). -/
def claimResults (s : State) : List Byte := ownerOctets s.engine.owner ++ octets2 (leaseLeft s.engine.owner)

/-- Ownership given to a controller, the countdown at the lease setting (R149). -/
def grantOwnership (id : BitVec 4) (epoch : Word) (s : State) : State :=
  setOwner (.owned id epoch (leaseCountdown s.engine.lease)) s

/-- A CLAIM taken: OK with the record it leaves (R149). -/
def claimTaken (s : State) : Executed := accepted (claimResults s) s

/-- A CLAIM with an epoch too low: STALE with the record as it stands (R149). -/
def claimStale (s : State) : Executed := ⟨.stale, claimResults s, s⟩

/-- CLAIM judged against the ownership record (R149). -/
def claimBy (id : BitVec 4) (epoch : Word) (s : State) : Executed :=
  match s.engine.owner with
  | .unowned => claimTaken (grantOwnership id epoch s)
  | .owned owner current _ =>
    if owner = id then
      if current ≤ epoch then claimTaken (grantOwnership id epoch s) else claimStale s
    else if current < epoch then
      claimTaken (raise .ownerChanged (some ([owner.zeroExtend 8, id.zeroExtend 8] ++ octets2 epoch.toNat))
        (grantOwnership id epoch s))
    else claimStale s

/-- CLAIM executed for the controller whose request is in hand (R149, R162). -/
def claimRun (params : List Byte) (s : State) : Executed :=
  claimBy (requestId (s.engine.inHand.getD [])) (BitVec.ofNat 16 (number2At params 0)) s

/-- RELEASE executed (R150). -/
def releaseRun (_params : List Byte) (s : State) : Executed := accepted [] (setOwner .unowned s)

/-- The lease setting written, and the countdown set to it (R151). -/
def writeLease (lease : Nat) (s : State) : State :=
  let t := { s with engine := { s.engine with lease := lease } }
  match s.engine.owner with
  | .unowned => t
  | .owned id epoch _ => setOwner (.owned id epoch (leaseCountdown lease)) t

/-- Whether a lease setting is in range: 0, or 50 to 60000 (R148, R151). -/
def goodLease (lease : Nat) : Bool := lease == 0 || (50 ≤ lease && lease ≤ 60000)

/-- SET_LEASE executed (R151, R163). -/
def setLeaseRun (params : List Byte) (s : State) : Executed :=
  let lease := number2At params 0
  if goodLease lease then
    let t := writeLease lease s
    accepted (octets2 t.engine.lease ++ octets2 (leaseLeft t.engine.owner)) t
  else refusedWith .range s

/-! ### The rows -/

/-- REQUEST_TAKE: the take with the screening and the judging that go with it (R143–R147). -/
def execRequestTake (s : State) : Host.Outcome State Fault Refusal := perform takeRequest s
/-- IDENTIFY (R161). -/
def execIdentify (s : State) : Host.Outcome State Fault Refusal := perform (execute .identify identifyRun) s
/-- CLAIM (R149). -/
def execClaim (s : State) : Host.Outcome State Fault Refusal := perform (execute .claim claimRun) s
/-- RELEASE (R150). -/
def execRelease (s : State) : Host.Outcome State Fault Refusal := perform (execute .release releaseRun) s
/-- SET_LEASE (R151). -/
def execSetLease (s : State) : Host.Outcome State Fault Refusal := perform (execute .setLease setLeaseRun) s

end Sys2Proof.Machine
end

