-- ==== Sys2Proof/Machine/CircuitRequests.lean ====
section
/-!
DEFINITION. The requests the receive side executes: READ_CIRCUIT, WRITE_CIRCUIT, START_CIRCUIT and STOP_CIRCUIT
(R44–R49, R167–R169), and READ_COUNTERS (R170).
-/

namespace Sys2Proof.Machine

/-! ### READ_CIRCUIT -/

/-- The seven writable fields of a record as WRITE_CIRCUIT carries them (R168, R203). -/
def settingsOctets (r : CircuitRecord) : List Byte :=
  [flagOctet r.dropEnable, flagOctet r.addEnable] ++ octets2 r.quota ++ [flagOctet r.eligible] ++
    octets2 r.stallLimit ++ [octet r.addDepth, flagOctet r.seqCheck]

/-- The expected sequence, FFh when absent (R203). -/
def expectedOctet (e : Option (BitVec 4)) : Byte :=
  match e with
  | none => 0xFF
  | some n => n.zeroExtend 8

/-- The results of READ_CIRCUIT (R167, R203). -/
def circuitResults (c : Circuit) (s : State) : List Byte :=
  let r := s.circuits.get c
  [circuitOctet c, flagOctet r.active] ++ settingsOctets r ++ octets2 r.held ++
    [expectedOctet r.expected, r.emitSeq.zeroExtend 8] ++ counterOctets r.counters.list ++
    [(s.contexts.get c).state.code, octet (s.addQueues.get c).length, (s.emitters.get c).state.code]

/-- READ_CIRCUIT executed (R167). -/
def readCircuitRun (params : List Byte) (s : State) : Executed :=
  match circuitOf (at0 params 0) with
  | none => refusedWith .range s
  | some c => accepted (circuitResults c s) s

/-! ### WRITE_CIRCUIT -/

/-- Whether a quota is in range (R42). -/
def goodQuota (n : Nat) : Bool := 8 ≤ n && n ≤ Config.segments
/-- Whether a stall limit is in range (R42). -/
def goodStallLimit (n : Nat) : Bool := n ≤ Config.timerLimit
/-- Whether an add depth is in range (R42). -/
def goodAddDepth (n : Nat) : Bool := 1 ≤ n && n ≤ 16

/-- The seven values a WRITE_CIRCUIT supplies, put in a record; `none` if one is out of range (R42, R168). -/
def settingsOf (params : List Byte) (r : CircuitRecord) : Option CircuitRecord :=
  match flagOf (at0 params 1), flagOf (at0 params 2), flagOf (at0 params 5), flagOf (at0 params 9) with
  | some drop, some add, some eligible, some seqCheck =>
    if goodQuota (number2At params 3) && goodStallLimit (number2At params 6) && goodAddDepth (at0 params 8).toNat then
      some { r with dropEnable := drop, addEnable := add, quota := number2At params 3, eligible := eligible
                    stallLimit := number2At params 6, addDepth := (at0 params 8).toNat, seqCheck := seqCheck }
    else none
  | _, _, _, _ => none

/-- The two values a WRITE_CIRCUIT of circuit 0 writes, put in its record (R44). -/
def managementSettingsOf (params : List Byte) (r : CircuitRecord) : Option CircuitRecord :=
  if goodQuota (number2At params 3) && goodStallLimit (number2At params 6) then
    some { r with quota := number2At params 3, stallLimit := number2At params 6 }
  else none

/-- A record written, and the waiting requesters informed if circuit 0's quota has changed (R44, R77). -/
def writeRecord (c : Circuit) (r : CircuitRecord) (s : State) : State :=
  let t := changeRecord c (fun _ => r) s
  if c = 0 ∧ r.quota ≠ (s.circuits.get c).quota then informRequesters t else t

/-- WRITE_CIRCUIT of a circuit 1–95 or of circuit 0, with the tests of R44 in their order. -/
def writeCircuitRun (params : List Byte) (s : State) : Executed :=
  match circuitOf (at0 params 0) with
  | none => refusedWith .range s
  | some c =>
    let old := s.circuits.get c
    if c ≠ 0 ∧ old.active = true then refusedWith .state s
    else
      match if c = 0 then managementSettingsOf params old else settingsOf params old with
      | none => refusedWith .range s
      | some new =>
        if new.quota < old.held then refusedWith .range s
        else if c ≠ 0 ∧ new.addDepth < (s.addQueues.get c).length then refusedWith .range s
        else
          accepted (circuitOctet c :: settingsOctets new) (writeRecord c new s)

/-! ### START_CIRCUIT and STOP_CIRCUIT -/

/-- START_CIRCUIT executed (R47). -/
def startCircuitRun (params : List Byte) (s : State) : Executed :=
  match circuitOf (at0 params 0) with
  | none => refusedWith .range s
  | some c => if (s.circuits.get c).active then refusedWith .state s else accepted [] (startCircuit c s)

/-- STOP_CIRCUIT executed (R48, R169). -/
def stopCircuitRun (params : List Byte) (s : State) : Executed :=
  match trafficCircuitOf (at0 params 0), flagOf (at0 params 1) with
  | some c, some withFlush =>
    if (s.circuits.get c).active then
      accepted (octets2 (stopFlushedCount c withFlush s)) (stopCircuit c withFlush s)
    else refusedWith .state s
  | _, _ => refusedWith .range s

/-! ### READ_COUNTERS -/

/-- The selector of the global set (R170). -/
def globalSelector : Byte := 0xFF

/-- The twenty-three global counters in the order of R170. -/
def globalCounters (s : State) : List Counter :=
  [s.align.badMarks, s.align.losses, s.delivery.retries, s.delivery.discarded] ++ s.trib.counters.list ++
    s.engine.counters.list ++ [s.events.misses, s.events.abandoned]

/-- Every global counter at 0 (R170). -/
def clearGlobalCounters (s : State) : State :=
  { s with
    align := { s.align with badMarks := 0, losses := 0 }
    delivery := { s.delivery with retries := 0, discarded := 0 }
    trib := { s.trib with counters := .zero }
    engine := { s.engine with counters := .zero }
    events := { s.events with misses := 0, abandoned := 0 } }

/-- READ_COUNTERS executed (R170); the parts of a global reading are taken at one moment (log entry 21). -/
def readCountersRun (params : List Byte) (s : State) : Executed :=
  match flagOf (at0 params 1) with
  | none => refusedWith .range s
  | some clear =>
    let head := [at0 params 0, flagOctet clear]
    if at0 params 0 = globalSelector then
      accepted (head ++ counterOctets (globalCounters s)) (if clear then clearGlobalCounters s else s)
    else
      match circuitOf (at0 params 0) with
      | none => refusedWith .range s
      | some c =>
        accepted (head ++ counterOctets (s.circuits.get c).counters.list)
          (if clear then count c (fun _ => .zero) s else s)

/-! ### The rows -/

/-- READ_CIRCUIT (R167). -/
def execReadCircuit (s : State) : Host.Outcome State Fault Refusal := perform (execute .readCircuit readCircuitRun) s
/-- WRITE_CIRCUIT (R44). -/
def execWriteCircuit (s : State) : Host.Outcome State Fault Refusal := perform (execute .writeCircuit writeCircuitRun) s
/-- START_CIRCUIT (R47). -/
def execStartCircuit (s : State) : Host.Outcome State Fault Refusal := perform (execute .startCircuit startCircuitRun) s
/-- STOP_CIRCUIT (R48). -/
def execStopCircuit (s : State) : Host.Outcome State Fault Refusal := perform (execute .stopCircuit stopCircuitRun) s
/-- READ_COUNTERS (R170). -/
def execReadCounters (s : State) : Host.Outcome State Fault Refusal := perform (execute .readCounters readCountersRun) s

end Sys2Proof.Machine
end

