-- ==== Sys2Proof/Machine/EventRequests.lean ====
section
/-!
DEFINITION. The requests the event unit executes: READ_EVENTS, WRITE_EVENT_CONFIG, ACK_EVENTS, NOTICE_ACK, READ_FAULTS,
CLEAR_FAULTS, WRITE_BINDING, READ_BINDINGS and LOAD_CANNED (R173–R178).
-/

namespace Sys2Proof.Machine

/-! ### READ_EVENTS -/

/-- A stack entry in the results (R173, R203). -/
def StackEntry.octets (e : StackEntry) : List Byte :=
  [e.sequence, e.kind.code, octet e.level.val, octet e.sends] ++ octets2 e.timer

/-- A detail in the results: CIRCUIT_FAULT in short form, the entry count then the overflow flag (R173). -/
def reportedDetail (k : EventKind) (detail : Option (List Byte)) : List Byte :=
  match detail with
  | none => []
  | some d => if k = .circuitFault then [at0 d 1, at0 d 0] else d

/-- The record of a kind in the results (R173, R203). -/
def recordOctets (e : Events) (k : EventKind) : List Byte :=
  let r := e.records.get k.num
  let d := reportedDetail k r.detail
  [flagOctet r.pending, r.repeatCount, flagOctet r.enabled, octet r.level.val] ++ octets2 r.lastTick.toNat ++
    [octet d.length] ++ d

/-- The results of READ_EVENTS, the stack from bottom to top (R173, R203). -/
def eventsResults (e : Events) : List Byte :=
  [octet e.floor.val] ++ octets2 e.timeout ++ [octet e.retries, e.sequence, octet e.stack.length] ++
    e.stack.reverse.flatMap StackEntry.octets ++ EventKind.all.flatMap (recordOctets e)

/-- READ_EVENTS executed (R173). -/
def readEventsRun (_params : List Byte) (s : State) : Executed := accepted (eventsResults s.events) s

/-! ### WRITE_EVENT_CONFIG -/

/-- Whether a kind setting is in range: bits 6–3 are 0 (R203). -/
def goodSetting (b : Byte) : Bool := b.extractLsb' 3 4 = 0
/-- The enable of a kind setting. -/
def settingEnable (b : Byte) : Bool := b.getLsbD 7
/-- The level of a kind setting. -/
def settingLevel (b : Byte) : Fin 8 := (b.extractLsb' 0 3).toFin

/-- The settings written into the records, one for each kind in kind order (R174). -/
def writeSettings (e : Events) (settings : List Byte) : Events :=
  (EventKind.all.zip settings).foldl
    (fun e ks => e.changeRecord ks.1 fun r => { r with enabled := settingEnable ks.2, level := settingLevel ks.2 }) e

/-- Whether a notice timeout is in range (R174). -/
def goodTimeout (n : Nat) : Bool := 10 ≤ n && n ≤ 5000

/-- The floor an octet gives, if it is 0–7. -/
def floorOf (b : Byte) : Option (Fin 8) := if h : b.toNat < 8 then some ⟨b.toNat, h⟩ else none

/-- WRITE_EVENT_CONFIG executed, with the selection made anew (R174, R185). -/
def writeEventConfigRun (params : List Byte) (s : State) : Executed :=
  let timeout := number2At params 1
  let retries := (at0 params 3).toNat
  let settings := params.drop 4
  match floorOf (at0 params 0) with
  | none => refusedWith .range s
  | some floor =>
    if goodTimeout timeout && retries ≤ 7 && settings.all goodSetting then
      let e := { s.events with floor := floor, timeout := timeout, retries := retries }
      accepted [] (selectNotice (setEvents (writeSettings e settings) s))
    else refusedWith .range s

/-! ### ACK_EVENTS and NOTICE_ACK -/

/-- The kinds a list of octets names; `none` if one is above 15 (R175). -/
def kindsOf : List Byte → Option (List EventKind)
  | [] => some []
  | b :: rest =>
    match EventKind.ofCode b, kindsOf rest with
    | some k, some more => some (k :: more)
    | _, _ => none

/-- The records of a list of kinds cleared (R183). -/
def clearRecords (kinds : List EventKind) (s : State) : State := kinds.foldl (fun t k => clearRecord k t) s

/-- ACK_EVENTS executed; the result counts each kind once (R175). -/
def ackEventsRun (params : List Byte) (s : State) : Executed :=
  match kindsOf params with
  | none => refusedWith .range s
  | some kinds =>
    accepted [octet (EventKind.all.filter kinds.contains).length] (selectNotice (clearRecords kinds s))

/-- The results of NOTICE_ACK: the entries on the stack and the sequence of the top one, 0 with none (R175). -/
def noticeAckResults (e : Events) : List Byte :=
  [octet e.stack.length, match e.stack with
    | [] => 0
    | top :: _ => top.sequence]

/-- NOTICE_ACK executed: RANGE, then ORDER, else the top entry acknowledged (R175, R191). -/
def noticeAckRun (params : List Byte) (s : State) : Executed :=
  match flagOf (at0 params 1) with
  | none => refusedWith .range s
  | some clear =>
    if s.events.stack.head?.any (·.sequence == at0 params 0) then
      let t := acknowledgeTop clear s
      accepted (noticeAckResults t.events) t
    else ⟨.order, noticeAckResults s.events, s⟩

/-! ### READ_FAULTS and CLEAR_FAULTS -/

/-- READ_FAULTS executed: the overflow flag, the count, the entries (R176, R203). -/
def readFaultsRun (_params : List Byte) (s : State) : Executed := accepted (faultSnapshot s.events) s

/-- CLEAR_FAULTS executed (R176). -/
def clearFaultsRun (_params : List Byte) (s : State) : Executed :=
  accepted [] (setEvents { s.events with faults := [], overflow := false } s)

/-! ### Bindings and canned slots -/

/-- The kind a binding may name: 0 to 14 (R177). -/
def boundKindOf (b : Byte) : Option EventKind := if b = 15 then none else EventKind.ofCode b

/-- The binding in use that the parameters describe; `none` if a value is out of range (R177). -/
def bindingOf (params : List Byte) : Option Binding :=
  match boundKindOf (at0 params 2), BindingAction.ofCode (at0 params 3) (at0 params 4) (at0 params 5),
    EndMode.ofCode (at0 params 7), flagOf (at0 params 8), flagOf (at0 params 9) with
  | some kind, some action, some endMode, some armed, some enabled =>
    if at0 params 6 = 0 then none else some ⟨kind, action, (at0 params 6).toNat, endMode, armed, enabled⟩
  | _, _, _, _, _ => none

/-- Whether a binding at another index is in use and names a kind (R177). -/
def boundElsewhere (e : Events) (i : Fin Config.bindings) (k : EventKind) : Bool :=
  (List.finRange Config.bindings).any fun j => j != i && (e.bindings.get j).any (·.kind == k)

/-- A binding replaced. -/
def setBinding (i : Fin Config.bindings) (b : Option Binding) (s : State) : State :=
  setEvents { s.events with bindings := s.events.bindings.put i b } s

/-- WRITE_BINDING executed (R177). -/
def writeBindingRun (params : List Byte) (s : State) : Executed :=
  match bindingIndexOf (at0 params 0), flagOf (at0 params 1) with
  | some i, some false => accepted [] (setBinding i none s)
  | some i, some true =>
    match bindingOf params with
    | none => refusedWith .range s
    | some b =>
      if boundElsewhere s.events i b.kind then refusedWith .state s else accepted [] (setBinding i (some b) s)
  | _, _ => refusedWith .range s

/-- A binding as WRITE_BINDING carries it; one not in use holds 0 in every field (R177, R193). -/
def bindingOctets (e : Events) (i : Fin Config.bindings) : List Byte :=
  match e.bindings.get i with
  | none => [octet i.val, 0, 0, 0, 0, 0, 0, 0, 0, 0]
  | some b =>
    [octet i.val, 1, b.kind.code, b.action.code, b.action.operandA, b.action.operandB, octet b.count, b.endMode.code,
      flagOctet b.armed, flagOctet b.enabled]

/-- READ_BINDINGS executed (R177). -/
def readBindingsRun (_params : List Byte) (s : State) : Executed :=
  accepted ((List.finRange Config.bindings).flatMap (bindingOctets s.events)) s

/-- LOAD_CANNED executed (R178). -/
def loadCannedRun (params : List Byte) (s : State) : Executed :=
  let body := params.drop 3
  match cannedSlotOf (at0 params 0), classOf (at0 params 1), flagOf (at0 params 2) with
  | some i, some cls, some mark =>
    accepted [octet i.val, octet body.length]
      (setEvents { s.events with canned := s.events.canned.put i (some ⟨body, cls, mark⟩) } s)
  | _, _, _ => refusedWith .range s

/-! ### The rows -/

/-- READ_EVENTS (R173). -/
def execReadEvents (s : State) : Host.Outcome State Fault Refusal := perform (execute .readEvents readEventsRun) s
/-- WRITE_EVENT_CONFIG (R174). -/
def execWriteEventConfig (s : State) : Host.Outcome State Fault Refusal :=
  perform (execute .writeEventConfig writeEventConfigRun) s
/-- ACK_EVENTS (R175). -/
def execAckEvents (s : State) : Host.Outcome State Fault Refusal := perform (execute .ackEvents ackEventsRun) s
/-- NOTICE_ACK (R191). -/
def execNoticeAck (s : State) : Host.Outcome State Fault Refusal := perform (execute .noticeAck noticeAckRun) s
/-- READ_FAULTS (R176). -/
def execReadFaults (s : State) : Host.Outcome State Fault Refusal := perform (execute .readFaults readFaultsRun) s
/-- CLEAR_FAULTS (R176). -/
def execClearFaults (s : State) : Host.Outcome State Fault Refusal := perform (execute .clearFaults clearFaultsRun) s
/-- WRITE_BINDING (R177). -/
def execWriteBinding (s : State) : Host.Outcome State Fault Refusal := perform (execute .writeBinding writeBindingRun) s
/-- READ_BINDINGS (R177). -/
def execReadBindings (s : State) : Host.Outcome State Fault Refusal := perform (execute .readBindings readBindingsRun) s
/-- LOAD_CANNED (R178). -/
def execLoadCanned (s : State) : Host.Outcome State Fault Refusal := perform (execute .loadCanned loadCannedRun) s

end Sys2Proof.Machine
end

