-- ==== Sys2Proof/Machine/PlanRequests.lean ====
section
/-!
DEFINITION. The requests the slot engine executes: READ_PLAN, WRITE_PLAN, COPY_PLAN, ARM_SWAP, CANCEL_SWAP and
CONFIRM_SWAP (R27–R37, R164–R166).
-/

namespace Sys2Proof.Machine

/-- Whether a run of positions is in range: a count of 1 to 32 within 0 to 1007 (R27, R164). -/
def goodRange (first count : Nat) : Bool :=
  first < Config.positions && 1 ≤ count && count ≤ 32 && first + count ≤ Config.positions

/-- The octets of a run of entries (R203). -/
def entriesOctets (p : Plan) (first count : Nat) : List Byte :=
  ((p.cells.drop first).take count).flatMap PlanEntry.octets

/-- READ_PLAN executed (R164). -/
def readPlanRun (params : List Byte) (s : State) : Executed :=
  let first := number2At params 1
  let length := (at0 params 3).toNat
  match Bank.ofCode (at0 params 0) with
  | none => refusedWith .range s
  | some bank =>
    if goodRange first length then
      accepted ([bank.code] ++ octets2 first ++ [octet length] ++ entriesOctets (s.slot.plan bank) first length) s
    else refusedWith .range s

/-- The standby bank replaced (R27, R28). -/
def setStandby (p : Plan) (s : State) : State := { s with slot := s.slot.setPlan s.slot.active.other p }

/-- WRITE_PLAN executed: RANGE, then STATE, then every entry in one write (R27). -/
def writePlanRun (params : List Byte) (s : State) : Executed :=
  let first := number2At params 0
  let length := (at0 params 2).toNat
  match planEntriesOf (params.drop 3) with
  | none => refusedWith .range s
  | some entries =>
    if goodRange first length && entries.length == length then
      if s.slot.swap = .idle then
        accepted (octets2 first ++ [octet length]) (setStandby (writeEntries s.slot.standbyPlan first entries) s)
      else refusedWith .state s
    else refusedWith .range s

/-- COPY_PLAN executed (R28). -/
def copyPlanRun (_params : List Byte) (s : State) : Executed :=
  if s.slot.swap = .idle then accepted [] (setStandby s.slot.activePlan s) else refusedWith .state s

/-- The results of the three swap requests: the swap state and the active bank (R166). -/
def swapResults (s : State) : List Byte := [s.slot.swap.code, s.slot.active.code]

/-- A swap request refused with STATE, with the results of R166. -/
def swapStateRefusal (s : State) : Executed := ⟨.state, swapResults s, s⟩

/-- Whether a confirm window is in range: 0, or 10 to 5000 (R30). -/
def goodWindow (w : Nat) : Bool := w == 0 || (10 ≤ w && w ≤ 5000)

/-- ARM_SWAP executed: RANGE, STATE, INVALID_PLAN, else armed (R30). -/
def armSwapRun (params : List Byte) (s : State) : Executed :=
  let window := number2At params 1
  match SwapMode.ofCode (at0 params 0) with
  | none => refusedWith .range s
  | some mode =>
    if goodWindow window then
      if s.slot.swap = .idle then
        match planLack s.slot.standbyPlan with
        | some lack => ⟨.invalidPlan, [lack.code], s⟩
        | none =>
          let t := armSwapRecord ⟨mode, window, .request⟩ s
          accepted (swapResults t) t
      else swapStateRefusal s
    else refusedWith .range s

/-- The slot engine in IDLE with no armed swap and no countdown. -/
def endSwap (s : State) : State := { s with slot := { s.slot with swap := .idle, armed := none, countdown := none } }

/-- CANCEL_SWAP executed (R37). -/
def cancelSwapRun (_params : List Byte) (s : State) : Executed :=
  match s.slot.swap with
  | .armedNext => accepted (swapResults (endSwap s)) (endSwap s)
  | .armedSignal => accepted (swapResults (endSwap s)) (endSwap s)
  | .idle => swapStateRefusal s
  | .confirmWait => swapStateRefusal s
  | .revertPending => swapStateRefusal s

/-- CONFIRM_SWAP executed (R34). -/
def confirmSwapRun (_params : List Byte) (s : State) : Executed :=
  if s.slot.swap = .confirmWait then accepted (swapResults (endSwap s)) (endSwap s) else swapStateRefusal s

/-- READ_PLAN (R164). -/
def execReadPlan (s : State) : Host.Outcome State Fault Refusal := perform (execute .readPlan readPlanRun) s
/-- WRITE_PLAN (R27). -/
def execWritePlan (s : State) : Host.Outcome State Fault Refusal := perform (execute .writePlan writePlanRun) s
/-- COPY_PLAN (R28). -/
def execCopyPlan (s : State) : Host.Outcome State Fault Refusal := perform (execute .copyPlan copyPlanRun) s
/-- ARM_SWAP (R30). -/
def execArmSwap (s : State) : Host.Outcome State Fault Refusal := perform (execute .armSwap armSwapRun) s
/-- CANCEL_SWAP (R37). -/
def execCancelSwap (s : State) : Host.Outcome State Fault Refusal := perform (execute .cancelSwap cancelSwapRun) s
/-- CONFIRM_SWAP (R34). -/
def execConfirmSwap (s : State) : Host.Outcome State Fault Refusal := perform (execute .confirmSwap confirmSwapRun) s

end Sys2Proof.Machine
end

