-- ==== Sys2Proof/Machine/PoolRequests.lean ====
section
/-!
DEFINITION. The requests the segment pool and the delivery unit execute: READ_POOL and WRITE_POOL (R81–R83, R171),
READ_SCHED and WRITE_SCHED (R102, R103, R172).
-/

namespace Sys2Proof.Machine

/-! ### The pool -/

/-- The results of READ_POOL (R83, R171, R203). -/
def poolResults (first length : Nat) (s : State) : List Byte :=
  octets2 s.pool.freeSegs.length ++ octets2 s.pool.freeDescs.length ++ octets2 s.pool.segReserve ++
    [octet s.pool.descReserve, octet first, octet length] ++
    ((s.circuits.cells.drop first).take length).flatMap fun r => octets2 r.held

/-- READ_POOL executed (R171). -/
def readPoolRun (params : List Byte) (s : State) : Executed :=
  let first := (at0 params 0).toNat
  let length := (at0 params 1).toNat
  if first < Config.circuits && first + length ≤ Config.circuits then accepted (poolResults first length s) s
  else refusedWith .range s

/-- Both reserve levels written, the crossing judged, the waiting requesters informed (R81, R82). -/
def writeLevels (segReserve descReserve : Nat) (s : State) : State :=
  informRequesters
    (judgeReserve s.pool.freeSegs.length s.pool.segReserve
      { s with pool := { s.pool with segReserve := segReserve, descReserve := descReserve } })

/-- WRITE_POOL executed (R81, R171). -/
def writePoolRun (params : List Byte) (s : State) : Executed :=
  let segReserve := number2At params 0
  let descReserve := (at0 params 2).toNat
  if segReserve ≤ 255 && descReserve ≤ 63 then
    accepted (octets2 segReserve ++ [octet descReserve]) (writeLevels segReserve descReserve s)
  else refusedWith .range s

/-! ### The delivery unit -/

/-- The in-delivery flag, the class and the circuit of the message in delivery (R172, R203). -/
def inDeliveryOctets (s : State) : List Byte :=
  match s.delivery.inDelivery.bind s.pool.descs.get with
  | none => [0, 0, 0]
  | some x => [1, octet x.cls.val, circuitOctet x.circuit]

/-- The results of READ_SCHED (R103, R203). -/
def schedResults (s : State) : List Byte :=
  let e := s.delivery
  e.quanta.cells.flatMap octets2 ++ e.ageLimits.cells.flatMap octets2 ++ octets2 e.stallLimit ++
    e.deficits.cells.flatMap octets2 ++ [octet (e.round.val + 1), octet e.credits] ++
    e.queues.cells.flatMap (fun q => octets2 q.length) ++ inDeliveryOctets s ++ octets2 e.stallTimer ++
    [flagOctet e.stallReported, flagOctet s.trib.ready]

/-- READ_SCHED executed (R172). -/
def readSchedRun (_params : List Byte) (s : State) : Executed := accepted (schedResults s) s

/-- Whether a quantum is in range (R102). -/
def goodQuantum (n : Nat) : Bool := 32 ≤ n && n ≤ 2048

/-- The three quanta a WRITE_SCHED supplies. -/
def quantaOf (params : List Byte) : Table Nat 3 := ⟨[0, 2, 4].map (number2At params), rfl⟩
/-- The four age limits a WRITE_SCHED supplies. -/
def ageLimitsOf (params : List Byte) : Table Nat Config.classes := ⟨[6, 8, 10, 12].map (number2At params), rfl⟩

/-- WRITE_SCHED executed (R102). -/
def writeSchedRun (params : List Byte) (s : State) : Executed :=
  let quanta := quantaOf params
  let ageLimits := ageLimitsOf params
  let stallLimit := number2At params 14
  if quanta.cells.all goodQuantum && ageLimits.cells.all (· ≤ 1000) && stallLimit ≤ 1000 then
    accepted [] { s with delivery := { s.delivery with
      quanta := quanta, ageLimits := ageLimits, stallLimit := stallLimit } }
  else refusedWith .range s

/-! ### The rows -/

/-- READ_POOL (R171). -/
def execReadPool (s : State) : Host.Outcome State Fault Refusal := perform (execute .readPool readPoolRun) s
/-- WRITE_POOL (R81). -/
def execWritePool (s : State) : Host.Outcome State Fault Refusal := perform (execute .writePool writePoolRun) s
/-- READ_SCHED (R103). -/
def execReadSched (s : State) : Host.Outcome State Fault Refusal := perform (execute .readSched readSchedRun) s
/-- WRITE_SCHED (R102). -/
def execWriteSched (s : State) : Host.Outcome State Fault Refusal := perform (execute .writeSched writeSchedRun) s

end Sys2Proof.Machine
end

