-- ==== Sys2Proof/Machine/Reset.lean ====
section
/-!
DEFINITION. The resets: power-on and the reset pin (R3, R24), and the RESET request of mode TRAFFIC (R155) and of mode
FULL (R156).
-/

namespace Sys2Proof.Machine

/-! ### Power-on and the reset pin -/

/-- POWER_ON_RESET: every block at its reset values, the straps sampled, the pins at the levels found (R3, R24). -/
def execPowerOnReset (straps : BitVec 6) (linePresent ready : Bool) (s : State) : Host.Outcome State Fault Refusal :=
  .next (.resetWith s.pending ⟨true, linePresent, ready, straps⟩ 0)

/-- Every block at its reset values for RST_N low, with the node address held: the straps are sampled only when RST_N
rises (R3, R24; log entry 14). -/
def pinReset (s : State) : State :=
  let pins := { s.pins with rstN := false }
  { State.resetWith s.pending pins s.toData with nodeAddress := s.nodeAddress, slot := .reset s.nodeAddress }

/-- RESET_PIN (R3). -/
def execResetPin (s : State) : Host.Outcome State Fault Refusal := .next (pinReset s)

/-- RST_N_RISE: the end of the pin reset, with the straps sampled (R24). With RST_N high there is no rise. -/
def execRstNRise (straps : BitVec 6) (s : State) : Host.Outcome State Fault Refusal :=
  .next (if s.pins.rstN then s else .resetWith s.pending { s.pins with rstN := true, straps := straps } s.toData)

/-! ### The request -/

/-- A RESET request in hand answered with RANGE: its mode is neither TRAFFIC nor FULL (R179). -/
def refuseReset (request : List Byte) (s : State) : State := respond request .range [] true s

/-- The response body of a RESET carried out (R155, R156, R179). -/
def resetBody (request : List Byte) (mode : Byte) (s : State) : List Byte := responseBody s request .ok [mode]

/-- A context at the clearing: HUNT, unless it is STOPPED (R65). -/
def clearContext (ctx : RxContext) : RxContext := if ctx.state = .stopped then ctx else .empty .hunt

/-- A record at the clearing: expected sequence absent, held count and emit sequence 0 (R43, R84, R139). -/
def clearTrafficOf (r : CircuitRecord) : CircuitRecord := { r with expected := none, held := 0, emitSeq := 0 }

/-- The clearing of a TRAFFIC reset (R155). -/
def clearTraffic (s : State) : State :=
  { s with
    pool := .emptied s.pool.store s.pool.segReserve s.pool.descReserve
    circuits := s.circuits.map clearTrafficOf
    contexts := s.contexts.map clearContext
    delivery := clearDelivery s.delivery
    trib := { s.trib with parser := .hunting, rejects := [], tx := .idle, frame := [] }
    addQueues := .fill _ []
    emitters := .fill _ .idle
    slot := clearArmedSwap s.slot
    engine := { s.engine with queue := [] } }

/-- The RESET response given its storage and put in the circuit 0 add queue, the engine IDLE, and the waiting requesters
informed (R84, R155). The grant is the first on the rebuilt pool and is not refused; were it refused, the response
would be held for the arbiter (log entry 19). -/
def queueResetResponse (body : List Byte) (s : State) : State :=
  match enqueue (offerMessage .response body) body s with
  | .ok (_, t) => informRequesters (setEngine .idle t)
  | .error _ => setEngine .holding (offerResponse body s)

/-- RESET of mode TRAFFIC carried out (R155). -/
def trafficReset (request : List Byte) (s : State) : State :=
  let body := resetBody request 0 s
  queueResetResponse body (cacheResponse request body (countResponse .ok (clearTraffic s)))

/-- RESET of mode FULL begun: the response offered and the engine RESETTING (R156). -/
def fullResetBegun (request : List Byte) (s : State) : State :=
  let body := resetBody request 1 s
  setEngine .resetting (offerResponse body (cacheResponse request body (countResponse .ok s)))

/-- A RESET request in hand: one mode is carried out by `run`, the other mode is not this row's, and a value that is no
mode is answered with RANGE (R179). `full` tells the row's mode. -/
def executeReset (full : Bool) (run : List Byte → State → State) (s : State) : State :=
  match s.engine.state, s.engine.inHand with
  | .executing, some request =>
    if RequestKind.ofCode (requestKindOctet request) = some .reset then
      match flagOf (at0 (requestParams request) 0) with
      | none => refuseReset request s
      | some mode => if mode = full then run request s else s
    else s
  | _, _ => s

/-- RESET_TRAFFIC (R155). -/
def execResetTraffic (s : State) : Host.Outcome State Fault Refusal := perform (executeReset false trafficReset) s
/-- RESET_FULL (R156). -/
def execResetFull (s : State) : Host.Outcome State Fault Refusal := perform (executeReset true fullResetBegun) s

end Sys2Proof.Machine
end

