-- ==== Sys2Proof/Machine/Ticks.lean ====
section
/-!
DEFINITION. The meanings of TICK, of the steps a tick makes due (R18) and of the arbiter's steps (R135).
-/

namespace Sys2Proof.Machine

/-- TICK (R17). -/
def execTick (s : State) : Host.Outcome State Fault Refusal := perform takeTick s

/-- STALL of the context of a circuit; a number that names no circuit names no step (R63; log entry 4). -/
def execStall (n : Nat) (s : State) : Host.Outcome State Fault Refusal :=
  if h : n < Config.circuits then performOwed (stallOwed ⟨n, h⟩) s else .next s

/-- CONFIRM_WINDOW_EXPIRY (R33). -/
def execConfirmWindowExpiry (s : State) : Host.Outcome State Fault Refusal := performOwed confirmOwed s

/-- AGE_OUT of the head of a class queue; a number that names no class names no step (R97; log entry 4). -/
def execAgeOut (n : Nat) (s : State) : Host.Outcome State Fault Refusal :=
  if h : n < Config.classes then performOwed (ageOutOwed ⟨n, h⟩) s else .next s

/-- CREDIT_STALL (R99). -/
def execCreditStall (s : State) : Host.Outcome State Fault Refusal := performOwed creditStallOwed s

/-- OWNER_LOST (R151). -/
def execOwnerLost (s : State) : Host.Outcome State Fault Refusal := performOwed ownerLostOwed s

/-- NOTICE_TIMEOUT (R190). -/
def execNoticeTimeout (s : State) : Host.Outcome State Fault Refusal := performOwed noticeTimeoutOwed s

/-- NOTICE_ADMITTED: part 1 of the next attempt owed (R135, R137). -/
def execNoticeAdmitted (s : State) : Host.Outcome State Fault Refusal :=
  .next (if s.pins.rstN then noticeStep s else s)

/-- RESPONSE_ADMITTED: the rest of the next attempt owed, part 1 first if it has not been taken (R135, R136). -/
def execResponseAdmitted (s : State) : Host.Outcome State Fault Refusal :=
  .next (if s.pins.rstN then responseStep s else s)

end Sys2Proof.Machine
end

