-- ==== Sys2Proof/Machine/Tributary.lean ====
section
/-!
DEFINITION. The tributary interface: the parser (R109–R112), the judgement and admission of ADD (R113–R115), CREDIT
(R117), the transmitter's turns (R118–R121) and READY (R108), with the meanings of its rows.
-/

namespace Sys2Proof.Machine

/-! ### The parser -/

/-- The parser replaced. -/
def setParser (p : Parser) (s : State) : State := { s with trib := { s.trib with parser := p } }

/-- The link counter of an error kind raised; FRAMING has been raised by the framing error itself (R111, R112). -/
def countLinkError (k : LinkError) (s : State) : State :=
  match k with
  | .type => countLink (fun c => { c with typeErrors := c.typeErrors + 1 }) s
  | .length => countLink (fun c => { c with lengthErrors := c.lengthErrors + 1 }) s
  | .check => countLink (fun c => { c with checkErrors := c.checkErrors + 1 }) s
  | .framing => s
  | .value => countLink (fun c => { c with valueErrors := c.valueErrors + 1 }) s

/-- A frame dropped: its octets discarded, its error counted, TRIB_ERROR raised (R112). -/
def dropFrame (k : LinkError) (s : State) : State :=
  raise .tribError (some [k.code]) (countLinkError k (setParser .hunting s))

/-- The payload lengths accepted for a type (R109). -/
def acceptsPayload (type : Byte) (length : Nat) : Bool :=
  if type = Config.typeAdd then 4 ≤ length && length ≤ 260 else length == 1

/-! ### ADD -/

/-- A reject entry offered to the reject queue (R119). -/
def offerReject (e : RejectEntry) (s : State) : State :=
  if s.trib.rejects.length < Config.rejectDepth then { s with trib := { s.trib with rejects := s.trib.rejects ++ [e] } }
  else countLink (fun c => { c with rejectsUnsent := c.rejectsUnsent + 1 }) s

/-- A refused ADD counted: against its circuit, or as out of range (R115). -/
def countRefusedAdd (circuit : Byte) (s : State) : State :=
  match circuitOf circuit with
  | some c => count c (fun k => { k with addRejects := k.addRejects + 1 }) s
  | none => countLink (fun c => { c with rejectsOutOfRange := c.rejectsOutOfRange + 1 }) s

/-- An ADD refused: counted, ADD_REJECT raised, a reject entry offered (R115). -/
def refuseAdd (tag circuit : Byte) (reason : RejectReason) (s : State) : State :=
  offerReject ⟨tag, circuit, reason⟩ (raise .addReject (some [circuit, reason.code]) (countRefusedAdd circuit s))

/-- Admission: the four tests in their order, and the grant (R114). -/
def admitAdd (tag : Byte) (c : Circuit) (cls : Class) (mark : Bool) (body : List Byte) (s : State) : State :=
  let r := s.circuits.get c
  if c = 0 ∨ r.active = false then refuseAdd tag (circuitOctet c) .stopped s
  else if r.addEnable = false then refuseAdd tag (circuitOctet c) .notAdd s
  else if hasRoom s c = false then refuseAdd tag (circuitOctet c) .queueFull s
  else
    match enqueue ⟨.addQueued, c, cls, mark, none, body.length, .tributary⟩ body s with
    | .ok (_, t) => t
    | .error f => refuseAdd tag (circuitOctet c) .noSpace (raiseRefusal f c body.length s)

/-- An accepted ADD judged on its field values: class and mark, then body length and circuit, then admission (R113). -/
def judgeAdd (payload : List Byte) (s : State) : State :=
  let body := payload.drop 4
  match classOf (at0 payload 2), flagOf (at0 payload 3) with
  | some cls, some mark =>
    match circuitOf (at0 payload 1) with
    | some c =>
      if body.length = 0 ∨ Config.maxBody < body.length then refuseAdd (at0 payload 0) (at0 payload 1) .badLength s
      else admitAdd (at0 payload 0) c cls mark body s
    | none => refuseAdd (at0 payload 0) (at0 payload 1) .badLength s
  | _, _ => dropFrame .value s

/-! ### CREDIT -/

/-- An accepted CREDIT: a count of 1 to 32 is handed to the delivery unit, any other drops the frame (R117). -/
def judgeCredit (payload : List Byte) (s : State) : State :=
  let n := (at0 payload 0).toNat
  if 1 ≤ n ∧ n ≤ Config.maxCredits then acceptCredits n s else dropFrame .value s

/-! ### One octet at the parser -/

/-- A frame whose check matches: the parser in HUNT, the frame counted as accepted and judged (R110). -/
def acceptFrame (p : Parser) (s : State) : State :=
  let t := setParser .hunting s
  if p.type = Config.typeAdd then
    judgeAdd p.buffer (countLink (fun c => { c with addAccepted := c.addAccepted + 1 }) t)
  else judgeCredit p.buffer (countLink (fun c => { c with creditAccepted := c.creditAccepted + 1 }) t)

/-- HUNT: A5h begins a frame, any other octet is counted (R109). -/
def parseHunt (b : Byte) (s : State) : State :=
  if b = Config.startOctet then setParser { Parser.hunting with state := .type } s
  else countLink (fun c => { c with huntOctets := c.huntOctets + 1 }) s

/-- TYPE: ADD or CREDIT, else a type error (R109). -/
def parseType (b : Byte) (s : State) : State :=
  let p := s.trib.parser
  if b = Config.typeAdd ∨ b = Config.typeCredit then
    setParser { p with state := .length, type := b, lenOctets := [], crc := crcOctet p.crc b } s
  else dropFrame .type s

/-- LENGTH: two octets, judged against the type when both are in (R109). -/
def parseLength (b : Byte) (s : State) : State :=
  let p := s.trib.parser
  match p.lenOctets with
  | [] => setParser { p with lenOctets := [b], crc := crcOctet p.crc b } s
  | high :: _ =>
    if acceptsPayload p.type (number2 high b) then
      setParser { p with state := .payload, lenOctets := [high, b], length := number2 high b,
                         crc := crcOctet p.crc b, buffer := [] } s
    else dropFrame .length s

/-- PAYLOAD: the octet stored, and CHECK when the payload is whole (R110). -/
def parsePayload (b : Byte) (s : State) : State :=
  let p := s.trib.parser
  let buffer := p.buffer ++ [b]
  setParser { p with buffer := buffer, crc := crcOctet p.crc b, checkOctets := []
                     state := if p.length ≤ buffer.length then .check else .payload } s

/-- CHECK: two octets, high octet first, compared with the running check (R110). -/
def parseCheck (b : Byte) (s : State) : State :=
  let p := s.trib.parser
  match p.checkOctets with
  | [] => setParser { p with checkOctets := [b] } s
  | high :: _ => if [high, b] = checkOctetsOf p.crc then acceptFrame p s else dropFrame .check s

/-- A good octet at the parser (R109, R110). -/
def parseOctet (b : Byte) (s : State) : State :=
  match s.trib.parser.state with
  | .hunt => parseHunt b s
  | .type => parseType b s
  | .length => parseLength b s
  | .payload => parsePayload b s
  | .check => parseCheck b s

/-- A framing error: counted, and the frame in collection dropped (R111). -/
def parseFramingError (s : State) : State :=
  let t := countLink (fun c => { c with framingErrors := c.framingErrors + 1 }) s
  if s.trib.parser.state = .hunt then t else dropFrame .framing t

/-! ### The transmitter -/

/-- The head reject entry taken and its REJECT frame started, if the transmitter is idle (R118–R120). -/
def startReject (s : State) : State :=
  match s.trib.tx, s.trib.rejects with
  | .idle, e :: rest =>
    { s with trib := { s.trib with
        rejects := rest, tx := .sendingReject
        frame := tFrame Config.typeReject [e.tag, e.circuit, e.reason.code] } }
  | _, _ => s

/-- The last check octet of a REJECT sent: counted, the transmitter back in IDLE (R120). -/
def endReject (s : State) : State :=
  if s.trib.tx = .sendingReject then
    idleTransmitter (countLink (fun c => { c with rejectsSent := c.rejectsSent + 1 }) s)
  else s

/-! ### READY -/

/-- The level of TB_RDY. -/
def setReadyPin (level : Bool) (s : State) : State := { s with pins := { s.pins with tbRdy := level } }

/-- A fall of READY taken (R108). -/
def takeReadyFall (s : State) : State :=
  if s.trib.ready then readyFallen { s with trib := { s.trib with ready := false } } else s

/-- A rise of READY taken; it changes nothing but the status (R94, R108). -/
def takeReadyRise (s : State) : State := { s with trib := { s.trib with ready := true } }

/-! ### The rows -/

/-- ADD: the octet at the parser, which judges the frame it completes (R110, R113; log entry 11). -/
def execAdd (b : Byte) (s : State) : Host.Outcome State Fault Refusal := perform (parseOctet b) s
/-- CREDIT: the octet at the parser (R110, R117; log entry 11). -/
def execCredit (b : Byte) (s : State) : Host.Outcome State Fault Refusal := perform (parseOctet b) s
/-- FRAME_DROPPED: the octet at the parser (R109, R110, R112; log entry 11). -/
def execFrameDropped (b : Byte) (s : State) : Host.Outcome State Fault Refusal := perform (parseOctet b) s
/-- HUNT_OCTET: the octet at the parser (R109; log entry 11). -/
def execHuntOctet (b : Byte) (s : State) : Host.Outcome State Fault Refusal := perform (parseOctet b) s
/-- GOOD_OCTET: the octet at the parser (R109, R110; log entry 11). -/
def execGoodOctet (b : Byte) (s : State) : Host.Outcome State Fault Refusal := perform (parseOctet b) s
/-- FRAMING_ERROR (R111). -/
def execFramingError (s : State) : Host.Outcome State Fault Refusal := perform parseFramingError s

/-- DELIVERY_CHOICE, when its conditions hold (R88). -/
def execDeliveryChoice (s : State) : Host.Outcome State Fault Refusal :=
  perform (fun t => if choicePossible t then chooseDelivery t else t) s

/-- DELIVERY_COMPLETE, when a DELIVER frame is on the line (R92, R121). -/
def execDeliveryComplete (s : State) : Host.Outcome State Fault Refusal :=
  perform (fun t => if t.trib.tx = .sendingDeliver then completeDelivery t else t) s

/-- REJECT_START (R118). -/
def execRejectStart (s : State) : Host.Outcome State Fault Refusal := perform startReject s
/-- REJECT_SENT (R120). -/
def execRejectSent (s : State) : Host.Outcome State Fault Refusal := perform endReject s
/-- READY_FALL; while RST_N is low only the level changes (R108, R123). -/
def execReadyFall (s : State) : Host.Outcome State Fault Refusal :=
  if s.pins.rstN then perform (fun t => takeReadyFall (setReadyPin false t)) s else .next (setReadyPin false s)

/-- READY_RISE; while RST_N is low only the level changes (R108, R123). -/
def execReadyRise (s : State) : Host.Outcome State Fault Refusal :=
  if s.pins.rstN then perform (fun t => takeReadyRise (setReadyPin true t)) s else .next (setReadyPin true s)

end Sys2Proof.Machine
end

