-- ==== Sys2Proof/Machine/Trunk.lean ====
section
/-!
DEFINITION. The trunk: an octet at the alignment unit (R1–R16) and at the slot engine (R21, R22), and the line-present
indication (R11, R12).
-/

namespace Sys2Proof.Machine

/-- The alignment unit replaced. -/
def setAlign (a : Align) (s : State) : State := { s with align := a }

/-- The alignment unit in SEARCH with no candidate and no good mark remembered; its latch and counters kept
(R6, R10, R11; log entry 16). -/
def Align.searching (a : Align) : Align :=
  { a with state := .search, frame := 0, slot := 0, verifyCount := 1, badCount := 0 }

/-! ### SEARCH and VERIFY -/

/-- An octet in SEARCH: examined while TI_LP is high, a candidate enters VERIFY (R4, R12). -/
def searchOctet (b : Byte) (s : State) : State :=
  if s.pins.tiLp then
    match candidateFrame b with
    | some f => setAlign { s.align with state := .verify, frame := f, slot := 0, verifyCount := 1 } s
    | none => s
  else s

/-- Alignment gained: LOCKED, ALIGN_GAINED raised, the slot engine told (R7). -/
def gainAlignment (f : BitVec 4) (s : State) : State :=
  slotAlignmentGained
    (raise .alignGained none (setAlign { s.align with state := .locked, frame := f, slot := 0, badCount := 0 } s))

/-- A mark place in VERIFY, judged against the next frame (R5, R6, R7). -/
def verifyMark (b : Byte) (s : State) : State :=
  let f := s.align.frame + 1
  if goodMark f b then
    if s.align.verifyCount = 1 then setAlign { s.align with frame := f, slot := 0, verifyCount := 2 } s
    else gainAlignment f s
  else setAlign { s.align.searching with badMarks := s.align.badMarks + 1 } s

/-- An octet in VERIFY (R5). -/
def verifyOctet (b : Byte) (s : State) : State :=
  if s.align.slot = 63 then verifyMark b s else setAlign { s.align with slot := s.align.slot + 1 } s

/-! ### LOCKED and HOLDOVER -/

/-- Alignment lost from LOCKED or HOLDOVER: ALIGN_LOST raised with the bad count, SEARCH, the slot engine told (R10). -/
def loseAlignment (s : State) : State :=
  slotAlignmentLost
    (raise .alignLost (some [octet s.align.badCount])
      (setAlign { s.align.searching with latch := false, losses := s.align.losses + 1 } s))

/-- The bad count after a bad mark: 1 from LOCKED, one more in HOLDOVER (R8, R9). -/
def Align.nextBad (a : Align) : Nat := if a.state = .locked then 1 else a.badCount + 1

/-- A mark place in LOCKED or HOLDOVER, judged against the next frame (R8, R9, R15). -/
def alignedMark (b : Byte) (s : State) : State :=
  let f := s.align.frame + 1
  if goodMark f b then
    setAlign { s.align with state := .locked, frame := f, slot := 0, badCount := 0
                            latch := s.align.latch || b == Config.switchMark } s
  else
    let t := setAlign { s.align with state := .holdover, frame := f, slot := 0, badCount := s.align.nextBad
                                     badMarks := s.align.badMarks + 1 } s
    if s.align.nextBad < 4 then t else loseAlignment t

/-- An octet given to a circuit, unless the circuit is STOPPED (R21, R22). -/
def dropOctet (c : Circuit) (b : Byte) (s : State) : State :=
  if (s.circuits.get c).active then receiveOctet c b s else s

/-- A payload octet handled by the entry of its position: the octet sent, and the state (R21, R22). -/
def slotAction (e : PlanEntry) (b : Byte) (s : State) : Byte × State :=
  match e.action with
  | .pass => (b, s)
  | .tap => (b, dropOctet e.circuit b s)
  | .take => (Config.idleOctet, dropOctet e.circuit b s)
  | .insert => if (s.circuits.get e.circuit).active then emitterSupply e.circuit s else (Config.idleOctet, s)

/-- Whether the alignment unit hands on positions (section 1.2). -/
def Align.handsOn (a : Align) : Bool :=
  match a.state with
  | .search => false
  | .verify => false
  | .locked => true
  | .holdover => true

/-- The boundary announced after position 1007, with the state of the latch, which is then cleared (R14). -/
def announceBoundary (s : State) : State :=
  slotBoundary s.align.latch (setAlign { s.align with latch := false } s)

/-- The boundary, if the octet handed on was that of position 1007 and alignment still holds (R14). It comes before the
occurrences that octet has raised are taken: DESIGN CHOICE (R36; log entry 27). -/
def boundaryAfter (position : Nat) (s : State) : State :=
  if position = 1007 ∧ s.align.handsOn = true then announceBoundary s else s

/-- A payload octet in LOCKED or HOLDOVER: numbered, handed to the slot engine, and the boundary after it (R13, R14). -/
def payloadOctet (b : Byte) (s : State) : Byte × State :=
  let slot := s.align.slot + 1
  let position := positionOf s.align.frame slot
  let handled := slotAction (planEntry s.slot.activePlan position) b (setAlign { s.align with slot := slot } s)
  (handled.1, boundaryAfter position handled.2)

/-- An octet in LOCKED or HOLDOVER (R8, R9). -/
def alignedOctet (b : Byte) (s : State) : Byte × State :=
  if s.align.slot = 63 then (b, alignedMark b s) else payloadOctet b s

/-! ### An arrival -/

/-- An arriving octet at the part: the octet sent, and the state (R2). -/
def trunkOctet (b : Byte) (s : State) : Byte × State :=
  match s.align.state with
  | .search => (b, searchOctet b s)
  | .verify => (b, verifyOctet b s)
  | .locked => alignedOctet b s
  | .holdover => alignedOctet b s

/-- The octet sent on trunk-out (R2). -/
def setToData (b : Byte) (s : State) : State := { s with toData := b }

/-- An arrival taken: exactly one octet is sent (R2). -/
def takeOctet (b : Byte) (s : State) : State := setToData (trunkOctet b s).1 (trunkOctet b s).2

/-! ### Line presence -/

/-- The level of TI_LP. -/
def setLinePin (level : Bool) (s : State) : State := { s with pins := { s.pins with tiLp := level } }

/-- TI_LP has fallen: SEARCH at once, whatever the state (R11). -/
def takeLineFall (s : State) : State :=
  match s.align.state with
  | .search => s
  | .verify => setAlign s.align.searching s
  | .locked => loseAlignment s
  | .holdover => loseAlignment s

/-! ### The rows -/

/-- OCTET_ARRIVAL; while RST_N is low trunk-out repeats trunk-in and the octet is not examined (R2, R3). -/
def execOctetArrival (b : Byte) (s : State) : Host.Outcome State Fault Refusal :=
  if s.pins.rstN then perform (takeOctet b) s else .next (setToData b s)

/-- TI_LP_FALL; while RST_N is low only the level changes (R3, R11). -/
def execTiLpFall (s : State) : Host.Outcome State Fault Refusal :=
  if s.pins.rstN then perform (fun t => takeLineFall (setLinePin false t)) s else .next (setLinePin false s)

/-- TI_LP_RISE: the unit remains in SEARCH, and examines octets from the next arrival (R12). -/
def execTiLpRise (s : State) : Host.Outcome State Fault Refusal :=
  if s.pins.rstN then perform (setLinePin true) s else .next (setLinePin true s)

end Sys2Proof.Machine
end

