-- ==== Sys2Proof/Machine/Dispatch.lean ====
section
/-!
DEFINITION. The meaning of each command: one arm per row of the table.
-/

namespace Sys2Proof.Machine

/-- The effect of a command on everything but the queue. -/
def exec (i : Instr) (s : State) : Host.Outcome State Fault Refusal :=
  match i with
  | .powerOnReset straps linePresent ready => Sys2Proof.Machine.execPowerOnReset straps linePresent ready s
  | .resetPin => Sys2Proof.Machine.execResetPin s
  | .rstNRise straps => Sys2Proof.Machine.execRstNRise straps s
  | .octetArrival octet => Sys2Proof.Machine.execOctetArrival octet s
  | .tiLpFall => Sys2Proof.Machine.execTiLpFall s
  | .tiLpRise => Sys2Proof.Machine.execTiLpRise s
  | .tick => Sys2Proof.Machine.execTick s
  | .stall circuit => Sys2Proof.Machine.execStall circuit s
  | .confirmWindowExpiry => Sys2Proof.Machine.execConfirmWindowExpiry s
  | .ageOut cls => Sys2Proof.Machine.execAgeOut cls s
  | .creditStall => Sys2Proof.Machine.execCreditStall s
  | .ownerLost => Sys2Proof.Machine.execOwnerLost s
  | .noticeTimeout => Sys2Proof.Machine.execNoticeTimeout s
  | .readyFall => Sys2Proof.Machine.execReadyFall s
  | .readyRise => Sys2Proof.Machine.execReadyRise s
  | .add octet => Sys2Proof.Machine.execAdd octet s
  | .credit octet => Sys2Proof.Machine.execCredit octet s
  | .frameDropped octet => Sys2Proof.Machine.execFrameDropped octet s
  | .framingError => Sys2Proof.Machine.execFramingError s
  | .huntOctet octet => Sys2Proof.Machine.execHuntOctet octet s
  | .deliveryChoice => Sys2Proof.Machine.execDeliveryChoice s
  | .deliveryComplete => Sys2Proof.Machine.execDeliveryComplete s
  | .rejectStart => Sys2Proof.Machine.execRejectStart s
  | .rejectSent => Sys2Proof.Machine.execRejectSent s
  | .responseAdmitted => Sys2Proof.Machine.execResponseAdmitted s
  | .noticeAdmitted => Sys2Proof.Machine.execNoticeAdmitted s
  | .requestTake => Sys2Proof.Machine.execRequestTake s
  | .identify => Sys2Proof.Machine.execIdentify s
  | .claim => Sys2Proof.Machine.execClaim s
  | .release => Sys2Proof.Machine.execRelease s
  | .setLease => Sys2Proof.Machine.execSetLease s
  | .readPlan => Sys2Proof.Machine.execReadPlan s
  | .writePlan => Sys2Proof.Machine.execWritePlan s
  | .copyPlan => Sys2Proof.Machine.execCopyPlan s
  | .armSwap => Sys2Proof.Machine.execArmSwap s
  | .cancelSwap => Sys2Proof.Machine.execCancelSwap s
  | .confirmSwap => Sys2Proof.Machine.execConfirmSwap s
  | .readCircuit => Sys2Proof.Machine.execReadCircuit s
  | .writeCircuit => Sys2Proof.Machine.execWriteCircuit s
  | .startCircuit => Sys2Proof.Machine.execStartCircuit s
  | .stopCircuit => Sys2Proof.Machine.execStopCircuit s
  | .readCounters => Sys2Proof.Machine.execReadCounters s
  | .readPool => Sys2Proof.Machine.execReadPool s
  | .writePool => Sys2Proof.Machine.execWritePool s
  | .readSched => Sys2Proof.Machine.execReadSched s
  | .writeSched => Sys2Proof.Machine.execWriteSched s
  | .readEvents => Sys2Proof.Machine.execReadEvents s
  | .writeEventConfig => Sys2Proof.Machine.execWriteEventConfig s
  | .ackEvents => Sys2Proof.Machine.execAckEvents s
  | .noticeAck => Sys2Proof.Machine.execNoticeAck s
  | .readFaults => Sys2Proof.Machine.execReadFaults s
  | .clearFaults => Sys2Proof.Machine.execClearFaults s
  | .writeBinding => Sys2Proof.Machine.execWriteBinding s
  | .readBindings => Sys2Proof.Machine.execReadBindings s
  | .loadCanned => Sys2Proof.Machine.execLoadCanned s
  | .resetTraffic => Sys2Proof.Machine.execResetTraffic s
  | .resetFull => Sys2Proof.Machine.execResetFull s
  | .goodOctet octet => Sys2Proof.Machine.execGoodOctet octet s

end Sys2Proof.Machine
end

