-- ==== Sys2Proof/Machine/Step.lean ====
section
/-!
DEFINITION. One step: the command at the front of the queue is taken (log entry 3).
-/

namespace Sys2Proof.Machine

/-- The queue replaced. -/
def State.withPending (s : State) (l : List Instr) : State := { s with pending := l }

/-- One step. With no command waiting the part idles. -/
def step (s : State) : Host.Outcome State Fault Refusal :=
  match s.pending with
  | [] => .next s
  | c :: rest => exec c (s.withPending rest)

/-- The command a word spells put at the front of the queue; no word spells one, since no row of the table gives bits. -/
def State.withFetchWord (s : State) (nbits w : Nat) : State :=
  match decodeTableWord nbits w with
  | some c => s.withPending (c :: s.pending)
  | none => s

end Sys2Proof.Machine
end

