-- ==== Sys2Proof/Safety.lean ====
section
/-!
DEFINITION. The terms claims are made in: what a command finds, how a request is answered, and the laws that every run
of the part keeps (R26, R66, R67, R80, R87, R119, R124, R142, R184, R193, R197).
-/

namespace Sys2Proof.Machine

/-! ### What a command finds -/

/-- The part runs, and nothing is owed or waiting from an earlier step (log entries 6 to 8). -/
def Quiet (s : State) : Prop := s.pins.rstN = true ∧ s.owed = .none ∧ s.events.inbox = []

/-- The part runs and owes one thing, told by `o`, and no occurrence waits. -/
def Owing (o : Owed) (s : State) : Prop := s.pins.rstN = true ∧ s.owed = o ∧ s.events.inbox = []

/-- No binding in use names a kind. -/
def Unbound (k : EventKind) (s : State) : Prop := boundTo s.events k = none

/-- A request of kind `k` is in hand and waits for its execution (R143, R153). -/
def InHand (k : RequestKind) (request : List Byte) (s : State) : Prop :=
  s.engine.state = .executing ∧ s.engine.inHand = some request ∧ RequestKind.ofCode (requestKindOctet request) = some k

/-- The rows that take a step that has fallen due, and the three of power and RST_N: they do not settle what is owed
before they act. -/
def actsFirst : Instr → Bool
  | .stall _ | .ageOut _ => true
  | .confirmWindowExpiry | .creditStall | .ownerLost | .noticeTimeout | .responseAdmitted | .noticeAdmitted => true
  | .powerOnReset _ _ _ | .resetPin | .rstNRise _ => true
  | _ => false

/-- The commands that take every attempt owed before they act: all but the rows of an attempt's own parts, the three of
power and RST_N, and a number that names no circuit or class. -/
def attemptsComeFirst : Instr → Bool
  | .responseAdmitted | .noticeAdmitted => false
  | .powerOnReset _ _ _ | .resetPin | .rstNRise _ => false
  | .stall c => decide (c < 96)
  | .ageOut q => decide (q < 4)
  | _ => true

/-- Alignment holds, and the next octet is the payload octet of position `p`, whose entry in the active bank is `e`
(R13, R19). -/
def PayloadNext (p : Nat) (e : PlanEntry) (s : State) : Prop :=
  (s.align.state = .locked ∨ s.align.state = .holdover) ∧ s.align.slot ≠ 63 ∧
  p = 63 * s.align.frame.toNat + s.align.slot.toNat ∧ planEntry s.slot.activePlan p = e

/-- The next octet is at a mark place of frame `f`, in one of the states of alignment (R5, R8, R9). -/
def MarkNext (state : AlignState) (f : BitVec 4) (s : State) : Prop :=
  s.align.state = state ∧ s.align.slot = 63 ∧ f = s.align.frame + 1

/-! ### Reset values -/

/-- The entry of a position in the bootstrap plan of a node address N: TAKE circuit 0 at N − 1, INSERT circuit 0 at
503 + N, PASS elsewhere (R25). -/
def bootstrapEntry (address : BitVec 6) (position : Nat) : PlanEntry :=
  if position = address.toNat - 1 then ⟨.take, 0⟩
  else if position = 503 + address.toNat then ⟨.insert, 0⟩
  else ⟨.pass, 0⟩

/-- Every block as the reset tables give it, for a node address and a level of TB_RDY (R3, R17, R25, R31, R43, R84, R105,
R123, R140, R159, R199). -/
def ResetValues (address : BitVec 6) (ready : Bool) (t : State) : Prop :=
  t.nodeAddress = address ∧ t.tickCounter = 0 ∧
  (t.align.state = .search ∧ t.align.frame = 0 ∧ t.align.slot = 0 ∧ t.align.badCount = 0 ∧ t.align.latch = false ∧
    t.align.badMarks = 0 ∧ t.align.losses = 0) ∧
  (t.slot.active = .a ∧ t.slot.swap = .idle ∧ t.slot.armed = none ∧ t.slot.countdown = none ∧ t.slot.aligned = false ∧
    t.slot.bankB = t.slot.bankA ∧ ∀ p : Fin 1008, t.slot.bankA.get p = bootstrapEntry address p.val) ∧
  (∀ c : Circuit, t.circuits.get c =
    if c = 0 then ⟨true, true, true, 64, true, 250, 8, false, 0, none, 0, .zero⟩
    else ⟨false, false, false, 8, false, 250, 4, false, 0, none, 0, .zero⟩) ∧
  (∀ c : Circuit, (t.contexts.get c).state = (if c = 0 then RxState.hunt else .stopped) ∧ (t.contexts.get c).desc = none) ∧
  (t.pool.freeSegs = List.finRange 1536 ∧ t.pool.freeDescs = List.finRange 320 ∧ (∀ d, t.pool.descs.get d = none) ∧
    t.pool.segReserve = 32 ∧ t.pool.descReserve = 8) ∧
  ((∀ q, t.delivery.queues.get q = []) ∧ (∀ l, t.delivery.quanta.get l = 256) ∧ (∀ l, t.delivery.deficits.get l = 0) ∧
    t.delivery.round = 0 ∧ t.delivery.credits = 0 ∧ (∀ q, t.delivery.ageLimits.get q = 0) ∧ t.delivery.stallLimit = 0 ∧
    t.delivery.stallTimer = 0 ∧ t.delivery.stallReported = false ∧ t.delivery.inDelivery = none ∧
    t.delivery.retries = 0 ∧ t.delivery.discarded = 0) ∧
  (t.trib.ready = ready ∧ t.trib.parser.state = .hunt ∧ t.trib.rejects = [] ∧ t.trib.tx = .idle ∧
    t.trib.counters = ⟨0, 0, 0, 0, 0, 0, 0, 0, 0, 0, 0⟩) ∧
  ((∀ c, t.addQueues.get c = []) ∧ (∀ c, (t.emitters.get c).state = .idle ∧ (t.emitters.get c).desc = none) ∧
    t.arbiter.response = none ∧ t.arbiter.notice = none) ∧
  (t.engine.state = .idle ∧ t.engine.queue = [] ∧ t.engine.inHand = none ∧ t.engine.owner = .unowned ∧
    t.engine.lease = 15000 ∧ t.engine.cache = none ∧ t.engine.counters = ⟨0, 0, 0, 0, 0, 0⟩) ∧
  ((∀ k, t.events.records.get k = ⟨false, 0, false, 0, none, 0⟩) ∧ t.events.floor = 0 ∧ t.events.timeout = 500 ∧
    t.events.retries = 3 ∧ t.events.stack = [] ∧ t.events.sequence = 0 ∧ (∀ i, t.events.bindings.get i = none) ∧
    (∀ i, t.events.canned.get i = none) ∧ t.events.faults = [] ∧ t.events.overflow = false ∧ t.events.misses = 0 ∧
    t.events.abandoned = 0)

/-! ### How a request is answered -/

/-- The octets of a response: node address, 80h, id octet, tag, kind, status, results (R153, R203). -/
def responseOctets (s : State) (request : List Byte) (status : Status) (results : List Byte) : List Byte :=
  [s.nodeAddress.zeroExtend 8, 0x80, at0 request 1, at0 request 2, at0 request 3, status.code] ++ results

/-- `s` with the request in hand answered: requests executed up by one, requests refused too if the status is not OK,
the response recorded in the duplicate cache if it is to be, the engine in HOLDING with no request in hand, the response
offered and one more attempt of the arbiter due (R134, R135, R153, R154). -/
def answered (request : List Byte) (status : Status) (results : List Byte) (recorded : Bool) (s : State) : State :=
  { s with
    engine := { s.engine with
      state := .holding
      inHand := none
      cache := if recorded then
          some ⟨requestId request, requestTag request, responseOctets s request status results⟩
        else s.engine.cache
      counters := { s.engine.counters with
        executed := s.engine.counters.executed + 1
        refused := if status = .ok then s.engine.counters.refused else s.engine.counters.refused + 1 } }
    arbiter := { s.arbiter with response := some ⟨responseOctets s request status results, false⟩ }
    owed := { s.owed with attempts := s.owed.attempts + 1 } }

/-- `s` with an occurrence of an unbound kind recorded and the selection made anew (R182, R185). -/
def recorded (k : EventKind) (detail : Option (List Byte)) (s : State) : State :=
  selectNotice { s with events := { s.events with
    records := s.events.records.change k.num fun r =>
      { r with pending := true, repeatCount := if r.repeatCount = 255 then 255 else r.repeatCount + 1
               detail := detail, lastTick := s.tickCounter } } }

/-! ### Storage -/

/-- `s` with the waiting requesters informed: one more attempt of the arbiter due if an offer is held (R77, R135). -/
def informed (s : State) : State :=
  if s.arbiter.response = none ∧ s.arbiter.notice = none then s
  else { s with owed := { s.owed with attempts := s.owed.attempts + 1 } }

/-- `s` with the message of a descriptor freed: its chain at the tail of the free segments, the descriptor at the tail of
the free descriptors, the held count of its circuit lowered, and the waiting requesters informed (R78). -/
def released (d : DescNo) (x : Descriptor) (s : State) : State :=
  informed { s with
    circuits := s.circuits.change x.circuit fun r => { r with held := r.held - x.chain.length }
    pool := { s.pool with
      freeSegs := s.pool.freeSegs ++ x.chain
      freeDescs := s.pool.freeDescs ++ [d]
      descs := s.pool.descs.put d none } }

/-- The counters of a circuit changed. -/
def counted (c : Circuit) (f : CircuitCounters → CircuitCounters) (s : State) : State :=
  { s with circuits := s.circuits.change c fun r => { r with counters := f r.counters } }

/-! ### The tributary link -/

/-- A T-frame with its check (R201, R205). -/
def frameOctets (type : Byte) (payload : List Byte) : List Byte :=
  let covered := [type, octet (payload.length / 256), octet payload.length] ++ payload
  [0xA5] ++ covered ++ [octet ((crcOf covered).toNat / 256), octet (crcOf covered).toNat]

/-- `s` with the head of class queue `q` in delivery: its descriptor DELIVERING, one credit spent, its DELIVER frame on
the line (R91, R121, R205). -/
def deliveryStarted (q : Class) (d : DescNo) (rest : List DescNo) (x : Descriptor) (seq : BitVec 4) (stamp : Word)
    (s : State) : State :=
  { s with
    pool := { s.pool with descs := s.pool.descs.put d (some { x with state := .delivering }) }
    delivery := { s.delivery with
      queues := s.delivery.queues.put q rest, inDelivery := some d, credits := s.delivery.credits - 1 }
    trib := { s.trib with
      tx := .sendingDeliver
      frame := frameOctets 0x01 ([octet x.circuit.val, octet x.cls.val, flagOctet x.mark, octet seq.toNat,
        octet (stamp.toNat / 256), octet stamp.toNat, octet x.length] ++ bodyOf s x) } }

/-- The search of R90, row by row: begun at a class with certain deficits, it ends at a class with certain deficits. -/
inductive Search (heads : Table (Option Nat) 3) (quanta : Table Nat 3) : Lane → Table Nat 3 → Lane → Table Nat 3 → Prop
  /-- The queue is empty: its deficit becomes 0 and the pointer moves on. -/
  | empty {l l' : Lane} {deficits deficits' : Table Nat 3} : heads.get l = none →
      Search heads quanta (l + 1) (deficits.put l 0) l' deficits' → Search heads quanta l deficits l' deficits'
  /-- The head is no longer than the deficit: it is chosen and the pointer stays. -/
  | chosen {l : Lane} {deficits : Table Nat 3} {length : Nat} : heads.get l = some length → length ≤ deficits.get l →
      Search heads quanta l deficits l (deficits.put l (deficits.get l - length))
  /-- The head is longer than the deficit: the deficit rises by the quantum and the pointer moves on. -/
  | earned {l l' : Lane} {deficits deficits' : Table Nat 3} {length : Nat} : heads.get l = some length →
      deficits.get l < length →
      Search heads quanta (l + 1) (deficits.put l (deficits.get l + quanta.get l)) l' deficits' →
      Search heads quanta l deficits l' deficits'

/-- `s` with an ADD refused: counted against its circuit, or as out of range, ADD_REJECT handed to the event unit, and a
reject entry queued unless 8 wait (R115, R119). -/
def addRefused (tag circuit code : Byte) (reason : RejectReason) (s : State) : State :=
  let refused : State := { s with
    events := { s.events with inbox := s.events.inbox ++ [⟨.addReject, some [circuit, code], []⟩] }
    trib := { s.trib with
      rejects := if s.trib.rejects.length < 8 then s.trib.rejects ++ [⟨tag, circuit, reason⟩] else s.trib.rejects
      counters := { s.trib.counters with
        rejectsUnsent := if s.trib.rejects.length < 8 then s.trib.counters.rejectsUnsent
          else s.trib.counters.rejectsUnsent + 1
        rejectsOutOfRange := if circuit.toNat < 96 then s.trib.counters.rejectsOutOfRange
          else s.trib.counters.rejectsOutOfRange + 1 } } }
  match circuitOf circuit with
  | some c => counted c (fun k => { k with addRejects := k.addRejects + 1 }) refused
  | none => refused

/-! ### The laws -/

/-- The octets of the segments stand in canonical form. -/
def StoreLaw (s : State) : Prop := s.pool.store.wf = true

/-- The active bank drops and inserts circuit 0; the standby bank does so whenever a swap or a revert may make it
active (R26, R29). -/
def PlanLaw (s : State) : Prop :=
  planLack s.slot.activePlan = none ∧ (s.slot.swap ≠ .idle → planLack s.slot.standbyPlan = none)

/-- The segments in the chains of the descriptors that are not FREE. -/
def chained (descs : Table (Option Descriptor) Config.descriptors) : List Segment :=
  descs.cells.flatMap fun x => (x.map (·.chain)).getD []

/-- The total chain length of the descriptors of a circuit that are not FREE (R80). -/
def chainTotal (c : Circuit) (descs : Table (Option Descriptor) Config.descriptors) : Nat :=
  (descs.cells.map fun x => match x with
    | some y => if y.circuit = c then y.chain.length else 0
    | none => 0).sum

/-- Every segment is free or in one chain, once (R66); a descriptor is on the free list, once, exactly when it is FREE
(R67); each held count is the total chain length of its circuit and is within the quota (R80). -/
def PoolLaw (s : State) : Prop :=
  (∀ g, s.pool.freeSegs.count g + (chained s.pool.descs).count g = 1) ∧
  (∀ d, s.pool.freeDescs.count d = if s.pool.descs.get d = none then 1 else 0) ∧
  (∀ c, (s.circuits.get c).held = chainTotal c s.pool.descs) ∧
  (∀ c, (s.circuits.get c).held ≤ (s.circuits.get c).quota)

/-- Every setting is in the range its request allows (R42, R81, R102, R148, R174). -/
def SettingsLaw (s : State) : Prop :=
  (∀ c, 8 ≤ (s.circuits.get c).quota ∧ (s.circuits.get c).quota ≤ 1536 ∧ (s.circuits.get c).stallLimit ≤ 1000 ∧
    1 ≤ (s.circuits.get c).addDepth ∧ (s.circuits.get c).addDepth ≤ 16) ∧
  s.pool.segReserve ≤ 255 ∧ s.pool.descReserve ≤ 63 ∧
  (∀ l, 32 ≤ s.delivery.quanta.get l ∧ s.delivery.quanta.get l ≤ 2048) ∧ (∀ q, s.delivery.ageLimits.get q ≤ 1000) ∧
  s.delivery.stallLimit ≤ 1000 ∧
  (s.engine.lease = 0 ∨ (50 ≤ s.engine.lease ∧ s.engine.lease ≤ 60000)) ∧
  10 ≤ s.events.timeout ∧ s.events.timeout ≤ 5000 ∧ s.events.retries ≤ 7

/-- Credits, reject queue, request queue, add queues and fault list are within their bounds, and the fault list names
no circuit twice (R87, R119, R124, R142, R197). -/
def CapacityLaw (s : State) : Prop :=
  s.delivery.credits ≤ 32 ∧ s.trib.rejects.length ≤ 8 ∧ s.engine.queue.length ≤ 4 ∧
  (∀ c, (s.addQueues.get c).length ≤ queueDepth s c) ∧
  s.events.faults.length ≤ 16 ∧ (s.events.faults.map (·.circuit)).Nodup

/-- The notice stack holds at most 4 entries, its levels rise strictly from bottom to top and no kind stands in it
twice (R184); a new offer stands above every entry and is of a kind not on the stack (R185). -/
def StackLaw (s : State) : Prop :=
  s.events.stack.length ≤ 4 ∧
  s.events.stack.Pairwise (fun above below => below.level < above.level) ∧
  (s.events.stack.map (·.kind)).Nodup ∧
  (∀ o, s.arbiter.notice = some o → o.resend = false →
    s.events.stack.length < 4 ∧ ∀ e ∈ s.events.stack, e.level < o.level ∧ e.kind ≠ o.kind)

/-- At most one binding in use names a kind, and none names BINDING_MISS (R193). -/
def BindingLaw (s : State) : Prop :=
  (∀ i j x y, s.events.bindings.get i = some x → s.events.bindings.get j = some y → x.kind = y.kind → i = j) ∧
  (∀ i x, s.events.bindings.get i = some x → x.kind ≠ .bindingMiss)

end Sys2Proof.Machine
end

