-- ==== Sys2Proof/Certificates/Slice0/Obligations.lean ====
section
/-!
DEFINITION. The statements about the part, for the provers. Each names the rule of spec/ it formalises or rests on, and
the log entry where a clause rests on one.
-/

open Sys2Proof Sys2Proof.Machine

/-! ### The machine -/

/-- For every command c and every state, a step with c at the front of the queue is exec of c with the queue's rest;
with no command waiting the step leaves the state as it is (both the model's choice, log entry 3). -/
def Obligations.StepTakesFrontCommand : Prop :=
  (∀ (c : Instr) (rest : List Instr) (s : State), step (s.withPending (c :: rest)) = exec c (s.withPending rest)) ∧
  (∀ s : State, s.pending = [] → step s = .next s)

/-- What a command finds is what the rows of the steps owed leave, taken one after the other in the model's order: the
second part of an attempt begun, the attempts, each stall, the confirm window, the age check, CREDIT_STALL, OWNER_LOST and
NOTICE_TIMEOUT, and after each of these the attempts it has made due. A command that is none of these rows, and none of the
three of power and RST_N, does on a running part what it does on the state the first of them leaves. The attempts come
before a row of a step fallen due as well, one for each occasion; they are followed for as many as are due and 1024 more
(the order is log entry 6's, the attempts and their bound log entry 7's) (R18, R135). -/
def Obligations.WhatIsOwedComesFirst : Prop :=
  (∀ (i : Instr) (s t : State), actsFirst i = false → s.pins.rstN = true → s.events.inbox = [] →
     let first (row : Instr) : Prop := exec row s = .next t → exec i s = exec i t
     (s.owed.partTwo = true → first .responseAdmitted) ∧
     (s.owed.partTwo = false → s.owed.attempts = 0 →
       (∀ c rest, s.owed.stalls = c :: rest → first (.stall c.val)) ∧
       (s.owed.stalls = [] → s.owed.confirm = true → first .confirmWindowExpiry) ∧
       (∀ q : Machine.Class, s.owed.stalls = [] → s.owed.confirm = false → s.owed.ages = true →
         (∀ p, p < q → headOverAge s p = false) → (headOverAge s q = true ∨ ∀ p, headOverAge s p = false) →
         first (.ageOut q.val)) ∧
       (∀ n, s.owed.stalls = [] → s.owed.confirm = false → s.owed.ages = false → s.owed.creditStall = some n →
         first .creditStall) ∧
       (s.owed.stalls = [] → s.owed.confirm = false → s.owed.ages = false → s.owed.creditStall = none →
         (s.owed.ownerLost = true → first .ownerLost) ∧
         (s.owed.ownerLost = false → s.owed.noticeTimeout = true → first .noticeTimeout)))) ∧
  (∀ (i : Instr) (n : Nat) (run : Nat → State), attemptsComeFirst i = true → (run 0).pins.rstN = true →
     (run 0).events.inbox = [] → (run 0).owed.partTwo = false → n ≤ (run 0).owed.attempts + 1024 →
     (∀ m, m < n → (run m).owed.attempts ≠ 0 ∧ exec .responseAdmitted (run m) = .next (run (m + 1))) →
     (run n).owed.attempts = 0 → exec i (run 0) = exec i (run n))

/-- Every command completes in every state, and leaves the queue of commands as it finds it (log entries 3 and 4). -/
def Obligations.EveryCommandCompletes : Prop :=  ∀ (i : Instr) (s : State), ∃ t, exec i s = .next t ∧ t.pending = s.pending

/-- While RST_N is low an octet that arrives is sent on as it is, the four rows of TI_LP and TB_RDY move their pins, and
every other row but the three of power and RST_N changes nothing (R3, R107; what the rows do then is the model's reading,
log entry 15). -/
def Obligations.RstLowHoldsThePart : Prop :=  ∀ s : State, s.pins.rstN = false →
    (∀ b, exec (.octetArrival b) s = .next { s with toData := b }) ∧
    exec .tiLpFall s = .next { s with pins := { s.pins with tiLp := false } } ∧
    exec .tiLpRise s = .next { s with pins := { s.pins with tiLp := true } } ∧
    exec .readyFall s = .next { s with pins := { s.pins with tbRdy := false } } ∧
    exec .readyRise s = .next { s with pins := { s.pins with tbRdy := true } } ∧
    (∀ i : Instr, (∀ straps linePresent ready, i ≠ .powerOnReset straps linePresent ready) → i ≠ .resetPin →
      (∀ straps, i ≠ .rstNRise straps) → (∀ b, i ≠ .octetArrival b) →
      i ∉ [.tiLpFall, .tiLpRise, .readyFall, .readyRise] → exec i s = .next s)

/-! ### Resets -/

/-- Power-on reset, the reset pin, the rise of RST_N and the FULL reset in effect put every block at its reset values,
sample the straps where the rules say so, and leave the queue and the other pins; the node address is the strap value
plus one, and 63 for 63 (holding the address while RST_N is low is the model's reading, log entry 14) (R3, R17, R24,
R25, R31, R43, R84, R105, R123, R140, R159, R199). -/
def Obligations.ResetsSetEveryBlock : Prop :=
  (∀ (straps : BitVec 6) (linePresent ready : Bool) (s : State),
     (∃ t, exec (.powerOnReset straps linePresent ready) s = .next t ∧ t.pending = s.pending ∧
       t.pins = ⟨true, linePresent, ready, straps⟩ ∧ ResetValues (addressOfStraps straps) ready t) ∧
     (∃ t, exec .resetPin s = .next t ∧ t.pending = s.pending ∧ t.toData = s.toData ∧
       t.pins = { s.pins with rstN := false } ∧ ResetValues s.nodeAddress s.pins.tbRdy t) ∧
     (s.pins.rstN = false → ∃ t, exec (.rstNRise straps) s = .next t ∧ t.pending = s.pending ∧ t.toData = s.toData ∧
       t.pins = { s.pins with rstN := true, straps := straps } ∧
       ResetValues (addressOfStraps straps) s.pins.tbRdy t) ∧
     (s.pins.rstN = true → exec (.rstNRise straps) s = .next s) ∧
     ((fullReset s).pending = s.pending ∧ (fullReset s).pins = s.pins ∧
       ResetValues (addressOfStraps s.pins.straps) s.pins.tbRdy (fullReset s))) ∧
  (∀ straps : BitVec 6, (addressOfStraps straps).toNat = if straps.toNat = 63 then 63 else straps.toNat + 1)

/-- R105: what a power-on reset, the reset pin and a FULL reset set in the delivery unit. -/
def Obligations.DeliveryUnitAfterResets : Prop :=  ∀ (straps : BitVec 6) (linePresent ready : Bool) (s : State),
    ∀ t, (exec (.powerOnReset straps linePresent ready) s = .next t ∨ exec .resetPin s = .next t ∨ t = fullReset s) →
      (∀ q, t.delivery.queues.get q = []) ∧ t.delivery.inDelivery = none ∧
      (∀ l, t.delivery.deficits.get l = 0) ∧ t.delivery.round = 0 ∧ t.delivery.credits = 0 ∧
      (∀ l, t.delivery.quanta.get l = 256) ∧ (∀ q, t.delivery.ageLimits.get q = 0) ∧ t.delivery.stallLimit = 0 ∧
      t.delivery.stallTimer = 0 ∧ t.delivery.stallReported = false ∧ t.delivery.retries = 0 ∧
      t.delivery.discarded = 0 ∧ (∀ d, t.pool.descs.get d = none)

/-! ### Alignment -/

/-- An octet where the mark of frame f is expected is good when its high nibble is Bh and its low nibble f, or when f
is 15 and the octet DFh, and bad otherwise (R1). -/
def Obligations.MarksAreJudgedByTheTable : Prop :=  ∀ (f : BitVec 4) (b : Byte),
    goodMark f b = true ↔ (b.toNat / 16 = 0xB ∧ b.toNat % 16 = f.toNat) ∨ (f.toNat = 15 ∧ b.toNat = 0xDF)

/-- In SEARCH an octet is repeated and, while TI_LP is high, a candidate enters VERIFY; VERIFY counts slots, accepts
the second good mark, returns to SEARCH on a bad one and locks on the third good one, with ALIGN_GAINED recorded with
no detail and the slot engine told, its swap state as it was (frame and slot counters at 0 after the return are the
model's reading, log entry 16) (R2, R4, R5, R6, R7, R12, R35). -/
def Obligations.AlignmentIsGained : Prop :=
  (∀ (b : Byte) (s : State), Quiet s → s.align.state = .search →
     (s.pins.tiLp = false → exec (.octetArrival b) s = .next { s with toData := b }) ∧
     (b.toNat / 16 ≠ 0xB → b.toNat ≠ 0xDF → exec (.octetArrival b) s = .next { s with toData := b }) ∧
     (∀ f : BitVec 4, s.pins.tiLp = true → (b.toNat / 16 = 0xB ∧ b.toNat % 16 = f.toNat) ∨ (b.toNat = 0xDF ∧ f = 15) →
       exec (.octetArrival b) s = .next { s with
         toData := b
         align := { s.align with state := .verify, frame := f, slot := 0, verifyCount := 1 } })) ∧
  (∀ (b : Byte) (s : State), Quiet s →
     (s.align.state = .verify → s.align.slot ≠ 63 →
       exec (.octetArrival b) s = .next { s with toData := b, align := { s.align with slot := s.align.slot + 1 } }) ∧
     (∀ f, MarkNext .verify f s → goodMark f b = true → s.align.verifyCount = 1 →
       exec (.octetArrival b) s = .next { s with
         toData := b, align := { s.align with frame := f, slot := 0, verifyCount := 2 } }) ∧
     (∀ f, MarkNext .verify f s → goodMark f b = false →
       exec (.octetArrival b) s = .next { s with
         toData := b
         align := { s.align with state := .search, frame := 0, slot := 0, verifyCount := 1, badCount := 0
                                 badMarks := s.align.badMarks + 1 } })) ∧
  (∀ (f : BitVec 4) (b : Byte) (s : State), Quiet s → MarkNext .verify f s → goodMark f b = true →
     s.align.verifyCount = 2 → Unbound .alignGained s →
       exec (.octetArrival b) s = .next (recorded .alignGained none { s with
         toData := b
         align := { s.align with state := .locked, frame := f, slot := 0, badCount := 0 }
         slot := { s.slot with aligned := true } }))

/-- A good mark in LOCKED or HOLDOVER keeps or restores LOCKED, and a switch mark sets the latch; a bad mark below the
fourth in succession gives HOLDOVER. The fourth gives SEARCH with ALIGN_LOST of detail 4, the latch cleared, both counters
raised and the slot engine unaligned; an armed swap of mode NEXT is then performed and a pending revert made, after
ALIGN_LOST is recorded (log entry 8), and in the other swap states nothing more changes (R8, R9, R10, R15, R32, R33, R35).
Frame and slot counters at 0 after the return to SEARCH are the model's reading (log entry 16). -/
def Obligations.MarksHoldAlignment : Prop :=
  (∀ (state : AlignState) (f : BitVec 4) (b : Byte) (s : State), Quiet s → state = .locked ∨ state = .holdover →
     MarkNext state f s →
     (goodMark f b = true →
       exec (.octetArrival b) s = .next { s with
         toData := b
         align := { s.align with state := .locked, frame := f, slot := 0, badCount := 0
                                 latch := s.align.latch || b == 0xDF } }) ∧
     (∀ n, goodMark f b = false → (state = .locked ∧ n = 1) ∨ (state = .holdover ∧ n = s.align.badCount + 1) → n < 4 →
       exec (.octetArrival b) s = .next { s with
         toData := b
         align := { s.align with state := .holdover, frame := f, slot := 0, badCount := n
                                 badMarks := s.align.badMarks + 1 } })) ∧
  (∀ (f : BitVec 4) (b : Byte) (s : State), Quiet s → MarkNext .holdover f s → goodMark f b = false →
     s.align.badCount = 3 → Unbound .alignLost s →
     let other := s.slot.active.other
     let lost (slot : SlotEngine) : State := recorded .alignLost (some [4]) { s with
       toData := b
       align := { s.align with state := .search, frame := 0, slot := 0, verifyCount := 1, badCount := 0
                               latch := false, badMarks := s.align.badMarks + 1, losses := s.align.losses + 1 }
       slot := { slot with aligned := false } }
     (s.slot.swap = .idle ∨ s.slot.swap = .armedSignal ∨ s.slot.swap = .confirmWait →
       exec (.octetArrival b) s = .next (lost s.slot)) ∧
     (∀ record, s.slot.swap = .armedNext → s.slot.armed = some record → Unbound .swapDone s →
       exec (.octetArrival b) s = .next (recorded .swapDone (some [other.code, record.cause.code]) (lost { s.slot with
         active := other, armed := none
         swap := if record.window = 0 then .idle else .confirmWait
         countdown := if record.window = 0 then none else some record.window }))) ∧
     (s.slot.swap = .revertPending → Unbound .swapDone s → Unbound .swapReverted s →
       exec (.octetArrival b) s = .next (recorded .swapReverted (some [other.code]) (recorded .swapDone (some [other.code, 2])
         (lost { s.slot with active := other, swap := .idle, countdown := none })))))

/-- TI_LP falls and rises: SEARCH at once, from LOCKED and HOLDOVER with ALIGN_LOST of the bad count, and with an armed swap
of mode NEXT performed and a pending revert made after ALIGN_LOST is recorded (log entry 8); no event from VERIFY or SEARCH
or at a rise (R10, R11, R12, R32, R33, R35). Frame and slot counters at 0 after the return are the model's reading (log
entry 16), as is what a fall or a rise of a level already there does (log entry 26). -/
def Obligations.LinePresenceIsTaken : Prop :=  ∀ s : State, Quiet s →
    (s.align.state = .locked ∨ s.align.state = .holdover → Unbound .alignLost s →
      let other := s.slot.active.other
      let lost (slot : SlotEngine) : State := recorded .alignLost (some [octet s.align.badCount]) { s with
        pins := { s.pins with tiLp := false }
        align := { s.align with state := .search, frame := 0, slot := 0, verifyCount := 1, badCount := 0
                                latch := false, losses := s.align.losses + 1 }
        slot := { slot with aligned := false } }
      (s.slot.swap = .idle ∨ s.slot.swap = .armedSignal ∨ s.slot.swap = .confirmWait →
        exec .tiLpFall s = .next (lost s.slot)) ∧
      (∀ record, s.slot.swap = .armedNext → s.slot.armed = some record → Unbound .swapDone s →
        exec .tiLpFall s = .next (recorded .swapDone (some [other.code, record.cause.code]) (lost { s.slot with
          active := other, armed := none
          swap := if record.window = 0 then .idle else .confirmWait
          countdown := if record.window = 0 then none else some record.window }))) ∧
      (s.slot.swap = .revertPending → Unbound .swapDone s → Unbound .swapReverted s →
        exec .tiLpFall s = .next (recorded .swapReverted (some [other.code]) (recorded .swapDone (some [other.code, 2])
          (lost { s.slot with active := other, swap := .idle, countdown := none }))))) ∧
    (s.align.state = .verify →
      exec .tiLpFall s = .next { s with
        pins := { s.pins with tiLp := false }
        align := { s.align with state := .search, frame := 0, slot := 0, verifyCount := 1, badCount := 0 } }) ∧
    (s.align.state = .search → exec .tiLpFall s = .next { s with pins := { s.pins with tiLp := false } }) ∧
    exec .tiLpRise s = .next { s with pins := { s.pins with tiLp := true } }

/-- Where no position is handed on, and at a mark place, the octet sent is the octet that arrived, whatever the part
owes (R2). -/
def Obligations.TrunkOutRepeatsTrunkIn : Prop :=  ∀ (b : Byte) (s : State),
    s.pins.rstN = false ∨ s.align.state = .search ∨ s.align.state = .verify ∨ s.align.slot = 63 →
      ∃ t, exec (.octetArrival b) s = .next t ∧ t.toData = b

/-! ### The slot plan -/

/-- A payload octet before position 1007 is handled by the entry of its position: PASS and the entries of a STOPPED
circuit touch nothing but trunk-out, TAP and TAKE of an ACTIVE circuit give the octet to its context, INSERT sends
what its emitter supplies (R13, R21, R22). -/
def Obligations.EntriesHandlePayload : Prop :=  ∀ (b : Byte) (p : Nat) (c : Circuit) (s : State), Quiet s → p < 1007 →
    let here : State := { s with align := { s.align with slot := s.align.slot + 1 } }
    (PayloadNext p ⟨.pass, c⟩ s → exec (.octetArrival b) s = .next { here with toData := b }) ∧
    ((s.circuits.get c).active = false →
      (PayloadNext p ⟨.tap, c⟩ s → exec (.octetArrival b) s = .next { here with toData := b }) ∧
      (PayloadNext p ⟨.take, c⟩ s → exec (.octetArrival b) s = .next { here with toData := 0xC3 }) ∧
      (PayloadNext p ⟨.insert, c⟩ s → exec (.octetArrival b) s = .next { here with toData := 0xC3 })) ∧
    ((s.circuits.get c).active = true →
      (PayloadNext p ⟨.tap, c⟩ s →
        exec (.octetArrival b) s = .next (takeOccurrences { receiveOctet c b here with toData := b })) ∧
      (PayloadNext p ⟨.take, c⟩ s →
        exec (.octetArrival b) s = .next (takeOccurrences { receiveOctet c b here with toData := 0xC3 })) ∧
      (PayloadNext p ⟨.insert, c⟩ s →
        exec (.octetArrival b) s =
          .next (takeOccurrences { (emitterSupply c here).2 with toData := (emitterSupply c here).1 })))

/-- After the octet of position 1007 the boundary is announced with the latch, which is then cleared. It performs an armed
swap of mode NEXT, and one of mode SIGNAL if the latch is set, with SWAP_DONE of the bank now active and the cause; it
makes a pending revert, with SWAP_DONE of cause REVERT and then SWAP_REVERTED; in IDLE and CONFIRM_WAIT it changes nothing.
It comes whatever entry handles the octet, before the occurrences that octet raises are taken (the model's choice, log
entry 27), and not where the octet brings a FULL reset into effect (R13, R14, R21, R22, R32, R33, R36). -/
def Obligations.BoundariesTakeTheSwap : Prop :=
  (∀ (b : Byte) (c : Circuit) (s : State), Quiet s → PayloadNext 1007 ⟨.pass, c⟩ s →
     let other := s.slot.active.other
     let after (slot : SlotEngine) : State :=
       { s with toData := b, align := { s.align with slot := 63, latch := false }, slot := slot }
     (∀ record, s.slot.swap = .armedNext ∨ (s.slot.swap = .armedSignal ∧ s.align.latch = true) →
       s.slot.armed = some record → Unbound .swapDone s →
       exec (.octetArrival b) s = .next (recorded .swapDone (some [other.code, record.cause.code]) (after { s.slot with
         active := other, armed := none
         swap := if record.window = 0 then .idle else .confirmWait
         countdown := if record.window = 0 then none else some record.window }))) ∧
     (s.slot.swap = .idle ∨ s.slot.swap = .confirmWait ∨ (s.slot.swap = .armedSignal ∧ s.align.latch = false) →
       exec (.octetArrival b) s = .next (after s.slot)) ∧
     (s.slot.swap = .revertPending → Unbound .swapDone s → Unbound .swapReverted s →
       exec (.octetArrival b) s = .next (recorded .swapReverted (some [other.code]) (recorded .swapDone (some [other.code, 2])
         (after { s.slot with active := other, swap := .idle, countdown := none }))))) ∧
  (∀ (b : Byte) (c : Circuit) (s : State), Quiet s →
     let here : State := { s with align := { s.align with slot := 63 } }
     let announced (t : State) : State := if t.align.state = .search then t
       else slotBoundary t.align.latch { t with align := { t.align with latch := false } }
     ((s.circuits.get c).active = false →
       (PayloadNext 1007 ⟨.tap, c⟩ s → exec (.octetArrival b) s = .next (takeOccurrences { announced here with toData := b })) ∧
       (PayloadNext 1007 ⟨.take, c⟩ s ∨ PayloadNext 1007 ⟨.insert, c⟩ s →
         exec (.octetArrival b) s = .next (takeOccurrences { announced here with toData := 0xC3 }))) ∧
     ((s.circuits.get c).active = true →
       (PayloadNext 1007 ⟨.tap, c⟩ s → exec (.octetArrival b) s =
         .next (takeOccurrences { announced (receiveOctet c b here) with toData := b })) ∧
       (PayloadNext 1007 ⟨.take, c⟩ s → exec (.octetArrival b) s =
         .next (takeOccurrences { announced (receiveOctet c b here) with toData := 0xC3 })) ∧
       (PayloadNext 1007 ⟨.insert, c⟩ s → exec (.octetArrival b) s =
         .next (takeOccurrences { announced (emitterSupply c here).2 with toData := (emitterSupply c here).1 })))) ∧
  (∀ (withSwitch : Bool) (s : State),
     let other := s.slot.active.other
     let handed (l : List Occurrence) (slot : SlotEngine) : State :=
       { s with slot := slot, events := { s.events with inbox := s.events.inbox ++ l } }
     (s.slot.swap = .idle ∨ s.slot.swap = .confirmWait ∨ (s.slot.swap = .armedSignal ∧ withSwitch = false) →
       slotBoundary withSwitch s = s) ∧
     (∀ record, s.slot.swap = .armedNext ∨ (s.slot.swap = .armedSignal ∧ withSwitch = true) → s.slot.armed = some record →
       slotBoundary withSwitch s = handed [⟨.swapDone, some [other.code, record.cause.code], []⟩] { s.slot with
         active := other, armed := none
         swap := if record.window = 0 then .idle else .confirmWait
         countdown := if record.window = 0 then none else some record.window }) ∧
     (s.slot.swap = .revertPending → slotBoundary withSwitch s =
       handed [⟨.swapDone, some [other.code, 2], []⟩, ⟨.swapReverted, some [other.code], []⟩]
         { s.slot with active := other, swap := .idle, countdown := none }))

/-- READ_PLAN returns the entries of the bank named, or RANGE. WRITE_PLAN taken in IDLE writes its entries into the
standby bank at their positions and nothing else; out of range it is RANGE and in another swap state STATE, and writes
nothing. The octets carry entries of two octets each, an action and a circuit of 0 to 95, and a PASS entry is held with
circuit 0 (R20, R27, R164). -/
def Obligations.PlansAreReadAndWritten : Prop :=
  (∀ (octets : List Byte) (entries : List PlanEntry), planEntriesOf octets = some entries ↔
     octets.length = 2 * entries.length ∧ ∀ j, j < entries.length →
       let a := octets.getD (2 * j) 0
       let c := octets.getD (2 * j + 1) 0
       let e := entries.getD j ⟨.pass, 0⟩
       c.toNat ≤ 95 ∧ ((a = 0 ∧ e.action = .pass ∧ e.circuit = 0) ∨
         (e.circuit.val = c.toNat ∧
           ((a = 1 ∧ e.action = .tap) ∨ (a = 2 ∧ e.action = .take) ∨ (a = 3 ∧ e.action = .insert))))) ∧
  (∀ (letter high low n : Byte) (request : List Byte) (s : State), Quiet s → InHand .readPlan request s →
     requestParams request = [letter, high, low, n] →
     let first := high.toNat * 256 + low.toNat
     let inRange := first ≤ 1007 ∧ 1 ≤ n.toNat ∧ n.toNat ≤ 32 ∧ first + n.toNat ≤ 1008
     (∀ bank, Bank.ofCode letter = some bank → inRange →
       exec .readPlan s = .next (answered request .ok
         ([letter, high, low, n] ++ ((s.slot.plan bank).cells.drop first |>.take n.toNat).flatMap fun e =>
           [e.action.code, octet e.circuit.val]) true s)) ∧
     (Bank.ofCode letter = none ∨ ¬ inRange → exec .readPlan s = .next (answered request .range [] true s))) ∧
  (∀ (high low n : Byte) (octets : List Byte) (request : List Byte) (s : State), Quiet s →
     InHand .writePlan request s → requestParams request = high :: low :: n :: octets →
     let first := high.toNat * 256 + low.toNat
     let inRange := first ≤ 1007 ∧ 1 ≤ n.toNat ∧ n.toNat ≤ 32 ∧ first + n.toNat ≤ 1008
     (∀ entries, planEntriesOf octets = some entries → inRange → entries.length = n.toNat →
       (s.slot.swap = .idle → ∃ t, exec .writePlan s = .next t ∧
         t = answered request .ok [high, low, n] true { s with slot := t.slot } ∧
         t.slot = s.slot.setPlan s.slot.active.other t.slot.standbyPlan ∧
         ∀ p, planEntry t.slot.standbyPlan p =
           if first ≤ p ∧ p < first + n.toNat then entries.getD (p - first) ⟨.pass, 0⟩
           else planEntry s.slot.standbyPlan p) ∧
       (s.slot.swap ≠ .idle → exec .writePlan s = .next (answered request .state [] true s))) ∧
     (planEntriesOf octets = none ∨ ¬ inRange ∨ (∃ entries, planEntriesOf octets = some entries ∧
         entries.length ≠ n.toNat) →
       exec .writePlan s = .next (answered request .range [] true s)))

/-- COPY_PLAN taken in IDLE copies every entry of the active bank into the standby bank, so that the banks are equal,
and changes nothing else but the answer; in another swap state it is refused with STATE and the banks are unchanged
(R28). -/
def Obligations.CopyPlanCopiesTheActiveBank : Prop :=  ∀ (request : List Byte) (s : State), Quiet s → InHand .copyPlan request s →
    (s.slot.swap = .idle → ∃ t, exec .copyPlan s = .next t ∧
      t = answered request .ok [] true { s with slot := t.slot } ∧
      t.slot = s.slot.setPlan s.slot.active.other s.slot.activePlan ∧
      (∀ p : Fin 1008, t.slot.standbyPlan.get p = s.slot.activePlan.get p) ∧ t.slot.bankA = t.slot.bankB) ∧
    (s.slot.swap ≠ .idle → exec .copyPlan s = .next (answered request .state [] true s))

/-- ARM_SWAP: RANGE, STATE and INVALID_PLAN in that order change nothing; one accepted is recorded with cause REQUEST,
and one of mode NEXT is performed at once when unaligned. CANCEL_SWAP withdraws an armed swap and CONFIRM_SWAP ends a
confirm window; in every other swap state each is refused with STATE and changes nothing. A plan lacks a drop
where no entry is TAP or TAKE of circuit 0, and else an insert where none is INSERT of circuit 0 (R26, R30, R34, R35, R37,
R166). -/
def Obligations.SwapRequestsAreAnswered : Prop :=
  (∀ plan : Plan,
     let drops := ∃ p : Fin 1008, ((plan.get p).action = .tap ∨ (plan.get p).action = .take) ∧ (plan.get p).circuit = 0
     let inserts := ∃ p : Fin 1008, (plan.get p).action = .insert ∧ (plan.get p).circuit = 0
     (planLack plan = some .missingDrop ↔ ¬ drops) ∧ (planLack plan = some .missingInsert ↔ drops ∧ ¬ inserts) ∧
     (planLack plan = none ↔ drops ∧ inserts)) ∧
  (∀ (mode high low : Byte) (request : List Byte) (s : State), Quiet s → InHand .armSwap request s →
     requestParams request = [mode, high, low] →
     let w := high.toNat * 256 + low.toNat
     let inRange := mode.toNat ≤ 1 ∧ (w = 0 ∨ (10 ≤ w ∧ w ≤ 5000))
     (¬ inRange → exec .armSwap s = .next (answered request .range [] true s)) ∧
     (inRange → s.slot.swap ≠ .idle →
       exec .armSwap s = .next (answered request .state [s.slot.swap.code, s.slot.active.code] true s)) ∧
     (∀ lack, inRange → s.slot.swap = .idle → planLack s.slot.standbyPlan = some lack →
       exec .armSwap s = .next (answered request .invalidPlan [lack.code] true s)) ∧
     (inRange → s.slot.swap = .idle → planLack s.slot.standbyPlan = none →
       (mode = 1 → exec .armSwap s = .next (answered request .ok [2, s.slot.active.code] true
         { s with slot := { s.slot with swap := .armedSignal, armed := some ⟨.signal, w, .request⟩ } })) ∧
       (mode = 0 → s.slot.aligned = true → exec .armSwap s = .next (answered request .ok [1, s.slot.active.code] true
         { s with slot := { s.slot with swap := .armedNext, armed := some ⟨.next, w, .request⟩ } })) ∧
       (mode = 0 → s.slot.aligned = false → Unbound .swapDone s → ∃ t, exec .armSwap s = .next t ∧
         t.slot = { s.slot with
           active := s.slot.active.other, armed := none
           swap := if w = 0 then .idle else .confirmWait, countdown := if w = 0 then none else some w } ∧
         t = recorded .swapDone (some [s.slot.active.other.code, 0])
           (answered request .ok [t.slot.swap.code, t.slot.active.code] true { s with slot := t.slot })))) ∧
  (∀ (request : List Byte) (s : State), Quiet s →
     let ended : State := { s with slot := { s.slot with swap := .idle, armed := none, countdown := none } }
     (InHand .cancelSwap request s →
       (s.slot.swap = .armedNext ∨ s.slot.swap = .armedSignal →
         exec .cancelSwap s = .next (answered request .ok [0, s.slot.active.code] true ended)) ∧
       (s.slot.swap = .idle ∨ s.slot.swap = .confirmWait ∨ s.slot.swap = .revertPending →
         exec .cancelSwap s = .next (answered request .state [s.slot.swap.code, s.slot.active.code] true s))) ∧
     (InHand .confirmSwap request s →
       (s.slot.swap = .confirmWait →
         exec .confirmSwap s = .next (answered request .ok [0, s.slot.active.code] true ended)) ∧
       (s.slot.swap ≠ .confirmWait →
         exec .confirmSwap s = .next (answered request .state [s.slot.swap.code, s.slot.active.code] true s))))

/-- CONFIRM_WINDOW_EXPIRY: REVERT_PENDING when aligned; when unaligned the revert at once, with SWAP_DONE and
SWAP_REVERTED raised (R33). That the step is owed from its tick until its row takes it is the model's choice (log entry 6). -/
def Obligations.ConfirmWindowExpires : Prop :=  ∀ s : State, Owing { Owed.none with confirm := true } s → s.slot.swap = .confirmWait →
    (s.slot.aligned = true → exec .confirmWindowExpiry s = .next { s with
      owed := .none, slot := { s.slot with swap := .revertPending, countdown := none } }) ∧
    (s.slot.aligned = false → Unbound .swapDone s → Unbound .swapReverted s →
      exec .confirmWindowExpiry s = .next (recorded .swapReverted (some [s.slot.active.other.code])
        (recorded .swapDone (some [s.slot.active.other.code, 2]) { s with
          owed := .none
          slot := { s.slot with active := s.slot.active.other, swap := .idle, countdown := none } })))

/-! ### Receive contexts -/

/-- A context in HUNT with drop enable on: the opener begins a header with nothing collected, the check preset and the
timer cleared, an idle octet changes nothing, any other octet is a stray (R53). With drop enable off every octet is
discarded (R52). -/
def Obligations.HuntJudgesOctets : Prop :=  ∀ (c : Circuit) (b : Byte) (s : State), (s.contexts.get c).state = .hunt →
    ((s.circuits.get c).dropEnable = true →
      (b = 0x5A → receiveOctet c b s =
        { s with contexts := s.contexts.put c ⟨.head, [], 0, 0, 0, false, none, 0, 0xFFFF, [], 0, 0⟩ }) ∧
      (b = 0xC3 → receiveOctet c b s = s) ∧
      (b ≠ 0x5A → b ≠ 0xC3 → receiveOctet c b s = { s with circuits := s.circuits.change c fun r =>
        { r with counters := { r.counters with strays := r.counters.strays + 1 } } })) ∧
    ((s.circuits.get c).dropEnable = false → receiveOctet c b s = s)

/-- HEAD collects two octets and judges the header they make: a bad one is counted and reported, for a good one
storage is asked, which gives BODY or SKIP (R54, R55, R56). -/
def Obligations.HeadersAreJudged : Prop :=  ∀ (c : Circuit) (b : Byte) (s : State), (s.contexts.get c).state = .head →
    let ctx := s.contexts.get c
    let crc := crcOctet ctx.crc b
    (ctx.header = [] → receiveOctet c b s =
      { s with contexts := s.contexts.put c { ctx with header := [b], crc := crc, timer := 0 } }) ∧
    (∀ L, ctx.header = [L] → L.toNat = 0 ∨ 248 < L.toNat ∨ b.toNat % 2 = 1 →
      receiveOctet c b s = { reportFault c .header { s with
          circuits := s.circuits.change c fun r =>
            { r with counters := { r.counters with headerErrors := r.counters.headerErrors + 1 } } } with
        contexts := s.contexts.put c (.empty .hunt) }) ∧
    (∀ (L : Byte) (cls : Machine.Class) (seq : BitVec 4) (mark : Bool), ctx.header = [L] → 1 ≤ L.toNat → L.toNat ≤ 248 →
      b.toNat = 64 * cls.val + 4 * seq.toNat + (if mark then 2 else 0) →
      let m : NewMessage := ⟨.assembling, c, cls, mark, some seq, L.toNat, .trunk⟩
      (∀ d t, allocate m s = .ok (d, t) → receiveOctet c b s = { t with
        contexts := s.contexts.put c ⟨.body, [L, b], L.toNat, cls, seq, mark, some d, 0, crc, [], 0, 0⟩ }) ∧
      (∀ f, allocate m s = .error f →
        let counted := (raiseRefusal f c L.toNat s).circuits.change c fun r => { r with counters :=
          if f = .quota then { r.counters with skipsQuota := r.counters.skipsQuota + 1 }
          else { r.counters with skipsSpace := r.counters.skipsSpace + 1 } }
        receiveOctet c b s = { reportFault c (if f = .quota then .skipQuota else .skipSpace)
            { raiseRefusal f c L.toNat s with circuits := counted } with
          contexts := s.contexts.put c ⟨.skip, [L, b], L.toNat, cls, seq, mark, none, 0, crc, [], L.toNat + 2, 0⟩ }))

/-- BODY stores each octet at the next place of the chain, takes it into the check and clears the timer; at body count
L the context enters CHECK. Every other octet of the store is as it was (R57). -/
def Obligations.BodyOctetsAreStored : Prop :=  ∀ (c : Circuit) (b : Byte) (d : DescNo) (x : Descriptor) (g : Segment) (s : State), StoreLaw s →
    (s.contexts.get c).state = .body → (s.contexts.get c).desc = some d → s.pool.descs.get d = some x →
    (s.contexts.get c).bodyCount < (s.contexts.get c).length →
    x.chain[(s.contexts.get c).bodyCount / 32]? = some g →
      let ctx := s.contexts.get c
      let address := 32 * g.val + ctx.bodyCount % 32
      ∃ store, receiveOctet c b s = { s with
          contexts := s.contexts.put c { ctx with
            bodyCount := ctx.bodyCount + 1, crc := crcOctet ctx.crc b, timer := 0, checkOctets := []
            state := if ctx.bodyCount + 1 = ctx.length then .check else .body }
          pool := { s.pool with store := store } } ∧
        Memory.read store address = b ∧ ∀ a, a ≠ address → Memory.read store a = Memory.read s.pool.store a

/-- The first check octet is kept and clears the timer. The second ends the message. A match stamps and counts it, judges its sequence and hands it to its
class queue, or for circuit 0 to the request queue, or to overrun; a mismatch is counted, reported and freed (R58 to
R61). -/
def Obligations.CheckEndsAMessage : Prop :=
  (∀ (c : Circuit) (b : Byte) (s : State), (s.contexts.get c).state = .check → (s.contexts.get c).checkOctets = [] →
     receiveOctet c b s =
       { s with contexts := s.contexts.put c { s.contexts.get c with checkOctets := [b], timer := 0 } }) ∧
  (∀ (c : Circuit) (high b : Byte) (d : DescNo) (x : Descriptor) (s : State), (s.contexts.get c).state = .check →
    (s.contexts.get c).checkOctets = [high] → (s.contexts.get c).desc = some d → s.pool.descs.get d = some x →
    let ctx := s.contexts.get c
    let hunting := s.contexts.put c (.empty .hunt)
    let raised (f : CircuitCounters → CircuitCounters) (t : State) : State :=
      { t with circuits := t.circuits.change c fun r => { r with counters := f r.counters } }
    let stamped : State := { s with pool := { s.pool with
      descs := s.pool.descs.put d (some { x with stamp := some s.tickCounter }) } }
    let counted := raised (fun k => { k with received := k.received + 1
                                             octetsReceived := k.octetsReceived + BitVec.ofNat 32 ctx.length }) stamped
    let gap := (s.circuits.get c).seqCheck = true ∧ ∃ e, (s.circuits.get c).expected = some e ∧ e ≠ ctx.seq
    let judged (t : State) : State :=
      { t with circuits := t.circuits.change c fun r => { r with expected := some (ctx.seq + 1) } }
    let handed (t : State) : State :=
      if c = 0 then
        if s.engine.queue.length < 4 then { t with
          engine := { t.engine with queue := s.engine.queue ++ [d] }
          pool := { t.pool with descs := s.pool.descs.put d (some { x with stamp := some s.tickCounter, state := .request }) }
          contexts := hunting }
        else raise .mgmtOverrun none { free d { t with engine := { t.engine with
          counters := { t.engine.counters with overruns := t.engine.counters.overruns + 1 } } } with contexts := hunting }
      else { t with
        delivery := { t.delivery with queues := s.delivery.queues.put ctx.cls (s.delivery.queues.get ctx.cls ++ [d]) }
        pool := { t.pool with descs := s.pool.descs.put d (some { x with stamp := some s.tickCounter, state := .queued }) }
        contexts := hunting }
    (high.toNat * 256 + b.toNat = ctx.crc.toNat → gap → receiveOctet c b s =
      handed (judged (reportFault c .seqGap (raised (fun k => { k with seqGaps := k.seqGaps + 1 }) counted)))) ∧
    (high.toNat * 256 + b.toNat = ctx.crc.toNat → ¬ gap → receiveOctet c b s = handed (judged counted)) ∧
    (high.toNat * 256 + b.toNat ≠ ctx.crc.toNat → receiveOctet c b s =
      { free d (reportFault c .check (raised (fun k => { k with checkErrors := k.checkErrors + 1 }) s)) with
        contexts := hunting }))

/-- SKIP passes over the octets announced; a stall frees the message in assembly, is counted, reported except from
SKIP, and returns the context to HUNT (R62, R63). That a stall is owed from its tick until its row takes it (log entry 6),
and that the row with none owed changes nothing (log entry 4), are the model's choices. -/
def Obligations.SkipsAndStallsEnd : Prop :=  ∀ (c : Circuit) (s : State),
    let ctx := s.contexts.get c
    let hunting := s.contexts.put c (.empty .hunt)
    (∀ b, ctx.state = .skip →
      (ctx.skipCount = 1 → receiveOctet c b s = { s with contexts := hunting }) ∧
      (2 ≤ ctx.skipCount → receiveOctet c b s =
        { s with contexts := s.contexts.put c { ctx with skipCount := ctx.skipCount - 1, timer := 0 } })) ∧
    (Quiet s → exec (.stall c.val) s = .next s) ∧
    (Owing { Owed.none with stalls := [c] } s → ctx.state ≠ .stopped → ctx.state ≠ .hunt →
      (s.circuits.get c).stallLimit ≠ 0 → (s.circuits.get c).stallLimit ≤ ctx.timer →
      let freed := match ctx.desc with
        | some d => free d { s with owed := .none }
        | none => { s with owed := .none }
      let counted : State := { freed with circuits := freed.circuits.change c fun r =>
        { r with counters := { r.counters with stalls := r.counters.stalls + 1 } } }
      exec (.stall c.val) s = .next (takeOccurrences
        { (if ctx.state = .skip then counted else reportFault c .stall counted) with contexts := hunting }))

/-- What a fault does to the fault list, and when it raises CIRCUIT_FAULT with the snapshot (R197). -/
def Obligations.FaultListTakesAFault : Prop :=  ∀ (c : Circuit) (cause : FaultCause) (s : State),
    let listed := ∃ e ∈ s.events.faults, e.circuit = c
    let snapshot (overflow : Bool) (l : List FaultEntry) : List Byte :=
      [if overflow then 1 else 0, BitVec.ofNat 8 l.length] ++ l.flatMap fun e =>
        [BitVec.ofNat 8 e.circuit.val, e.causes, BitVec.ofNat 8 (e.firstTick.toNat / 256), BitVec.ofNat 8 e.firstTick.toNat]
    (listed → reportFault c cause s = { s with events := { s.events with faults := s.events.faults.map fun e =>
      if e.circuit = c then { e with causes := e.causes ||| cause.code } else e } }) ∧
    (¬ listed → s.events.faults.length < 16 →
      let faults := s.events.faults ++ [⟨c, cause.code, s.tickCounter⟩]
      reportFault c cause s = raise .circuitFault (some (snapshot s.events.overflow faults))
        { s with events := { s.events with faults := faults } }) ∧
    (¬ listed → 16 ≤ s.events.faults.length → s.events.overflow = false →
      reportFault c cause s = raise .circuitFault (some (snapshot true s.events.faults))
        { s with events := { s.events with overflow := true } }) ∧
    (¬ listed → 16 ≤ s.events.faults.length → s.events.overflow = true → reportFault c cause s = s)

/-! ### The segment pool -/

/-- A request for storage fails for quota, then for segment space, then for descriptors, or is granted whole. A grant
takes the heads of both free lists, raises the held count and judges the reserve crossing; a free appends at both
tails, lowers the held count and informs the waiting requesters. A first refusal raises POOL_EMPTY for segment space,
DESC_EMPTY for descriptors and nothing for quota. A message queued is such a request: refused as it is refused, or granted
and at the tail of its add queue, with no octet outside its chain changed (R70, R71, R72, R73, R74, R75, R76, R77, R78, R82). -/
def Obligations.StorageIsGrantedAndFreed : Prop :=
  (∀ (m : NewMessage) (s : State),
     let n := (m.length + 31) / 32
     let eligible := m.circuit = 0 ∨ (s.circuits.get m.circuit).eligible = true
     let quota := (s.circuits.get m.circuit).quota < (s.circuits.get m.circuit).held + n
     let space := s.pool.freeSegs.length < n ∨ (¬ eligible ∧ s.pool.freeSegs.length - n ≤ s.pool.segReserve)
     let descriptors := s.pool.freeDescs.length = 0 ∨ (¬ eligible ∧ s.pool.freeDescs.length - 1 ≤ s.pool.descReserve)
     (∀ f, allocFailure s m.circuit n = some f ↔ allocate m s = .error f) ∧
     (quota → allocate m s = .error .quota) ∧
     (¬ quota → space → allocate m s = .error .space) ∧
     (¬ quota → ¬ space → descriptors → allocate m s = .error .descriptors) ∧
     (¬ quota → ¬ space → ¬ descriptors → ∃ d t, allocate m s = .ok (d, t))) ∧
  ((∀ (m : NewMessage) (d : DescNo) (t s : State), allocate m s = .ok (d, t) →
     let n := (m.length + 31) / 32
     let granted : State := { s with
       circuits := s.circuits.change m.circuit fun r => { r with held := r.held + n }
       pool := { s.pool with
         freeSegs := s.pool.freeSegs.drop n
         freeDescs := s.pool.freeDescs.tail
         descs := s.pool.descs.put d (some ⟨m.state, m.circuit, m.cls, m.mark, m.seq, m.length, s.pool.freeSegs.take n,
           none, m.origin⟩) } }
     s.pool.freeDescs.head? = some d ∧
     t = if s.pool.segReserve < s.pool.freeSegs.length ∧ s.pool.freeSegs.length - n ≤ s.pool.segReserve then
         raise .poolReserve (some (octets2 (s.pool.freeSegs.length - n))) granted
       else granted) ∧
   (∀ (d : DescNo) (x : Descriptor) (s : State), s.pool.descs.get d = some x →
     let freed : State := { s with
       circuits := s.circuits.change x.circuit fun r => { r with held := r.held - x.chain.length }
       pool := { s.pool with
         freeSegs := s.pool.freeSegs ++ x.chain
         freeDescs := s.pool.freeDescs ++ [d]
         descs := s.pool.descs.put d none } }
     free d s = if s.arbiter.response = none ∧ s.arbiter.notice = none then freed
       else { freed with owed := { s.owed with attempts := s.owed.attempts + 1 } })) ∧
  (∀ (m : NewMessage) (body : List Byte) (s : State),
     (∀ f, allocate m s = .error f → enqueue m body s = .error f) ∧
     (∀ d t, allocate m s = .ok (d, t) → ∃ store, enqueue m body s = .ok (d, { t with
         addQueues := s.addQueues.put m.circuit (s.addQueues.get m.circuit ++ [d])
         pool := { t.pool with store := store } }) ∧
       (StoreLaw s → ∀ a, (∀ g ∈ s.pool.freeSegs.take ((m.length + 31) / 32), a / 32 ≠ g.val) →
         Memory.read store a = Memory.read s.pool.store a))) ∧
  (∀ (c : Circuit) (length : Nat) (s : State),
     raiseRefusal .quota c length s = s ∧
     raiseRefusal .space c length s = { s with events := { s.events with
       inbox := s.events.inbox ++ [⟨.poolEmpty, some [octet c.val, octet ((length + 31) / 32)], []⟩] } } ∧
     raiseRefusal .descriptors c length s = { s with events := { s.events with
       inbox := s.events.inbox ++ [⟨.descEmpty, some [octet c.val], []⟩] } })

/-- A body queued reads back from its chain, and every other message's body reads as before (R57, R68, R71). -/
def Obligations.QueuedBodyReadsBack : Prop :=  ∀ (m : NewMessage) (body : List Byte) (d : DescNo) (s t : State), StoreLaw s → PoolLaw s → m.length = body.length →
    enqueue m body s = .ok (d, t) →
      s.pool.descs.get d = none ∧ t.addQueues = s.addQueues.put m.circuit (s.addQueues.get m.circuit ++ [d]) ∧
      (∃ x, t.pool.descs.get d = some x ∧ x.circuit = m.circuit ∧ x.length = body.length ∧ bodyOf t x = body) ∧
      (∀ e y, s.pool.descs.get e = some y → t.pool.descs.get e = some y ∧ bodyOf t y = bodyOf s y)

/-! ### The delivery unit -/

/-- When its conditions hold together the choice takes the head of class queue 0, else the head the search among
classes 1 to 3 ends at; while one of them does not hold no choice is made, whoever commands it (log entry 4)
(R88, R89, R90, R91, R121, R205). -/
def Obligations.DeliveryTakesAMessage : Prop :=  ∀ s : State, Quiet s →
    let free := s.trib.tx = .idle ∧ s.trib.rejects = [] ∧ s.trib.ready = true ∧ 1 ≤ s.delivery.credits ∧
      s.delivery.inDelivery = none
    let heads : Table (Option Nat) 3 := ⟨[headLength s (s.delivery.queues.get 1), headLength s (s.delivery.queues.get 2),
      headLength s (s.delivery.queues.get 3)], rfl⟩
    (∀ d rest x seq stamp, free → s.pool.descs.get d = some x → x.seq = some seq → x.stamp = some stamp →
      (s.delivery.queues.get 0 = d :: rest →
        exec .deliveryChoice s = .next (deliveryStarted 0 d rest x seq stamp s)) ∧
      (∀ l deficits, s.delivery.queues.get 0 = [] → s.delivery.queues.get l.succ = d :: rest →
        SettingsLaw s →
        Search heads s.delivery.quanta s.delivery.round s.delivery.deficits l deficits →
        exec .deliveryChoice s = .next (deliveryStarted l.succ d rest x seq stamp
          { s with delivery := { s.delivery with deficits := deficits, round := l } }))) ∧
    (¬ free ∨ (∀ q, s.delivery.queues.get q = []) → exec .deliveryChoice s = .next s)

/-- The search of R90 ends, with a choice, and keeps every deficit at 2295 or below (R90, R102). -/
def Obligations.EverySearchEndsWithAChoice : Prop :=  ∀ (heads : Table (Option Nat) 3) (quanta deficits : Table Nat 3) (l : Lane),
    (∀ i, 32 ≤ quanta.get i ∧ quanta.get i ≤ 2048) → (∀ i n, heads.get i = some n → n ≤ 248) →
    (∃ i, heads.get i ≠ none) → (∀ i, deficits.get i ≤ 2295) →
      ∃ l' deficits' n, Search heads quanta l deficits l' deficits' ∧ heads.get l' = some n ∧
        (∀ i, deficits'.get i ≤ 2295) ∧
        ∀ m ends, Search heads quanta l deficits m ends → m = l' ∧ ends = deficits'

/-- The last check octet of a DELIVER frame sent: the message is counted as delivered and freed, none is in delivery and
the transmitter is idle (R92). The row with no DELIVER frame on the line changes nothing: the model's choice (log entry 4).
-/
def Obligations.DeliveryCompletes : Prop :=  ∀ (d : DescNo) (x : Descriptor) (s : State), Quiet s →
    (s.trib.tx = .sendingDeliver → s.delivery.inDelivery = some d → s.pool.descs.get d = some x →
      let t := released d x (counted x.circuit (fun k => { k with delivered := k.delivered + 1 }) s)
      exec .deliveryComplete s = .next { t with
        delivery := { s.delivery with inDelivery := none }
        trib := { s.trib with tx := .idle, frame := [] } }) ∧
    (s.trib.tx ≠ .sendingDeliver → exec .deliveryComplete s = .next s)

/-- A fall of READY voids the credits and cuts a DELIVER frame off, whose message returns to the head of its class
queue with its class's deficit restored; a REJECT frame runs on; a rise changes READY alone (R93, R94, R95, R108,
R121). A fall reported with READY low already voids no credit again: the model's reading (log entry 26). -/
def Obligations.ReadyFallAbortsADelivery : Prop :=  ∀ (d : DescNo) (x : Descriptor) (s : State), Quiet s →
    (s.trib.ready = true → s.trib.tx = .sendingDeliver → s.delivery.inDelivery = some d → s.pool.descs.get d = some x →
      exec .readyFall s = .next { s with
        pins := { s.pins with tbRdy := false }
        trib := { s.trib with ready := false, tx := .idle, frame := [] }
        pool := { s.pool with descs := s.pool.descs.put d (some { x with state := .queued }) }
        delivery := { s.delivery with
          credits := 0
          queues := s.delivery.queues.put x.cls (d :: s.delivery.queues.get x.cls)
          deficits := if x.cls = 0 then s.delivery.deficits
            else s.delivery.deficits.change (Fin.ofNat 3 (x.cls.val - 1)) (· + x.length)
          retries := s.delivery.retries + 1
          inDelivery := none } }) ∧
    (s.trib.ready = true → s.trib.tx ≠ .sendingDeliver → exec .readyFall s = .next { s with
      pins := { s.pins with tbRdy := false }
      trib := { s.trib with ready := false }
      delivery := { s.delivery with credits := 0 } }) ∧
    (s.trib.ready = false → exec .readyFall s = .next { s with pins := { s.pins with tbRdy := false } }) ∧
    exec .readyRise s = .next { s with pins := { s.pins with tbRdy := true }, trib := { s.trib with ready := true } }

/-- A head is over age when its class's limit is not 0 and is exceeded by the tick counter minus the stamp, modulo
65536. The credit-stall condition of a tick raises or clears the timer and makes the report due as the limit and the
flag say. AGE_OUT removes, frees, counts and reports the over-age head, and the last one of the tick is followed by the
credit-stall check; CREDIT_STALL is reported (R17, R97, R99). That both are owed from their tick until their rows take
them (log entry 6), and that the rows with nothing owed change nothing (log entry 4), are the model's choices. -/
def Obligations.DeliveryTimersAreJudged : Prop :=
  (∀ s : State,
     let condition := (∃ q, s.delivery.queues.get q ≠ []) ∧ s.delivery.credits = 0
     let timer := min (s.delivery.stallTimer + 1) 1000
     let queued := (s.delivery.queues.get 0).length + (s.delivery.queues.get 1).length +
       (s.delivery.queues.get 2).length + (s.delivery.queues.get 3).length
     (condition →
       creditStallCheck s = { s with
         delivery := { s.delivery with stallTimer := timer }
         owed := { s.owed with creditStall :=
           if s.delivery.stallLimit ≠ 0 ∧ s.delivery.stallLimit ≤ timer ∧ s.delivery.stallReported = false then some queued
           else s.owed.creditStall } }) ∧
     (¬ condition → creditStallCheck s = { s with delivery := { s.delivery with stallTimer := 0 } })) ∧
  (∀ (q : Machine.Class) (s : State),
     (s.delivery.queues.get q = [] → headOverAge s q = false) ∧
     (∀ d rest x stamp, s.delivery.queues.get q = d :: rest → s.pool.descs.get d = some x → x.stamp = some stamp →
       (headOverAge s q = true ↔ s.delivery.ageLimits.get q ≠ 0 ∧
         s.delivery.ageLimits.get q < (s.tickCounter.toNat + 65536 - stamp.toNat) % 65536))) ∧
  (∀ (q : Machine.Class) (d : DescNo) (rest : List DescNo) (x : Descriptor) (stamp : Word) (n : Nat) (s : State),
     (Owing { Owed.none with ages := true } s → s.delivery.queues.get q = d :: rest → s.pool.descs.get d = some x →
       x.stamp = some stamp → s.delivery.ageLimits.get q ≠ 0 →
       s.delivery.ageLimits.get q < (s.tickCounter - stamp).toNat → Unbound .ageOut s →
       let t := recorded .ageOut (some [octet q.val, octet x.circuit.val])
         (counted x.circuit (fun k => { k with agedOut := k.agedOut + 1 }) (released d x
           { s with delivery := { s.delivery with queues := s.delivery.queues.put q rest } }))
       ((∃ c, headOverAge t c = true) → exec (.ageOut q.val) s = .next t) ∧
       ((∀ c, headOverAge t c = false) → exec (.ageOut q.val) s =
         .next (creditStallCheck { t with owed := { t.owed with ages := false } }))) ∧
     (Owing { Owed.none with creditStall := some n } s → Unbound .creditStall s →
       exec .creditStall s = .next (recorded .creditStall (some [octet (n / 256), octet n]) { s with
         owed := .none, delivery := { s.delivery with stallReported := true } })) ∧
     (Quiet s → exec (.ageOut q.val) s = .next s ∧ exec .creditStall s = .next s))

/-! ### The tick -/

/-- A tick advances the counter and each mechanism that counts in ticks (R17, R18). That TICK makes due what the tick
brings about, each a step owed that its own row or the next command takes, is the model's choice (log entry 6). -/
def Obligations.TickIsTaken : Prop :=  ∀ s now : State, Quiet s → now = { s with tickCounter := s.tickCounter + 1 } → ∃ t, exec .tick s = .next t ∧
    t = { s with
      tickCounter := s.tickCounter + 1, contexts := t.contexts, slot := t.slot, delivery := t.delivery
      engine := t.engine, events := t.events, owed := t.owed } ∧
    (∀ c, t.contexts.get c =
      let ctx := s.contexts.get c
      if ctx.state = .stopped ∨ ctx.state = .hunt then ctx else { ctx with timer := min (ctx.timer + 1) 1000 }) ∧
    t.owed.stalls = ((List.finRange 96).filter fun c =>
      decide ((s.contexts.get c).state ≠ .stopped ∧ (s.contexts.get c).state ≠ .hunt ∧
        (s.circuits.get c).stallLimit ≠ 0 ∧ (s.circuits.get c).stallLimit ≤ min ((s.contexts.get c).timer + 1) 1000)) ∧
    (∀ n, s.slot.swap = .confirmWait → s.slot.countdown = some (n + 1) →
      t.slot = { s.slot with countdown := some n } ∧ (t.owed.confirm = true ↔ n = 0)) ∧
    (s.slot.swap ≠ .confirmWait ∨ s.slot.countdown = none → t.slot = s.slot ∧ t.owed.confirm = false) ∧
    ((∃ q, headOverAge now q = true) → t.delivery = s.delivery ∧ t.owed.ages = true ∧ t.owed.creditStall = none) ∧
    ((∀ q, headOverAge now q = false) → t.delivery = (creditStallCheck now).delivery ∧ t.owed.ages = false ∧
      t.owed.creditStall = (creditStallCheck now).owed.creditStall) ∧
    (∀ id epoch n, s.engine.owner = .owned id epoch (some (n + 1)) →
      t.engine = { s.engine with owner := .owned id epoch (some n) } ∧ (t.owed.ownerLost = true ↔ n = 0)) ∧
    (s.engine.owner = .unowned ∨ (∃ id epoch, s.engine.owner = .owned id epoch none) →
      t.engine = s.engine ∧ t.owed.ownerLost = false) ∧
    (∀ top below, s.events.stack = top :: below → resendHeld s = false → 1 ≤ top.timer →
      t.events = { s.events with stack := { top with timer := top.timer - 1 } :: below } ∧
      (t.owed.noticeTimeout = true ↔ top.timer = 1)) ∧
    (s.events.stack = [] ∨ resendHeld s = true → t.events = s.events ∧ t.owed.noticeTimeout = false) ∧
    t.owed.attempts = 0 ∧ t.owed.partTwo = false

/-- OWNER_LOST and NOTICE_TIMEOUT: the record becomes UNOWNED and OWNER_LOST carries the old owner's id; the top notice
is sent again, or abandoned with the timer of the entry below restarted (R151, R189, R190). That both are owed from their
tick until their rows take them (log entry 6), and that the rows with nothing owed change nothing (log entry 4), are the
model's choices. -/
def Obligations.OwedTimersAreTaken : Prop :=  ∀ s : State,
    (∀ id epoch countdown, Owing { Owed.none with ownerLost := true } s →
      s.engine.owner = .owned id epoch countdown → Unbound .ownerLost s →
      exec .ownerLost s = .next (recorded .ownerLost (some [id.zeroExtend 8])
        { s with owed := .none, engine := { s.engine with owner := .unowned } })) ∧
    (∀ top below, Owing { Owed.none with noticeTimeout := true } s → s.events.stack = top :: below →
      top.timer = 0 → resendHeld s = false →
      (top.sends < 1 + s.events.retries → exec .noticeTimeout s = .next { s with
        arbiter := { s.arbiter with
          notice := some ⟨true, top.kind, top.level, top.sequence, noticeBody s top.kind top.sequence top.level,
            s.events.records.get top.kind.num, false⟩ }
        owed := { Owed.none with attempts := 1 } }) ∧
      (1 + s.events.retries ≤ top.sends → exec .noticeTimeout s = .next (selectNotice { s with
        owed := .none
        events := { s.events with
          abandoned := s.events.abandoned + 1
          stack := match below with
            | [] => []
            | next :: more => { next with timer := s.events.timeout } :: more } }))) ∧
    (Quiet s → exec .ownerLost s = .next s ∧ exec .noticeTimeout s = .next s)

/-! ### The tributary link -/

/-- A good octet, by whichever of its five rows it comes (log entry 11), is counted in HUNT, begins a frame, or is
collected as type, length, payload or check; a type, a length or a check that fails drops the frame, counts it and
raises TRIB_ERROR. A framing error is counted, and outside HUNT it drops the frame in collection with TRIB_ERROR
(R109, R110, R111, R112). -/
def Obligations.ParserTakesOctets : Prop :=
  (∀ (b : Byte) (row : Instr) (s : State), Quiet s →
     row ∈ [.goodOctet b, .huntOctet b, .frameDropped b, .add b, .credit b] →
     let p := s.trib.parser
     let crc := crcOctet p.crc b
     let taken (q : Parser) : State := { s with trib := { s.trib with parser := q } }
     let dropped (code : Byte) (f : LinkCounters → LinkCounters) : State :=
       recorded .tribError (some [code]) { s with trib := { s.trib with
         parser := .hunting, counters := f s.trib.counters } }
     (p.state = .hunt →
       (b = 0xA5 → exec row s = .next (taken { Parser.hunting with state := .type })) ∧
       (b ≠ 0xA5 → exec row s = .next { s with trib := { s.trib with
         counters := { s.trib.counters with huntOctets := s.trib.counters.huntOctets + 1 } } })) ∧
     (p.state = .type →
       (b = 0x11 ∨ b = 0x12 →
         exec row s = .next (taken { p with state := .length, type := b, lenOctets := [], crc := crc })) ∧
       (b ≠ 0x11 → b ≠ 0x12 → Unbound .tribError s →
         exec row s = .next (dropped 1 fun k => { k with typeErrors := k.typeErrors + 1 }))) ∧
     (p.state = .length → p.lenOctets = [] →
       exec row s = .next (taken { p with lenOctets := [b], crc := crc })) ∧
     (∀ high, p.state = .length → p.lenOctets = [high] →
       let n := high.toNat * 256 + b.toNat
       let accepted := (p.type = 0x11 ∧ 4 ≤ n ∧ n ≤ 260) ∨ (p.type ≠ 0x11 ∧ n = 1)
       (accepted → exec row s =
         .next (taken { p with state := .payload, lenOctets := [high, b], length := n, crc := crc, buffer := [] })) ∧
       (¬ accepted → Unbound .tribError s →
         exec row s = .next (dropped 2 fun k => { k with lengthErrors := k.lengthErrors + 1 }))) ∧
     (p.state = .payload → p.buffer.length < p.length →
       exec row s = .next (taken { p with
         buffer := p.buffer ++ [b], crc := crc, checkOctets := []
         state := if p.buffer.length + 1 = p.length then .check else .payload })) ∧
     (p.state = .check → p.checkOctets = [] → exec row s = .next (taken { p with checkOctets := [b] })) ∧
     (∀ high, p.state = .check → p.checkOctets = [high] → high.toNat * 256 + b.toNat ≠ p.crc.toNat →
       Unbound .tribError s →
         exec row s = .next (dropped 3 fun k => { k with checkErrors := k.checkErrors + 1 }))) ∧
  (∀ s : State, Quiet s →
     let counters := { s.trib.counters with framingErrors := s.trib.counters.framingErrors + 1 }
     (s.trib.parser.state = .hunt →
       exec .framingError s = .next { s with trib := { s.trib with counters := counters } }) ∧
     (s.trib.parser.state ≠ .hunt → Unbound .tribError s →
       exec .framingError s = .next (recorded .tribError (some [4]) { s with trib := { s.trib with
         parser := .hunting, counters := counters } })))

/-- The last check octet of a CREDIT frame whose check matches: a count of 1 to 32 is added to the credit count up to
32, the excess goes to credits discarded and the credit-stall episode ends; a count of 0 or above 32 drops the frame
with kind VALUE and adds no credit, in every state of READY and of the transmitter (R117). -/
def Obligations.CreditsAreAccepted : Prop :=  ∀ (n high b : Byte) (s : State), Quiet s → s.trib.parser.state = .check → s.trib.parser.type = 0x12 →
    s.trib.parser.buffer = [n] → s.trib.parser.checkOctets = [high] →
    high.toNat * 256 + b.toNat = s.trib.parser.crc.toNat →
    let counters := { s.trib.counters with creditAccepted := s.trib.counters.creditAccepted + 1 }
    (1 ≤ n.toNat → n.toNat ≤ 32 → exec (.credit b) s = .next { s with
      trib := { s.trib with parser := .hunting, counters := counters }
      delivery := { s.delivery with
        credits := min (s.delivery.credits + n.toNat) 32
        discarded := s.delivery.discarded + BitVec.ofNat 32 (s.delivery.credits + n.toNat - 32)
        stallTimer := 0, stallReported := false } }) ∧
    (n.toNat = 0 ∨ 32 < n.toNat → Unbound .tribError s →
      exec (.credit b) s = .next (recorded .tribError (some [5]) { s with trib := { s.trib with
        parser := .hunting, counters := { counters with valueErrors := counters.valueErrors + 1 } } }))

/-- The last check octet of an ADD frame, whose check matches: the tests of its values, of its circuit, of its add
queue and of the pool, in their order, each with its outcome; the first that fails decides (R110, R112 to R115, R119).
-/
def Obligations.AddsAreJudged : Prop :=  ∀ (tag circuit cls mark high b : Byte) (body : List Byte) (s : State), Quiet s → s.trib.parser.state = .check →
    s.trib.parser.type = 0x11 → s.trib.parser.buffer = tag :: circuit :: cls :: mark :: body →
    s.trib.parser.checkOctets = [high] → high.toNat * 256 + b.toNat = s.trib.parser.crc.toNat →
    let counters := { s.trib.counters with addAccepted := s.trib.counters.addAccepted + 1 }
    let here : State := { s with trib := { s.trib with parser := .hunting, counters := counters } }
    let good := cls.toNat ≤ 3 ∧ mark.toNat ≤ 1
    let whole := 1 ≤ body.length ∧ body.length ≤ 248
    (¬ good → Unbound .tribError s →
      exec (.add b) s = .next (recorded .tribError (some [5]) { s with trib := { s.trib with
        parser := .hunting, counters := { counters with valueErrors := counters.valueErrors + 1 } } })) ∧
    (good → (¬ whole ∨ 95 < circuit.toNat) →
      exec (.add b) s = .next (takeOccurrences (addRefused tag circuit 5 .badLength here))) ∧
    (∀ c : Circuit, c.val = circuit.toNat → good → whole →
      let m : NewMessage := ⟨.addQueued, c, Fin.ofNat 4 cls.toNat, mark == 1, none, body.length, .tributary⟩
      let r := s.circuits.get c
      (c = 0 ∨ r.active = false →
        exec (.add b) s = .next (takeOccurrences (addRefused tag circuit 1 .stopped here))) ∧
      (c ≠ 0 → r.active = true → r.addEnable = false →
        exec (.add b) s = .next (takeOccurrences (addRefused tag circuit 2 .notAdd here))) ∧
      (c ≠ 0 → r.active = true → r.addEnable = true → r.addDepth ≤ (s.addQueues.get c).length →
        exec (.add b) s = .next (takeOccurrences (addRefused tag circuit 3 .queueFull here))) ∧
      (c ≠ 0 → r.active = true → r.addEnable = true → (s.addQueues.get c).length < r.addDepth →
        (∀ f, allocFailure s c ((body.length + 31) / 32) = some f → exec (.add b) s =
          .next (takeOccurrences (addRefused tag circuit 4 .noSpace (raiseRefusal f c body.length here)))) ∧
        (∀ d t, enqueue m body here = .ok (d, t) → exec (.add b) s = .next (takeOccurrences t))))

/-- The transmitter takes a reject entry as soon as it is idle and is idle again, with the REJECT counted, when the
frame has been sent (R118, R120, R205). Either row where its frame cannot start or is not on the line changes nothing: the
model's choice (log entry 4). -/
def Obligations.RejectsAreSent : Prop :=  ∀ (e : RejectEntry) (rest : List RejectEntry) (s : State), Quiet s →
    (s.trib.tx = .idle → s.trib.rejects = e :: rest → exec .rejectStart s = .next { s with trib := { s.trib with
      rejects := rest, tx := .sendingReject, frame := frameOctets 0x02 [e.tag, e.circuit, e.reason.code] } }) ∧
    (s.trib.tx ≠ .idle ∨ s.trib.rejects = [] → exec .rejectStart s = .next s) ∧
    (s.trib.tx = .sendingReject → exec .rejectSent s = .next { s with trib := { s.trib with
      tx := .idle, frame := []
      counters := { s.trib.counters with rejectsSent := s.trib.counters.rejectsSent + 1 } } }) ∧
    (s.trib.tx ≠ .sendingReject → exec .rejectSent s = .next s)

/-! ### The insertion side -/

/-- An emitter with no message supplies the idle octet if its add queue is empty, else takes the head, gives it the
circuit's emit sequence, which advances, and supplies the opener. With a message it supplies length, second header
octet, body and check in order, each but the check taken into the check; after the second check octet the message is
counted and freed, or, where it is the response to a RESET of mode FULL, the reset takes effect (R127, R128, R129,
R130, R135, R157, R202). -/
def Obligations.EmittersSupplyMessages : Prop :=
  (∀ (c : Circuit) (s : State), (s.emitters.get c).state = .idle →
     (s.addQueues.get c = [] → emitterSupply c s = (0xC3, s)) ∧
     (∀ d rest x, s.addQueues.get c = d :: rest → s.pool.descs.get d = some x →
       let seq := (s.circuits.get c).emitSeq
       emitterSupply c s = (0x5A, { s with
         addQueues := s.addQueues.put c rest
         circuits := s.circuits.change c fun r => { r with emitSeq := seq + 1 }
         pool := { s.pool with descs := s.pool.descs.put d (some { x with state := .emitting, seq := some seq }) }
         emitters := s.emitters.put c ⟨.head, some d, 0, 0, 0, 0xFFFF⟩
         owed := if c = 0 ∧ (s.arbiter.response.isSome = true ∨ s.arbiter.notice.isSome = true) then
             { s.owed with attempts := s.owed.attempts + 1 }
           else s.owed }))) ∧
  (∀ (c : Circuit) (d : DescNo) (x : Descriptor) (seq : BitVec 4) (s : State), (s.emitters.get c).desc = some d →
     s.pool.descs.get d = some x → x.seq = some seq →
     let e := s.emitters.get c
     let next (b : Byte) (e : Emitter) : Byte × State := (b, { s with emitters := s.emitters.put c e })
     let length := BitVec.ofNat 8 x.length
     let second := BitVec.ofNat 8 (64 * x.cls.val + 4 * seq.toNat + if x.mark then 2 else 0)
     let octet := bodyOctet s.pool.store x.chain e.bodyCount
     (e.state = .head → e.headerCount = 0 →
       emitterSupply c s = next length { e with headerCount := 1, crc := crcOctet e.crc length }) ∧
     (e.state = .head → e.headerCount = 1 →
       emitterSupply c s = next second { e with state := .body, bodyCount := 0, crc := crcOctet e.crc second }) ∧
     (e.state = .body → e.bodyCount < x.length →
       emitterSupply c s = next octet { e with
         bodyCount := e.bodyCount + 1, crc := crcOctet e.crc octet, checkCount := 0
         state := if e.bodyCount + 1 = x.length then .check else .body }) ∧
     (e.state = .check → e.checkCount = 0 →
       emitterSupply c s = next (BitVec.ofNat 8 (e.crc.toNat / 256)) { e with checkCount := 1 }) ∧
     (e.state = .check → e.checkCount = 1 →
       (x.origin = .response ∧ s.engine.state = .resetting ∧ s.engine.noted = some d →
         emitterSupply c s = (BitVec.ofNat 8 e.crc.toNat, fullReset s)) ∧
       (¬ (x.origin = .response ∧ s.engine.state = .resetting ∧ s.engine.noted = some d) →
         emitterSupply c s = (BitVec.ofNat 8 e.crc.toNat,
           { released d x (counted c (fun k => { k with
               emitted := k.emitted + 1, octetsEmitted := k.octetsEmitted + BitVec.ofNat 32 x.length }) s) with
             emitters := s.emitters.put c ⟨.idle, none, 0, 0, 0, 0xFFFF⟩ }))))

/-! ### The circuit 0 arbiter -/

/-- Part 1 of an attempt: the notice enters the circuit 0 queue and is pushed on the stack, or its re-send is counted
there; with no room nothing is asked; a refusal keeps the offer, and raises what R76 gives the first time alone (R76, R135,
R137, R188, R190). That NOTICE_ADMITTED takes part 1 of the next attempt owed and leaves one fewer owed, that part 2 is left
owed where a response offer is held, and that what part 1 has raised then waits for the end of part 2, are the model's
choices (log entry 7). -/
def Obligations.NoticesAreAdmitted : Prop :=  ∀ (n : Nat) (s : State),
    Owing { Owed.none with attempts := n + 1 } s →
    let asked : State := { s with owed := { Owed.none with attempts := n, partTwo := s.arbiter.response.isSome } }
    let ended (t : State) : State := if s.arbiter.response = none then takeOccurrences t else t
    (s.arbiter.notice = none → exec .noticeAdmitted s = .next asked) ∧
    (∀ o, s.arbiter.notice = some o →
      let m : NewMessage := ⟨.addQueued, 0, 0, false, none, o.body.length, .notice⟩
      (8 ≤ (s.addQueues.get 0).length → exec .noticeAdmitted s = .next asked) ∧
      ((s.addQueues.get 0).length < 8 →
        (∀ d t, enqueue m o.body asked = .ok (d, t) →
          (o.resend = false → exec .noticeAdmitted s = .next (ended (selectNotice { t with
            arbiter := { t.arbiter with notice := none }
            events := { t.events with
              stack := ⟨o.sequence, o.kind, o.level, 1, t.events.timeout⟩ :: t.events.stack
              sequence := t.events.sequence + 1 } }))) ∧
          (∀ top below, o.resend = true → s.events.stack = top :: below →
            exec .noticeAdmitted s = .next (ended (selectNotice { t with
              arbiter := { t.arbiter with notice := none }
              events := { t.events with
                stack := { top with sends := top.sends + 1, timer := t.events.timeout } :: below } })))) ∧
        (∀ f, allocFailure s 0 ((o.body.length + 31) / 32) = some f →
          exec .noticeAdmitted s = .next (ended
            { (if o.tried then asked else raiseRefusal f 0 o.body.length asked) with
              arbiter := { s.arbiter with notice := some { o with tried := true } } }))))

/-- Part 2 of an attempt, its part 1 done: the response enters the circuit 0 queue and the engine leaves HOLDING, or
notes the descriptor of the FULL response; with no room nothing is asked; a refusal keeps the offer and raises what
R76 gives the first time alone. RESPONSE_ADMITTED on an attempt not yet begun takes part 1 first, and with no attempt
owed neither part takes place (the rows' sharing of an attempt is the model's, log entry 7) (R76, R135, R136, R154,
R156). -/
def Obligations.ResponsesAreAdmitted : Prop :=
  (∀ (o : ResponseOffer) (s : State), s.pins.rstN = true → s.owed.partTwo = true → s.arbiter.response = some o →
     let asked : State := { s with owed := { s.owed with partTwo := false } }
     let m : NewMessage := ⟨.addQueued, 0, 0, false, none, o.body.length, .response⟩
     (8 ≤ (s.addQueues.get 0).length → exec .responseAdmitted s = .next (takeOccurrences asked)) ∧
     ((s.addQueues.get 0).length < 8 →
       (∀ d t, enqueue m o.body asked = .ok (d, t) → s.engine.state = .holding ∨ s.engine.state = .resetting →
         exec .responseAdmitted s = .next (takeOccurrences { t with
           arbiter := { t.arbiter with response := none }
           engine := if s.engine.state = .holding then { t.engine with state := .idle }
             else { t.engine with noted := some d } })) ∧
       (∀ f, allocFailure s 0 ((o.body.length + 31) / 32) = some f →
         exec .responseAdmitted s = .next (takeOccurrences
           { (if o.tried then asked else raiseRefusal f 0 o.body.length asked) with
             arbiter := { s.arbiter with response := some { o with tried := true } } })))) ∧
  (∀ s : State,
     (∀ n t, Owing { Owed.none with attempts := n + 1 } s → s.arbiter.response ≠ none → exec .noticeAdmitted s = .next t →
       t.owed.partTwo = true ∧ exec .responseAdmitted s = exec .responseAdmitted t) ∧
     (∀ n, Owing { Owed.none with attempts := n + 1 } s → s.arbiter.response = none →
       exec .responseAdmitted s = exec .noticeAdmitted s) ∧
     (Quiet s → exec .noticeAdmitted s = .next s ∧ exec .responseAdmitted s = .next s))

/-! ### The management engine -/

/-- The codes of the twenty-nine request kinds and the parameter lengths each allows, every other code naming no kind; which
kinds modify; the codes of statuses, event kinds, reject reasons, link errors, plan actions, banks, swap causes, validation
details, binding failure causes, fault causes and of alignment, swap, context and emitter states; and the check code of the
nine octets 31h to 39h, 29B1h (R147, R160, R170, R180, R201, R203, R204, R206). -/
def Obligations.CodesAreAsGiven : Prop :=
  (let fixed : List (Nat × RequestKind × Nat) := [(0x01, .identify, 0), (0x02, .claim, 2), (0x03, .release, 0),
     (0x04, .setLease, 2), (0x10, .readPlan, 4), (0x12, .copyPlan, 0), (0x13, .armSwap, 3), (0x14, .cancelSwap, 0),
     (0x15, .confirmSwap, 0), (0x20, .readCircuit, 1), (0x21, .writeCircuit, 10), (0x22, .startCircuit, 1),
     (0x23, .stopCircuit, 2), (0x24, .readCounters, 2), (0x30, .readPool, 2), (0x31, .writePool, 3), (0x32, .readSched, 0),
     (0x33, .writeSched, 16), (0x40, .readEvents, 0), (0x41, .writeEventConfig, 20), (0x43, .noticeAck, 2),
     (0x44, .readFaults, 0), (0x45, .clearFaults, 0), (0x46, .writeBinding, 10), (0x47, .readBindings, 0), (0x50, .reset, 1)]
   (∀ row ∈ fixed, RequestKind.ofCode (BitVec.ofNat 8 row.1) = some row.2.1 ∧
     ∀ n, row.2.1.allowsLength n = true ↔ n = row.2.2) ∧
   (RequestKind.ofCode 0x11 = some .writePlan ∧
     ∀ n, RequestKind.writePlan.allowsLength n = true ↔ 3 ≤ n ∧ n ≤ 67 ∧ n % 2 = 1) ∧
   (RequestKind.ofCode 0x42 = some .ackEvents ∧ ∀ n, RequestKind.ackEvents.allowsLength n = true ↔ 1 ≤ n ∧ n ≤ 16) ∧
   (RequestKind.ofCode 0x48 = some .loadCanned ∧ ∀ n, RequestKind.loadCanned.allowsLength n = true ↔ 4 ≤ n ∧ n ≤ 35) ∧
   (∀ b : Byte, RequestKind.ofCode b ≠ none → b.toNat ∈ fixed.map (·.1) ++ [0x11, 0x42, 0x48])) ∧
  (∀ (k : RequestKind) (params : List Byte), k.modifies params = true ↔
     k ∉ [.claim, .identify, .readPlan, .readCircuit, .readPool, .readSched, .readEvents, .readFaults, .readBindings] ∧
       (k = .readCounters → params.getD 1 0 ≠ 0)) ∧
  (let numbered {α : Type} (code : α → Byte) (first : Nat) (l : List α) : Prop :=
     l.map code = (List.range l.length).map fun n => BitVec.ofNat 8 (first + n)
   numbered Status.code 0 [.ok, .notOwner, .stale, .badRequest, .range, .state, .invalidPlan, .order] ∧
   (numbered EventKind.code 0 EventKind.all ∧ EventKind.all.map EventKind.num = List.finRange 16 ∧
     EventKind.all = [.alignLost, .alignGained, .swapDone, .swapReverted, .poolReserve, .poolEmpty, .descEmpty, .circuitFault,
       .ageOut, .creditStall, .tribError, .addReject, .ownerLost, .ownerChanged, .mgmtOverrun, .bindingMiss]) ∧
   numbered RejectReason.code 1 [.stopped, .notAdd, .queueFull, .noSpace, .badLength] ∧
   numbered LinkError.code 1 [.type, .length, .check, .framing, .value] ∧
   numbered Action.code 0 [.pass, .tap, .take, .insert] ∧
   (numbered Bank.code 0 [.a, .b] ∧ ∀ b : Byte, Bank.ofCode b = if b = 0 then some .a else if b = 1 then some .b else none) ∧
   numbered SwapCause.code 0 [.request, .binding, .revert] ∧
   numbered PlanLack.code 1 [.missingDrop, .missingInsert] ∧
   numbered AlignState.code 0 [.search, .verify, .locked, .holdover] ∧
   numbered SwapState.code 0 [.idle, .armedNext, .armedSignal, .confirmWait, .revertPending] ∧
   numbered RxState.code 0 [.stopped, .hunt, .head, .body, .check, .skip] ∧
   numbered EmitState.code 0 [.idle, .head, .body, .check] ∧
   numbered ActionFailure.code 1 [.swapBusy, .invalidPlan, .stopped, .active, .emptySlot, .noRoom, .noGrant] ∧
   [FaultCause.header, .check, .stall, .skipSpace, .skipQuota, .seqGap].map FaultCause.code =
     [0x01, 0x02, 0x04, 0x08, 0x10, 0x20]) ∧
  (crcOf [0x31, 0x32, 0x33, 0x34, 0x35, 0x36, 0x37, 0x38, 0x39] = 0x29B1)

/-- REQUEST_TAKE in IDLE takes the head of the request queue: it is copied and freed, screened for length and target,
answered from the duplicate cache, or judged on its form and its sender; the first test that decides gives the
outcome, and a request that passes them all stays in hand (R143 to R147, R151; which kinds modify, CodesAreAsGiven).
Commanded in another state or with no request queued the row changes nothing: the model's choice (log entry 4). -/
def Obligations.RequestsAreTaken : Prop :=  ∀ s : State, Quiet s →
    (s.engine.state ≠ .idle ∨ s.engine.queue = [] → exec .requestTake s = .next s) ∧
    (∀ d rest x, s.engine.state = .idle → s.engine.queue = d :: rest → s.pool.descs.get d = some x →
      let body := bodyOf s x
      let id := (body.getD 1 0).toNat / 16
      let clean := (body.getD 1 0).toNat % 16 = 0
      let freed := released d x s
      let hit (entry : CacheEntry) := s.engine.cache = some entry ∧ entry.id.toNat = id ∧ clean ∧ entry.tag = body.getD 2 0
      let copied : State := { freed with
        engine := { s.engine with queue := rest, state := .executing, inHand := some body } }
      let screened := 4 ≤ body.length ∧ body.getD 0 0 = s.nodeAddress.zeroExtend 8
      let fresh := screened ∧ ∀ entry, ¬ hit entry
      let known (k : RequestKind) := RequestKind.ofCode (body.getD 3 0) = some k ∧ k.allowsLength (body.length - 4) = true
      let owns := ∃ owner epoch countdown, s.engine.owner = .owned owner epoch countdown ∧ owner.toNat = id
      (body.length < 4 → exec .requestTake s = .next { freed with engine := { s.engine with
        queue := rest, state := .idle, inHand := none
        counters := { s.engine.counters with malformed := s.engine.counters.malformed + 1 } } }) ∧
      (4 ≤ body.length → ¬ screened → exec .requestTake s = .next { freed with engine := { s.engine with
        queue := rest, state := .idle, inHand := none
        counters := { s.engine.counters with foreign := s.engine.counters.foreign + 1 } } }) ∧
      (∀ entry, screened → hit entry → exec .requestTake s = .next { freed with
        engine := { s.engine with
          queue := rest, state := .holding, inHand := none
          counters := { s.engine.counters with duplicates := s.engine.counters.duplicates + 1 } }
        arbiter := { s.arbiter with response := some ⟨entry.body, false⟩ }
        owed := { freed.owed with attempts := freed.owed.attempts + 1 } }) ∧
      (fresh → id = 0 ∨ ¬ clean → exec .requestTake s = .next (answered body .badRequest [] false copied)) ∧
      (fresh → id ≠ 0 → clean → (∀ k, ¬ known k) →
        exec .requestTake s = .next (answered body .badRequest [] true copied)) ∧
      (∀ k, fresh → id ≠ 0 → clean → known k →
        (k.modifies (body.drop 4) = true → ¬ owns →
          exec .requestTake s = .next (answered body .notOwner [] true copied)) ∧
        (k.modifies (body.drop 4) = false → ¬ owns → exec .requestTake s = .next copied) ∧
        (∀ owner epoch countdown, s.engine.owner = .owned owner epoch countdown → owner.toNat = id →
          exec .requestTake s = .next { copied with engine := { copied.engine with
            owner := .owned owner epoch (if s.engine.lease = 0 then none else some s.engine.lease) } })))

/-- IDENTIFY, RELEASE and SET_LEASE (R150, R151, R161, R163). -/
def Obligations.OwnershipRequestsAreAnswered : Prop :=  ∀ (request : List Byte) (s : State), Quiet s →
    let two (n : Nat) : List Byte := [BitVec.ofNat 8 (n / 256), BitVec.ofNat 8 n]
    let owner : List Byte := match s.engine.owner with
      | .unowned => [0, 0, 0, 0]
      | .owned id epoch _ => [1, id.zeroExtend 8] ++ two epoch.toNat
    let left : Nat := match s.engine.owner with
      | .owned _ _ (some n) => n
      | _ => 0
    (InHand .identify request s → exec .identify s = .next (answered request .ok
      ([0x2B, 0x01, s.nodeAddress.zeroExtend 8, s.align.state.code, s.slot.swap.code, s.slot.active.code] ++
        two (s.slot.countdown.getD 0) ++ owner ++ two s.engine.lease ++ two left) true s)) ∧
    (InHand .release request s → exec .release s = .next (answered request .ok [] true
      { s with engine := { s.engine with owner := .unowned } })) ∧
    (∀ high low, InHand .setLease request s → requestParams request = [high, low] →
      let n := high.toNat * 256 + low.toNat
      let good := n = 0 ∨ (50 ≤ n ∧ n ≤ 60000)
      (good → s.engine.owner = .unowned → exec .setLease s = .next (answered request .ok [high, low, 0, 0] true
        { s with engine := { s.engine with lease := n } })) ∧
      (∀ id epoch countdown, good → s.engine.owner = .owned id epoch countdown →
        exec .setLease s = .next (answered request .ok [high, low, high, low] true { s with engine := { s.engine with
          lease := n, owner := .owned id epoch (if n = 0 then none else some n) } })) ∧
      (¬ good → exec .setLease s = .next (answered request .range [] true s)))

/-- CLAIM by the table of R149: granted when unowned, renewed by the owner at no lower an epoch, taken over by another
at a higher one with OWNER_CHANGED, and STALE otherwise, with the record as it stands (R149, R162). -/
def Obligations.ClaimsAreJudged : Prop :=  ∀ (high low : Byte) (request : List Byte) (s : State), Quiet s → InHand .claim request s →
    requestParams request = [high, low] →
    let id := BitVec.ofNat 4 ((request.getD 1 0).toNat / 16)
    let epoch := BitVec.ofNat 16 (high.toNat * 256 + low.toNat)
    let two (n : Nat) : List Byte := [BitVec.ofNat 8 (n / 256), BitVec.ofNat 8 n]
    let granted := answered request .ok ([1, id.zeroExtend 8, high, low] ++ two s.engine.lease) true
      { s with engine := { s.engine with
        owner := .owned id epoch (if s.engine.lease = 0 then none else some s.engine.lease) } }
    (s.engine.owner = .unowned → exec .claim s = .next granted) ∧
    (∀ owner current countdown, s.engine.owner = .owned owner current countdown →
      (owner = id → current.toNat ≤ epoch.toNat → exec .claim s = .next granted) ∧
      (owner ≠ id → current.toNat < epoch.toNat → Unbound .ownerChanged s → exec .claim s =
        .next (recorded .ownerChanged (some [owner.zeroExtend 8, id.zeroExtend 8, high, low]) granted)) ∧
      ((owner = id ∧ epoch.toNat < current.toNat) ∨ (owner ≠ id ∧ epoch.toNat ≤ current.toNat) →
        exec .claim s = .next (answered request .stale
          ([1, owner.zeroExtend 8] ++ two current.toNat ++ two (countdown.getD 0)) true s)))

/-! ### Circuits -/

/-- READ_CIRCUIT returns the record, the counters and the states of a circuit; READ_COUNTERS returns the counters of a
circuit or of the part, cleared in the reading where that is asked, and RANGE for a selector or an option out of range
(that a global reading is taken in one moment is the model's, log entry 21) (R46, R122, R158, R167, R170). -/
def Obligations.CircuitReadingsAreAnswered : Prop :=  ∀ (request : List Byte) (s : State), Quiet s →
    let two (n : Nat) : List Byte := [BitVec.ofNat 8 (n / 256), BitVec.ofNat 8 n]
    let four (k : Counter) : List Byte := [BitVec.ofNat 8 (k.toNat / 16777216), BitVec.ofNat 8 (k.toNat / 65536),
      BitVec.ofNat 8 (k.toNat / 256), BitVec.ofNat 8 k.toNat]
    let flag (b : Bool) : Byte := if b then 1 else 0
    let ofRecord (k : CircuitCounters) : List Byte := four k.received ++ four k.octetsReceived ++ four k.headerErrors ++
      four k.checkErrors ++ four k.stalls ++ four k.skipsSpace ++ four k.skipsQuota ++ four k.seqGaps ++ four k.strays ++
      four k.delivered ++ four k.agedOut ++ four k.flushed ++ four k.addRejects ++ four k.emitted ++ four k.octetsEmitted
    let l := s.trib.counters
    let g := s.engine.counters
    let global : List Byte := four s.align.badMarks ++ four s.align.losses ++ four s.delivery.retries ++
      four s.delivery.discarded ++ (four l.huntOctets ++ four l.framingErrors ++ four l.typeErrors ++ four l.lengthErrors ++
      four l.checkErrors ++ four l.valueErrors ++ four l.addAccepted ++ four l.creditAccepted ++ four l.rejectsSent ++
      four l.rejectsUnsent ++ four l.rejectsOutOfRange) ++ (four g.malformed ++ four g.foreign ++ four g.overruns ++
      four g.duplicates ++ four g.executed ++ four g.refused) ++ four s.events.misses ++ four s.events.abandoned
    (∀ b, InHand .readCircuit request s → requestParams request = [b] →
      (∀ c : Circuit, c.val = b.toNat →
        let r := s.circuits.get c
        exec .readCircuit s = .next (answered request .ok ([b, flag r.active, flag r.dropEnable, flag r.addEnable] ++
          two r.quota ++ [flag r.eligible] ++ two r.stallLimit ++ [BitVec.ofNat 8 r.addDepth, flag r.seqCheck] ++
          two r.held ++ [match r.expected with
            | none => 0xFF
            | some n => n.zeroExtend 8, r.emitSeq.zeroExtend 8] ++ ofRecord r.counters ++
          [(s.contexts.get c).state.code, BitVec.ofNat 8 (s.addQueues.get c).length, (s.emitters.get c).state.code])
          true s)) ∧
      (95 < b.toNat → exec .readCircuit s = .next (answered request .range [] true s))) ∧
    (∀ b clear, InHand .readCounters request s → requestParams request = [b, clear] →
      (∀ c : Circuit, c.val = b.toNat →
        (clear = 0 → exec .readCounters s =
          .next (answered request .ok ([b, 0] ++ ofRecord (s.circuits.get c).counters) true s)) ∧
        (clear = 1 → exec .readCounters s = .next (answered request .ok ([b, 1] ++ ofRecord (s.circuits.get c).counters)
          true (counted c (fun _ => ⟨0, 0, 0, 0, 0, 0, 0, 0, 0, 0, 0, 0, 0, 0, 0⟩) s)))) ∧
      (b = 0xFF →
        (clear = 0 → exec .readCounters s = .next (answered request .ok ([0xFF, 0] ++ global) true s)) ∧
        (clear = 1 → exec .readCounters s = .next (answered request .ok ([0xFF, 1] ++ global) true { s with
          align := { s.align with badMarks := 0, losses := 0 }
          delivery := { s.delivery with retries := 0, discarded := 0 }
          trib := { s.trib with counters := ⟨0, 0, 0, 0, 0, 0, 0, 0, 0, 0, 0⟩ }
          engine := { s.engine with counters := ⟨0, 0, 0, 0, 0, 0⟩ }
          events := { s.events with misses := 0, abandoned := 0 } }))) ∧
      ((95 < b.toNat ∧ b ≠ 0xFF) ∨ 1 < clear.toNat →
        exec .readCounters s = .next (answered request .range [] true s)))

/-- WRITE_CIRCUIT: the tests of R44 in their order, and the seven values written, of which circuit 0 takes the quota
and the stall limit alone, a change of its quota informing the waiting requesters (R42, R44, R77, R168). -/
def Obligations.CircuitsAreWritten : Prop :=  ∀ (b drop add qHigh qLow eligible sHigh sLow depth check : Byte) (request : List Byte) (s : State), Quiet s →
    InHand .writeCircuit request s →
    requestParams request = [b, drop, add, qHigh, qLow, eligible, sHigh, sLow, depth, check] →
    let quota := qHigh.toNat * 256 + qLow.toNat
    let stall := sHigh.toNat * 256 + sLow.toNat
    let settings := 8 ≤ quota ∧ quota ≤ 1536 ∧ stall ≤ 1000
    let switches := drop.toNat ≤ 1 ∧ add.toNat ≤ 1 ∧ eligible.toNat ≤ 1 ∧ check.toNat ≤ 1 ∧ 1 ≤ depth.toNat ∧ depth.toNat ≤ 16
    let flag (b : Bool) : Byte := if b then 1 else 0
    (95 < b.toNat → exec .writeCircuit s = .next (answered request .range [] true s)) ∧
    (∀ c : Circuit, c.val = b.toNat → c ≠ 0 →
      let r := s.circuits.get c
      let good := settings ∧ switches ∧ r.held ≤ quota ∧ (s.addQueues.get c).length ≤ depth.toNat
      (r.active = true → exec .writeCircuit s = .next (answered request .state [] true s)) ∧
      (r.active = false → ¬ good → exec .writeCircuit s = .next (answered request .range [] true s)) ∧
      (r.active = false → good → exec .writeCircuit s = .next (answered request .ok (requestParams request) true
        { s with circuits := s.circuits.put c { r with
            dropEnable := drop == 1, addEnable := add == 1, quota := quota, eligible := eligible == 1
            stallLimit := stall, addDepth := depth.toNat, seqCheck := check == 1 } }))) ∧
    (b = 0 →
      let r := s.circuits.get 0
      let good := settings ∧ r.held ≤ quota
      (¬ good → exec .writeCircuit s = .next (answered request .range [] true s)) ∧
      (good → exec .writeCircuit s = .next (answered request .ok
        [0, flag r.dropEnable, flag r.addEnable, qHigh, qLow, flag r.eligible, sHigh, sLow, BitVec.ofNat 8 r.addDepth,
          flag r.seqCheck] true
        (let written : State := { s with circuits := s.circuits.put 0 { r with quota := quota, stallLimit := stall } }
         if quota = r.quota then written else informed written))))

/-- START_CIRCUIT of a STOPPED circuit makes it ACTIVE with its context in HUNT, no expected sequence and its emitter
IDLE; of an ACTIVE one it is STATE, of no circuit RANGE. STOP_CIRCUIT of an ACTIVE circuit 1 to 95 makes it STOPPED,
frees the message in assembly and frees and counts the message in emission; with KEEP the queues stand, with FLUSH the
circuit's messages leave the class queues and the add queue, freed and counted (the order of the frees is the model's,
log entry 10). The response carries the number flushed (R47, R48, R49, R100, R132, R169). -/
def Obligations.CircuitsAreStartedAndStopped : Prop :=
  (∀ (b : Byte) (request : List Byte) (s : State), Quiet s → InHand .startCircuit request s → requestParams request = [b] →
     (95 < b.toNat → exec .startCircuit s = .next (answered request .range [] true s)) ∧
     (∀ c : Circuit, c.val = b.toNat →
       ((s.circuits.get c).active = true → exec .startCircuit s = .next (answered request .state [] true s)) ∧
       ((s.circuits.get c).active = false → exec .startCircuit s = .next (answered request .ok [] true { s with
         circuits := s.circuits.change c fun r => { r with active := true, expected := none }
         contexts := s.contexts.put c ⟨.hunt, [], 0, 0, 0, false, none, 0, 0xFFFF, [], 0, 0⟩
         emitters := s.emitters.put c ⟨.idle, none, 0, 0, 0, 0xFFFF⟩ })))) ∧
  (∀ (b mode : Byte) (request : List Byte) (s : State), Quiet s → InHand .stopCircuit request s →
     requestParams request = [b, mode] →
     let gone (d : DescNo) (t : State) : State := match t.pool.descs.get d with
       | some x => released d x (counted x.circuit (fun k => { k with flushed := k.flushed + 1 }) t)
       | none => t
     let two (n : Nat) : List Byte := [BitVec.ofNat 8 (n / 256), BitVec.ofNat 8 n]
     (b.toNat = 0 ∨ 95 < b.toNat ∨ 1 < mode.toNat →
       exec .stopCircuit s = .next (answered request .range [] true s)) ∧
     (∀ c : Circuit, c.val = b.toNat → c ≠ 0 → mode.toNat ≤ 1 →
       let mine (d : DescNo) : Bool := match s.pool.descs.get d with
         | some x => x.circuit == c
         | none => false
       let queued := ((s.delivery.queues.get 0 ++ s.delivery.queues.get 1 ++ s.delivery.queues.get 2 ++
         s.delivery.queues.get 3).filter mine) ++ s.addQueues.get c
       let marked : State := { s with circuits := s.circuits.change c fun r => { r with active := false } }
       let unassembled := match (s.contexts.get c).desc.bind fun d => (s.pool.descs.get d).map fun x => (d, x) with
         | some (d, x) => released d x marked
         | none => marked
       let silent : State := { unassembled with contexts := s.contexts.put c ⟨.stopped, [], 0, 0, 0, false, none, 0, 0xFFFF, [], 0, 0⟩ }
       let unemitted := match (s.emitters.get c).desc with
         | some d => gone d silent
         | none => silent
       let stopped : State := { unemitted with emitters := s.emitters.put c ⟨.idle, none, 0, 0, 0, 0xFFFF⟩ }
       let emitting := if (s.emitters.get c).desc = none then 0 else 1
       ((s.circuits.get c).active = false → exec .stopCircuit s = .next (answered request .state [] true s)) ∧
       ((s.circuits.get c).active = true → mode = 0 →
         exec .stopCircuit s = .next (answered request .ok (two emitting) true stopped)) ∧
       ((s.circuits.get c).active = true → mode = 1 →
         exec .stopCircuit s = .next (answered request .ok (two (emitting + queued.length)) true
           (queued.foldl (fun t d => gone d t) { stopped with
             addQueues := s.addQueues.put c []
             delivery := { s.delivery with
               queues := s.delivery.queues.map fun q => q.filter fun d => !mine d } })))))

/-! ### The pool's and the delivery unit's requests -/

/-- READ_POOL and READ_SCHED return the counts, settings and state of the pool and of the delivery unit (zeros for a
class and circuit where no message is in delivery are the model's, log entry 17). WRITE_POOL writes both levels,
judges the reserve crossing against the count and the level before it, and informs the waiting requesters; WRITE_SCHED
writes every setting; a value out of range is RANGE and writes nothing (R77, R81, R82, R83, R102, R103, R171, R172). -/
def Obligations.PoolAndSchedRequestsAreAnswered : Prop :=
  (∀ (request : List Byte) (s : State), Quiet s →
     let two (n : Nat) : List Byte := [BitVec.ofNat 8 (n / 256), BitVec.ofNat 8 n]
     let p := s.pool
     let free := p.freeSegs.length
     (∀ first n, InHand .readPool request s → requestParams request = [first, n] →
       (first.toNat ≤ 95 → first.toNat + n.toNat ≤ 96 → exec .readPool s = .next (answered request .ok
         (two free ++ two p.freeDescs.length ++ two p.segReserve ++ [BitVec.ofNat 8 p.descReserve, first, n] ++
           ((List.finRange 96).drop first.toNat |>.take n.toNat).flatMap fun c => two (s.circuits.get c).held) true s)) ∧
       (95 < first.toNat ∨ 96 < first.toNat + n.toNat →
         exec .readPool s = .next (answered request .range [] true s))) ∧
     (∀ high low descs, InHand .writePool request s → requestParams request = [high, low, descs] →
       let level := high.toNat * 256 + low.toNat
       let written : State := { s with pool := { p with segReserve := level, descReserve := descs.toNat } }
       (level ≤ 255 → descs.toNat ≤ 63 →
         (p.segReserve < free ∧ free ≤ level → Unbound .poolReserve s → exec .writePool s =
           .next (recorded .poolReserve (some (two free)) (answered request .ok [high, low, descs] true (informed written)))) ∧
         (¬ (p.segReserve < free ∧ free ≤ level) →
           exec .writePool s = .next (answered request .ok [high, low, descs] true (informed written)))) ∧
       (255 < level ∨ 63 < descs.toNat → exec .writePool s = .next (answered request .range [] true s)))) ∧
  (∀ (request : List Byte) (s : State), Quiet s →
     let two (n : Nat) : List Byte := [BitVec.ofNat 8 (n / 256), BitVec.ofNat 8 n]
     let flag (b : Bool) : Byte := if b then 1 else 0
     let e := s.delivery
     (∀ message : List Byte, InHand .readSched request s →
       ((e.inDelivery = none ∧ message = [0, 0, 0]) ∨ (∃ d x, e.inDelivery = some d ∧ s.pool.descs.get d = some x ∧
         message = [1, BitVec.ofNat 8 x.cls.val, BitVec.ofNat 8 x.circuit.val])) →
       exec .readSched s = .next (answered request .ok
         (two (e.quanta.get 0) ++ two (e.quanta.get 1) ++ two (e.quanta.get 2) ++
           two (e.ageLimits.get 0) ++ two (e.ageLimits.get 1) ++ two (e.ageLimits.get 2) ++ two (e.ageLimits.get 3) ++
           two e.stallLimit ++ two (e.deficits.get 0) ++ two (e.deficits.get 1) ++ two (e.deficits.get 2) ++
           [BitVec.ofNat 8 (e.round.val + 1), BitVec.ofNat 8 e.credits] ++
           two (e.queues.get 0).length ++ two (e.queues.get 1).length ++ two (e.queues.get 2).length ++
           two (e.queues.get 3).length ++ message ++ two e.stallTimer ++ [flag e.stallReported, flag s.trib.ready]) true s)) ∧
     (∀ q1h q1l q2h q2l q3h q3l a0h a0l a1h a1l a2h a2l a3h a3l sh sl : Byte, InHand .writeSched request s →
       requestParams request = [q1h, q1l, q2h, q2l, q3h, q3l, a0h, a0l, a1h, a1l, a2h, a2l, a3h, a3l, sh, sl] →
       let n (high low : Byte) := high.toNat * 256 + low.toNat
       let quantum (m : Nat) := 32 ≤ m ∧ m ≤ 2048
       let good := quantum (n q1h q1l) ∧ quantum (n q2h q2l) ∧ quantum (n q3h q3l) ∧ n a0h a0l ≤ 1000 ∧ n a1h a1l ≤ 1000 ∧
         n a2h a2l ≤ 1000 ∧ n a3h a3l ≤ 1000 ∧ n sh sl ≤ 1000
       (good → exec .writeSched s = .next (answered request .ok [] true { s with delivery := { e with
         quanta := ⟨[n q1h q1l, n q2h q2l, n q3h q3l], rfl⟩
         ageLimits := ⟨[n a0h a0l, n a1h a1l, n a2h a2l, n a3h a3l], rfl⟩
         stallLimit := n sh sl } })) ∧
       (¬ good → exec .writeSched s = .next (answered request .range [] true s))))

/-! ### The event unit -/

/-- An occurrence taken is recorded; a binding in use that names its kind and is armed and enabled acts, except for
BINDING_MISS and where its own failed action has given rise to the occurrence with no success between (log entry 9); a
success lowers the count and clears the record unless it is the last of a NOTIFY binding; a failure is counted and raises
BINDING_MISS; then the selection is made anew and what the action raised follows behind what waits (log entry 8).
Occurrences of a step are taken in the order they were raised, with those they give rise to (R182, R194, R195). -/
def Obligations.OccurrencesAreTaken : Prop :=
  (∀ (o : Occurrence) (rest : List Occurrence) (s : State),
     let noted : State := { s with events := { s.events with
       inbox := []
       records := s.events.records.change o.kind.num fun r =>
         { r with pending := true, repeatCount := if r.repeatCount = 255 then 255 else r.repeatCount + 1
                  detail := o.detail, lastTick := s.tickCounter } } }
     let acts (i : Fin 6) (b : Binding) := boundTo s.events o.kind = some i ∧ s.events.bindings.get i = some b ∧
       b.armed = true ∧ b.enabled = true ∧ o.kind ≠ .bindingMiss ∧ i ∉ o.barred
     let waiting (t : State) (l : List Occurrence) : State := { t with events := { t.events with inbox := l } }
     ((∀ i b, ¬ acts i b) → takeOccurrence o rest s = selectNotice (waiting noted rest)) ∧
     (∀ i b t, acts i b → performAction b.action noted = (none, t) →
       let n := b.count - 1
       let ended : Binding :=
         if n ≠ 0 then { b with count := n }
         else if b.endMode = .notify then { b with count := n, armed := false }
         else { b with count := n, enabled := false }
       let records := if n = 0 ∧ b.endMode = .notify then t.events.records
         else t.events.records.change b.kind.num fun r => { r with pending := false, repeatCount := 0, detail := none }
       takeOccurrence o rest s = selectNotice { t with events := { t.events with
         bindings := t.events.bindings.put i (some ended), records := records
         inbox := rest ++ t.events.inbox.map fun x => { x with barred := [] } } }) ∧
     (∀ i b f t, acts i b → performAction b.action noted = (some f, t) →
       let miss : Occurrence := ⟨.bindingMiss, some [octet i.val, o.kind.code, f.code], []⟩
       takeOccurrence o rest s = selectNotice { t with events := { t.events with
         misses := t.events.misses + 1
         inbox := rest ++ (t.events.inbox ++ [miss]).map fun x => { x with barred := i :: o.barred } } })) ∧
  (∀ s : State,
     (s.events.inbox = [] → takeOccurrences s = s) ∧
     (∀ o rest, s.events.inbox = o :: rest → takeOccurrences s = takeOccurrences (takeOccurrence o rest s)) ∧
     (∀ k detail, s.events.inbox = [⟨k, detail, []⟩] → Unbound k s →
       takeOccurrences s = recorded k detail { s with events := { s.events with inbox := [] } }) ∧
     (∀ k1 d1 k2 d2, s.events.inbox = [⟨k1, d1, []⟩, ⟨k2, d2, []⟩] → Unbound k1 s → Unbound k2 s →
       takeOccurrences s = recorded k2 d2 (recorded k1 d1 { s with events := { s.events with inbox := [] } })))

/-- The five actions of a binding: when each fails, with its cause, and what it does (R38, R47, R48, R101, R138, R195; the
validation of a plan, SwapRequestsAreAnswered, and what is stored and refused, StorageIsGrantedAndFreed). FLUSH_CLASS frees
from the head on: the model's choice (log entry 10). -/
def Obligations.BindingActionsAreTaken : Prop :=  ∀ s : State,
    (s.slot.swap ≠ .idle → performAction .swap s = (some .swapBusy, s)) ∧
    (∀ lack, s.slot.swap = .idle → planLack s.slot.standbyPlan = some lack →
      performAction .swap s = (some .invalidPlan, s)) ∧
    (s.slot.swap = .idle → planLack s.slot.standbyPlan = none →
      let armed : State := { s with slot := { s.slot with swap := .armedNext, armed := some ⟨.next, 0, .binding⟩ } }
      let swapped : State := { s with
        slot := { s.slot with active := s.slot.active.other, swap := .idle, armed := none, countdown := none }
        events := { s.events with
          inbox := s.events.inbox ++ [⟨.swapDone, some [s.slot.active.other.code, 1], []⟩] } }
      (s.slot.aligned = true → performAction .swap s = (none, armed)) ∧
      (s.slot.aligned = false → performAction .swap s = (none, swapped))) ∧
    (∀ c, ((s.circuits.get c).active = false → performAction (.circuitStop c) s = (some .stopped, s)) ∧
      ((s.circuits.get c).active = true → performAction (.circuitStop c) s = (none, stopCircuit c false s)) ∧
      ((s.circuits.get c).active = true → performAction (.circuitStart c) s = (some .active, s)) ∧
      ((s.circuits.get c).active = false → performAction (.circuitStart c) s = (none, startCircuit c s))) ∧
    (∀ i c, s.events.canned.get i = none → performAction (.sendCanned i c) s = (some .emptySlot, s)) ∧
    (∀ i c slot, c ≠ 0 → s.events.canned.get i = some slot →
      let m : NewMessage := ⟨.addQueued, c, slot.cls, slot.mark, none, slot.body.length, .canned⟩
      let r := s.circuits.get c
      (r.active = false → performAction (.sendCanned i c) s = (some .stopped, s)) ∧
      (r.active = true → r.addDepth ≤ (s.addQueues.get c).length →
        performAction (.sendCanned i c) s = (some .noRoom, s)) ∧
      (r.active = true → (s.addQueues.get c).length < r.addDepth →
        (∀ f, allocFailure s c ((slot.body.length + 31) / 32) = some f →
          performAction (.sendCanned i c) s = (some .noGrant, raiseRefusal f c slot.body.length s)) ∧
        (∀ d t, enqueue m slot.body s = .ok (d, t) → performAction (.sendCanned i c) s = (none, t)))) ∧
    (∀ q, performAction (.flushClass q) s = (none, (s.delivery.queues.get q).foldl (fun t d => flush d t)
      { s with delivery := { s.delivery with queues := s.delivery.queues.put q [] } }))

/-- The selection names none while four stand on the stack, else the kind, among those pending, enabled, above the
floor and the top entry and not on the stack, of the highest level and among equals the lowest number. The notice
offer follows it: made, kept, replaced or withdrawn, a re-send offer formed anew where its content has changed, each
offer made or replaced making an attempt due. An offer holds the record it was formed from, so that it is formed anew when
an item of that record has changed (a record written again with the same content is no change: the model's, log entry 22). A
notice body holds the fields of R187; an absent detail is no octets, and for CIRCUIT_FAULT an empty list with the flag
clear (R135, R184, R185, R186, R187). -/
def Obligations.NoticesFollowTheSelection : Prop :=
  (∀ (e : Events) (k : EventKind),
     let level (j : EventKind) : Nat := (e.records.get j.num).level.val
     let candidate (j : EventKind) := (e.records.get j.num).pending = true ∧ (e.records.get j.num).enabled = true ∧
       e.floor.val < level j ∧ (∀ top ∈ e.stack.head?, top.level.val < level j) ∧ ∀ entry ∈ e.stack, entry.kind ≠ j
     (4 ≤ e.stack.length → selectedKind e = none) ∧
     (e.stack.length < 4 → (selectedKind e = some k ↔ candidate k ∧
       ∀ j, candidate j → level j < level k ∨ (level j = level k ∧ k.num ≤ j.num)))) ∧
  (∀ s : State,
     let offered (o : NoticeOffer) : State :=
       { s with arbiter := { s.arbiter with notice := some o }, owed := { s.owed with attempts := s.owed.attempts + 1 } }
     let fresh (k : EventKind) : NoticeOffer :=
       ⟨false, k, (s.events.records.get k.num).level, s.events.sequence,
         noticeBody s k s.events.sequence (s.events.records.get k.num).level, s.events.records.get k.num, false⟩
     let again (top : StackEntry) : NoticeOffer :=
       ⟨true, top.kind, top.level, top.sequence, noticeBody s top.kind top.sequence top.level,
         s.events.records.get top.kind.num, false⟩
     (s.arbiter.notice = none →
       (selectedKind s.events = none → selectNotice s = s) ∧
       (∀ k, selectedKind s.events = some k → selectNotice s = offered (fresh k))) ∧
     (∀ held, s.arbiter.notice = some held → held.resend = false →
       (selectedKind s.events = none →
         selectNotice s = { s with arbiter := { s.arbiter with notice := none } }) ∧
       (∀ k, selectedKind s.events = some k →
         ({ held with tried := false } = fresh k → selectNotice s = s) ∧
         ({ held with tried := false } ≠ fresh k → selectNotice s = offered (fresh k)))) ∧
     (∀ held top below, s.arbiter.notice = some held → held.resend = true → s.events.stack = top :: below →
       ({ held with tried := false } = again top → selectNotice s = s) ∧
       ({ held with tried := false } ≠ again top → selectNotice s = offered (again top)))) ∧
  (∀ (k : EventKind) (sequence : Byte) (level : Fin 8) (s : State),
     let r := s.events.records.get k.num
     noticeBody s k sequence level = [s.nodeAddress.zeroExtend 8, 0x81, sequence, BitVec.ofNat 8 k.num.val,
       BitVec.ofNat 8 level.val, r.repeatCount, BitVec.ofNat 8 (r.lastTick.toNat / 256), BitVec.ofNat 8 r.lastTick.toNat] ++
       (match r.detail with
         | some octets => octets
         | none => if k = .circuitFault then [0, 0] else []))

/-- READ_EVENTS returns the settings, the stack from bottom to top and the sixteen records, CIRCUIT_FAULT's detail in
short form. WRITE_EVENT_CONFIG writes floor, timeout, retries and the sixteen settings and makes the selection anew,
or with a value out of range writes nothing (R173, R174, R185, R203). -/
def Obligations.EventUnitIsReadAndWritten : Prop :=
  (∀ (request : List Byte) (s : State), Quiet s → InHand .readEvents request s →
     let two (n : Nat) : List Byte := [BitVec.ofNat 8 (n / 256), BitVec.ofNat 8 n]
     let flag (b : Bool) : Byte := if b then 1 else 0
     let e := s.events
     let detail (k : EventKind) : List Byte := match (e.records.get k.num).detail with
       | none => []
       | some d => if k = .circuitFault then [d.getD 1 0, d.getD 0 0] else d
     let ofRecord (k : EventKind) : List Byte :=
       let r := e.records.get k.num
       [flag r.pending, r.repeatCount, flag r.enabled, BitVec.ofNat 8 r.level.val] ++ two r.lastTick.toNat ++
         [BitVec.ofNat 8 (detail k).length] ++ detail k
     exec .readEvents s = .next (answered request .ok
       ([BitVec.ofNat 8 e.floor.val] ++ two e.timeout ++ [BitVec.ofNat 8 e.retries, e.sequence,
         BitVec.ofNat 8 e.stack.length] ++ e.stack.reverse.flatMap (fun x =>
           [x.sequence, BitVec.ofNat 8 x.kind.num.val, BitVec.ofNat 8 x.level.val, BitVec.ofNat 8 x.sends] ++ two x.timer) ++
         EventKind.all.flatMap ofRecord) true s)) ∧
  (∀ (floor high low retries : Byte) (settings : List Byte) (request : List Byte) (s : State), Quiet s →
     InHand .writeEventConfig request s → requestParams request = floor :: high :: low :: retries :: settings →
     settings.length = 16 →
     let timeout := high.toNat * 256 + low.toNat
     let good := floor.toNat ≤ 7 ∧ 10 ≤ timeout ∧ timeout ≤ 5000 ∧ retries.toNat ≤ 7 ∧
       ∀ b ∈ settings, b.toNat % 128 < 8
     (good → ∃ t, exec .writeEventConfig s = .next (answered request .ok [] true (selectNotice t)) ∧
       t = { s with events := { s.events with
         floor := t.events.floor, timeout := timeout, retries := retries.toNat, records := t.events.records } } ∧
       t.events.floor.val = floor.toNat ∧
       ∀ k : EventKind,
         let b := settings.getD k.num.val 0
         let r := s.events.records.get k.num
         (t.events.records.get k.num).enabled = decide (128 ≤ b.toNat) ∧
         (t.events.records.get k.num).level.val = b.toNat % 8 ∧
         t.events.records.get k.num = { r with
           enabled := (t.events.records.get k.num).enabled, level := (t.events.records.get k.num).level }) ∧
     (¬ good → exec .writeEventConfig s = .next (answered request .range [] true s)))

/-- ACK_EVENTS clears the records of the kinds named, each counted once, and makes the selection anew; a kind above 15
is RANGE and clears nothing. NOTICE_ACK: RANGE for the clear option, ORDER for a sequence that is not the top entry's,
else the top entry is popped, its re-send withdrawn, the timer of the entry then on top restarted, its record cleared
if asked, and the selection made anew (R175, R183, R185, R189, R191). -/
def Obligations.EventsAndNoticesAreAcknowledged : Prop :=
  (∀ (request : List Byte) (s : State), Quiet s → InHand .ackEvents request s →
     let kinds := requestParams request
     (∀ b ∈ kinds, b.toNat ≤ 15) →
       (∃ t, exec .ackEvents s = .next (answered request .ok
         [BitVec.ofNat 8 ((List.range 16).filter fun n => kinds.any (·.toNat == n)).length] true (selectNotice t)) ∧
         t = { s with events := { s.events with records := t.events.records } } ∧
         ∀ i : Fin 16, t.events.records.get i =
           if ∃ b ∈ kinds, b.toNat = i.val then
             { s.events.records.get i with pending := false, repeatCount := 0, detail := none }
           else s.events.records.get i)) ∧
  (∀ (request : List Byte) (s : State), Quiet s →
     (InHand .ackEvents request s → (∃ b ∈ requestParams request, 15 < b.toNat) →
       exec .ackEvents s = .next (answered request .range [] true s)) ∧
     (∀ sequence clear, InHand .noticeAck request s → requestParams request = [sequence, clear] →
       (1 < clear.toNat → exec .noticeAck s = .next (answered request .range [] true s)) ∧
       (clear.toNat ≤ 1 → s.events.stack = [] →
         exec .noticeAck s = .next (answered request .order [0, 0] true s)) ∧
       (∀ top below, clear.toNat ≤ 1 → s.events.stack = top :: below →
         (top.sequence ≠ sequence → exec .noticeAck s = .next (answered request .order
           [BitVec.ofNat 8 s.events.stack.length, top.sequence] true s)) ∧
         (top.sequence = sequence →
           let popped : State := { s with
             arbiter := { s.arbiter with notice := if resendHeld s then none else s.arbiter.notice }
             events := { s.events with
               records := if clear = 1 then s.events.records.change top.kind.num fun r =>
                   { r with pending := false, repeatCount := 0, detail := none }
                 else s.events.records
               stack := match below with
                 | [] => []
                 | next :: more => { next with timer := s.events.timeout } :: more } }
           exec .noticeAck s = .next (answered request .ok
             [BitVec.ofNat 8 below.length, match below with
               | [] => 0
               | next :: _ => next.sequence] true (selectNotice popped))))))

/-- READ_FAULTS returns the fault list and CLEAR_FAULTS empties it (R176, R197, R204). -/
def Obligations.FaultListIsReadAndCleared : Prop :=  ∀ (request : List Byte) (s : State), Quiet s →
    (InHand .readFaults request s → exec .readFaults s = .next (answered request .ok
      ([if s.events.overflow then 1 else 0, BitVec.ofNat 8 s.events.faults.length] ++ s.events.faults.flatMap fun e =>
        [BitVec.ofNat 8 e.circuit.val, e.causes, BitVec.ofNat 8 (e.firstTick.toNat / 256),
          BitVec.ofNat 8 e.firstTick.toNat]) true s)) ∧
    (InHand .clearFaults request s → exec .clearFaults s = .next (answered request .ok [] true
      { s with events := { s.events with faults := [], overflow := false } }))

/-- WRITE_BINDING: RANGE for a value out of range, STATE for a kind another binding names, else the binding is written
or put out of use. READ_BINDINGS returns the six bindings (the zeros of one not in use are the model's, log entry 17).
LOAD_CANNED fills a slot, or with a value out of range nothing (R177, R178, R193, R196). -/
def Obligations.BindingsAreReadAndWritten : Prop :=
  (∀ (index used kind action a b count ending armed enabled : Byte) (request : List Byte) (s : State), Quiet s →
     InHand .writeBinding request s →
     requestParams request = [index, used, kind, action, a, b, count, ending, armed, enabled] →
     let circuit (o : Byte) (c : Circuit) := o.toNat = c.val ∧ c ≠ 0
     let named (x : BindingAction) : Prop :=
       (action = 1 ∧ x = .swap) ∨ (∃ c, action = 2 ∧ circuit a c ∧ x = .circuitStop c) ∨
       (∃ c, action = 3 ∧ circuit a c ∧ x = .circuitStart c) ∨
       (∃ i c, action = 4 ∧ a.toNat = Fin.val i ∧ circuit b c ∧ x = .sendCanned i c) ∨
       (∃ q, action = 5 ∧ a.toNat = Fin.val q ∧ x = .flushClass q)
     let written (x : Binding) : Prop := x.kind.num.val = kind.toNat ∧ kind.toNat ≤ 14 ∧ named x.action ∧
       x.count = count.toNat ∧ 1 ≤ x.count ∧ ending.toNat ≤ 1 ∧ x.endMode = (if ending = 0 then .notify else .silent) ∧
       armed.toNat ≤ 1 ∧ x.armed = (armed == 1) ∧ enabled.toNat ≤ 1 ∧ x.enabled = (enabled == 1)
     let put (i : Fin 6) (x : Option Binding) : State :=
       { s with events := { s.events with bindings := s.events.bindings.put i x } }
     (5 < index.toNat ∨ 1 < used.toNat → exec .writeBinding s = .next (answered request .range [] true s)) ∧
     (∀ i : Fin 6, i.val = index.toNat →
       (used = 0 → exec .writeBinding s = .next (answered request .ok [] true (put i none))) ∧
       (used = 1 → (∀ x, ¬ written x) → exec .writeBinding s = .next (answered request .range [] true s)) ∧
       (∀ x, used = 1 → written x →
         ((∃ j y, j ≠ i ∧ s.events.bindings.get j = some y ∧ y.kind = x.kind) →
           exec .writeBinding s = .next (answered request .state [] true s)) ∧
         ((∀ j y, j ≠ i → s.events.bindings.get j = some y → y.kind ≠ x.kind) →
           exec .writeBinding s = .next (answered request .ok [] true (put i (some x))))))) ∧
  (∀ (request : List Byte) (s : State), Quiet s →
     let flag (b : Bool) : Byte := if b then 1 else 0
     (InHand .readBindings request s → exec .readBindings s = .next (answered request .ok
       ((List.finRange 6).flatMap fun i => match s.events.bindings.get i with
         | none => [BitVec.ofNat 8 i.val, 0, 0, 0, 0, 0, 0, 0, 0, 0]
         | some x => [BitVec.ofNat 8 i.val, 1, BitVec.ofNat 8 x.kind.num.val] ++ (match x.action with
           | .swap => [1, 0, 0]
           | .circuitStop c => [2, BitVec.ofNat 8 c.val, 0]
           | .circuitStart c => [3, BitVec.ofNat 8 c.val, 0]
           | .sendCanned n c => [4, BitVec.ofNat 8 n.val, BitVec.ofNat 8 c.val]
           | .flushClass q => [5, BitVec.ofNat 8 q.val, 0]) ++
           [BitVec.ofNat 8 x.count, if x.endMode = .notify then 0 else 1, flag x.armed, flag x.enabled]) true s)) ∧
     (∀ slot cls mark body, InHand .loadCanned request s → requestParams request = slot :: cls :: mark :: body →
       (∀ i : Fin 4, i.val = slot.toNat → cls.toNat ≤ 3 → mark.toNat ≤ 1 →
         exec .loadCanned s = .next (answered request .ok [slot, BitVec.ofNat 8 body.length] true
           { s with events := { s.events with
             canned := s.events.canned.put i (some ⟨body, Fin.ofNat 4 cls.toNat, mark == 1⟩) } })) ∧
       (3 < slot.toNat ∨ 3 < cls.toNat ∨ 1 < mark.toNat →
         exec .loadCanned s = .next (answered request .range [] true s))))

/-! ### RESET -/

/-- RESET of mode TRAFFIC clears every message, queue, sequence, credit and armed swap, puts the contexts of circuits
that are not STOPPED in HUNT and every segment and descriptor on the free lists in ascending order, and leaves its
response alone in the circuit 0 add queue, an attempt of the arbiter due for an offer still held. RESET of mode FULL
offers its response and the engine is RESETTING, all else as it was; another mode is RANGE by either row, and a row
whose mode it is not leaves it (log entry 23). A request row whose request is not in hand changes nothing (log entry 4)
(R39, R65, R84, R106, R123, R139, R155, R156, R179). -/
def Obligations.ResetRequestsAreCarriedOut : Prop :=
  (∀ (request : List Byte) (s : State), Quiet s → InHand .reset request s → requestParams request = [0] →
     SettingsLaw s →
     let octets := [s.nodeAddress.zeroExtend 8, 0x80, at0 request 1, at0 request 2, at0 request 3, 0, 0]
     ∃ t, exec .resetTraffic s = .next t ∧
       t = { s with
         circuits := t.circuits, contexts := t.contexts, pool := t.pool, delivery := t.delivery, trib := t.trib
         addQueues := (Table.fill 96 []).put 0 [0], emitters := .fill 96 ⟨.idle, none, 0, 0, 0, 0xFFFF⟩
         slot := t.slot
         engine := { s.engine with
           state := .idle, queue := [], inHand := none, cache := some ⟨requestId request, requestTag request, octets⟩
           counters := { s.engine.counters with executed := s.engine.counters.executed + 1 } }
         owed := if s.arbiter.response = none ∧ s.arbiter.notice = none then .none
           else { Owed.none with attempts := 1 } } ∧
       (∀ c, t.circuits.get c = { s.circuits.get c with
         expected := none, emitSeq := 0, held := if c = 0 then 1 else 0 }) ∧
       (∀ c, t.contexts.get c = if (s.contexts.get c).state = .stopped then s.contexts.get c
         else ⟨.hunt, [], 0, 0, 0, false, none, 0, 0xFFFF, [], 0, 0⟩) ∧
       (t.pool.freeSegs = (List.finRange 1536).tail ∧ t.pool.freeDescs = (List.finRange 320).tail ∧
         t.pool.segReserve = s.pool.segReserve ∧ t.pool.descReserve = s.pool.descReserve ∧
         (∀ d, d ≠ 0 → t.pool.descs.get d = none) ∧
         ∃ x, t.pool.descs.get 0 = some x ∧ x.state = .addQueued ∧ x.circuit = 0 ∧ x.cls = 0 ∧ x.mark = false ∧
           x.origin = .response ∧ (StoreLaw s → bodyOf t x = octets)) ∧
       t.delivery = { s.delivery with
         queues := .fill 4 [], deficits := .fill 3 0, round := 0, credits := 0, stallTimer := 0, stallReported := false
         inDelivery := none } ∧
       t.trib = { s.trib with parser := .hunting, rejects := [], tx := .idle, frame := [] } ∧
       t.slot = (if s.slot.swap = .armedNext ∨ s.slot.swap = .armedSignal then
         { s.slot with swap := .idle, armed := none } else s.slot)) ∧
  (∀ (mode : Byte) (request : List Byte) (s : State), Quiet s → InHand .reset request s → requestParams request = [mode] →
     let begun := answered request .ok [1] true s
     (mode = 1 → exec .resetFull s = .next { begun with engine := { begun.engine with state := .resetting } }) ∧
     (1 < mode.toNat → exec .resetFull s = .next (answered request .range [] true s) ∧
       exec .resetTraffic s = .next (answered request .range [] true s)) ∧
     (mode = 0 → exec .resetFull s = .next s) ∧ (mode = 1 → exec .resetTraffic s = .next s)) ∧
  (∀ s : State, Quiet s → (s.engine.state ≠ .executing ∨ s.engine.inHand = none) →
     ∀ i ∈ [Instr.identify, .claim, .release, .setLease, .readPlan, .writePlan, .copyPlan, .armSwap, .cancelSwap,
       .confirmSwap, .readCircuit, .writeCircuit, .startCircuit, .stopCircuit, .readCounters, .readPool, .writePool,
       .readSched, .writeSched, .readEvents, .writeEventConfig, .ackEvents, .noticeAck, .readFaults, .clearFaults,
       .writeBinding, .readBindings, .loadCanned, .resetTraffic, .resetFull], exec i s = .next s)

/-! ### Laws of every run -/

/-- The laws hold after a power-on reset (R26, R66, R67, R80, R87, R184, R193). -/
def Obligations.LawsHoldAtReset : Prop :=
  StoreLaw .reset ∧ SettingsLaw .reset ∧ PlanLaw .reset ∧ PoolLaw .reset ∧ CapacityLaw .reset ∧ StackLaw .reset ∧
    BindingLaw .reset

/-- The active bank always drops and inserts circuit 0: every step keeps it so, from every state in which it and the
validity of a bank that may become active hold (the law of 02 under R26). -/
def Obligations.EveryStepKeepsThePlanLaw : Prop :=  ∀ s t : State, PlanLaw s → step s = .next t → PlanLaw t

/-- Every segment is free or in one chain, every descriptor is free or in use, and each held count is the length of
its circuit's chains and within its quota (R66, R67, R80). -/
def Obligations.EveryStepKeepsThePoolLaw : Prop :=  ∀ s t : State, PoolLaw s → step s = .next t → PoolLaw t

/-- The notice stack stays within four entries, strictly rising, of different kinds (R184). -/
def Obligations.EveryStepKeepsTheStackLaw : Prop :=  ∀ s t : State, StackLaw s → step s = .next t → StackLaw t

/-- From every state in which it holds, every step keeps each of these laws: the segment store stands in canonical
form; every setting is in the range its request allows; credits, reject queue, request queue, add queues and fault
list stay within their bounds, and the fault list names no circuit twice; no two bindings in use name one kind, and
none names BINDING_MISS (R42, R81, R87, R102, R119, R124, R142, R148, R174, R193, R197). -/
def Obligations.EveryStepKeepsTheBoundsAndSettings : Prop :=
  (∀ s t : State, StoreLaw s → step s = .next t → StoreLaw t) ∧
  (∀ s t : State, SettingsLaw s → step s = .next t → SettingsLaw t) ∧
  (∀ s t : State, CapacityLaw s → step s = .next t → CapacityLaw t) ∧
  (∀ s t : State, BindingLaw s → step s = .next t → BindingLaw t)
end

