-- ==== Sys2Proof/Laws/State.lean ====
section
/-!
SUPPORT. Laws of the plain updates of State: for each update, what it writes and every field it keeps, one equation a
field. Each theorem is a conjunction of such equations, which simp takes one by one.
-/

namespace Sys2Proof.Machine

-- One theorem at a time: many small ones compiled side by side take more memory than they save time.
set_option Elab.async false

/-! ### Tables -/

/-- Reading the place just written. -/
@[simp] theorem Table.get_put_same {α : Type} {n : Nat} (t : Table α n) (i : Fin n) (a : α) : (t.put i a).get i = a := by
  simp [Table.get, Table.put]
/-- A write leaves every other place. -/
theorem Table.get_put_other {α : Type} {n : Nat} (t : Table α n) (i j : Fin n) (a : α) (h : j ≠ i) :
    (t.put i a).get j = t.get j := by
  have : i.val ≠ j.val := fun e => h (Fin.ext e.symm)
  simp [Table.get, Table.put, this]
/-- Reading after a write, in one form. -/
theorem Table.get_put {α : Type} {n : Nat} (t : Table α n) (i j : Fin n) (a : α) :
    (t.put i a).get j = if j = i then a else t.get j := by
  split
  · subst_vars; simp
  · exact t.get_put_other i j a ‹_›
@[simp] theorem Table.get_change_same {α : Type} {n : Nat} (t : Table α n) (i : Fin n) (f : α → α) :
    (t.change i f).get i = f (t.get i) := by
  simp [Table.change]
theorem Table.get_change {α : Type} {n : Nat} (t : Table α n) (i j : Fin n) (f : α → α) :
    (t.change i f).get j = if j = i then f (t.get j) else t.get j := by
  rw [Table.change, Table.get_put]
  split
  · subst_vars; rfl
  · rfl
@[simp] theorem Table.get_fill {α : Type} {n : Nat} (a : α) (i : Fin n) : (Table.fill n a).get i = a := by
  simp [Table.get, Table.fill]
@[simp] theorem Table.get_map {α β : Type} {n : Nat} (f : α → β) (t : Table α n) (i : Fin n) :
    (t.map f).get i = f (t.get i) := by
  simp [Table.get, Table.map]
/-- Two tables that agree at every place are equal. -/
theorem Table.ext_get {α : Type} {n : Nat} {t u : Table α n} (h : ∀ i, t.get i = u.get i) : t = u := by
  cases t with
  | mk l hl =>
    cases u with
    | mk m hm =>
      congr
      apply List.ext_getElem (by rw [hl, hm])
      intro i h1 _
      exact h ⟨i, by rw [← hl]; exact h1⟩
/-- A table changed by a function that gives back what it is given. -/
@[simp] theorem Table.put_get {α : Type} {n : Nat} (t : Table α n) (i : Fin n) : t.put i (t.get i) = t := by
  apply Table.ext_get
  intro j
  rw [Table.get_put]
  split
  · subst_vars; rfl
  · rfl

/-- A sum over a list with one place changed. -/
theorem sum_map_set {α : Type} (l : List α) (i : Nat) (h : i < l.length) (a : α) (f : α → Nat) :
   ((l.set i a).map f).sum + f l[i] = (l.map f).sum + f a := by
  induction l generalizing i with
  | nil => simp at h
  | cons x l ih =>
    cases i with
    | zero => simp; omega
    | succ i =>
      have := ih i (by simpa using h)
      simp only [List.set_cons_succ, List.map_cons, List.sum_cons, List.getElem_cons_succ]; omega

/-! ### What each update keeps -/

@[simp] theorem raise_frame (k : EventKind) (detail : Option (List Byte)) (s : State) :
    (raise k detail s).pending = s.pending ∧ (raise k detail s).pins = s.pins ∧ (raise k detail s).toData = s.toData ∧
    (raise k detail s).tickCounter = s.tickCounter ∧ (raise k detail s).nodeAddress = s.nodeAddress ∧
    (raise k detail s).align = s.align ∧ (raise k detail s).slot = s.slot ∧ (raise k detail s).circuits = s.circuits ∧
    (raise k detail s).contexts = s.contexts ∧ (raise k detail s).pool = s.pool ∧
    (raise k detail s).delivery = s.delivery ∧ (raise k detail s).trib = s.trib ∧
    (raise k detail s).addQueues = s.addQueues ∧ (raise k detail s).emitters = s.emitters ∧
    (raise k detail s).arbiter = s.arbiter ∧ (raise k detail s).engine = s.engine ∧
    (raise k detail s).events.stack = s.events.stack ∧ (raise k detail s).events.bindings = s.events.bindings ∧
    (raise k detail s).events.faults = s.events.faults ∧ (raise k detail s).events.overflow = s.events.overflow ∧
    (raise k detail s).events.canned = s.events.canned ∧ (raise k detail s).events.records = s.events.records ∧
    (raise k detail s).events.sequence = s.events.sequence ∧ (raise k detail s).events.floor = s.events.floor ∧
    (raise k detail s).events.timeout = s.events.timeout ∧ (raise k detail s).events.retries = s.events.retries ∧
    (raise k detail s).events.misses = s.events.misses ∧ (raise k detail s).events.abandoned = s.events.abandoned ∧
    (raise k detail s).owed = s.owed := by
  exact ⟨rfl, rfl, rfl, rfl, rfl, rfl, rfl, rfl, rfl, rfl, rfl, rfl, rfl, rfl, rfl, rfl, rfl, rfl, rfl, rfl, rfl, rfl, rfl, rfl, rfl, rfl, rfl, rfl, rfl⟩

@[simp] theorem changeRecord_frame (c : Circuit) (f : CircuitRecord → CircuitRecord) (s : State) :
    (changeRecord c f s).pending = s.pending ∧ (changeRecord c f s).pins = s.pins ∧
    (changeRecord c f s).toData = s.toData ∧ (changeRecord c f s).tickCounter = s.tickCounter ∧
    (changeRecord c f s).nodeAddress = s.nodeAddress ∧ (changeRecord c f s).align = s.align ∧
    (changeRecord c f s).slot = s.slot ∧ (changeRecord c f s).contexts = s.contexts ∧
    (changeRecord c f s).pool = s.pool ∧ (changeRecord c f s).delivery = s.delivery ∧
    (changeRecord c f s).trib = s.trib ∧ (changeRecord c f s).addQueues = s.addQueues ∧
    (changeRecord c f s).emitters = s.emitters ∧ (changeRecord c f s).arbiter = s.arbiter ∧
    (changeRecord c f s).engine = s.engine ∧ (changeRecord c f s).events = s.events ∧
    (changeRecord c f s).owed = s.owed := by
  exact ⟨rfl, rfl, rfl, rfl, rfl, rfl, rfl, rfl, rfl, rfl, rfl, rfl, rfl, rfl, rfl, rfl, rfl⟩

@[simp] theorem count_frame (c : Circuit) (f : CircuitCounters → CircuitCounters) (s : State) :
    (count c f s).pending = s.pending ∧ (count c f s).pins = s.pins ∧ (count c f s).toData = s.toData ∧
    (count c f s).tickCounter = s.tickCounter ∧ (count c f s).nodeAddress = s.nodeAddress ∧
    (count c f s).align = s.align ∧ (count c f s).slot = s.slot ∧ (count c f s).contexts = s.contexts ∧
    (count c f s).pool = s.pool ∧ (count c f s).delivery = s.delivery ∧ (count c f s).trib = s.trib ∧
    (count c f s).addQueues = s.addQueues ∧ (count c f s).emitters = s.emitters ∧ (count c f s).arbiter = s.arbiter ∧
    (count c f s).engine = s.engine ∧ (count c f s).events = s.events ∧ (count c f s).owed = s.owed := by
  exact ⟨rfl, rfl, rfl, rfl, rfl, rfl, rfl, rfl, rfl, rfl, rfl, rfl, rfl, rfl, rfl, rfl, rfl⟩

@[simp] theorem countLink_frame (f : LinkCounters → LinkCounters) (s : State) :
    (countLink f s).pending = s.pending ∧ (countLink f s).pins = s.pins ∧ (countLink f s).toData = s.toData ∧
    (countLink f s).tickCounter = s.tickCounter ∧ (countLink f s).nodeAddress = s.nodeAddress ∧
    (countLink f s).align = s.align ∧ (countLink f s).slot = s.slot ∧ (countLink f s).circuits = s.circuits ∧
    (countLink f s).contexts = s.contexts ∧ (countLink f s).pool = s.pool ∧ (countLink f s).delivery = s.delivery ∧
    (countLink f s).trib.ready = s.trib.ready ∧ (countLink f s).trib.parser = s.trib.parser ∧
    (countLink f s).trib.rejects = s.trib.rejects ∧ (countLink f s).trib.tx = s.trib.tx ∧
    (countLink f s).trib.frame = s.trib.frame ∧ (countLink f s).addQueues = s.addQueues ∧
    (countLink f s).emitters = s.emitters ∧ (countLink f s).arbiter = s.arbiter ∧ (countLink f s).engine = s.engine ∧
    (countLink f s).events = s.events ∧ (countLink f s).owed = s.owed := by
  exact ⟨rfl, rfl, rfl, rfl, rfl, rfl, rfl, rfl, rfl, rfl, rfl, rfl, rfl, rfl, rfl, rfl, rfl, rfl, rfl, rfl, rfl, rfl⟩

@[simp] theorem countEngine_frame (f : EngineCounters → EngineCounters) (s : State) :
    (countEngine f s).pending = s.pending ∧ (countEngine f s).pins = s.pins ∧ (countEngine f s).toData = s.toData ∧
    (countEngine f s).tickCounter = s.tickCounter ∧ (countEngine f s).nodeAddress = s.nodeAddress ∧
    (countEngine f s).align = s.align ∧ (countEngine f s).slot = s.slot ∧ (countEngine f s).circuits = s.circuits ∧
    (countEngine f s).contexts = s.contexts ∧ (countEngine f s).pool = s.pool ∧
    (countEngine f s).delivery = s.delivery ∧ (countEngine f s).trib = s.trib ∧
    (countEngine f s).addQueues = s.addQueues ∧ (countEngine f s).emitters = s.emitters ∧
    (countEngine f s).arbiter = s.arbiter ∧ (countEngine f s).engine.state = s.engine.state ∧
    (countEngine f s).engine.queue = s.engine.queue ∧ (countEngine f s).engine.inHand = s.engine.inHand ∧
    (countEngine f s).engine.owner = s.engine.owner ∧ (countEngine f s).engine.lease = s.engine.lease ∧
    (countEngine f s).engine.cache = s.engine.cache ∧ (countEngine f s).engine.noted = s.engine.noted ∧
    (countEngine f s).events = s.events ∧ (countEngine f s).owed = s.owed := by
  exact ⟨rfl, rfl, rfl, rfl, rfl, rfl, rfl, rfl, rfl, rfl, rfl, rfl, rfl, rfl, rfl, rfl, rfl, rfl, rfl, rfl, rfl, rfl, rfl, rfl⟩

@[simp] theorem setContext_frame (c : Circuit) (ctx : RxContext) (s : State) :
    (setContext c ctx s).pending = s.pending ∧ (setContext c ctx s).pins = s.pins ∧
    (setContext c ctx s).toData = s.toData ∧ (setContext c ctx s).tickCounter = s.tickCounter ∧
    (setContext c ctx s).nodeAddress = s.nodeAddress ∧ (setContext c ctx s).align = s.align ∧
    (setContext c ctx s).slot = s.slot ∧ (setContext c ctx s).circuits = s.circuits ∧
    (setContext c ctx s).pool = s.pool ∧ (setContext c ctx s).delivery = s.delivery ∧
    (setContext c ctx s).trib = s.trib ∧ (setContext c ctx s).addQueues = s.addQueues ∧
    (setContext c ctx s).emitters = s.emitters ∧ (setContext c ctx s).arbiter = s.arbiter ∧
    (setContext c ctx s).engine = s.engine ∧ (setContext c ctx s).events = s.events ∧
    (setContext c ctx s).owed = s.owed := by
  exact ⟨rfl, rfl, rfl, rfl, rfl, rfl, rfl, rfl, rfl, rfl, rfl, rfl, rfl, rfl, rfl, rfl, rfl⟩

@[simp] theorem setEmitter_frame (c : Circuit) (e : Emitter) (s : State) :
    (setEmitter c e s).pending = s.pending ∧ (setEmitter c e s).pins = s.pins ∧ (setEmitter c e s).toData = s.toData ∧
    (setEmitter c e s).tickCounter = s.tickCounter ∧ (setEmitter c e s).nodeAddress = s.nodeAddress ∧
    (setEmitter c e s).align = s.align ∧ (setEmitter c e s).slot = s.slot ∧ (setEmitter c e s).circuits = s.circuits ∧
    (setEmitter c e s).contexts = s.contexts ∧ (setEmitter c e s).pool = s.pool ∧
    (setEmitter c e s).delivery = s.delivery ∧ (setEmitter c e s).trib = s.trib ∧
    (setEmitter c e s).addQueues = s.addQueues ∧ (setEmitter c e s).arbiter = s.arbiter ∧
    (setEmitter c e s).engine = s.engine ∧ (setEmitter c e s).events = s.events ∧ (setEmitter c e s).owed = s.owed := by
  exact ⟨rfl, rfl, rfl, rfl, rfl, rfl, rfl, rfl, rfl, rfl, rfl, rfl, rfl, rfl, rfl, rfl, rfl⟩

@[simp] theorem setAddQueue_frame (c : Circuit) (q : List DescNo) (s : State) :
    (setAddQueue c q s).pending = s.pending ∧ (setAddQueue c q s).pins = s.pins ∧
    (setAddQueue c q s).toData = s.toData ∧ (setAddQueue c q s).tickCounter = s.tickCounter ∧
    (setAddQueue c q s).nodeAddress = s.nodeAddress ∧ (setAddQueue c q s).align = s.align ∧
    (setAddQueue c q s).slot = s.slot ∧ (setAddQueue c q s).circuits = s.circuits ∧
    (setAddQueue c q s).contexts = s.contexts ∧ (setAddQueue c q s).pool = s.pool ∧
    (setAddQueue c q s).delivery = s.delivery ∧ (setAddQueue c q s).trib = s.trib ∧
    (setAddQueue c q s).emitters = s.emitters ∧ (setAddQueue c q s).arbiter = s.arbiter ∧
    (setAddQueue c q s).engine = s.engine ∧ (setAddQueue c q s).events = s.events ∧ (setAddQueue c q s).owed = s.owed := by
  exact ⟨rfl, rfl, rfl, rfl, rfl, rfl, rfl, rfl, rfl, rfl, rfl, rfl, rfl, rfl, rfl, rfl, rfl⟩

@[simp] theorem setClassQueue_frame (q : Class) (l : List DescNo) (s : State) :
    (setClassQueue q l s).pending = s.pending ∧ (setClassQueue q l s).pins = s.pins ∧
    (setClassQueue q l s).toData = s.toData ∧ (setClassQueue q l s).tickCounter = s.tickCounter ∧
    (setClassQueue q l s).nodeAddress = s.nodeAddress ∧ (setClassQueue q l s).align = s.align ∧
    (setClassQueue q l s).slot = s.slot ∧ (setClassQueue q l s).circuits = s.circuits ∧
    (setClassQueue q l s).contexts = s.contexts ∧ (setClassQueue q l s).pool = s.pool ∧
    (setClassQueue q l s).delivery.credits = s.delivery.credits ∧
    (setClassQueue q l s).delivery.quanta = s.delivery.quanta ∧
    (setClassQueue q l s).delivery.ageLimits = s.delivery.ageLimits ∧
    (setClassQueue q l s).delivery.stallLimit = s.delivery.stallLimit ∧
    (setClassQueue q l s).delivery.inDelivery = s.delivery.inDelivery ∧
    (setClassQueue q l s).delivery.retries = s.delivery.retries ∧
    (setClassQueue q l s).delivery.discarded = s.delivery.discarded ∧ (setClassQueue q l s).trib = s.trib ∧
    (setClassQueue q l s).addQueues = s.addQueues ∧ (setClassQueue q l s).emitters = s.emitters ∧
    (setClassQueue q l s).arbiter = s.arbiter ∧ (setClassQueue q l s).engine = s.engine ∧
    (setClassQueue q l s).events = s.events ∧ (setClassQueue q l s).owed = s.owed := by
  exact ⟨rfl, rfl, rfl, rfl, rfl, rfl, rfl, rfl, rfl, rfl, rfl, rfl, rfl, rfl, rfl, rfl, rfl, rfl, rfl, rfl, rfl, rfl, rfl, rfl⟩

@[simp] theorem setDesc_frame (d : DescNo) (x : Option Descriptor) (s : State) :
    (setDesc d x s).pending = s.pending ∧ (setDesc d x s).pins = s.pins ∧ (setDesc d x s).toData = s.toData ∧
    (setDesc d x s).tickCounter = s.tickCounter ∧ (setDesc d x s).nodeAddress = s.nodeAddress ∧
    (setDesc d x s).align = s.align ∧ (setDesc d x s).slot = s.slot ∧ (setDesc d x s).circuits = s.circuits ∧
    (setDesc d x s).contexts = s.contexts ∧ (setDesc d x s).pool.store = s.pool.store ∧
    (setDesc d x s).pool.segReserve = s.pool.segReserve ∧ (setDesc d x s).pool.descReserve = s.pool.descReserve ∧
    (setDesc d x s).pool.freeSegs = s.pool.freeSegs ∧ (setDesc d x s).pool.freeDescs = s.pool.freeDescs ∧
    (setDesc d x s).delivery = s.delivery ∧ (setDesc d x s).trib = s.trib ∧ (setDesc d x s).addQueues = s.addQueues ∧
    (setDesc d x s).emitters = s.emitters ∧ (setDesc d x s).arbiter = s.arbiter ∧ (setDesc d x s).engine = s.engine ∧
    (setDesc d x s).events = s.events ∧ (setDesc d x s).owed = s.owed := by
  exact ⟨rfl, rfl, rfl, rfl, rfl, rfl, rfl, rfl, rfl, rfl, rfl, rfl, rfl, rfl, rfl, rfl, rfl, rfl, rfl, rfl, rfl, rfl⟩

@[simp] theorem setStore_frame (m : Memory) (s : State) :
    (setStore m s).pending = s.pending ∧ (setStore m s).pins = s.pins ∧ (setStore m s).toData = s.toData ∧
    (setStore m s).tickCounter = s.tickCounter ∧ (setStore m s).nodeAddress = s.nodeAddress ∧
    (setStore m s).align = s.align ∧ (setStore m s).slot = s.slot ∧ (setStore m s).circuits = s.circuits ∧
    (setStore m s).contexts = s.contexts ∧ (setStore m s).pool.segReserve = s.pool.segReserve ∧
    (setStore m s).pool.descReserve = s.pool.descReserve ∧ (setStore m s).pool.freeSegs = s.pool.freeSegs ∧
    (setStore m s).pool.freeDescs = s.pool.freeDescs ∧ (setStore m s).pool.descs = s.pool.descs ∧
    (setStore m s).delivery = s.delivery ∧ (setStore m s).trib = s.trib ∧ (setStore m s).addQueues = s.addQueues ∧
    (setStore m s).emitters = s.emitters ∧ (setStore m s).arbiter = s.arbiter ∧ (setStore m s).engine = s.engine ∧
    (setStore m s).events = s.events ∧ (setStore m s).owed = s.owed := by
  exact ⟨rfl, rfl, rfl, rfl, rfl, rfl, rfl, rfl, rfl, rfl, rfl, rfl, rfl, rfl, rfl, rfl, rfl, rfl, rfl, rfl, rfl, rfl⟩

@[simp] theorem oweAttempt_frame (s : State) :
    (oweAttempt s).pending = s.pending ∧ (oweAttempt s).pins = s.pins ∧ (oweAttempt s).toData = s.toData ∧
    (oweAttempt s).tickCounter = s.tickCounter ∧ (oweAttempt s).nodeAddress = s.nodeAddress ∧
    (oweAttempt s).align = s.align ∧ (oweAttempt s).slot = s.slot ∧ (oweAttempt s).circuits = s.circuits ∧
    (oweAttempt s).contexts = s.contexts ∧ (oweAttempt s).pool = s.pool ∧ (oweAttempt s).delivery = s.delivery ∧
    (oweAttempt s).trib = s.trib ∧ (oweAttempt s).addQueues = s.addQueues ∧ (oweAttempt s).emitters = s.emitters ∧
    (oweAttempt s).arbiter = s.arbiter ∧ (oweAttempt s).engine = s.engine ∧ (oweAttempt s).events = s.events := by
  exact ⟨rfl, rfl, rfl, rfl, rfl, rfl, rfl, rfl, rfl, rfl, rfl, rfl, rfl, rfl, rfl, rfl, rfl⟩

@[simp] theorem idleTransmitter_frame (s : State) :
    (idleTransmitter s).pending = s.pending ∧ (idleTransmitter s).pins = s.pins ∧
    (idleTransmitter s).toData = s.toData ∧ (idleTransmitter s).tickCounter = s.tickCounter ∧
    (idleTransmitter s).nodeAddress = s.nodeAddress ∧ (idleTransmitter s).align = s.align ∧
    (idleTransmitter s).slot = s.slot ∧ (idleTransmitter s).circuits = s.circuits ∧
    (idleTransmitter s).contexts = s.contexts ∧ (idleTransmitter s).pool = s.pool ∧
    (idleTransmitter s).delivery = s.delivery ∧ (idleTransmitter s).trib.ready = s.trib.ready ∧
    (idleTransmitter s).trib.parser = s.trib.parser ∧ (idleTransmitter s).trib.rejects = s.trib.rejects ∧
    (idleTransmitter s).trib.counters = s.trib.counters ∧ (idleTransmitter s).addQueues = s.addQueues ∧
    (idleTransmitter s).emitters = s.emitters ∧ (idleTransmitter s).arbiter = s.arbiter ∧
    (idleTransmitter s).engine = s.engine ∧ (idleTransmitter s).events = s.events ∧ (idleTransmitter s).owed = s.owed := by
  exact ⟨rfl, rfl, rfl, rfl, rfl, rfl, rfl, rfl, rfl, rfl, rfl, rfl, rfl, rfl, rfl, rfl, rfl, rfl, rfl, rfl, rfl⟩

@[simp] theorem endDelivery_frame (s : State) :
    (endDelivery s).pending = s.pending ∧ (endDelivery s).pins = s.pins ∧ (endDelivery s).toData = s.toData ∧
    (endDelivery s).tickCounter = s.tickCounter ∧ (endDelivery s).nodeAddress = s.nodeAddress ∧
    (endDelivery s).align = s.align ∧ (endDelivery s).slot = s.slot ∧ (endDelivery s).circuits = s.circuits ∧
    (endDelivery s).contexts = s.contexts ∧ (endDelivery s).pool = s.pool ∧
    (endDelivery s).delivery.credits = s.delivery.credits ∧ (endDelivery s).delivery.queues = s.delivery.queues ∧
    (endDelivery s).delivery.quanta = s.delivery.quanta ∧ (endDelivery s).delivery.ageLimits = s.delivery.ageLimits ∧
    (endDelivery s).delivery.stallLimit = s.delivery.stallLimit ∧
    (endDelivery s).delivery.retries = s.delivery.retries ∧
    (endDelivery s).delivery.discarded = s.delivery.discarded ∧ (endDelivery s).trib = s.trib ∧
    (endDelivery s).addQueues = s.addQueues ∧ (endDelivery s).emitters = s.emitters ∧
    (endDelivery s).arbiter = s.arbiter ∧ (endDelivery s).engine = s.engine ∧ (endDelivery s).events = s.events ∧
    (endDelivery s).owed = s.owed := by
  exact ⟨rfl, rfl, rfl, rfl, rfl, rfl, rfl, rfl, rfl, rfl, rfl, rfl, rfl, rfl, rfl, rfl, rfl, rfl, rfl, rfl, rfl, rfl, rfl, rfl⟩

@[simp] theorem setEvents_frame (e : Events) (s : State) :
    (setEvents e s).pending = s.pending ∧ (setEvents e s).pins = s.pins ∧ (setEvents e s).toData = s.toData ∧
    (setEvents e s).tickCounter = s.tickCounter ∧ (setEvents e s).nodeAddress = s.nodeAddress ∧
    (setEvents e s).align = s.align ∧ (setEvents e s).slot = s.slot ∧ (setEvents e s).circuits = s.circuits ∧
    (setEvents e s).contexts = s.contexts ∧ (setEvents e s).pool = s.pool ∧ (setEvents e s).delivery = s.delivery ∧
    (setEvents e s).trib = s.trib ∧ (setEvents e s).addQueues = s.addQueues ∧ (setEvents e s).emitters = s.emitters ∧
    (setEvents e s).arbiter = s.arbiter ∧ (setEvents e s).engine = s.engine ∧ (setEvents e s).owed = s.owed := by
  exact ⟨rfl, rfl, rfl, rfl, rfl, rfl, rfl, rfl, rfl, rfl, rfl, rfl, rfl, rfl, rfl, rfl, rfl⟩

@[simp] theorem makeOffer_frame (o : NoticeOffer) (s : State) :
    (makeOffer o s).pending = s.pending ∧ (makeOffer o s).pins = s.pins ∧ (makeOffer o s).toData = s.toData ∧
    (makeOffer o s).tickCounter = s.tickCounter ∧ (makeOffer o s).nodeAddress = s.nodeAddress ∧
    (makeOffer o s).align = s.align ∧ (makeOffer o s).slot = s.slot ∧ (makeOffer o s).circuits = s.circuits ∧
    (makeOffer o s).contexts = s.contexts ∧ (makeOffer o s).pool = s.pool ∧ (makeOffer o s).delivery = s.delivery ∧
    (makeOffer o s).trib = s.trib ∧ (makeOffer o s).addQueues = s.addQueues ∧ (makeOffer o s).emitters = s.emitters ∧
    (makeOffer o s).arbiter.response = s.arbiter.response ∧ (makeOffer o s).engine = s.engine ∧
    (makeOffer o s).events = s.events := by
  exact ⟨rfl, rfl, rfl, rfl, rfl, rfl, rfl, rfl, rfl, rfl, rfl, rfl, rfl, rfl, rfl, rfl, rfl⟩

@[simp] theorem withdrawOffer_frame (s : State) :
    (withdrawOffer s).pending = s.pending ∧ (withdrawOffer s).pins = s.pins ∧ (withdrawOffer s).toData = s.toData ∧
    (withdrawOffer s).tickCounter = s.tickCounter ∧ (withdrawOffer s).nodeAddress = s.nodeAddress ∧
    (withdrawOffer s).align = s.align ∧ (withdrawOffer s).slot = s.slot ∧ (withdrawOffer s).circuits = s.circuits ∧
    (withdrawOffer s).contexts = s.contexts ∧ (withdrawOffer s).pool = s.pool ∧
    (withdrawOffer s).delivery = s.delivery ∧ (withdrawOffer s).trib = s.trib ∧
    (withdrawOffer s).addQueues = s.addQueues ∧ (withdrawOffer s).emitters = s.emitters ∧
    (withdrawOffer s).arbiter.response = s.arbiter.response ∧ (withdrawOffer s).engine = s.engine ∧
    (withdrawOffer s).events = s.events ∧ (withdrawOffer s).owed = s.owed := by
  exact ⟨rfl, rfl, rfl, rfl, rfl, rfl, rfl, rfl, rfl, rfl, rfl, rfl, rfl, rfl, rfl, rfl, rfl, rfl⟩

@[simp] theorem setInbox_frame (l : List Occurrence) (s : State) :
    (setInbox l s).pending = s.pending ∧ (setInbox l s).pins = s.pins ∧ (setInbox l s).toData = s.toData ∧
    (setInbox l s).tickCounter = s.tickCounter ∧ (setInbox l s).nodeAddress = s.nodeAddress ∧
    (setInbox l s).align = s.align ∧ (setInbox l s).slot = s.slot ∧ (setInbox l s).circuits = s.circuits ∧
    (setInbox l s).contexts = s.contexts ∧ (setInbox l s).pool = s.pool ∧ (setInbox l s).delivery = s.delivery ∧
    (setInbox l s).trib = s.trib ∧ (setInbox l s).addQueues = s.addQueues ∧ (setInbox l s).emitters = s.emitters ∧
    (setInbox l s).arbiter = s.arbiter ∧ (setInbox l s).engine = s.engine ∧
    (setInbox l s).events.stack = s.events.stack ∧ (setInbox l s).events.bindings = s.events.bindings ∧
    (setInbox l s).events.faults = s.events.faults ∧ (setInbox l s).events.overflow = s.events.overflow ∧
    (setInbox l s).events.canned = s.events.canned ∧ (setInbox l s).events.records = s.events.records ∧
    (setInbox l s).events.sequence = s.events.sequence ∧ (setInbox l s).events.floor = s.events.floor ∧
    (setInbox l s).events.timeout = s.events.timeout ∧ (setInbox l s).events.retries = s.events.retries ∧
    (setInbox l s).events.misses = s.events.misses ∧ (setInbox l s).events.abandoned = s.events.abandoned ∧
    (setInbox l s).owed = s.owed := by
  exact ⟨rfl, rfl, rfl, rfl, rfl, rfl, rfl, rfl, rfl, rfl, rfl, rfl, rfl, rfl, rfl, rfl, rfl, rfl, rfl, rfl, rfl, rfl, rfl, rfl, rfl, rfl, rfl, rfl, rfl⟩

@[simp] theorem setNoticeOffer_frame (o : Option NoticeOffer) (s : State) :
    (setNoticeOffer o s).pending = s.pending ∧ (setNoticeOffer o s).pins = s.pins ∧
    (setNoticeOffer o s).toData = s.toData ∧ (setNoticeOffer o s).tickCounter = s.tickCounter ∧
    (setNoticeOffer o s).nodeAddress = s.nodeAddress ∧ (setNoticeOffer o s).align = s.align ∧
    (setNoticeOffer o s).slot = s.slot ∧ (setNoticeOffer o s).circuits = s.circuits ∧
    (setNoticeOffer o s).contexts = s.contexts ∧ (setNoticeOffer o s).pool = s.pool ∧
    (setNoticeOffer o s).delivery = s.delivery ∧ (setNoticeOffer o s).trib = s.trib ∧
    (setNoticeOffer o s).addQueues = s.addQueues ∧ (setNoticeOffer o s).emitters = s.emitters ∧
    (setNoticeOffer o s).arbiter.response = s.arbiter.response ∧ (setNoticeOffer o s).engine = s.engine ∧
    (setNoticeOffer o s).events = s.events ∧ (setNoticeOffer o s).owed = s.owed := by
  exact ⟨rfl, rfl, rfl, rfl, rfl, rfl, rfl, rfl, rfl, rfl, rfl, rfl, rfl, rfl, rfl, rfl, rfl, rfl⟩

@[simp] theorem setResponseOffer_frame (o : Option ResponseOffer) (s : State) :
    (setResponseOffer o s).pending = s.pending ∧ (setResponseOffer o s).pins = s.pins ∧
    (setResponseOffer o s).toData = s.toData ∧ (setResponseOffer o s).tickCounter = s.tickCounter ∧
    (setResponseOffer o s).nodeAddress = s.nodeAddress ∧ (setResponseOffer o s).align = s.align ∧
    (setResponseOffer o s).slot = s.slot ∧ (setResponseOffer o s).circuits = s.circuits ∧
    (setResponseOffer o s).contexts = s.contexts ∧ (setResponseOffer o s).pool = s.pool ∧
    (setResponseOffer o s).delivery = s.delivery ∧ (setResponseOffer o s).trib = s.trib ∧
    (setResponseOffer o s).addQueues = s.addQueues ∧ (setResponseOffer o s).emitters = s.emitters ∧
    (setResponseOffer o s).arbiter.notice = s.arbiter.notice ∧ (setResponseOffer o s).engine = s.engine ∧
    (setResponseOffer o s).events = s.events ∧ (setResponseOffer o s).owed = s.owed := by
  exact ⟨rfl, rfl, rfl, rfl, rfl, rfl, rfl, rfl, rfl, rfl, rfl, rfl, rfl, rfl, rfl, rfl, rfl, rfl⟩

@[simp] theorem setOwner_frame (o : Ownership) (s : State) :
    (setOwner o s).pending = s.pending ∧ (setOwner o s).pins = s.pins ∧ (setOwner o s).toData = s.toData ∧
    (setOwner o s).tickCounter = s.tickCounter ∧ (setOwner o s).nodeAddress = s.nodeAddress ∧
    (setOwner o s).align = s.align ∧ (setOwner o s).slot = s.slot ∧ (setOwner o s).circuits = s.circuits ∧
    (setOwner o s).contexts = s.contexts ∧ (setOwner o s).pool = s.pool ∧ (setOwner o s).delivery = s.delivery ∧
    (setOwner o s).trib = s.trib ∧ (setOwner o s).addQueues = s.addQueues ∧ (setOwner o s).emitters = s.emitters ∧
    (setOwner o s).arbiter = s.arbiter ∧ (setOwner o s).engine.state = s.engine.state ∧
    (setOwner o s).engine.queue = s.engine.queue ∧ (setOwner o s).engine.inHand = s.engine.inHand ∧
    (setOwner o s).engine.lease = s.engine.lease ∧ (setOwner o s).engine.cache = s.engine.cache ∧
    (setOwner o s).engine.counters = s.engine.counters ∧ (setOwner o s).engine.noted = s.engine.noted ∧
    (setOwner o s).events = s.events ∧ (setOwner o s).owed = s.owed := by
  exact ⟨rfl, rfl, rfl, rfl, rfl, rfl, rfl, rfl, rfl, rfl, rfl, rfl, rfl, rfl, rfl, rfl, rfl, rfl, rfl, rfl, rfl, rfl, rfl, rfl⟩

@[simp] theorem cacheResponse_frame (request body : List Byte) (s : State) :
    (cacheResponse request body s).pending = s.pending ∧ (cacheResponse request body s).pins = s.pins ∧
    (cacheResponse request body s).toData = s.toData ∧ (cacheResponse request body s).tickCounter = s.tickCounter ∧
    (cacheResponse request body s).nodeAddress = s.nodeAddress ∧ (cacheResponse request body s).align = s.align ∧
    (cacheResponse request body s).slot = s.slot ∧ (cacheResponse request body s).circuits = s.circuits ∧
    (cacheResponse request body s).contexts = s.contexts ∧ (cacheResponse request body s).pool = s.pool ∧
    (cacheResponse request body s).delivery = s.delivery ∧ (cacheResponse request body s).trib = s.trib ∧
    (cacheResponse request body s).addQueues = s.addQueues ∧ (cacheResponse request body s).emitters = s.emitters ∧
    (cacheResponse request body s).arbiter = s.arbiter ∧
    (cacheResponse request body s).engine.state = s.engine.state ∧
    (cacheResponse request body s).engine.queue = s.engine.queue ∧
    (cacheResponse request body s).engine.inHand = s.engine.inHand ∧
    (cacheResponse request body s).engine.owner = s.engine.owner ∧
    (cacheResponse request body s).engine.lease = s.engine.lease ∧
    (cacheResponse request body s).engine.counters = s.engine.counters ∧
    (cacheResponse request body s).engine.noted = s.engine.noted ∧ (cacheResponse request body s).events = s.events ∧
    (cacheResponse request body s).owed = s.owed := by
  exact ⟨rfl, rfl, rfl, rfl, rfl, rfl, rfl, rfl, rfl, rfl, rfl, rfl, rfl, rfl, rfl, rfl, rfl, rfl, rfl, rfl, rfl, rfl, rfl, rfl⟩

@[simp] theorem setEngine_frame (e : EngineState) (s : State) :
    (setEngine e s).pending = s.pending ∧ (setEngine e s).pins = s.pins ∧ (setEngine e s).toData = s.toData ∧
    (setEngine e s).tickCounter = s.tickCounter ∧ (setEngine e s).nodeAddress = s.nodeAddress ∧
    (setEngine e s).align = s.align ∧ (setEngine e s).slot = s.slot ∧ (setEngine e s).circuits = s.circuits ∧
    (setEngine e s).contexts = s.contexts ∧ (setEngine e s).pool = s.pool ∧ (setEngine e s).delivery = s.delivery ∧
    (setEngine e s).trib = s.trib ∧ (setEngine e s).addQueues = s.addQueues ∧ (setEngine e s).emitters = s.emitters ∧
    (setEngine e s).arbiter = s.arbiter ∧ (setEngine e s).engine.queue = s.engine.queue ∧
    (setEngine e s).engine.owner = s.engine.owner ∧ (setEngine e s).engine.lease = s.engine.lease ∧
    (setEngine e s).engine.cache = s.engine.cache ∧ (setEngine e s).engine.counters = s.engine.counters ∧
    (setEngine e s).engine.noted = s.engine.noted ∧ (setEngine e s).events = s.events ∧ (setEngine e s).owed = s.owed := by
  exact ⟨rfl, rfl, rfl, rfl, rfl, rfl, rfl, rfl, rfl, rfl, rfl, rfl, rfl, rfl, rfl, rfl, rfl, rfl, rfl, rfl, rfl, rfl, rfl⟩

@[simp] theorem setParser_frame (p : Parser) (s : State) :
    (setParser p s).pending = s.pending ∧ (setParser p s).pins = s.pins ∧ (setParser p s).toData = s.toData ∧
    (setParser p s).tickCounter = s.tickCounter ∧ (setParser p s).nodeAddress = s.nodeAddress ∧
    (setParser p s).align = s.align ∧ (setParser p s).slot = s.slot ∧ (setParser p s).circuits = s.circuits ∧
    (setParser p s).contexts = s.contexts ∧ (setParser p s).pool = s.pool ∧ (setParser p s).delivery = s.delivery ∧
    (setParser p s).trib.ready = s.trib.ready ∧ (setParser p s).trib.rejects = s.trib.rejects ∧
    (setParser p s).trib.counters = s.trib.counters ∧ (setParser p s).trib.tx = s.trib.tx ∧
    (setParser p s).trib.frame = s.trib.frame ∧ (setParser p s).addQueues = s.addQueues ∧
    (setParser p s).emitters = s.emitters ∧ (setParser p s).arbiter = s.arbiter ∧ (setParser p s).engine = s.engine ∧
    (setParser p s).events = s.events ∧ (setParser p s).owed = s.owed := by
  exact ⟨rfl, rfl, rfl, rfl, rfl, rfl, rfl, rfl, rfl, rfl, rfl, rfl, rfl, rfl, rfl, rfl, rfl, rfl, rfl, rfl, rfl, rfl⟩

@[simp] theorem setReadyPin_frame (level : Bool) (s : State) :
    (setReadyPin level s).pending = s.pending ∧ (setReadyPin level s).pins.rstN = s.pins.rstN ∧
    (setReadyPin level s).toData = s.toData ∧ (setReadyPin level s).tickCounter = s.tickCounter ∧
    (setReadyPin level s).nodeAddress = s.nodeAddress ∧ (setReadyPin level s).align = s.align ∧
    (setReadyPin level s).slot = s.slot ∧ (setReadyPin level s).circuits = s.circuits ∧
    (setReadyPin level s).contexts = s.contexts ∧ (setReadyPin level s).pool = s.pool ∧
    (setReadyPin level s).delivery = s.delivery ∧ (setReadyPin level s).trib = s.trib ∧
    (setReadyPin level s).addQueues = s.addQueues ∧ (setReadyPin level s).emitters = s.emitters ∧
    (setReadyPin level s).arbiter = s.arbiter ∧ (setReadyPin level s).engine = s.engine ∧
    (setReadyPin level s).events = s.events ∧ (setReadyPin level s).owed = s.owed := by
  exact ⟨rfl, rfl, rfl, rfl, rfl, rfl, rfl, rfl, rfl, rfl, rfl, rfl, rfl, rfl, rfl, rfl, rfl, rfl⟩

@[simp] theorem setAlign_frame (a : Align) (s : State) :
    (setAlign a s).pending = s.pending ∧ (setAlign a s).pins = s.pins ∧ (setAlign a s).toData = s.toData ∧
    (setAlign a s).tickCounter = s.tickCounter ∧ (setAlign a s).nodeAddress = s.nodeAddress ∧
    (setAlign a s).slot = s.slot ∧ (setAlign a s).circuits = s.circuits ∧ (setAlign a s).contexts = s.contexts ∧
    (setAlign a s).pool = s.pool ∧ (setAlign a s).delivery = s.delivery ∧ (setAlign a s).trib = s.trib ∧
    (setAlign a s).addQueues = s.addQueues ∧ (setAlign a s).emitters = s.emitters ∧
    (setAlign a s).arbiter = s.arbiter ∧ (setAlign a s).engine = s.engine ∧ (setAlign a s).events = s.events ∧
    (setAlign a s).owed = s.owed := by
  exact ⟨rfl, rfl, rfl, rfl, rfl, rfl, rfl, rfl, rfl, rfl, rfl, rfl, rfl, rfl, rfl, rfl, rfl⟩

@[simp] theorem setToData_frame (b : Byte) (s : State) :
    (setToData b s).pending = s.pending ∧ (setToData b s).pins = s.pins ∧
    (setToData b s).tickCounter = s.tickCounter ∧ (setToData b s).nodeAddress = s.nodeAddress ∧
    (setToData b s).align = s.align ∧ (setToData b s).slot = s.slot ∧ (setToData b s).circuits = s.circuits ∧
    (setToData b s).contexts = s.contexts ∧ (setToData b s).pool = s.pool ∧ (setToData b s).delivery = s.delivery ∧
    (setToData b s).trib = s.trib ∧ (setToData b s).addQueues = s.addQueues ∧ (setToData b s).emitters = s.emitters ∧
    (setToData b s).arbiter = s.arbiter ∧ (setToData b s).engine = s.engine ∧ (setToData b s).events = s.events ∧
    (setToData b s).owed = s.owed := by
  exact ⟨rfl, rfl, rfl, rfl, rfl, rfl, rfl, rfl, rfl, rfl, rfl, rfl, rfl, rfl, rfl, rfl, rfl⟩

@[simp] theorem setLinePin_frame (level : Bool) (s : State) :
    (setLinePin level s).pending = s.pending ∧ (setLinePin level s).pins.rstN = s.pins.rstN ∧
    (setLinePin level s).toData = s.toData ∧ (setLinePin level s).tickCounter = s.tickCounter ∧
    (setLinePin level s).nodeAddress = s.nodeAddress ∧ (setLinePin level s).align = s.align ∧
    (setLinePin level s).slot = s.slot ∧ (setLinePin level s).circuits = s.circuits ∧
    (setLinePin level s).contexts = s.contexts ∧ (setLinePin level s).pool = s.pool ∧
    (setLinePin level s).delivery = s.delivery ∧ (setLinePin level s).trib = s.trib ∧
    (setLinePin level s).addQueues = s.addQueues ∧ (setLinePin level s).emitters = s.emitters ∧
    (setLinePin level s).arbiter = s.arbiter ∧ (setLinePin level s).engine = s.engine ∧
    (setLinePin level s).events = s.events ∧ (setLinePin level s).owed = s.owed := by
  exact ⟨rfl, rfl, rfl, rfl, rfl, rfl, rfl, rfl, rfl, rfl, rfl, rfl, rfl, rfl, rfl, rfl, rfl, rfl⟩

@[simp] theorem setBinding_frame (i : Fin Config.bindings) (b : Option Binding) (s : State) :
    (setBinding i b s).pending = s.pending ∧ (setBinding i b s).pins = s.pins ∧ (setBinding i b s).toData = s.toData ∧
    (setBinding i b s).tickCounter = s.tickCounter ∧ (setBinding i b s).nodeAddress = s.nodeAddress ∧
    (setBinding i b s).align = s.align ∧ (setBinding i b s).slot = s.slot ∧ (setBinding i b s).circuits = s.circuits ∧
    (setBinding i b s).contexts = s.contexts ∧ (setBinding i b s).pool = s.pool ∧
    (setBinding i b s).delivery = s.delivery ∧ (setBinding i b s).trib = s.trib ∧
    (setBinding i b s).addQueues = s.addQueues ∧ (setBinding i b s).emitters = s.emitters ∧
    (setBinding i b s).arbiter = s.arbiter ∧ (setBinding i b s).engine = s.engine ∧
    (setBinding i b s).events.stack = s.events.stack ∧ (setBinding i b s).events.faults = s.events.faults ∧
    (setBinding i b s).events.overflow = s.events.overflow ∧ (setBinding i b s).events.canned = s.events.canned ∧
    (setBinding i b s).events.records = s.events.records ∧ (setBinding i b s).events.sequence = s.events.sequence ∧
    (setBinding i b s).events.inbox = s.events.inbox ∧ (setBinding i b s).events.floor = s.events.floor ∧
    (setBinding i b s).events.timeout = s.events.timeout ∧ (setBinding i b s).events.retries = s.events.retries ∧
    (setBinding i b s).events.misses = s.events.misses ∧ (setBinding i b s).events.abandoned = s.events.abandoned ∧
    (setBinding i b s).owed = s.owed := by
  exact ⟨rfl, rfl, rfl, rfl, rfl, rfl, rfl, rfl, rfl, rfl, rfl, rfl, rfl, rfl, rfl, rfl, rfl, rfl, rfl, rfl, rfl, rfl, rfl, rfl, rfl, rfl, rfl, rfl, rfl⟩

/-! ### What each update writes -/

@[simp] theorem raise_inbox (k : EventKind) (detail : Option (List Byte)) (s : State) :
    (raise k detail s).events.inbox = s.events.inbox ++ [⟨k, detail, []⟩] := rfl
@[simp] theorem changeRecord_circuits (c : Circuit) (f : CircuitRecord → CircuitRecord) (s : State) :
    (changeRecord c f s).circuits = s.circuits.change c f := rfl
@[simp] theorem count_circuits (c : Circuit) (f : CircuitCounters → CircuitCounters) (s : State) :
    (count c f s).circuits = s.circuits.change c fun r => { r with counters := f r.counters } := rfl
@[simp] theorem countLink_counters (f : LinkCounters → LinkCounters) (s : State) :
    (countLink f s).trib.counters = f s.trib.counters := rfl
@[simp] theorem countEngine_counters (f : EngineCounters → EngineCounters) (s : State) :
    (countEngine f s).engine.counters = f s.engine.counters := rfl
@[simp] theorem setContext_contexts (c : Circuit) (ctx : RxContext) (s : State) :
    (setContext c ctx s).contexts = s.contexts.put c ctx := rfl
@[simp] theorem setEmitter_emitters (c : Circuit) (e : Emitter) (s : State) :
    (setEmitter c e s).emitters = s.emitters.put c e := rfl
@[simp] theorem setAddQueue_addQueues (c : Circuit) (q : List DescNo) (s : State) :
    (setAddQueue c q s).addQueues = s.addQueues.put c q := rfl
@[simp] theorem setClassQueue_queues (q : Class) (l : List DescNo) (s : State) :
    (setClassQueue q l s).delivery.queues = s.delivery.queues.put q l := rfl
@[simp] theorem setDesc_descs (d : DescNo) (x : Option Descriptor) (s : State) :
    (setDesc d x s).pool.descs = s.pool.descs.put d x := rfl
@[simp] theorem setStore_store (m : Memory) (s : State) : (setStore m s).pool.store = m := rfl
@[simp] theorem oweAttempt_attempts (s : State) : (oweAttempt s).owed.attempts = s.owed.attempts + 1 := rfl
@[simp] theorem idleTransmitter_tx (s : State) :
    (idleTransmitter s).trib.tx = .idle ∧ (idleTransmitter s).trib.frame = [] := ⟨rfl, rfl⟩
@[simp] theorem endDelivery_inDelivery (s : State) : (endDelivery s).delivery.inDelivery = none := rfl
@[simp] theorem setEvents_events (e : Events) (s : State) : (setEvents e s).events = e := rfl
@[simp] theorem setInbox_inbox (l : List Occurrence) (s : State) : (setInbox l s).events.inbox = l := rfl
@[simp] theorem makeOffer_notice (o : NoticeOffer) (s : State) :
    (makeOffer o s).arbiter.notice = some o ∧ (makeOffer o s).owed.attempts = s.owed.attempts + 1 := ⟨rfl, rfl⟩
@[simp] theorem withdrawOffer_notice (s : State) : (withdrawOffer s).arbiter.notice = none := rfl
@[simp] theorem setNoticeOffer_notice (o : Option NoticeOffer) (s : State) :
    (setNoticeOffer o s).arbiter.notice = o := rfl
@[simp] theorem setResponseOffer_response (o : Option ResponseOffer) (s : State) :
    (setResponseOffer o s).arbiter.response = o := rfl
@[simp] theorem setOwner_owner (o : Ownership) (s : State) : (setOwner o s).engine.owner = o := rfl
@[simp] theorem cacheResponse_cache (request body : List Byte) (s : State) :
    (cacheResponse request body s).engine.cache = some ⟨requestId request, requestTag request, body⟩ := rfl
@[simp] theorem setEngine_state (e : EngineState) (s : State) :
    (setEngine e s).engine.state = e ∧ (setEngine e s).engine.inHand = none := ⟨rfl, rfl⟩
@[simp] theorem setParser_parser (p : Parser) (s : State) : (setParser p s).trib.parser = p := rfl
@[simp] theorem setReadyPin_tbRdy (level : Bool) (s : State) :
    (setReadyPin level s).pins.tbRdy = level ∧ (setReadyPin level s).pins.tiLp = s.pins.tiLp ∧
    (setReadyPin level s).pins.straps = s.pins.straps := ⟨rfl, rfl, rfl⟩
@[simp] theorem setLinePin_tiLp (level : Bool) (s : State) :
    (setLinePin level s).pins.tiLp = level ∧ (setLinePin level s).pins.tbRdy = s.pins.tbRdy ∧
    (setLinePin level s).pins.straps = s.pins.straps := ⟨rfl, rfl, rfl⟩
@[simp] theorem setAlign_align (a : Align) (s : State) : (setAlign a s).align = a := rfl
@[simp] theorem setToData_toData (b : Byte) (s : State) : (setToData b s).toData = b := rfl
@[simp] theorem setBinding_bindings (i : Fin Config.bindings) (b : Option Binding) (s : State) :
    (setBinding i b s).events.bindings = s.events.bindings.put i b := rfl
@[simp] theorem withPending_fields (s : State) (l : List Instr) :
    (s.withPending l).pending = l ∧ (s.withPending l).pins = s.pins ∧ (s.withPending l).align = s.align ∧
    (s.withPending l).slot = s.slot ∧ (s.withPending l).circuits = s.circuits ∧
    (s.withPending l).contexts = s.contexts ∧ (s.withPending l).pool = s.pool ∧
    (s.withPending l).delivery = s.delivery ∧ (s.withPending l).trib = s.trib ∧
    (s.withPending l).addQueues = s.addQueues ∧ (s.withPending l).emitters = s.emitters ∧
    (s.withPending l).arbiter = s.arbiter ∧ (s.withPending l).engine = s.engine ∧
    (s.withPending l).events = s.events ∧ (s.withPending l).owed = s.owed ∧
    (s.withPending l).toData = s.toData ∧ (s.withPending l).tickCounter = s.tickCounter ∧
    (s.withPending l).nodeAddress = s.nodeAddress := by
  simp [State.withPending]

/-! ### Updates of a block's own record -/

@[simp] theorem eventsChangeRecord_fields (e : Events) (k : EventKind) (f : EventRecord → EventRecord) :
    (e.changeRecord k f).stack = e.stack ∧ (e.changeRecord k f).bindings = e.bindings ∧
    (e.changeRecord k f).faults = e.faults ∧ (e.changeRecord k f).overflow = e.overflow ∧
    (e.changeRecord k f).canned = e.canned ∧ (e.changeRecord k f).sequence = e.sequence ∧
    (e.changeRecord k f).inbox = e.inbox ∧ (e.changeRecord k f).floor = e.floor ∧
    (e.changeRecord k f).timeout = e.timeout ∧ (e.changeRecord k f).retries = e.retries ∧
    (e.changeRecord k f).misses = e.misses ∧ (e.changeRecord k f).abandoned = e.abandoned := by
  simp [Events.changeRecord]
@[simp] theorem restartTop_fields (e : Events) :
    (restartTop e).bindings = e.bindings ∧ (restartTop e).faults = e.faults ∧ (restartTop e).overflow = e.overflow ∧
    (restartTop e).canned = e.canned ∧ (restartTop e).records = e.records ∧ (restartTop e).sequence = e.sequence ∧
    (restartTop e).inbox = e.inbox ∧ (restartTop e).floor = e.floor ∧ (restartTop e).timeout = e.timeout ∧
    (restartTop e).retries = e.retries ∧ (restartTop e).misses = e.misses ∧ (restartTop e).abandoned = e.abandoned := by
  unfold restartTop
  split <;> simp
@[simp] theorem popStack_fields (e : Events) :
    (popStack e).bindings = e.bindings ∧ (popStack e).faults = e.faults ∧ (popStack e).overflow = e.overflow ∧
    (popStack e).canned = e.canned ∧ (popStack e).records = e.records ∧ (popStack e).sequence = e.sequence ∧
    (popStack e).inbox = e.inbox ∧ (popStack e).floor = e.floor ∧ (popStack e).timeout = e.timeout ∧
    (popStack e).retries = e.retries ∧ (popStack e).misses = e.misses ∧ (popStack e).abandoned = e.abandoned := by
  simp [popStack]
@[simp] theorem pushNotice_fields (o : NoticeOffer) (e : Events) :
    (pushNotice o e).bindings = e.bindings ∧ (pushNotice o e).faults = e.faults ∧
    (pushNotice o e).overflow = e.overflow ∧ (pushNotice o e).canned = e.canned ∧
    (pushNotice o e).records = e.records ∧ (pushNotice o e).inbox = e.inbox ∧ (pushNotice o e).floor = e.floor ∧
    (pushNotice o e).timeout = e.timeout ∧ (pushNotice o e).retries = e.retries ∧ (pushNotice o e).misses = e.misses ∧
    (pushNotice o e).abandoned = e.abandoned := by
  simp [pushNotice]
@[simp] theorem countResend_fields (e : Events) :
    (countResend e).bindings = e.bindings ∧ (countResend e).faults = e.faults ∧
    (countResend e).overflow = e.overflow ∧ (countResend e).canned = e.canned ∧ (countResend e).records = e.records ∧
    (countResend e).sequence = e.sequence ∧ (countResend e).inbox = e.inbox ∧ (countResend e).floor = e.floor ∧
    (countResend e).timeout = e.timeout ∧ (countResend e).retries = e.retries ∧ (countResend e).misses = e.misses ∧
    (countResend e).abandoned = e.abandoned := by
  unfold countResend
  split <;> simp
@[simp] theorem setPlan_fields (e : SlotEngine) (b : Bank) (p : Plan) :
    (e.setPlan b p).active = e.active ∧ (e.setPlan b p).swap = e.swap ∧ (e.setPlan b p).armed = e.armed ∧
    (e.setPlan b p).countdown = e.countdown ∧ (e.setPlan b p).aligned = e.aligned := by
  cases b <;> simp [SlotEngine.setPlan]
@[simp] theorem clearArmedSwap_fields (e : SlotEngine) :
    (clearArmedSwap e).bankA = e.bankA ∧ (clearArmedSwap e).bankB = e.bankB ∧ (clearArmedSwap e).active = e.active ∧
    (clearArmedSwap e).aligned = e.aligned := by
  unfold clearArmedSwap
  split <;> simp
@[simp] theorem clearDelivery_fields (e : Delivery) :
    (clearDelivery e).quanta = e.quanta ∧ (clearDelivery e).ageLimits = e.ageLimits ∧
    (clearDelivery e).stallLimit = e.stallLimit ∧ (clearDelivery e).retries = e.retries ∧
    (clearDelivery e).discarded = e.discarded := by
  simp [clearDelivery]
@[simp] theorem searching_fields (a : Align) :
    (a.searching).latch = a.latch ∧ (a.searching).badMarks = a.badMarks ∧ (a.searching).losses = a.losses := by
  simp [Align.searching]
@[simp] theorem emptied_fields (m : Memory) (a b : Nat) :
    (Pool.emptied m a b).store = m ∧ (Pool.emptied m a b).segReserve = a ∧ (Pool.emptied m a b).descReserve = b :=
  ⟨rfl, rfl, rfl⟩

end Sys2Proof.Machine
end

