-- ==== Sys2Proof/Laws/Frames.lean ====
section
/-!
SUPPORT. What each operation of the machine keeps: for every operation the fields, and the parts of fields, that it
never changes. A theorem is a conjunction of equations, which simp takes one by one.
-/

namespace Sys2Proof.Machine

-- One theorem at a time: many small ones compiled side by side take more memory than they save time.
set_option Elab.async false

/-- A projection that each step of a fold keeps is kept by the fold. -/
theorem foldl_keeps {α β : Type} (π : State → α) {f : State → β → State} (h : ∀ t x, π (f t x) = π t) (l : List β)
    (s : State) : π (l.foldl f s) = π s := by
  induction l generalizing s with
  | nil => rfl
  | cons a l ih => rw [List.foldl_cons, ih, h]

/-! ### Ops -/

@[simp] theorem changeDesc_frame (d : DescNo) (f : Descriptor → Descriptor) (s : State) :
    (changeDesc d f s).pending = s.pending ∧ (changeDesc d f s).pins = s.pins ∧ (changeDesc d f s).toData = s.toData ∧
    (changeDesc d f s).tickCounter = s.tickCounter ∧ (changeDesc d f s).nodeAddress = s.nodeAddress ∧
    (changeDesc d f s).align = s.align ∧ (changeDesc d f s).slot = s.slot ∧ (changeDesc d f s).circuits = s.circuits ∧
    (changeDesc d f s).contexts = s.contexts ∧ (changeDesc d f s).pool.store = s.pool.store ∧
    (changeDesc d f s).pool.segReserve = s.pool.segReserve ∧
    (changeDesc d f s).pool.descReserve = s.pool.descReserve ∧ (changeDesc d f s).pool.freeSegs = s.pool.freeSegs ∧
    (changeDesc d f s).pool.freeDescs = s.pool.freeDescs ∧ (changeDesc d f s).delivery = s.delivery ∧
    (changeDesc d f s).trib = s.trib ∧ (changeDesc d f s).addQueues = s.addQueues ∧
    (changeDesc d f s).emitters = s.emitters ∧ (changeDesc d f s).arbiter = s.arbiter ∧
    (changeDesc d f s).engine = s.engine ∧ (changeDesc d f s).events = s.events ∧ (changeDesc d f s).owed = s.owed := by
  simp [changeDesc]

@[simp] theorem informRequesters_frame (s : State) :
    (informRequesters s).pending = s.pending ∧ (informRequesters s).pins = s.pins ∧
    (informRequesters s).toData = s.toData ∧ (informRequesters s).tickCounter = s.tickCounter ∧
    (informRequesters s).nodeAddress = s.nodeAddress ∧ (informRequesters s).align = s.align ∧
    (informRequesters s).slot = s.slot ∧ (informRequesters s).circuits = s.circuits ∧
    (informRequesters s).contexts = s.contexts ∧ (informRequesters s).pool = s.pool ∧
    (informRequesters s).delivery = s.delivery ∧ (informRequesters s).trib = s.trib ∧
    (informRequesters s).addQueues = s.addQueues ∧ (informRequesters s).emitters = s.emitters ∧
    (informRequesters s).arbiter = s.arbiter ∧ (informRequesters s).engine = s.engine ∧
    (informRequesters s).events = s.events := by
  unfold informRequesters
  try dsimp only
  repeat' split
  all_goals simp_all

@[simp] theorem takeStorage_frame (m : NewMessage) (d : DescNo) (s : State) :
    (takeStorage m d s).pending = s.pending ∧ (takeStorage m d s).pins = s.pins ∧
    (takeStorage m d s).toData = s.toData ∧ (takeStorage m d s).tickCounter = s.tickCounter ∧
    (takeStorage m d s).nodeAddress = s.nodeAddress ∧ (takeStorage m d s).align = s.align ∧
    (takeStorage m d s).slot = s.slot ∧ (takeStorage m d s).contexts = s.contexts ∧
    (takeStorage m d s).pool.store = s.pool.store ∧ (takeStorage m d s).pool.segReserve = s.pool.segReserve ∧
    (takeStorage m d s).pool.descReserve = s.pool.descReserve ∧ (takeStorage m d s).delivery = s.delivery ∧
    (takeStorage m d s).trib = s.trib ∧ (takeStorage m d s).addQueues = s.addQueues ∧
    (takeStorage m d s).emitters = s.emitters ∧ (takeStorage m d s).arbiter = s.arbiter ∧
    (takeStorage m d s).engine = s.engine ∧ (takeStorage m d s).events = s.events ∧ (takeStorage m d s).owed = s.owed := by
  simp [takeStorage]

@[simp] theorem judgeReserve_frame (countBefore levelBefore : Nat) (s : State) :
    (judgeReserve countBefore levelBefore s).pending = s.pending ∧
    (judgeReserve countBefore levelBefore s).pins = s.pins ∧
    (judgeReserve countBefore levelBefore s).toData = s.toData ∧
    (judgeReserve countBefore levelBefore s).tickCounter = s.tickCounter ∧
    (judgeReserve countBefore levelBefore s).nodeAddress = s.nodeAddress ∧
    (judgeReserve countBefore levelBefore s).align = s.align ∧
    (judgeReserve countBefore levelBefore s).slot = s.slot ∧
    (judgeReserve countBefore levelBefore s).circuits = s.circuits ∧
    (judgeReserve countBefore levelBefore s).contexts = s.contexts ∧
    (judgeReserve countBefore levelBefore s).pool = s.pool ∧
    (judgeReserve countBefore levelBefore s).delivery = s.delivery ∧
    (judgeReserve countBefore levelBefore s).trib = s.trib ∧
    (judgeReserve countBefore levelBefore s).addQueues = s.addQueues ∧
    (judgeReserve countBefore levelBefore s).emitters = s.emitters ∧
    (judgeReserve countBefore levelBefore s).arbiter = s.arbiter ∧
    (judgeReserve countBefore levelBefore s).engine = s.engine ∧
    (judgeReserve countBefore levelBefore s).events.stack = s.events.stack ∧
    (judgeReserve countBefore levelBefore s).events.bindings = s.events.bindings ∧
    (judgeReserve countBefore levelBefore s).events.faults = s.events.faults ∧
    (judgeReserve countBefore levelBefore s).events.overflow = s.events.overflow ∧
    (judgeReserve countBefore levelBefore s).events.canned = s.events.canned ∧
    (judgeReserve countBefore levelBefore s).events.records = s.events.records ∧
    (judgeReserve countBefore levelBefore s).events.sequence = s.events.sequence ∧
    (judgeReserve countBefore levelBefore s).events.floor = s.events.floor ∧
    (judgeReserve countBefore levelBefore s).events.timeout = s.events.timeout ∧
    (judgeReserve countBefore levelBefore s).events.retries = s.events.retries ∧
    (judgeReserve countBefore levelBefore s).events.misses = s.events.misses ∧
    (judgeReserve countBefore levelBefore s).events.abandoned = s.events.abandoned ∧
    (judgeReserve countBefore levelBefore s).owed = s.owed := by
  unfold judgeReserve
  try dsimp only
  repeat' split
  all_goals simp_all

/-- What a grant keeps: everything but the lists, the descriptors, the held count and the inbox (R71). -/
theorem allocate_frame {m : NewMessage} {s t : State} {d : DescNo} (h : allocate m s = .ok (d, t)) :
    t.pending = s.pending ∧ t.pins = s.pins ∧ t.toData = s.toData ∧ t.tickCounter = s.tickCounter ∧
    t.nodeAddress = s.nodeAddress ∧ t.align = s.align ∧ t.slot = s.slot ∧ t.contexts = s.contexts ∧
    t.delivery = s.delivery ∧ t.trib = s.trib ∧ t.addQueues = s.addQueues ∧ t.emitters = s.emitters ∧
    t.arbiter = s.arbiter ∧ t.engine = s.engine ∧ t.owed = s.owed ∧ t.pool.store = s.pool.store ∧
    t.pool.segReserve = s.pool.segReserve ∧ t.pool.descReserve = s.pool.descReserve ∧
    t.events.stack = s.events.stack ∧ t.events.bindings = s.events.bindings ∧ t.events.faults = s.events.faults ∧
    t.events.overflow = s.events.overflow ∧ t.events.canned = s.events.canned ∧ t.events.records = s.events.records ∧
    t.events.sequence = s.events.sequence ∧ t.events.floor = s.events.floor ∧ t.events.timeout = s.events.timeout ∧
    t.events.retries = s.events.retries ∧ t.events.misses = s.events.misses ∧ t.events.abandoned = s.events.abandoned := by
  unfold allocate at h
  split at h
  · cases h
  · cases h
  · cases h
    simp [takeStorage]

@[simp] theorem raiseRefusal_frame (f : AllocFailure) (c : Circuit) (length : Nat) (s : State) :
    (raiseRefusal f c length s).pending = s.pending ∧ (raiseRefusal f c length s).pins = s.pins ∧
    (raiseRefusal f c length s).toData = s.toData ∧ (raiseRefusal f c length s).tickCounter = s.tickCounter ∧
    (raiseRefusal f c length s).nodeAddress = s.nodeAddress ∧ (raiseRefusal f c length s).align = s.align ∧
    (raiseRefusal f c length s).slot = s.slot ∧ (raiseRefusal f c length s).circuits = s.circuits ∧
    (raiseRefusal f c length s).contexts = s.contexts ∧ (raiseRefusal f c length s).pool = s.pool ∧
    (raiseRefusal f c length s).delivery = s.delivery ∧ (raiseRefusal f c length s).trib = s.trib ∧
    (raiseRefusal f c length s).addQueues = s.addQueues ∧ (raiseRefusal f c length s).emitters = s.emitters ∧
    (raiseRefusal f c length s).arbiter = s.arbiter ∧ (raiseRefusal f c length s).engine = s.engine ∧
    (raiseRefusal f c length s).events.stack = s.events.stack ∧
    (raiseRefusal f c length s).events.bindings = s.events.bindings ∧
    (raiseRefusal f c length s).events.faults = s.events.faults ∧
    (raiseRefusal f c length s).events.overflow = s.events.overflow ∧
    (raiseRefusal f c length s).events.canned = s.events.canned ∧
    (raiseRefusal f c length s).events.records = s.events.records ∧
    (raiseRefusal f c length s).events.sequence = s.events.sequence ∧
    (raiseRefusal f c length s).events.floor = s.events.floor ∧
    (raiseRefusal f c length s).events.timeout = s.events.timeout ∧
    (raiseRefusal f c length s).events.retries = s.events.retries ∧
    (raiseRefusal f c length s).events.misses = s.events.misses ∧
    (raiseRefusal f c length s).events.abandoned = s.events.abandoned ∧ (raiseRefusal f c length s).owed = s.owed := by
  unfold raiseRefusal
  try dsimp only
  repeat' split
  all_goals simp_all

/-- What an admission keeps: as a grant, but for the add queue and the octets of the segments (R70, R71). -/
theorem enqueue_frame {m : NewMessage} {body : List Byte} {s t : State} {d : DescNo} (h : enqueue m body s = .ok (d, t)) :
    t.pending = s.pending ∧ t.pins = s.pins ∧ t.toData = s.toData ∧ t.tickCounter = s.tickCounter ∧
    t.nodeAddress = s.nodeAddress ∧ t.align = s.align ∧ t.slot = s.slot ∧ t.contexts = s.contexts ∧
    t.delivery = s.delivery ∧ t.trib = s.trib ∧ t.emitters = s.emitters ∧ t.arbiter = s.arbiter ∧
    t.engine = s.engine ∧ t.owed = s.owed ∧ t.pool.segReserve = s.pool.segReserve ∧
    t.pool.descReserve = s.pool.descReserve ∧ t.events.stack = s.events.stack ∧
    t.events.bindings = s.events.bindings ∧ t.events.faults = s.events.faults ∧
    t.events.overflow = s.events.overflow ∧ t.events.canned = s.events.canned ∧ t.events.records = s.events.records ∧
    t.events.sequence = s.events.sequence ∧ t.events.floor = s.events.floor ∧ t.events.timeout = s.events.timeout ∧
    t.events.retries = s.events.retries ∧ t.events.misses = s.events.misses ∧ t.events.abandoned = s.events.abandoned := by
  unfold enqueue at h
  split at h
  · cases h
  · rename_i h'
    cases h
    have := allocate_frame h'
    simp [this]

@[simp] theorem free_frame (d : DescNo) (s : State) :
    (free d s).pending = s.pending ∧ (free d s).pins = s.pins ∧ (free d s).toData = s.toData ∧
    (free d s).tickCounter = s.tickCounter ∧ (free d s).nodeAddress = s.nodeAddress ∧ (free d s).align = s.align ∧
    (free d s).slot = s.slot ∧ (free d s).contexts = s.contexts ∧ (free d s).pool.store = s.pool.store ∧
    (free d s).pool.segReserve = s.pool.segReserve ∧ (free d s).pool.descReserve = s.pool.descReserve ∧
    (free d s).delivery = s.delivery ∧ (free d s).trib = s.trib ∧ (free d s).addQueues = s.addQueues ∧
    (free d s).emitters = s.emitters ∧ (free d s).arbiter = s.arbiter ∧ (free d s).engine = s.engine ∧
    (free d s).events = s.events := by
  unfold free
  try dsimp only
  repeat' split
  all_goals simp_all

@[simp] theorem flush_frame (d : DescNo) (s : State) :
    (flush d s).pending = s.pending ∧ (flush d s).pins = s.pins ∧ (flush d s).toData = s.toData ∧
    (flush d s).tickCounter = s.tickCounter ∧ (flush d s).nodeAddress = s.nodeAddress ∧ (flush d s).align = s.align ∧
    (flush d s).slot = s.slot ∧ (flush d s).contexts = s.contexts ∧ (flush d s).pool.store = s.pool.store ∧
    (flush d s).pool.segReserve = s.pool.segReserve ∧ (flush d s).pool.descReserve = s.pool.descReserve ∧
    (flush d s).delivery = s.delivery ∧ (flush d s).trib = s.trib ∧ (flush d s).addQueues = s.addQueues ∧
    (flush d s).emitters = s.emitters ∧ (flush d s).arbiter = s.arbiter ∧ (flush d s).engine = s.engine ∧
    (flush d s).events = s.events := by
  unfold flush
  try dsimp only
  repeat' split
  all_goals simp_all

@[simp] theorem flushAll_frame (l : List DescNo) (s : State) :
    (flushAll l s).pending = s.pending ∧ (flushAll l s).pins = s.pins ∧ (flushAll l s).toData = s.toData ∧
    (flushAll l s).tickCounter = s.tickCounter ∧ (flushAll l s).nodeAddress = s.nodeAddress ∧
    (flushAll l s).align = s.align ∧ (flushAll l s).slot = s.slot ∧ (flushAll l s).contexts = s.contexts ∧
    (flushAll l s).pool.store = s.pool.store ∧ (flushAll l s).pool.segReserve = s.pool.segReserve ∧
    (flushAll l s).pool.descReserve = s.pool.descReserve ∧ (flushAll l s).delivery = s.delivery ∧
    (flushAll l s).trib = s.trib ∧ (flushAll l s).addQueues = s.addQueues ∧ (flushAll l s).emitters = s.emitters ∧
    (flushAll l s).arbiter = s.arbiter ∧ (flushAll l s).engine = s.engine ∧ (flushAll l s).events = s.events := by
  unfold flushAll
  refine ⟨foldl_keeps (·.pending) (fun t d => by simp) _ s,
    foldl_keeps (·.pins) (fun t d => by simp) _ s,
    foldl_keeps (·.toData) (fun t d => by simp) _ s,
    foldl_keeps (·.tickCounter) (fun t d => by simp) _ s,
    foldl_keeps (·.nodeAddress) (fun t d => by simp) _ s,
    foldl_keeps (·.align) (fun t d => by simp) _ s,
    foldl_keeps (·.slot) (fun t d => by simp) _ s,
    foldl_keeps (·.contexts) (fun t d => by simp) _ s,
    foldl_keeps (·.pool.store) (fun t d => by simp) _ s,
    foldl_keeps (·.pool.segReserve) (fun t d => by simp) _ s,
    foldl_keeps (·.pool.descReserve) (fun t d => by simp) _ s,
    foldl_keeps (·.delivery) (fun t d => by simp) _ s,
    foldl_keeps (·.trib) (fun t d => by simp) _ s,
    foldl_keeps (·.addQueues) (fun t d => by simp) _ s,
    foldl_keeps (·.emitters) (fun t d => by simp) _ s,
    foldl_keeps (·.arbiter) (fun t d => by simp) _ s,
    foldl_keeps (·.engine) (fun t d => by simp) _ s,
    foldl_keeps (·.events) (fun t d => by simp) _ s⟩

@[simp] theorem reportFault_frame (c : Circuit) (cause : FaultCause) (s : State) :
    (reportFault c cause s).pending = s.pending ∧ (reportFault c cause s).pins = s.pins ∧
    (reportFault c cause s).toData = s.toData ∧ (reportFault c cause s).tickCounter = s.tickCounter ∧
    (reportFault c cause s).nodeAddress = s.nodeAddress ∧ (reportFault c cause s).align = s.align ∧
    (reportFault c cause s).slot = s.slot ∧ (reportFault c cause s).circuits = s.circuits ∧
    (reportFault c cause s).contexts = s.contexts ∧ (reportFault c cause s).pool = s.pool ∧
    (reportFault c cause s).delivery = s.delivery ∧ (reportFault c cause s).trib = s.trib ∧
    (reportFault c cause s).addQueues = s.addQueues ∧ (reportFault c cause s).emitters = s.emitters ∧
    (reportFault c cause s).arbiter = s.arbiter ∧ (reportFault c cause s).engine = s.engine ∧
    (reportFault c cause s).events.stack = s.events.stack ∧
    (reportFault c cause s).events.bindings = s.events.bindings ∧
    (reportFault c cause s).events.canned = s.events.canned ∧
    (reportFault c cause s).events.records = s.events.records ∧
    (reportFault c cause s).events.sequence = s.events.sequence ∧
    (reportFault c cause s).events.floor = s.events.floor ∧
    (reportFault c cause s).events.timeout = s.events.timeout ∧
    (reportFault c cause s).events.retries = s.events.retries ∧
    (reportFault c cause s).events.misses = s.events.misses ∧
    (reportFault c cause s).events.abandoned = s.events.abandoned ∧ (reportFault c cause s).owed = s.owed := by
  unfold reportFault
  try dsimp only
  repeat' split
  all_goals simp_all

/-! ### Slots -/

@[simp] theorem performSwap_frame (s : State) :
    (performSwap s).pending = s.pending ∧ (performSwap s).pins = s.pins ∧ (performSwap s).toData = s.toData ∧
    (performSwap s).tickCounter = s.tickCounter ∧ (performSwap s).nodeAddress = s.nodeAddress ∧
    (performSwap s).align = s.align ∧ (performSwap s).slot.bankA = s.slot.bankA ∧
    (performSwap s).slot.bankB = s.slot.bankB ∧ (performSwap s).slot.aligned = s.slot.aligned ∧
    (performSwap s).circuits = s.circuits ∧ (performSwap s).contexts = s.contexts ∧ (performSwap s).pool = s.pool ∧
    (performSwap s).delivery = s.delivery ∧ (performSwap s).trib = s.trib ∧ (performSwap s).addQueues = s.addQueues ∧
    (performSwap s).emitters = s.emitters ∧ (performSwap s).arbiter = s.arbiter ∧ (performSwap s).engine = s.engine ∧
    (performSwap s).events.stack = s.events.stack ∧ (performSwap s).events.bindings = s.events.bindings ∧
    (performSwap s).events.faults = s.events.faults ∧ (performSwap s).events.overflow = s.events.overflow ∧
    (performSwap s).events.canned = s.events.canned ∧ (performSwap s).events.records = s.events.records ∧
    (performSwap s).events.sequence = s.events.sequence ∧ (performSwap s).events.floor = s.events.floor ∧
    (performSwap s).events.timeout = s.events.timeout ∧ (performSwap s).events.retries = s.events.retries ∧
    (performSwap s).events.misses = s.events.misses ∧ (performSwap s).events.abandoned = s.events.abandoned ∧
    (performSwap s).owed = s.owed := by
  unfold performSwap
  try dsimp only
  repeat' split
  all_goals simp_all

@[simp] theorem performRevert_frame (s : State) :
    (performRevert s).pending = s.pending ∧ (performRevert s).pins = s.pins ∧ (performRevert s).toData = s.toData ∧
    (performRevert s).tickCounter = s.tickCounter ∧ (performRevert s).nodeAddress = s.nodeAddress ∧
    (performRevert s).align = s.align ∧ (performRevert s).slot.bankA = s.slot.bankA ∧
    (performRevert s).slot.bankB = s.slot.bankB ∧ (performRevert s).slot.aligned = s.slot.aligned ∧
    (performRevert s).slot.armed = s.slot.armed ∧ (performRevert s).circuits = s.circuits ∧
    (performRevert s).contexts = s.contexts ∧ (performRevert s).pool = s.pool ∧
    (performRevert s).delivery = s.delivery ∧ (performRevert s).trib = s.trib ∧
    (performRevert s).addQueues = s.addQueues ∧ (performRevert s).emitters = s.emitters ∧
    (performRevert s).arbiter = s.arbiter ∧ (performRevert s).engine = s.engine ∧
    (performRevert s).events.stack = s.events.stack ∧ (performRevert s).events.bindings = s.events.bindings ∧
    (performRevert s).events.faults = s.events.faults ∧ (performRevert s).events.overflow = s.events.overflow ∧
    (performRevert s).events.canned = s.events.canned ∧ (performRevert s).events.records = s.events.records ∧
    (performRevert s).events.sequence = s.events.sequence ∧ (performRevert s).events.floor = s.events.floor ∧
    (performRevert s).events.timeout = s.events.timeout ∧ (performRevert s).events.retries = s.events.retries ∧
    (performRevert s).events.misses = s.events.misses ∧ (performRevert s).events.abandoned = s.events.abandoned ∧
    (performRevert s).owed = s.owed := by
  simp [performRevert]

@[simp] theorem armSwapRecord_frame (record : ArmedSwap) (s : State) :
    (armSwapRecord record s).pending = s.pending ∧ (armSwapRecord record s).pins = s.pins ∧
    (armSwapRecord record s).toData = s.toData ∧ (armSwapRecord record s).tickCounter = s.tickCounter ∧
    (armSwapRecord record s).nodeAddress = s.nodeAddress ∧ (armSwapRecord record s).align = s.align ∧
    (armSwapRecord record s).slot.bankA = s.slot.bankA ∧ (armSwapRecord record s).slot.bankB = s.slot.bankB ∧
    (armSwapRecord record s).slot.aligned = s.slot.aligned ∧ (armSwapRecord record s).circuits = s.circuits ∧
    (armSwapRecord record s).contexts = s.contexts ∧ (armSwapRecord record s).pool = s.pool ∧
    (armSwapRecord record s).delivery = s.delivery ∧ (armSwapRecord record s).trib = s.trib ∧
    (armSwapRecord record s).addQueues = s.addQueues ∧ (armSwapRecord record s).emitters = s.emitters ∧
    (armSwapRecord record s).arbiter = s.arbiter ∧ (armSwapRecord record s).engine = s.engine ∧
    (armSwapRecord record s).events.stack = s.events.stack ∧
    (armSwapRecord record s).events.bindings = s.events.bindings ∧
    (armSwapRecord record s).events.faults = s.events.faults ∧
    (armSwapRecord record s).events.overflow = s.events.overflow ∧
    (armSwapRecord record s).events.canned = s.events.canned ∧
    (armSwapRecord record s).events.records = s.events.records ∧
    (armSwapRecord record s).events.sequence = s.events.sequence ∧
    (armSwapRecord record s).events.floor = s.events.floor ∧
    (armSwapRecord record s).events.timeout = s.events.timeout ∧
    (armSwapRecord record s).events.retries = s.events.retries ∧
    (armSwapRecord record s).events.misses = s.events.misses ∧
    (armSwapRecord record s).events.abandoned = s.events.abandoned ∧ (armSwapRecord record s).owed = s.owed := by
  unfold armSwapRecord
  try dsimp only
  repeat' split
  all_goals simp_all

@[simp] theorem boundSwap_frame (s : State) :
    (boundSwap s).2.pending = s.pending ∧ (boundSwap s).2.pins = s.pins ∧ (boundSwap s).2.toData = s.toData ∧
    (boundSwap s).2.tickCounter = s.tickCounter ∧ (boundSwap s).2.nodeAddress = s.nodeAddress ∧
    (boundSwap s).2.align = s.align ∧ (boundSwap s).2.slot.bankA = s.slot.bankA ∧
    (boundSwap s).2.slot.bankB = s.slot.bankB ∧ (boundSwap s).2.slot.aligned = s.slot.aligned ∧
    (boundSwap s).2.circuits = s.circuits ∧ (boundSwap s).2.contexts = s.contexts ∧ (boundSwap s).2.pool = s.pool ∧
    (boundSwap s).2.delivery = s.delivery ∧ (boundSwap s).2.trib = s.trib ∧ (boundSwap s).2.addQueues = s.addQueues ∧
    (boundSwap s).2.emitters = s.emitters ∧ (boundSwap s).2.arbiter = s.arbiter ∧ (boundSwap s).2.engine = s.engine ∧
    (boundSwap s).2.events.stack = s.events.stack ∧ (boundSwap s).2.events.bindings = s.events.bindings ∧
    (boundSwap s).2.events.faults = s.events.faults ∧ (boundSwap s).2.events.overflow = s.events.overflow ∧
    (boundSwap s).2.events.canned = s.events.canned ∧ (boundSwap s).2.events.records = s.events.records ∧
    (boundSwap s).2.events.sequence = s.events.sequence ∧ (boundSwap s).2.events.floor = s.events.floor ∧
    (boundSwap s).2.events.timeout = s.events.timeout ∧ (boundSwap s).2.events.retries = s.events.retries ∧
    (boundSwap s).2.events.misses = s.events.misses ∧ (boundSwap s).2.events.abandoned = s.events.abandoned ∧
    (boundSwap s).2.owed = s.owed := by
  unfold boundSwap
  try dsimp only
  repeat' split
  all_goals simp_all

@[simp] theorem slotAlignmentGained_frame (s : State) :
    (slotAlignmentGained s).pending = s.pending ∧ (slotAlignmentGained s).pins = s.pins ∧
    (slotAlignmentGained s).toData = s.toData ∧ (slotAlignmentGained s).tickCounter = s.tickCounter ∧
    (slotAlignmentGained s).nodeAddress = s.nodeAddress ∧ (slotAlignmentGained s).align = s.align ∧
    (slotAlignmentGained s).slot.bankA = s.slot.bankA ∧ (slotAlignmentGained s).slot.bankB = s.slot.bankB ∧
    (slotAlignmentGained s).slot.active = s.slot.active ∧ (slotAlignmentGained s).slot.swap = s.slot.swap ∧
    (slotAlignmentGained s).slot.armed = s.slot.armed ∧ (slotAlignmentGained s).slot.countdown = s.slot.countdown ∧
    (slotAlignmentGained s).circuits = s.circuits ∧ (slotAlignmentGained s).contexts = s.contexts ∧
    (slotAlignmentGained s).pool = s.pool ∧ (slotAlignmentGained s).delivery = s.delivery ∧
    (slotAlignmentGained s).trib = s.trib ∧ (slotAlignmentGained s).addQueues = s.addQueues ∧
    (slotAlignmentGained s).emitters = s.emitters ∧ (slotAlignmentGained s).arbiter = s.arbiter ∧
    (slotAlignmentGained s).engine = s.engine ∧ (slotAlignmentGained s).events = s.events ∧
    (slotAlignmentGained s).owed = s.owed := by
  simp [slotAlignmentGained]

@[simp] theorem slotAlignmentLost_frame (s : State) :
    (slotAlignmentLost s).pending = s.pending ∧ (slotAlignmentLost s).pins = s.pins ∧
    (slotAlignmentLost s).toData = s.toData ∧ (slotAlignmentLost s).tickCounter = s.tickCounter ∧
    (slotAlignmentLost s).nodeAddress = s.nodeAddress ∧ (slotAlignmentLost s).align = s.align ∧
    (slotAlignmentLost s).slot.bankA = s.slot.bankA ∧ (slotAlignmentLost s).slot.bankB = s.slot.bankB ∧
    (slotAlignmentLost s).circuits = s.circuits ∧ (slotAlignmentLost s).contexts = s.contexts ∧
    (slotAlignmentLost s).pool = s.pool ∧ (slotAlignmentLost s).delivery = s.delivery ∧
    (slotAlignmentLost s).trib = s.trib ∧ (slotAlignmentLost s).addQueues = s.addQueues ∧
    (slotAlignmentLost s).emitters = s.emitters ∧ (slotAlignmentLost s).arbiter = s.arbiter ∧
    (slotAlignmentLost s).engine = s.engine ∧ (slotAlignmentLost s).events.stack = s.events.stack ∧
    (slotAlignmentLost s).events.bindings = s.events.bindings ∧
    (slotAlignmentLost s).events.faults = s.events.faults ∧
    (slotAlignmentLost s).events.overflow = s.events.overflow ∧
    (slotAlignmentLost s).events.canned = s.events.canned ∧ (slotAlignmentLost s).events.records = s.events.records ∧
    (slotAlignmentLost s).events.sequence = s.events.sequence ∧ (slotAlignmentLost s).events.floor = s.events.floor ∧
    (slotAlignmentLost s).events.timeout = s.events.timeout ∧
    (slotAlignmentLost s).events.retries = s.events.retries ∧ (slotAlignmentLost s).events.misses = s.events.misses ∧
    (slotAlignmentLost s).events.abandoned = s.events.abandoned ∧ (slotAlignmentLost s).owed = s.owed := by
  unfold slotAlignmentLost
  try dsimp only
  repeat' split
  all_goals simp_all

@[simp] theorem slotBoundary_frame (withSwitch : Bool) (s : State) :
    (slotBoundary withSwitch s).pending = s.pending ∧ (slotBoundary withSwitch s).pins = s.pins ∧
    (slotBoundary withSwitch s).toData = s.toData ∧ (slotBoundary withSwitch s).tickCounter = s.tickCounter ∧
    (slotBoundary withSwitch s).nodeAddress = s.nodeAddress ∧ (slotBoundary withSwitch s).align = s.align ∧
    (slotBoundary withSwitch s).slot.bankA = s.slot.bankA ∧ (slotBoundary withSwitch s).slot.bankB = s.slot.bankB ∧
    (slotBoundary withSwitch s).slot.aligned = s.slot.aligned ∧ (slotBoundary withSwitch s).circuits = s.circuits ∧
    (slotBoundary withSwitch s).contexts = s.contexts ∧ (slotBoundary withSwitch s).pool = s.pool ∧
    (slotBoundary withSwitch s).delivery = s.delivery ∧ (slotBoundary withSwitch s).trib = s.trib ∧
    (slotBoundary withSwitch s).addQueues = s.addQueues ∧ (slotBoundary withSwitch s).emitters = s.emitters ∧
    (slotBoundary withSwitch s).arbiter = s.arbiter ∧ (slotBoundary withSwitch s).engine = s.engine ∧
    (slotBoundary withSwitch s).events.stack = s.events.stack ∧
    (slotBoundary withSwitch s).events.bindings = s.events.bindings ∧
    (slotBoundary withSwitch s).events.faults = s.events.faults ∧
    (slotBoundary withSwitch s).events.overflow = s.events.overflow ∧
    (slotBoundary withSwitch s).events.canned = s.events.canned ∧
    (slotBoundary withSwitch s).events.records = s.events.records ∧
    (slotBoundary withSwitch s).events.sequence = s.events.sequence ∧
    (slotBoundary withSwitch s).events.floor = s.events.floor ∧
    (slotBoundary withSwitch s).events.timeout = s.events.timeout ∧
    (slotBoundary withSwitch s).events.retries = s.events.retries ∧
    (slotBoundary withSwitch s).events.misses = s.events.misses ∧
    (slotBoundary withSwitch s).events.abandoned = s.events.abandoned ∧ (slotBoundary withSwitch s).owed = s.owed := by
  unfold slotBoundary
  try dsimp only
  repeat' split
  all_goals simp_all

@[simp] theorem confirmWindowEnd_frame (s : State) :
    (confirmWindowEnd s).pending = s.pending ∧ (confirmWindowEnd s).pins = s.pins ∧
    (confirmWindowEnd s).toData = s.toData ∧ (confirmWindowEnd s).tickCounter = s.tickCounter ∧
    (confirmWindowEnd s).nodeAddress = s.nodeAddress ∧ (confirmWindowEnd s).align = s.align ∧
    (confirmWindowEnd s).slot.bankA = s.slot.bankA ∧ (confirmWindowEnd s).slot.bankB = s.slot.bankB ∧
    (confirmWindowEnd s).slot.aligned = s.slot.aligned ∧ (confirmWindowEnd s).slot.armed = s.slot.armed ∧
    (confirmWindowEnd s).circuits = s.circuits ∧ (confirmWindowEnd s).contexts = s.contexts ∧
    (confirmWindowEnd s).pool = s.pool ∧ (confirmWindowEnd s).delivery = s.delivery ∧
    (confirmWindowEnd s).trib = s.trib ∧ (confirmWindowEnd s).addQueues = s.addQueues ∧
    (confirmWindowEnd s).emitters = s.emitters ∧ (confirmWindowEnd s).arbiter = s.arbiter ∧
    (confirmWindowEnd s).engine = s.engine ∧ (confirmWindowEnd s).events.stack = s.events.stack ∧
    (confirmWindowEnd s).events.bindings = s.events.bindings ∧ (confirmWindowEnd s).events.faults = s.events.faults ∧
    (confirmWindowEnd s).events.overflow = s.events.overflow ∧ (confirmWindowEnd s).events.canned = s.events.canned ∧
    (confirmWindowEnd s).events.records = s.events.records ∧
    (confirmWindowEnd s).events.sequence = s.events.sequence ∧ (confirmWindowEnd s).events.floor = s.events.floor ∧
    (confirmWindowEnd s).events.timeout = s.events.timeout ∧ (confirmWindowEnd s).events.retries = s.events.retries ∧
    (confirmWindowEnd s).events.misses = s.events.misses ∧
    (confirmWindowEnd s).events.abandoned = s.events.abandoned ∧ (confirmWindowEnd s).owed = s.owed := by
  unfold confirmWindowEnd
  try dsimp only
  repeat' split
  all_goals simp_all

/-! ### Circuits -/

@[simp] theorem startCircuit_frame (c : Circuit) (s : State) :
    (startCircuit c s).pending = s.pending ∧ (startCircuit c s).pins = s.pins ∧ (startCircuit c s).toData = s.toData ∧
    (startCircuit c s).tickCounter = s.tickCounter ∧ (startCircuit c s).nodeAddress = s.nodeAddress ∧
    (startCircuit c s).align = s.align ∧ (startCircuit c s).slot = s.slot ∧ (startCircuit c s).pool = s.pool ∧
    (startCircuit c s).delivery = s.delivery ∧ (startCircuit c s).trib = s.trib ∧
    (startCircuit c s).addQueues = s.addQueues ∧ (startCircuit c s).arbiter = s.arbiter ∧
    (startCircuit c s).engine = s.engine ∧ (startCircuit c s).events = s.events ∧ (startCircuit c s).owed = s.owed := by
  simp [startCircuit]

@[simp] theorem dropFromQueues_frame (c : Circuit) (rest : List DescNo → List DescNo) (s : State) :
    (dropFromQueues c rest s).pending = s.pending ∧ (dropFromQueues c rest s).pins = s.pins ∧
    (dropFromQueues c rest s).toData = s.toData ∧ (dropFromQueues c rest s).tickCounter = s.tickCounter ∧
    (dropFromQueues c rest s).nodeAddress = s.nodeAddress ∧ (dropFromQueues c rest s).align = s.align ∧
    (dropFromQueues c rest s).slot = s.slot ∧ (dropFromQueues c rest s).circuits = s.circuits ∧
    (dropFromQueues c rest s).contexts = s.contexts ∧ (dropFromQueues c rest s).pool = s.pool ∧
    (dropFromQueues c rest s).delivery.credits = s.delivery.credits ∧
    (dropFromQueues c rest s).delivery.quanta = s.delivery.quanta ∧
    (dropFromQueues c rest s).delivery.ageLimits = s.delivery.ageLimits ∧
    (dropFromQueues c rest s).delivery.stallLimit = s.delivery.stallLimit ∧
    (dropFromQueues c rest s).delivery.inDelivery = s.delivery.inDelivery ∧
    (dropFromQueues c rest s).delivery.retries = s.delivery.retries ∧
    (dropFromQueues c rest s).delivery.discarded = s.delivery.discarded ∧ (dropFromQueues c rest s).trib = s.trib ∧
    (dropFromQueues c rest s).emitters = s.emitters ∧ (dropFromQueues c rest s).arbiter = s.arbiter ∧
    (dropFromQueues c rest s).engine = s.engine ∧ (dropFromQueues c rest s).events = s.events ∧
    (dropFromQueues c rest s).owed = s.owed := by
  simp [dropFromQueues]

@[simp] theorem stopContext_frame (c : Circuit) (s : State) :
    (stopContext c s).pending = s.pending ∧ (stopContext c s).pins = s.pins ∧ (stopContext c s).toData = s.toData ∧
    (stopContext c s).tickCounter = s.tickCounter ∧ (stopContext c s).nodeAddress = s.nodeAddress ∧
    (stopContext c s).align = s.align ∧ (stopContext c s).slot = s.slot ∧
    (stopContext c s).pool.store = s.pool.store ∧ (stopContext c s).pool.segReserve = s.pool.segReserve ∧
    (stopContext c s).pool.descReserve = s.pool.descReserve ∧ (stopContext c s).delivery = s.delivery ∧
    (stopContext c s).trib = s.trib ∧ (stopContext c s).addQueues = s.addQueues ∧
    (stopContext c s).emitters = s.emitters ∧ (stopContext c s).arbiter = s.arbiter ∧
    (stopContext c s).engine = s.engine ∧ (stopContext c s).events = s.events := by
  unfold stopContext
  try dsimp only
  repeat' split
  all_goals simp_all

@[simp] theorem stopEmitter_frame (c : Circuit) (s : State) :
    (stopEmitter c s).pending = s.pending ∧ (stopEmitter c s).pins = s.pins ∧ (stopEmitter c s).toData = s.toData ∧
    (stopEmitter c s).tickCounter = s.tickCounter ∧ (stopEmitter c s).nodeAddress = s.nodeAddress ∧
    (stopEmitter c s).align = s.align ∧ (stopEmitter c s).slot = s.slot ∧ (stopEmitter c s).contexts = s.contexts ∧
    (stopEmitter c s).pool.store = s.pool.store ∧ (stopEmitter c s).pool.segReserve = s.pool.segReserve ∧
    (stopEmitter c s).pool.descReserve = s.pool.descReserve ∧ (stopEmitter c s).delivery = s.delivery ∧
    (stopEmitter c s).trib = s.trib ∧ (stopEmitter c s).addQueues = s.addQueues ∧
    (stopEmitter c s).arbiter = s.arbiter ∧ (stopEmitter c s).engine = s.engine ∧ (stopEmitter c s).events = s.events := by
  unfold stopEmitter
  try dsimp only
  repeat' split
  all_goals simp_all

@[simp] theorem stopCircuit_frame (c : Circuit) (withFlush : Bool) (s : State) :
    (stopCircuit c withFlush s).pending = s.pending ∧ (stopCircuit c withFlush s).pins = s.pins ∧
    (stopCircuit c withFlush s).toData = s.toData ∧ (stopCircuit c withFlush s).tickCounter = s.tickCounter ∧
    (stopCircuit c withFlush s).nodeAddress = s.nodeAddress ∧ (stopCircuit c withFlush s).align = s.align ∧
    (stopCircuit c withFlush s).slot = s.slot ∧ (stopCircuit c withFlush s).pool.store = s.pool.store ∧
    (stopCircuit c withFlush s).pool.segReserve = s.pool.segReserve ∧
    (stopCircuit c withFlush s).pool.descReserve = s.pool.descReserve ∧
    (stopCircuit c withFlush s).delivery.credits = s.delivery.credits ∧
    (stopCircuit c withFlush s).delivery.quanta = s.delivery.quanta ∧
    (stopCircuit c withFlush s).delivery.ageLimits = s.delivery.ageLimits ∧
    (stopCircuit c withFlush s).delivery.stallLimit = s.delivery.stallLimit ∧
    (stopCircuit c withFlush s).delivery.inDelivery = s.delivery.inDelivery ∧
    (stopCircuit c withFlush s).delivery.retries = s.delivery.retries ∧
    (stopCircuit c withFlush s).delivery.discarded = s.delivery.discarded ∧
    (stopCircuit c withFlush s).trib = s.trib ∧ (stopCircuit c withFlush s).arbiter = s.arbiter ∧
    (stopCircuit c withFlush s).engine = s.engine ∧ (stopCircuit c withFlush s).events = s.events := by
  unfold stopCircuit
  try dsimp only
  repeat' split
  all_goals simp_all

@[simp] theorem boundStart_frame (c : Circuit) (s : State) :
    (boundStart c s).2.pending = s.pending ∧ (boundStart c s).2.pins = s.pins ∧ (boundStart c s).2.toData = s.toData ∧
    (boundStart c s).2.tickCounter = s.tickCounter ∧ (boundStart c s).2.nodeAddress = s.nodeAddress ∧
    (boundStart c s).2.align = s.align ∧ (boundStart c s).2.slot = s.slot ∧ (boundStart c s).2.pool = s.pool ∧
    (boundStart c s).2.delivery = s.delivery ∧ (boundStart c s).2.trib = s.trib ∧
    (boundStart c s).2.addQueues = s.addQueues ∧ (boundStart c s).2.arbiter = s.arbiter ∧
    (boundStart c s).2.engine = s.engine ∧ (boundStart c s).2.events = s.events ∧ (boundStart c s).2.owed = s.owed := by
  unfold boundStart
  try dsimp only
  repeat' split
  all_goals simp_all

@[simp] theorem boundStop_frame (c : Circuit) (s : State) :
    (boundStop c s).2.pending = s.pending ∧ (boundStop c s).2.pins = s.pins ∧ (boundStop c s).2.toData = s.toData ∧
    (boundStop c s).2.tickCounter = s.tickCounter ∧ (boundStop c s).2.nodeAddress = s.nodeAddress ∧
    (boundStop c s).2.align = s.align ∧ (boundStop c s).2.slot = s.slot ∧
    (boundStop c s).2.pool.store = s.pool.store ∧ (boundStop c s).2.pool.segReserve = s.pool.segReserve ∧
    (boundStop c s).2.pool.descReserve = s.pool.descReserve ∧
    (boundStop c s).2.delivery.credits = s.delivery.credits ∧ (boundStop c s).2.delivery.quanta = s.delivery.quanta ∧
    (boundStop c s).2.delivery.ageLimits = s.delivery.ageLimits ∧
    (boundStop c s).2.delivery.stallLimit = s.delivery.stallLimit ∧
    (boundStop c s).2.delivery.inDelivery = s.delivery.inDelivery ∧
    (boundStop c s).2.delivery.retries = s.delivery.retries ∧
    (boundStop c s).2.delivery.discarded = s.delivery.discarded ∧ (boundStop c s).2.trib = s.trib ∧
    (boundStop c s).2.arbiter = s.arbiter ∧ (boundStop c s).2.engine = s.engine ∧ (boundStop c s).2.events = s.events := by
  unfold boundStop
  try dsimp only
  repeat' split
  all_goals simp_all

@[simp] theorem receiveHunt_frame (c : Circuit) (b : Byte) (s : State) :
    (receiveHunt c b s).pending = s.pending ∧ (receiveHunt c b s).pins = s.pins ∧
    (receiveHunt c b s).toData = s.toData ∧ (receiveHunt c b s).tickCounter = s.tickCounter ∧
    (receiveHunt c b s).nodeAddress = s.nodeAddress ∧ (receiveHunt c b s).align = s.align ∧
    (receiveHunt c b s).slot = s.slot ∧ (receiveHunt c b s).pool = s.pool ∧
    (receiveHunt c b s).delivery = s.delivery ∧ (receiveHunt c b s).trib = s.trib ∧
    (receiveHunt c b s).addQueues = s.addQueues ∧ (receiveHunt c b s).emitters = s.emitters ∧
    (receiveHunt c b s).arbiter = s.arbiter ∧ (receiveHunt c b s).engine = s.engine ∧
    (receiveHunt c b s).events = s.events ∧ (receiveHunt c b s).owed = s.owed := by
  unfold receiveHunt
  try dsimp only
  repeat' split
  all_goals simp_all

@[simp] theorem headerBad_frame (c : Circuit) (s : State) :
    (headerBad c s).pending = s.pending ∧ (headerBad c s).pins = s.pins ∧ (headerBad c s).toData = s.toData ∧
    (headerBad c s).tickCounter = s.tickCounter ∧ (headerBad c s).nodeAddress = s.nodeAddress ∧
    (headerBad c s).align = s.align ∧ (headerBad c s).slot = s.slot ∧ (headerBad c s).pool = s.pool ∧
    (headerBad c s).delivery = s.delivery ∧ (headerBad c s).trib = s.trib ∧ (headerBad c s).addQueues = s.addQueues ∧
    (headerBad c s).emitters = s.emitters ∧ (headerBad c s).arbiter = s.arbiter ∧ (headerBad c s).engine = s.engine ∧
    (headerBad c s).events.stack = s.events.stack ∧ (headerBad c s).events.bindings = s.events.bindings ∧
    (headerBad c s).events.canned = s.events.canned ∧ (headerBad c s).events.records = s.events.records ∧
    (headerBad c s).events.sequence = s.events.sequence ∧ (headerBad c s).events.floor = s.events.floor ∧
    (headerBad c s).events.timeout = s.events.timeout ∧ (headerBad c s).events.retries = s.events.retries ∧
    (headerBad c s).events.misses = s.events.misses ∧ (headerBad c s).events.abandoned = s.events.abandoned ∧
    (headerBad c s).owed = s.owed := by
  simp [headerBad]

@[simp] theorem countSkip_frame (c : Circuit) (f : AllocFailure) (s : State) :
    (countSkip c f s).pending = s.pending ∧ (countSkip c f s).pins = s.pins ∧ (countSkip c f s).toData = s.toData ∧
    (countSkip c f s).tickCounter = s.tickCounter ∧ (countSkip c f s).nodeAddress = s.nodeAddress ∧
    (countSkip c f s).align = s.align ∧ (countSkip c f s).slot = s.slot ∧ (countSkip c f s).contexts = s.contexts ∧
    (countSkip c f s).pool = s.pool ∧ (countSkip c f s).delivery = s.delivery ∧ (countSkip c f s).trib = s.trib ∧
    (countSkip c f s).addQueues = s.addQueues ∧ (countSkip c f s).emitters = s.emitters ∧
    (countSkip c f s).arbiter = s.arbiter ∧ (countSkip c f s).engine = s.engine ∧
    (countSkip c f s).events.stack = s.events.stack ∧ (countSkip c f s).events.bindings = s.events.bindings ∧
    (countSkip c f s).events.canned = s.events.canned ∧ (countSkip c f s).events.records = s.events.records ∧
    (countSkip c f s).events.sequence = s.events.sequence ∧ (countSkip c f s).events.floor = s.events.floor ∧
    (countSkip c f s).events.timeout = s.events.timeout ∧ (countSkip c f s).events.retries = s.events.retries ∧
    (countSkip c f s).events.misses = s.events.misses ∧ (countSkip c f s).events.abandoned = s.events.abandoned ∧
    (countSkip c f s).owed = s.owed := by
  unfold countSkip
  try dsimp only
  repeat' split
  all_goals simp_all

@[simp] theorem headerGood_frame (c : Circuit) (lengthOctet second : Byte) (crc : Word) (s : State) :
    (headerGood c lengthOctet second crc s).pending = s.pending ∧
    (headerGood c lengthOctet second crc s).pins = s.pins ∧
    (headerGood c lengthOctet second crc s).toData = s.toData ∧
    (headerGood c lengthOctet second crc s).tickCounter = s.tickCounter ∧
    (headerGood c lengthOctet second crc s).nodeAddress = s.nodeAddress ∧
    (headerGood c lengthOctet second crc s).align = s.align ∧ (headerGood c lengthOctet second crc s).slot = s.slot ∧
    (headerGood c lengthOctet second crc s).pool.store = s.pool.store ∧
    (headerGood c lengthOctet second crc s).pool.segReserve = s.pool.segReserve ∧
    (headerGood c lengthOctet second crc s).pool.descReserve = s.pool.descReserve ∧
    (headerGood c lengthOctet second crc s).delivery = s.delivery ∧
    (headerGood c lengthOctet second crc s).trib = s.trib ∧
    (headerGood c lengthOctet second crc s).addQueues = s.addQueues ∧
    (headerGood c lengthOctet second crc s).emitters = s.emitters ∧
    (headerGood c lengthOctet second crc s).arbiter = s.arbiter ∧
    (headerGood c lengthOctet second crc s).engine = s.engine ∧
    (headerGood c lengthOctet second crc s).events.stack = s.events.stack ∧
    (headerGood c lengthOctet second crc s).events.bindings = s.events.bindings ∧
    (headerGood c lengthOctet second crc s).events.canned = s.events.canned ∧
    (headerGood c lengthOctet second crc s).events.records = s.events.records ∧
    (headerGood c lengthOctet second crc s).events.sequence = s.events.sequence ∧
    (headerGood c lengthOctet second crc s).events.floor = s.events.floor ∧
    (headerGood c lengthOctet second crc s).events.timeout = s.events.timeout ∧
    (headerGood c lengthOctet second crc s).events.retries = s.events.retries ∧
    (headerGood c lengthOctet second crc s).events.misses = s.events.misses ∧
    (headerGood c lengthOctet second crc s).events.abandoned = s.events.abandoned ∧
    (headerGood c lengthOctet second crc s).owed = s.owed := by
  unfold headerGood
  try dsimp only
  repeat' split
  all_goals first
    | (simp; done)
    | (simp_all; done)
    | (rename_i h; have := enqueue_frame h; simp_all; done)
    | (rename_i h; have := allocate_frame h; simp_all; done)

@[simp] theorem receiveHead_frame (c : Circuit) (b : Byte) (s : State) :
    (receiveHead c b s).pending = s.pending ∧ (receiveHead c b s).pins = s.pins ∧
    (receiveHead c b s).toData = s.toData ∧ (receiveHead c b s).tickCounter = s.tickCounter ∧
    (receiveHead c b s).nodeAddress = s.nodeAddress ∧ (receiveHead c b s).align = s.align ∧
    (receiveHead c b s).slot = s.slot ∧ (receiveHead c b s).pool.store = s.pool.store ∧
    (receiveHead c b s).pool.segReserve = s.pool.segReserve ∧
    (receiveHead c b s).pool.descReserve = s.pool.descReserve ∧ (receiveHead c b s).delivery = s.delivery ∧
    (receiveHead c b s).trib = s.trib ∧ (receiveHead c b s).addQueues = s.addQueues ∧
    (receiveHead c b s).emitters = s.emitters ∧ (receiveHead c b s).arbiter = s.arbiter ∧
    (receiveHead c b s).engine = s.engine ∧ (receiveHead c b s).events.stack = s.events.stack ∧
    (receiveHead c b s).events.bindings = s.events.bindings ∧ (receiveHead c b s).events.canned = s.events.canned ∧
    (receiveHead c b s).events.records = s.events.records ∧ (receiveHead c b s).events.sequence = s.events.sequence ∧
    (receiveHead c b s).events.floor = s.events.floor ∧ (receiveHead c b s).events.timeout = s.events.timeout ∧
    (receiveHead c b s).events.retries = s.events.retries ∧ (receiveHead c b s).events.misses = s.events.misses ∧
    (receiveHead c b s).events.abandoned = s.events.abandoned ∧ (receiveHead c b s).owed = s.owed := by
  unfold receiveHead
  try dsimp only
  repeat' split
  all_goals simp_all

@[simp] theorem receiveBody_frame (c : Circuit) (b : Byte) (s : State) :
    (receiveBody c b s).pending = s.pending ∧ (receiveBody c b s).pins = s.pins ∧
    (receiveBody c b s).toData = s.toData ∧ (receiveBody c b s).tickCounter = s.tickCounter ∧
    (receiveBody c b s).nodeAddress = s.nodeAddress ∧ (receiveBody c b s).align = s.align ∧
    (receiveBody c b s).slot = s.slot ∧ (receiveBody c b s).circuits = s.circuits ∧
    (receiveBody c b s).pool.segReserve = s.pool.segReserve ∧
    (receiveBody c b s).pool.descReserve = s.pool.descReserve ∧ (receiveBody c b s).pool.freeSegs = s.pool.freeSegs ∧
    (receiveBody c b s).pool.freeDescs = s.pool.freeDescs ∧ (receiveBody c b s).pool.descs = s.pool.descs ∧
    (receiveBody c b s).delivery = s.delivery ∧ (receiveBody c b s).trib = s.trib ∧
    (receiveBody c b s).addQueues = s.addQueues ∧ (receiveBody c b s).emitters = s.emitters ∧
    (receiveBody c b s).arbiter = s.arbiter ∧ (receiveBody c b s).engine = s.engine ∧
    (receiveBody c b s).events = s.events ∧ (receiveBody c b s).owed = s.owed := by
  simp [receiveBody]

@[simp] theorem judgeSequence_frame (c : Circuit) (seq : BitVec 4) (s : State) :
    (judgeSequence c seq s).pending = s.pending ∧ (judgeSequence c seq s).pins = s.pins ∧
    (judgeSequence c seq s).toData = s.toData ∧ (judgeSequence c seq s).tickCounter = s.tickCounter ∧
    (judgeSequence c seq s).nodeAddress = s.nodeAddress ∧ (judgeSequence c seq s).align = s.align ∧
    (judgeSequence c seq s).slot = s.slot ∧ (judgeSequence c seq s).contexts = s.contexts ∧
    (judgeSequence c seq s).pool = s.pool ∧ (judgeSequence c seq s).delivery = s.delivery ∧
    (judgeSequence c seq s).trib = s.trib ∧ (judgeSequence c seq s).addQueues = s.addQueues ∧
    (judgeSequence c seq s).emitters = s.emitters ∧ (judgeSequence c seq s).arbiter = s.arbiter ∧
    (judgeSequence c seq s).engine = s.engine ∧ (judgeSequence c seq s).events.stack = s.events.stack ∧
    (judgeSequence c seq s).events.bindings = s.events.bindings ∧
    (judgeSequence c seq s).events.canned = s.events.canned ∧
    (judgeSequence c seq s).events.records = s.events.records ∧
    (judgeSequence c seq s).events.sequence = s.events.sequence ∧
    (judgeSequence c seq s).events.floor = s.events.floor ∧
    (judgeSequence c seq s).events.timeout = s.events.timeout ∧
    (judgeSequence c seq s).events.retries = s.events.retries ∧
    (judgeSequence c seq s).events.misses = s.events.misses ∧
    (judgeSequence c seq s).events.abandoned = s.events.abandoned ∧ (judgeSequence c seq s).owed = s.owed := by
  unfold judgeSequence
  try dsimp only
  repeat' split
  all_goals simp_all

@[simp] theorem handOn_frame (c : Circuit) (cls : Class) (d : DescNo) (s : State) :
    (handOn c cls d s).pending = s.pending ∧ (handOn c cls d s).pins = s.pins ∧ (handOn c cls d s).toData = s.toData ∧
    (handOn c cls d s).tickCounter = s.tickCounter ∧ (handOn c cls d s).nodeAddress = s.nodeAddress ∧
    (handOn c cls d s).align = s.align ∧ (handOn c cls d s).slot = s.slot ∧ (handOn c cls d s).contexts = s.contexts ∧
    (handOn c cls d s).pool.store = s.pool.store ∧ (handOn c cls d s).pool.segReserve = s.pool.segReserve ∧
    (handOn c cls d s).pool.descReserve = s.pool.descReserve ∧
    (handOn c cls d s).delivery.credits = s.delivery.credits ∧
    (handOn c cls d s).delivery.quanta = s.delivery.quanta ∧
    (handOn c cls d s).delivery.ageLimits = s.delivery.ageLimits ∧
    (handOn c cls d s).delivery.stallLimit = s.delivery.stallLimit ∧
    (handOn c cls d s).delivery.inDelivery = s.delivery.inDelivery ∧
    (handOn c cls d s).delivery.retries = s.delivery.retries ∧
    (handOn c cls d s).delivery.discarded = s.delivery.discarded ∧ (handOn c cls d s).trib = s.trib ∧
    (handOn c cls d s).addQueues = s.addQueues ∧ (handOn c cls d s).emitters = s.emitters ∧
    (handOn c cls d s).arbiter = s.arbiter ∧ (handOn c cls d s).engine.state = s.engine.state ∧
    (handOn c cls d s).engine.inHand = s.engine.inHand ∧ (handOn c cls d s).engine.owner = s.engine.owner ∧
    (handOn c cls d s).engine.lease = s.engine.lease ∧ (handOn c cls d s).engine.cache = s.engine.cache ∧
    (handOn c cls d s).engine.noted = s.engine.noted ∧ (handOn c cls d s).events.stack = s.events.stack ∧
    (handOn c cls d s).events.bindings = s.events.bindings ∧ (handOn c cls d s).events.faults = s.events.faults ∧
    (handOn c cls d s).events.overflow = s.events.overflow ∧ (handOn c cls d s).events.canned = s.events.canned ∧
    (handOn c cls d s).events.records = s.events.records ∧ (handOn c cls d s).events.sequence = s.events.sequence ∧
    (handOn c cls d s).events.floor = s.events.floor ∧ (handOn c cls d s).events.timeout = s.events.timeout ∧
    (handOn c cls d s).events.retries = s.events.retries ∧ (handOn c cls d s).events.misses = s.events.misses ∧
    (handOn c cls d s).events.abandoned = s.events.abandoned := by
  unfold handOn
  try dsimp only
  repeat' split
  all_goals simp_all

@[simp] theorem checkMatch_frame (c : Circuit) (ctx : RxContext) (d : DescNo) (s : State) :
    (checkMatch c ctx d s).pending = s.pending ∧ (checkMatch c ctx d s).pins = s.pins ∧
    (checkMatch c ctx d s).toData = s.toData ∧ (checkMatch c ctx d s).tickCounter = s.tickCounter ∧
    (checkMatch c ctx d s).nodeAddress = s.nodeAddress ∧ (checkMatch c ctx d s).align = s.align ∧
    (checkMatch c ctx d s).slot = s.slot ∧ (checkMatch c ctx d s).pool.store = s.pool.store ∧
    (checkMatch c ctx d s).pool.segReserve = s.pool.segReserve ∧
    (checkMatch c ctx d s).pool.descReserve = s.pool.descReserve ∧
    (checkMatch c ctx d s).delivery.credits = s.delivery.credits ∧
    (checkMatch c ctx d s).delivery.quanta = s.delivery.quanta ∧
    (checkMatch c ctx d s).delivery.ageLimits = s.delivery.ageLimits ∧
    (checkMatch c ctx d s).delivery.stallLimit = s.delivery.stallLimit ∧
    (checkMatch c ctx d s).delivery.inDelivery = s.delivery.inDelivery ∧
    (checkMatch c ctx d s).delivery.retries = s.delivery.retries ∧
    (checkMatch c ctx d s).delivery.discarded = s.delivery.discarded ∧ (checkMatch c ctx d s).trib = s.trib ∧
    (checkMatch c ctx d s).addQueues = s.addQueues ∧ (checkMatch c ctx d s).emitters = s.emitters ∧
    (checkMatch c ctx d s).arbiter = s.arbiter ∧ (checkMatch c ctx d s).engine.state = s.engine.state ∧
    (checkMatch c ctx d s).engine.inHand = s.engine.inHand ∧ (checkMatch c ctx d s).engine.owner = s.engine.owner ∧
    (checkMatch c ctx d s).engine.lease = s.engine.lease ∧ (checkMatch c ctx d s).engine.cache = s.engine.cache ∧
    (checkMatch c ctx d s).engine.noted = s.engine.noted ∧ (checkMatch c ctx d s).events.stack = s.events.stack ∧
    (checkMatch c ctx d s).events.bindings = s.events.bindings ∧
    (checkMatch c ctx d s).events.canned = s.events.canned ∧
    (checkMatch c ctx d s).events.records = s.events.records ∧
    (checkMatch c ctx d s).events.sequence = s.events.sequence ∧
    (checkMatch c ctx d s).events.floor = s.events.floor ∧ (checkMatch c ctx d s).events.timeout = s.events.timeout ∧
    (checkMatch c ctx d s).events.retries = s.events.retries ∧
    (checkMatch c ctx d s).events.misses = s.events.misses ∧
    (checkMatch c ctx d s).events.abandoned = s.events.abandoned := by
  simp [checkMatch]

@[simp] theorem checkMismatch_frame (c : Circuit) (d : DescNo) (s : State) :
    (checkMismatch c d s).pending = s.pending ∧ (checkMismatch c d s).pins = s.pins ∧
    (checkMismatch c d s).toData = s.toData ∧ (checkMismatch c d s).tickCounter = s.tickCounter ∧
    (checkMismatch c d s).nodeAddress = s.nodeAddress ∧ (checkMismatch c d s).align = s.align ∧
    (checkMismatch c d s).slot = s.slot ∧ (checkMismatch c d s).pool.store = s.pool.store ∧
    (checkMismatch c d s).pool.segReserve = s.pool.segReserve ∧
    (checkMismatch c d s).pool.descReserve = s.pool.descReserve ∧ (checkMismatch c d s).delivery = s.delivery ∧
    (checkMismatch c d s).trib = s.trib ∧ (checkMismatch c d s).addQueues = s.addQueues ∧
    (checkMismatch c d s).emitters = s.emitters ∧ (checkMismatch c d s).arbiter = s.arbiter ∧
    (checkMismatch c d s).engine = s.engine ∧ (checkMismatch c d s).events.stack = s.events.stack ∧
    (checkMismatch c d s).events.bindings = s.events.bindings ∧
    (checkMismatch c d s).events.canned = s.events.canned ∧ (checkMismatch c d s).events.records = s.events.records ∧
    (checkMismatch c d s).events.sequence = s.events.sequence ∧ (checkMismatch c d s).events.floor = s.events.floor ∧
    (checkMismatch c d s).events.timeout = s.events.timeout ∧
    (checkMismatch c d s).events.retries = s.events.retries ∧ (checkMismatch c d s).events.misses = s.events.misses ∧
    (checkMismatch c d s).events.abandoned = s.events.abandoned := by
  simp [checkMismatch]

@[simp] theorem receiveCheck_frame (c : Circuit) (b : Byte) (s : State) :
    (receiveCheck c b s).pending = s.pending ∧ (receiveCheck c b s).pins = s.pins ∧
    (receiveCheck c b s).toData = s.toData ∧ (receiveCheck c b s).tickCounter = s.tickCounter ∧
    (receiveCheck c b s).nodeAddress = s.nodeAddress ∧ (receiveCheck c b s).align = s.align ∧
    (receiveCheck c b s).slot = s.slot ∧ (receiveCheck c b s).pool.store = s.pool.store ∧
    (receiveCheck c b s).pool.segReserve = s.pool.segReserve ∧
    (receiveCheck c b s).pool.descReserve = s.pool.descReserve ∧
    (receiveCheck c b s).delivery.credits = s.delivery.credits ∧
    (receiveCheck c b s).delivery.quanta = s.delivery.quanta ∧
    (receiveCheck c b s).delivery.ageLimits = s.delivery.ageLimits ∧
    (receiveCheck c b s).delivery.stallLimit = s.delivery.stallLimit ∧
    (receiveCheck c b s).delivery.inDelivery = s.delivery.inDelivery ∧
    (receiveCheck c b s).delivery.retries = s.delivery.retries ∧
    (receiveCheck c b s).delivery.discarded = s.delivery.discarded ∧ (receiveCheck c b s).trib = s.trib ∧
    (receiveCheck c b s).addQueues = s.addQueues ∧ (receiveCheck c b s).emitters = s.emitters ∧
    (receiveCheck c b s).arbiter = s.arbiter ∧ (receiveCheck c b s).engine.state = s.engine.state ∧
    (receiveCheck c b s).engine.inHand = s.engine.inHand ∧ (receiveCheck c b s).engine.owner = s.engine.owner ∧
    (receiveCheck c b s).engine.lease = s.engine.lease ∧ (receiveCheck c b s).engine.cache = s.engine.cache ∧
    (receiveCheck c b s).engine.noted = s.engine.noted ∧ (receiveCheck c b s).events.stack = s.events.stack ∧
    (receiveCheck c b s).events.bindings = s.events.bindings ∧ (receiveCheck c b s).events.canned = s.events.canned ∧
    (receiveCheck c b s).events.records = s.events.records ∧
    (receiveCheck c b s).events.sequence = s.events.sequence ∧ (receiveCheck c b s).events.floor = s.events.floor ∧
    (receiveCheck c b s).events.timeout = s.events.timeout ∧ (receiveCheck c b s).events.retries = s.events.retries ∧
    (receiveCheck c b s).events.misses = s.events.misses ∧ (receiveCheck c b s).events.abandoned = s.events.abandoned := by
  unfold receiveCheck
  try dsimp only
  repeat' split
  all_goals simp_all

@[simp] theorem receiveSkip_frame (c : Circuit) (s : State) :
    (receiveSkip c s).pending = s.pending ∧ (receiveSkip c s).pins = s.pins ∧ (receiveSkip c s).toData = s.toData ∧
    (receiveSkip c s).tickCounter = s.tickCounter ∧ (receiveSkip c s).nodeAddress = s.nodeAddress ∧
    (receiveSkip c s).align = s.align ∧ (receiveSkip c s).slot = s.slot ∧ (receiveSkip c s).circuits = s.circuits ∧
    (receiveSkip c s).pool = s.pool ∧ (receiveSkip c s).delivery = s.delivery ∧ (receiveSkip c s).trib = s.trib ∧
    (receiveSkip c s).addQueues = s.addQueues ∧ (receiveSkip c s).emitters = s.emitters ∧
    (receiveSkip c s).arbiter = s.arbiter ∧ (receiveSkip c s).engine = s.engine ∧
    (receiveSkip c s).events = s.events ∧ (receiveSkip c s).owed = s.owed := by
  unfold receiveSkip
  try dsimp only
  repeat' split
  all_goals simp_all

@[simp] theorem receiveOctet_frame (c : Circuit) (b : Byte) (s : State) :
    (receiveOctet c b s).pending = s.pending ∧ (receiveOctet c b s).pins = s.pins ∧
    (receiveOctet c b s).toData = s.toData ∧ (receiveOctet c b s).tickCounter = s.tickCounter ∧
    (receiveOctet c b s).nodeAddress = s.nodeAddress ∧ (receiveOctet c b s).align = s.align ∧
    (receiveOctet c b s).slot = s.slot ∧ (receiveOctet c b s).pool.segReserve = s.pool.segReserve ∧
    (receiveOctet c b s).pool.descReserve = s.pool.descReserve ∧
    (receiveOctet c b s).delivery.credits = s.delivery.credits ∧
    (receiveOctet c b s).delivery.quanta = s.delivery.quanta ∧
    (receiveOctet c b s).delivery.ageLimits = s.delivery.ageLimits ∧
    (receiveOctet c b s).delivery.stallLimit = s.delivery.stallLimit ∧
    (receiveOctet c b s).delivery.inDelivery = s.delivery.inDelivery ∧
    (receiveOctet c b s).delivery.retries = s.delivery.retries ∧
    (receiveOctet c b s).delivery.discarded = s.delivery.discarded ∧ (receiveOctet c b s).trib = s.trib ∧
    (receiveOctet c b s).addQueues = s.addQueues ∧ (receiveOctet c b s).emitters = s.emitters ∧
    (receiveOctet c b s).arbiter = s.arbiter ∧ (receiveOctet c b s).engine.state = s.engine.state ∧
    (receiveOctet c b s).engine.inHand = s.engine.inHand ∧ (receiveOctet c b s).engine.owner = s.engine.owner ∧
    (receiveOctet c b s).engine.lease = s.engine.lease ∧ (receiveOctet c b s).engine.cache = s.engine.cache ∧
    (receiveOctet c b s).engine.noted = s.engine.noted ∧ (receiveOctet c b s).events.stack = s.events.stack ∧
    (receiveOctet c b s).events.bindings = s.events.bindings ∧ (receiveOctet c b s).events.canned = s.events.canned ∧
    (receiveOctet c b s).events.records = s.events.records ∧
    (receiveOctet c b s).events.sequence = s.events.sequence ∧ (receiveOctet c b s).events.floor = s.events.floor ∧
    (receiveOctet c b s).events.timeout = s.events.timeout ∧ (receiveOctet c b s).events.retries = s.events.retries ∧
    (receiveOctet c b s).events.misses = s.events.misses ∧ (receiveOctet c b s).events.abandoned = s.events.abandoned := by
  unfold receiveOctet
  try dsimp only
  repeat' split
  all_goals simp_all

@[simp] theorem stallContext_frame (c : Circuit) (s : State) :
    (stallContext c s).pending = s.pending ∧ (stallContext c s).pins = s.pins ∧ (stallContext c s).toData = s.toData ∧
    (stallContext c s).tickCounter = s.tickCounter ∧ (stallContext c s).nodeAddress = s.nodeAddress ∧
    (stallContext c s).align = s.align ∧ (stallContext c s).slot = s.slot ∧
    (stallContext c s).pool.store = s.pool.store ∧ (stallContext c s).pool.segReserve = s.pool.segReserve ∧
    (stallContext c s).pool.descReserve = s.pool.descReserve ∧ (stallContext c s).delivery = s.delivery ∧
    (stallContext c s).trib = s.trib ∧ (stallContext c s).addQueues = s.addQueues ∧
    (stallContext c s).emitters = s.emitters ∧ (stallContext c s).arbiter = s.arbiter ∧
    (stallContext c s).engine = s.engine ∧ (stallContext c s).events.stack = s.events.stack ∧
    (stallContext c s).events.bindings = s.events.bindings ∧ (stallContext c s).events.canned = s.events.canned ∧
    (stallContext c s).events.records = s.events.records ∧ (stallContext c s).events.sequence = s.events.sequence ∧
    (stallContext c s).events.floor = s.events.floor ∧ (stallContext c s).events.timeout = s.events.timeout ∧
    (stallContext c s).events.retries = s.events.retries ∧ (stallContext c s).events.misses = s.events.misses ∧
    (stallContext c s).events.abandoned = s.events.abandoned := by
  unfold stallContext
  try dsimp only
  repeat' split
  all_goals simp_all

/-! ### Delivery -/

@[simp] theorem acceptCredits_frame (n : Nat) (s : State) :
    (acceptCredits n s).pending = s.pending ∧ (acceptCredits n s).pins = s.pins ∧
    (acceptCredits n s).toData = s.toData ∧ (acceptCredits n s).tickCounter = s.tickCounter ∧
    (acceptCredits n s).nodeAddress = s.nodeAddress ∧ (acceptCredits n s).align = s.align ∧
    (acceptCredits n s).slot = s.slot ∧ (acceptCredits n s).circuits = s.circuits ∧
    (acceptCredits n s).contexts = s.contexts ∧ (acceptCredits n s).pool = s.pool ∧
    (acceptCredits n s).delivery.queues = s.delivery.queues ∧
    (acceptCredits n s).delivery.quanta = s.delivery.quanta ∧
    (acceptCredits n s).delivery.ageLimits = s.delivery.ageLimits ∧
    (acceptCredits n s).delivery.stallLimit = s.delivery.stallLimit ∧
    (acceptCredits n s).delivery.inDelivery = s.delivery.inDelivery ∧
    (acceptCredits n s).delivery.retries = s.delivery.retries ∧ (acceptCredits n s).trib = s.trib ∧
    (acceptCredits n s).addQueues = s.addQueues ∧ (acceptCredits n s).emitters = s.emitters ∧
    (acceptCredits n s).arbiter = s.arbiter ∧ (acceptCredits n s).engine = s.engine ∧
    (acceptCredits n s).events = s.events ∧ (acceptCredits n s).owed = s.owed := by
  simp [acceptCredits]

@[simp] theorem startDelivery_frame (q : Class) (s : State) :
    (startDelivery q s).pending = s.pending ∧ (startDelivery q s).pins = s.pins ∧
    (startDelivery q s).toData = s.toData ∧ (startDelivery q s).tickCounter = s.tickCounter ∧
    (startDelivery q s).nodeAddress = s.nodeAddress ∧ (startDelivery q s).align = s.align ∧
    (startDelivery q s).slot = s.slot ∧ (startDelivery q s).circuits = s.circuits ∧
    (startDelivery q s).contexts = s.contexts ∧ (startDelivery q s).pool.store = s.pool.store ∧
    (startDelivery q s).pool.segReserve = s.pool.segReserve ∧
    (startDelivery q s).pool.descReserve = s.pool.descReserve ∧ (startDelivery q s).pool.freeSegs = s.pool.freeSegs ∧
    (startDelivery q s).pool.freeDescs = s.pool.freeDescs ∧ (startDelivery q s).delivery.quanta = s.delivery.quanta ∧
    (startDelivery q s).delivery.ageLimits = s.delivery.ageLimits ∧
    (startDelivery q s).delivery.stallLimit = s.delivery.stallLimit ∧
    (startDelivery q s).delivery.retries = s.delivery.retries ∧
    (startDelivery q s).delivery.discarded = s.delivery.discarded ∧ (startDelivery q s).trib.ready = s.trib.ready ∧
    (startDelivery q s).trib.parser = s.trib.parser ∧ (startDelivery q s).trib.rejects = s.trib.rejects ∧
    (startDelivery q s).trib.counters = s.trib.counters ∧ (startDelivery q s).addQueues = s.addQueues ∧
    (startDelivery q s).emitters = s.emitters ∧ (startDelivery q s).arbiter = s.arbiter ∧
    (startDelivery q s).engine = s.engine ∧ (startDelivery q s).events = s.events ∧ (startDelivery q s).owed = s.owed := by
  unfold startDelivery
  try dsimp only
  repeat' split
  all_goals simp_all

@[simp] theorem chooseDelivery_frame (s : State) :
    (chooseDelivery s).pending = s.pending ∧ (chooseDelivery s).pins = s.pins ∧ (chooseDelivery s).toData = s.toData ∧
    (chooseDelivery s).tickCounter = s.tickCounter ∧ (chooseDelivery s).nodeAddress = s.nodeAddress ∧
    (chooseDelivery s).align = s.align ∧ (chooseDelivery s).slot = s.slot ∧ (chooseDelivery s).circuits = s.circuits ∧
    (chooseDelivery s).contexts = s.contexts ∧ (chooseDelivery s).pool.store = s.pool.store ∧
    (chooseDelivery s).pool.segReserve = s.pool.segReserve ∧
    (chooseDelivery s).pool.descReserve = s.pool.descReserve ∧ (chooseDelivery s).pool.freeSegs = s.pool.freeSegs ∧
    (chooseDelivery s).pool.freeDescs = s.pool.freeDescs ∧ (chooseDelivery s).delivery.quanta = s.delivery.quanta ∧
    (chooseDelivery s).delivery.ageLimits = s.delivery.ageLimits ∧
    (chooseDelivery s).delivery.stallLimit = s.delivery.stallLimit ∧
    (chooseDelivery s).delivery.retries = s.delivery.retries ∧
    (chooseDelivery s).delivery.discarded = s.delivery.discarded ∧ (chooseDelivery s).trib.ready = s.trib.ready ∧
    (chooseDelivery s).trib.parser = s.trib.parser ∧ (chooseDelivery s).trib.rejects = s.trib.rejects ∧
    (chooseDelivery s).trib.counters = s.trib.counters ∧ (chooseDelivery s).addQueues = s.addQueues ∧
    (chooseDelivery s).emitters = s.emitters ∧ (chooseDelivery s).arbiter = s.arbiter ∧
    (chooseDelivery s).engine = s.engine ∧ (chooseDelivery s).events = s.events ∧ (chooseDelivery s).owed = s.owed := by
  unfold chooseDelivery
  try dsimp only
  repeat' split
  all_goals simp_all

@[simp] theorem completeDelivery_frame (s : State) :
    (completeDelivery s).pending = s.pending ∧ (completeDelivery s).pins = s.pins ∧
    (completeDelivery s).toData = s.toData ∧ (completeDelivery s).tickCounter = s.tickCounter ∧
    (completeDelivery s).nodeAddress = s.nodeAddress ∧ (completeDelivery s).align = s.align ∧
    (completeDelivery s).slot = s.slot ∧ (completeDelivery s).contexts = s.contexts ∧
    (completeDelivery s).pool.store = s.pool.store ∧ (completeDelivery s).pool.segReserve = s.pool.segReserve ∧
    (completeDelivery s).pool.descReserve = s.pool.descReserve ∧
    (completeDelivery s).delivery.credits = s.delivery.credits ∧
    (completeDelivery s).delivery.queues = s.delivery.queues ∧
    (completeDelivery s).delivery.quanta = s.delivery.quanta ∧
    (completeDelivery s).delivery.ageLimits = s.delivery.ageLimits ∧
    (completeDelivery s).delivery.stallLimit = s.delivery.stallLimit ∧
    (completeDelivery s).delivery.retries = s.delivery.retries ∧
    (completeDelivery s).delivery.discarded = s.delivery.discarded ∧ (completeDelivery s).trib.ready = s.trib.ready ∧
    (completeDelivery s).trib.parser = s.trib.parser ∧ (completeDelivery s).trib.rejects = s.trib.rejects ∧
    (completeDelivery s).trib.counters = s.trib.counters ∧ (completeDelivery s).addQueues = s.addQueues ∧
    (completeDelivery s).emitters = s.emitters ∧ (completeDelivery s).arbiter = s.arbiter ∧
    (completeDelivery s).engine = s.engine ∧ (completeDelivery s).events = s.events := by
  unfold completeDelivery
  try dsimp only
  repeat' split
  all_goals simp_all

@[simp] theorem restoreDeficit_frame (q : Class) (length : Nat) (s : State) :
    (restoreDeficit q length s).pending = s.pending ∧ (restoreDeficit q length s).pins = s.pins ∧
    (restoreDeficit q length s).toData = s.toData ∧ (restoreDeficit q length s).tickCounter = s.tickCounter ∧
    (restoreDeficit q length s).nodeAddress = s.nodeAddress ∧ (restoreDeficit q length s).align = s.align ∧
    (restoreDeficit q length s).slot = s.slot ∧ (restoreDeficit q length s).circuits = s.circuits ∧
    (restoreDeficit q length s).contexts = s.contexts ∧ (restoreDeficit q length s).pool = s.pool ∧
    (restoreDeficit q length s).delivery.credits = s.delivery.credits ∧
    (restoreDeficit q length s).delivery.queues = s.delivery.queues ∧
    (restoreDeficit q length s).delivery.quanta = s.delivery.quanta ∧
    (restoreDeficit q length s).delivery.ageLimits = s.delivery.ageLimits ∧
    (restoreDeficit q length s).delivery.stallLimit = s.delivery.stallLimit ∧
    (restoreDeficit q length s).delivery.inDelivery = s.delivery.inDelivery ∧
    (restoreDeficit q length s).delivery.retries = s.delivery.retries ∧
    (restoreDeficit q length s).delivery.discarded = s.delivery.discarded ∧
    (restoreDeficit q length s).trib = s.trib ∧ (restoreDeficit q length s).addQueues = s.addQueues ∧
    (restoreDeficit q length s).emitters = s.emitters ∧ (restoreDeficit q length s).arbiter = s.arbiter ∧
    (restoreDeficit q length s).engine = s.engine ∧ (restoreDeficit q length s).events = s.events ∧
    (restoreDeficit q length s).owed = s.owed := by
  unfold restoreDeficit
  try dsimp only
  repeat' split
  all_goals simp_all

@[simp] theorem abortDelivery_frame (s : State) :
    (abortDelivery s).pending = s.pending ∧ (abortDelivery s).pins = s.pins ∧ (abortDelivery s).toData = s.toData ∧
    (abortDelivery s).tickCounter = s.tickCounter ∧ (abortDelivery s).nodeAddress = s.nodeAddress ∧
    (abortDelivery s).align = s.align ∧ (abortDelivery s).slot = s.slot ∧ (abortDelivery s).circuits = s.circuits ∧
    (abortDelivery s).contexts = s.contexts ∧ (abortDelivery s).pool.store = s.pool.store ∧
    (abortDelivery s).pool.segReserve = s.pool.segReserve ∧ (abortDelivery s).pool.descReserve = s.pool.descReserve ∧
    (abortDelivery s).pool.freeSegs = s.pool.freeSegs ∧ (abortDelivery s).pool.freeDescs = s.pool.freeDescs ∧
    (abortDelivery s).delivery.credits = s.delivery.credits ∧ (abortDelivery s).delivery.quanta = s.delivery.quanta ∧
    (abortDelivery s).delivery.ageLimits = s.delivery.ageLimits ∧
    (abortDelivery s).delivery.stallLimit = s.delivery.stallLimit ∧
    (abortDelivery s).delivery.discarded = s.delivery.discarded ∧ (abortDelivery s).trib = s.trib ∧
    (abortDelivery s).addQueues = s.addQueues ∧ (abortDelivery s).emitters = s.emitters ∧
    (abortDelivery s).arbiter = s.arbiter ∧ (abortDelivery s).engine = s.engine ∧
    (abortDelivery s).events = s.events ∧ (abortDelivery s).owed = s.owed := by
  unfold abortDelivery
  try dsimp only
  repeat' split
  all_goals simp_all

@[simp] theorem readyFallen_frame (s : State) :
    (readyFallen s).pending = s.pending ∧ (readyFallen s).pins = s.pins ∧ (readyFallen s).toData = s.toData ∧
    (readyFallen s).tickCounter = s.tickCounter ∧ (readyFallen s).nodeAddress = s.nodeAddress ∧
    (readyFallen s).align = s.align ∧ (readyFallen s).slot = s.slot ∧ (readyFallen s).circuits = s.circuits ∧
    (readyFallen s).contexts = s.contexts ∧ (readyFallen s).pool.store = s.pool.store ∧
    (readyFallen s).pool.segReserve = s.pool.segReserve ∧ (readyFallen s).pool.descReserve = s.pool.descReserve ∧
    (readyFallen s).pool.freeSegs = s.pool.freeSegs ∧ (readyFallen s).pool.freeDescs = s.pool.freeDescs ∧
    (readyFallen s).delivery.quanta = s.delivery.quanta ∧ (readyFallen s).delivery.ageLimits = s.delivery.ageLimits ∧
    (readyFallen s).delivery.stallLimit = s.delivery.stallLimit ∧
    (readyFallen s).delivery.discarded = s.delivery.discarded ∧ (readyFallen s).trib.ready = s.trib.ready ∧
    (readyFallen s).trib.parser = s.trib.parser ∧ (readyFallen s).trib.rejects = s.trib.rejects ∧
    (readyFallen s).trib.counters = s.trib.counters ∧ (readyFallen s).addQueues = s.addQueues ∧
    (readyFallen s).emitters = s.emitters ∧ (readyFallen s).arbiter = s.arbiter ∧ (readyFallen s).engine = s.engine ∧
    (readyFallen s).events = s.events ∧ (readyFallen s).owed = s.owed := by
  unfold readyFallen
  try dsimp only
  repeat' split
  all_goals simp_all

@[simp] theorem ageOutHead_frame (q : Class) (s : State) :
    (ageOutHead q s).pending = s.pending ∧ (ageOutHead q s).pins = s.pins ∧ (ageOutHead q s).toData = s.toData ∧
    (ageOutHead q s).tickCounter = s.tickCounter ∧ (ageOutHead q s).nodeAddress = s.nodeAddress ∧
    (ageOutHead q s).align = s.align ∧ (ageOutHead q s).slot = s.slot ∧ (ageOutHead q s).contexts = s.contexts ∧
    (ageOutHead q s).pool.store = s.pool.store ∧ (ageOutHead q s).pool.segReserve = s.pool.segReserve ∧
    (ageOutHead q s).pool.descReserve = s.pool.descReserve ∧ (ageOutHead q s).delivery.credits = s.delivery.credits ∧
    (ageOutHead q s).delivery.quanta = s.delivery.quanta ∧
    (ageOutHead q s).delivery.ageLimits = s.delivery.ageLimits ∧
    (ageOutHead q s).delivery.stallLimit = s.delivery.stallLimit ∧
    (ageOutHead q s).delivery.inDelivery = s.delivery.inDelivery ∧
    (ageOutHead q s).delivery.retries = s.delivery.retries ∧
    (ageOutHead q s).delivery.discarded = s.delivery.discarded ∧ (ageOutHead q s).trib = s.trib ∧
    (ageOutHead q s).addQueues = s.addQueues ∧ (ageOutHead q s).emitters = s.emitters ∧
    (ageOutHead q s).arbiter = s.arbiter ∧ (ageOutHead q s).engine = s.engine ∧
    (ageOutHead q s).events.stack = s.events.stack ∧ (ageOutHead q s).events.bindings = s.events.bindings ∧
    (ageOutHead q s).events.faults = s.events.faults ∧ (ageOutHead q s).events.overflow = s.events.overflow ∧
    (ageOutHead q s).events.canned = s.events.canned ∧ (ageOutHead q s).events.records = s.events.records ∧
    (ageOutHead q s).events.sequence = s.events.sequence ∧ (ageOutHead q s).events.floor = s.events.floor ∧
    (ageOutHead q s).events.timeout = s.events.timeout ∧ (ageOutHead q s).events.retries = s.events.retries ∧
    (ageOutHead q s).events.misses = s.events.misses ∧ (ageOutHead q s).events.abandoned = s.events.abandoned := by
  unfold ageOutHead
  try dsimp only
  repeat' split
  all_goals simp_all

@[simp] theorem creditStallCheck_frame (s : State) :
    (creditStallCheck s).pending = s.pending ∧ (creditStallCheck s).pins = s.pins ∧
    (creditStallCheck s).toData = s.toData ∧ (creditStallCheck s).tickCounter = s.tickCounter ∧
    (creditStallCheck s).nodeAddress = s.nodeAddress ∧ (creditStallCheck s).align = s.align ∧
    (creditStallCheck s).slot = s.slot ∧ (creditStallCheck s).circuits = s.circuits ∧
    (creditStallCheck s).contexts = s.contexts ∧ (creditStallCheck s).pool = s.pool ∧
    (creditStallCheck s).delivery.credits = s.delivery.credits ∧
    (creditStallCheck s).delivery.queues = s.delivery.queues ∧
    (creditStallCheck s).delivery.quanta = s.delivery.quanta ∧
    (creditStallCheck s).delivery.ageLimits = s.delivery.ageLimits ∧
    (creditStallCheck s).delivery.stallLimit = s.delivery.stallLimit ∧
    (creditStallCheck s).delivery.inDelivery = s.delivery.inDelivery ∧
    (creditStallCheck s).delivery.retries = s.delivery.retries ∧
    (creditStallCheck s).delivery.discarded = s.delivery.discarded ∧ (creditStallCheck s).trib = s.trib ∧
    (creditStallCheck s).addQueues = s.addQueues ∧ (creditStallCheck s).emitters = s.emitters ∧
    (creditStallCheck s).arbiter = s.arbiter ∧ (creditStallCheck s).engine = s.engine ∧
    (creditStallCheck s).events = s.events := by
  unfold creditStallCheck
  try dsimp only
  repeat' split
  all_goals simp_all

@[simp] theorem tickDelivery_frame (s : State) :
    (tickDelivery s).pending = s.pending ∧ (tickDelivery s).pins = s.pins ∧ (tickDelivery s).toData = s.toData ∧
    (tickDelivery s).tickCounter = s.tickCounter ∧ (tickDelivery s).nodeAddress = s.nodeAddress ∧
    (tickDelivery s).align = s.align ∧ (tickDelivery s).slot = s.slot ∧ (tickDelivery s).circuits = s.circuits ∧
    (tickDelivery s).contexts = s.contexts ∧ (tickDelivery s).pool = s.pool ∧
    (tickDelivery s).delivery.credits = s.delivery.credits ∧ (tickDelivery s).delivery.queues = s.delivery.queues ∧
    (tickDelivery s).delivery.quanta = s.delivery.quanta ∧
    (tickDelivery s).delivery.ageLimits = s.delivery.ageLimits ∧
    (tickDelivery s).delivery.stallLimit = s.delivery.stallLimit ∧
    (tickDelivery s).delivery.inDelivery = s.delivery.inDelivery ∧
    (tickDelivery s).delivery.retries = s.delivery.retries ∧
    (tickDelivery s).delivery.discarded = s.delivery.discarded ∧ (tickDelivery s).trib = s.trib ∧
    (tickDelivery s).addQueues = s.addQueues ∧ (tickDelivery s).emitters = s.emitters ∧
    (tickDelivery s).arbiter = s.arbiter ∧ (tickDelivery s).engine = s.engine ∧ (tickDelivery s).events = s.events := by
  unfold tickDelivery
  try dsimp only
  repeat' split
  all_goals simp_all

@[simp] theorem reportCreditStall_frame (queued : Nat) (s : State) :
    (reportCreditStall queued s).pending = s.pending ∧ (reportCreditStall queued s).pins = s.pins ∧
    (reportCreditStall queued s).toData = s.toData ∧ (reportCreditStall queued s).tickCounter = s.tickCounter ∧
    (reportCreditStall queued s).nodeAddress = s.nodeAddress ∧ (reportCreditStall queued s).align = s.align ∧
    (reportCreditStall queued s).slot = s.slot ∧ (reportCreditStall queued s).circuits = s.circuits ∧
    (reportCreditStall queued s).contexts = s.contexts ∧ (reportCreditStall queued s).pool = s.pool ∧
    (reportCreditStall queued s).delivery.credits = s.delivery.credits ∧
    (reportCreditStall queued s).delivery.queues = s.delivery.queues ∧
    (reportCreditStall queued s).delivery.quanta = s.delivery.quanta ∧
    (reportCreditStall queued s).delivery.ageLimits = s.delivery.ageLimits ∧
    (reportCreditStall queued s).delivery.stallLimit = s.delivery.stallLimit ∧
    (reportCreditStall queued s).delivery.inDelivery = s.delivery.inDelivery ∧
    (reportCreditStall queued s).delivery.retries = s.delivery.retries ∧
    (reportCreditStall queued s).delivery.discarded = s.delivery.discarded ∧
    (reportCreditStall queued s).trib = s.trib ∧ (reportCreditStall queued s).addQueues = s.addQueues ∧
    (reportCreditStall queued s).emitters = s.emitters ∧ (reportCreditStall queued s).arbiter = s.arbiter ∧
    (reportCreditStall queued s).engine = s.engine ∧ (reportCreditStall queued s).events.stack = s.events.stack ∧
    (reportCreditStall queued s).events.bindings = s.events.bindings ∧
    (reportCreditStall queued s).events.faults = s.events.faults ∧
    (reportCreditStall queued s).events.overflow = s.events.overflow ∧
    (reportCreditStall queued s).events.canned = s.events.canned ∧
    (reportCreditStall queued s).events.records = s.events.records ∧
    (reportCreditStall queued s).events.sequence = s.events.sequence ∧
    (reportCreditStall queued s).events.floor = s.events.floor ∧
    (reportCreditStall queued s).events.timeout = s.events.timeout ∧
    (reportCreditStall queued s).events.retries = s.events.retries ∧
    (reportCreditStall queued s).events.misses = s.events.misses ∧
    (reportCreditStall queued s).events.abandoned = s.events.abandoned ∧ (reportCreditStall queued s).owed = s.owed := by
  simp [reportCreditStall]

@[simp] theorem flushClass_frame (q : Class) (s : State) :
    (flushClass q s).pending = s.pending ∧ (flushClass q s).pins = s.pins ∧ (flushClass q s).toData = s.toData ∧
    (flushClass q s).tickCounter = s.tickCounter ∧ (flushClass q s).nodeAddress = s.nodeAddress ∧
    (flushClass q s).align = s.align ∧ (flushClass q s).slot = s.slot ∧ (flushClass q s).contexts = s.contexts ∧
    (flushClass q s).pool.store = s.pool.store ∧ (flushClass q s).pool.segReserve = s.pool.segReserve ∧
    (flushClass q s).pool.descReserve = s.pool.descReserve ∧ (flushClass q s).delivery.credits = s.delivery.credits ∧
    (flushClass q s).delivery.quanta = s.delivery.quanta ∧
    (flushClass q s).delivery.ageLimits = s.delivery.ageLimits ∧
    (flushClass q s).delivery.stallLimit = s.delivery.stallLimit ∧
    (flushClass q s).delivery.inDelivery = s.delivery.inDelivery ∧
    (flushClass q s).delivery.retries = s.delivery.retries ∧
    (flushClass q s).delivery.discarded = s.delivery.discarded ∧ (flushClass q s).trib = s.trib ∧
    (flushClass q s).addQueues = s.addQueues ∧ (flushClass q s).emitters = s.emitters ∧
    (flushClass q s).arbiter = s.arbiter ∧ (flushClass q s).engine = s.engine ∧ (flushClass q s).events = s.events := by
  simp [flushClass]

/-! ### Insertion -/

@[simp] theorem fullReset_frame (s : State) :
    (fullReset s).pending = s.pending ∧ (fullReset s).pins = s.pins ∧ (fullReset s).toData = s.toData := by
  simp [fullReset, State.resetWith]

@[simp] theorem emitterTake_frame (c : Circuit) (d : DescNo) (rest : List DescNo) (s : State) :
    (emitterTake c d rest s).pending = s.pending ∧ (emitterTake c d rest s).pins = s.pins ∧
    (emitterTake c d rest s).toData = s.toData ∧ (emitterTake c d rest s).tickCounter = s.tickCounter ∧
    (emitterTake c d rest s).nodeAddress = s.nodeAddress ∧ (emitterTake c d rest s).align = s.align ∧
    (emitterTake c d rest s).slot = s.slot ∧ (emitterTake c d rest s).contexts = s.contexts ∧
    (emitterTake c d rest s).pool.store = s.pool.store ∧
    (emitterTake c d rest s).pool.segReserve = s.pool.segReserve ∧
    (emitterTake c d rest s).pool.descReserve = s.pool.descReserve ∧
    (emitterTake c d rest s).pool.freeSegs = s.pool.freeSegs ∧
    (emitterTake c d rest s).pool.freeDescs = s.pool.freeDescs ∧ (emitterTake c d rest s).delivery = s.delivery ∧
    (emitterTake c d rest s).trib = s.trib ∧ (emitterTake c d rest s).arbiter = s.arbiter ∧
    (emitterTake c d rest s).engine = s.engine ∧ (emitterTake c d rest s).events = s.events := by
  unfold emitterTake
  try dsimp only
  repeat' split
  all_goals simp_all

@[simp] theorem emissionComplete_frame (c : Circuit) (d : DescNo) (x : Descriptor) (s : State) :
    (emissionComplete c d x s).pending = s.pending ∧ (emissionComplete c d x s).pins = s.pins ∧
    (emissionComplete c d x s).toData = s.toData := by
  unfold emissionComplete
  try dsimp only
  repeat' split
  all_goals simp_all

@[simp] theorem emitNext_frame (c : Circuit) (e : Emitter) (d : DescNo) (x : Descriptor) (s : State) :
    (emitNext c e d x s).2.pending = s.pending ∧ (emitNext c e d x s).2.pins = s.pins ∧
    (emitNext c e d x s).2.toData = s.toData := by
  unfold emitNext
  try dsimp only
  repeat' split
  all_goals simp_all

@[simp] theorem emitterSupply_frame (c : Circuit) (s : State) :
    (emitterSupply c s).2.pending = s.pending ∧ (emitterSupply c s).2.pins = s.pins ∧
    (emitterSupply c s).2.toData = s.toData := by
  unfold emitterSupply
  try dsimp only
  repeat' split
  all_goals simp_all

@[simp] theorem boundSend_frame (i : Fin Config.cannedSlots) (c : Circuit) (s : State) :
    (boundSend i c s).2.pending = s.pending ∧ (boundSend i c s).2.pins = s.pins ∧
    (boundSend i c s).2.toData = s.toData ∧ (boundSend i c s).2.tickCounter = s.tickCounter ∧
    (boundSend i c s).2.nodeAddress = s.nodeAddress ∧ (boundSend i c s).2.align = s.align ∧
    (boundSend i c s).2.slot = s.slot ∧ (boundSend i c s).2.contexts = s.contexts ∧
    (boundSend i c s).2.pool.segReserve = s.pool.segReserve ∧
    (boundSend i c s).2.pool.descReserve = s.pool.descReserve ∧ (boundSend i c s).2.delivery = s.delivery ∧
    (boundSend i c s).2.trib = s.trib ∧ (boundSend i c s).2.emitters = s.emitters ∧
    (boundSend i c s).2.arbiter = s.arbiter ∧ (boundSend i c s).2.engine = s.engine ∧
    (boundSend i c s).2.events.stack = s.events.stack ∧ (boundSend i c s).2.events.bindings = s.events.bindings ∧
    (boundSend i c s).2.events.faults = s.events.faults ∧ (boundSend i c s).2.events.overflow = s.events.overflow ∧
    (boundSend i c s).2.events.canned = s.events.canned ∧ (boundSend i c s).2.events.records = s.events.records ∧
    (boundSend i c s).2.events.sequence = s.events.sequence ∧ (boundSend i c s).2.events.floor = s.events.floor ∧
    (boundSend i c s).2.events.timeout = s.events.timeout ∧ (boundSend i c s).2.events.retries = s.events.retries ∧
    (boundSend i c s).2.events.misses = s.events.misses ∧ (boundSend i c s).2.events.abandoned = s.events.abandoned ∧
    (boundSend i c s).2.owed = s.owed := by
  unfold boundSend
  try dsimp only
  repeat' split
  all_goals first
    | (simp; done)
    | (simp_all; done)
    | (rename_i h; have := enqueue_frame h; simp_all; done)
    | (rename_i h; have := allocate_frame h; simp_all; done)

/-! ### Events -/

@[simp] theorem recordOccurrence_frame (k : EventKind) (detail : Option (List Byte)) (s : State) :
    (recordOccurrence k detail s).pending = s.pending ∧ (recordOccurrence k detail s).pins = s.pins ∧
    (recordOccurrence k detail s).toData = s.toData ∧ (recordOccurrence k detail s).tickCounter = s.tickCounter ∧
    (recordOccurrence k detail s).nodeAddress = s.nodeAddress ∧ (recordOccurrence k detail s).align = s.align ∧
    (recordOccurrence k detail s).slot = s.slot ∧ (recordOccurrence k detail s).circuits = s.circuits ∧
    (recordOccurrence k detail s).contexts = s.contexts ∧ (recordOccurrence k detail s).pool = s.pool ∧
    (recordOccurrence k detail s).delivery = s.delivery ∧ (recordOccurrence k detail s).trib = s.trib ∧
    (recordOccurrence k detail s).addQueues = s.addQueues ∧ (recordOccurrence k detail s).emitters = s.emitters ∧
    (recordOccurrence k detail s).arbiter = s.arbiter ∧ (recordOccurrence k detail s).engine = s.engine ∧
    (recordOccurrence k detail s).events.stack = s.events.stack ∧
    (recordOccurrence k detail s).events.bindings = s.events.bindings ∧
    (recordOccurrence k detail s).events.faults = s.events.faults ∧
    (recordOccurrence k detail s).events.overflow = s.events.overflow ∧
    (recordOccurrence k detail s).events.canned = s.events.canned ∧
    (recordOccurrence k detail s).events.sequence = s.events.sequence ∧
    (recordOccurrence k detail s).events.inbox = s.events.inbox ∧
    (recordOccurrence k detail s).events.floor = s.events.floor ∧
    (recordOccurrence k detail s).events.timeout = s.events.timeout ∧
    (recordOccurrence k detail s).events.retries = s.events.retries ∧
    (recordOccurrence k detail s).events.misses = s.events.misses ∧
    (recordOccurrence k detail s).events.abandoned = s.events.abandoned ∧ (recordOccurrence k detail s).owed = s.owed := by
  simp [recordOccurrence]

@[simp] theorem clearRecord_frame (k : EventKind) (s : State) :
    (clearRecord k s).pending = s.pending ∧ (clearRecord k s).pins = s.pins ∧ (clearRecord k s).toData = s.toData ∧
    (clearRecord k s).tickCounter = s.tickCounter ∧ (clearRecord k s).nodeAddress = s.nodeAddress ∧
    (clearRecord k s).align = s.align ∧ (clearRecord k s).slot = s.slot ∧ (clearRecord k s).circuits = s.circuits ∧
    (clearRecord k s).contexts = s.contexts ∧ (clearRecord k s).pool = s.pool ∧
    (clearRecord k s).delivery = s.delivery ∧ (clearRecord k s).trib = s.trib ∧
    (clearRecord k s).addQueues = s.addQueues ∧ (clearRecord k s).emitters = s.emitters ∧
    (clearRecord k s).arbiter = s.arbiter ∧ (clearRecord k s).engine = s.engine ∧
    (clearRecord k s).events.stack = s.events.stack ∧ (clearRecord k s).events.bindings = s.events.bindings ∧
    (clearRecord k s).events.faults = s.events.faults ∧ (clearRecord k s).events.overflow = s.events.overflow ∧
    (clearRecord k s).events.canned = s.events.canned ∧ (clearRecord k s).events.sequence = s.events.sequence ∧
    (clearRecord k s).events.inbox = s.events.inbox ∧ (clearRecord k s).events.floor = s.events.floor ∧
    (clearRecord k s).events.timeout = s.events.timeout ∧ (clearRecord k s).events.retries = s.events.retries ∧
    (clearRecord k s).events.misses = s.events.misses ∧ (clearRecord k s).events.abandoned = s.events.abandoned ∧
    (clearRecord k s).owed = s.owed := by
  simp [clearRecord]

@[simp] theorem keepOrReplace_frame (held formed : NoticeOffer) (s : State) :
    (keepOrReplace held formed s).pending = s.pending ∧ (keepOrReplace held formed s).pins = s.pins ∧
    (keepOrReplace held formed s).toData = s.toData ∧ (keepOrReplace held formed s).tickCounter = s.tickCounter ∧
    (keepOrReplace held formed s).nodeAddress = s.nodeAddress ∧ (keepOrReplace held formed s).align = s.align ∧
    (keepOrReplace held formed s).slot = s.slot ∧ (keepOrReplace held formed s).circuits = s.circuits ∧
    (keepOrReplace held formed s).contexts = s.contexts ∧ (keepOrReplace held formed s).pool = s.pool ∧
    (keepOrReplace held formed s).delivery = s.delivery ∧ (keepOrReplace held formed s).trib = s.trib ∧
    (keepOrReplace held formed s).addQueues = s.addQueues ∧ (keepOrReplace held formed s).emitters = s.emitters ∧
    (keepOrReplace held formed s).arbiter.response = s.arbiter.response ∧
    (keepOrReplace held formed s).engine = s.engine ∧ (keepOrReplace held formed s).events = s.events := by
  unfold keepOrReplace
  try dsimp only
  repeat' split
  all_goals simp_all

@[simp] theorem selectNotice_frame (s : State) :
    (selectNotice s).pending = s.pending ∧ (selectNotice s).pins = s.pins ∧ (selectNotice s).toData = s.toData ∧
    (selectNotice s).tickCounter = s.tickCounter ∧ (selectNotice s).nodeAddress = s.nodeAddress ∧
    (selectNotice s).align = s.align ∧ (selectNotice s).slot = s.slot ∧ (selectNotice s).circuits = s.circuits ∧
    (selectNotice s).contexts = s.contexts ∧ (selectNotice s).pool = s.pool ∧ (selectNotice s).delivery = s.delivery ∧
    (selectNotice s).trib = s.trib ∧ (selectNotice s).addQueues = s.addQueues ∧
    (selectNotice s).emitters = s.emitters ∧ (selectNotice s).arbiter.response = s.arbiter.response ∧
    (selectNotice s).engine = s.engine ∧ (selectNotice s).events = s.events := by
  unfold selectNotice
  try dsimp only
  repeat' split
  all_goals simp_all

@[simp] theorem performAction_frame (a : BindingAction) (s : State) :
    (performAction a s).2.pending = s.pending ∧ (performAction a s).2.pins = s.pins ∧
    (performAction a s).2.toData = s.toData ∧ (performAction a s).2.tickCounter = s.tickCounter ∧
    (performAction a s).2.nodeAddress = s.nodeAddress ∧ (performAction a s).2.align = s.align ∧
    (performAction a s).2.slot.bankA = s.slot.bankA ∧ (performAction a s).2.slot.bankB = s.slot.bankB ∧
    (performAction a s).2.slot.aligned = s.slot.aligned ∧ (performAction a s).2.pool.segReserve = s.pool.segReserve ∧
    (performAction a s).2.pool.descReserve = s.pool.descReserve ∧
    (performAction a s).2.delivery.credits = s.delivery.credits ∧
    (performAction a s).2.delivery.quanta = s.delivery.quanta ∧
    (performAction a s).2.delivery.ageLimits = s.delivery.ageLimits ∧
    (performAction a s).2.delivery.stallLimit = s.delivery.stallLimit ∧
    (performAction a s).2.delivery.inDelivery = s.delivery.inDelivery ∧
    (performAction a s).2.delivery.retries = s.delivery.retries ∧
    (performAction a s).2.delivery.discarded = s.delivery.discarded ∧ (performAction a s).2.trib = s.trib ∧
    (performAction a s).2.arbiter = s.arbiter ∧ (performAction a s).2.engine = s.engine ∧
    (performAction a s).2.events.stack = s.events.stack ∧ (performAction a s).2.events.bindings = s.events.bindings ∧
    (performAction a s).2.events.faults = s.events.faults ∧
    (performAction a s).2.events.overflow = s.events.overflow ∧
    (performAction a s).2.events.canned = s.events.canned ∧ (performAction a s).2.events.records = s.events.records ∧
    (performAction a s).2.events.sequence = s.events.sequence ∧ (performAction a s).2.events.floor = s.events.floor ∧
    (performAction a s).2.events.timeout = s.events.timeout ∧
    (performAction a s).2.events.retries = s.events.retries ∧ (performAction a s).2.events.misses = s.events.misses ∧
    (performAction a s).2.events.abandoned = s.events.abandoned := by
  unfold performAction
  try dsimp only
  repeat' split
  all_goals simp_all

@[simp] theorem bindingSucceeded_frame (i : Fin Config.bindings) (b : Binding) (s : State) :
    (bindingSucceeded i b s).pending = s.pending ∧ (bindingSucceeded i b s).pins = s.pins ∧
    (bindingSucceeded i b s).toData = s.toData ∧ (bindingSucceeded i b s).tickCounter = s.tickCounter ∧
    (bindingSucceeded i b s).nodeAddress = s.nodeAddress ∧ (bindingSucceeded i b s).align = s.align ∧
    (bindingSucceeded i b s).slot = s.slot ∧ (bindingSucceeded i b s).circuits = s.circuits ∧
    (bindingSucceeded i b s).contexts = s.contexts ∧ (bindingSucceeded i b s).pool = s.pool ∧
    (bindingSucceeded i b s).delivery = s.delivery ∧ (bindingSucceeded i b s).trib = s.trib ∧
    (bindingSucceeded i b s).addQueues = s.addQueues ∧ (bindingSucceeded i b s).emitters = s.emitters ∧
    (bindingSucceeded i b s).arbiter = s.arbiter ∧ (bindingSucceeded i b s).engine = s.engine ∧
    (bindingSucceeded i b s).events.stack = s.events.stack ∧
    (bindingSucceeded i b s).events.faults = s.events.faults ∧
    (bindingSucceeded i b s).events.overflow = s.events.overflow ∧
    (bindingSucceeded i b s).events.canned = s.events.canned ∧
    (bindingSucceeded i b s).events.sequence = s.events.sequence ∧
    (bindingSucceeded i b s).events.inbox = s.events.inbox ∧ (bindingSucceeded i b s).events.floor = s.events.floor ∧
    (bindingSucceeded i b s).events.timeout = s.events.timeout ∧
    (bindingSucceeded i b s).events.retries = s.events.retries ∧
    (bindingSucceeded i b s).events.misses = s.events.misses ∧
    (bindingSucceeded i b s).events.abandoned = s.events.abandoned ∧ (bindingSucceeded i b s).owed = s.owed := by
  unfold bindingSucceeded
  try dsimp only
  repeat' split
  all_goals simp_all

@[simp] theorem bindingFailed_frame (i : Fin Config.bindings) (k : EventKind) (f : ActionFailure) (s : State) :
    (bindingFailed i k f s).pending = s.pending ∧ (bindingFailed i k f s).pins = s.pins ∧
    (bindingFailed i k f s).toData = s.toData ∧ (bindingFailed i k f s).tickCounter = s.tickCounter ∧
    (bindingFailed i k f s).nodeAddress = s.nodeAddress ∧ (bindingFailed i k f s).align = s.align ∧
    (bindingFailed i k f s).slot = s.slot ∧ (bindingFailed i k f s).circuits = s.circuits ∧
    (bindingFailed i k f s).contexts = s.contexts ∧ (bindingFailed i k f s).pool = s.pool ∧
    (bindingFailed i k f s).delivery = s.delivery ∧ (bindingFailed i k f s).trib = s.trib ∧
    (bindingFailed i k f s).addQueues = s.addQueues ∧ (bindingFailed i k f s).emitters = s.emitters ∧
    (bindingFailed i k f s).arbiter = s.arbiter ∧ (bindingFailed i k f s).engine = s.engine ∧
    (bindingFailed i k f s).events.stack = s.events.stack ∧
    (bindingFailed i k f s).events.bindings = s.events.bindings ∧
    (bindingFailed i k f s).events.faults = s.events.faults ∧
    (bindingFailed i k f s).events.overflow = s.events.overflow ∧
    (bindingFailed i k f s).events.canned = s.events.canned ∧
    (bindingFailed i k f s).events.records = s.events.records ∧
    (bindingFailed i k f s).events.sequence = s.events.sequence ∧
    (bindingFailed i k f s).events.floor = s.events.floor ∧
    (bindingFailed i k f s).events.timeout = s.events.timeout ∧
    (bindingFailed i k f s).events.retries = s.events.retries ∧
    (bindingFailed i k f s).events.abandoned = s.events.abandoned ∧ (bindingFailed i k f s).owed = s.owed := by
  simp [bindingFailed]

@[simp] theorem consultBinding_frame (o : Occurrence) (s : State) :
    (consultBinding o s).2.pending = s.pending ∧ (consultBinding o s).2.pins = s.pins ∧
    (consultBinding o s).2.toData = s.toData ∧ (consultBinding o s).2.tickCounter = s.tickCounter ∧
    (consultBinding o s).2.nodeAddress = s.nodeAddress ∧ (consultBinding o s).2.align = s.align ∧
    (consultBinding o s).2.slot.bankA = s.slot.bankA ∧ (consultBinding o s).2.slot.bankB = s.slot.bankB ∧
    (consultBinding o s).2.slot.aligned = s.slot.aligned ∧
    (consultBinding o s).2.pool.segReserve = s.pool.segReserve ∧
    (consultBinding o s).2.pool.descReserve = s.pool.descReserve ∧
    (consultBinding o s).2.delivery.credits = s.delivery.credits ∧
    (consultBinding o s).2.delivery.quanta = s.delivery.quanta ∧
    (consultBinding o s).2.delivery.ageLimits = s.delivery.ageLimits ∧
    (consultBinding o s).2.delivery.stallLimit = s.delivery.stallLimit ∧
    (consultBinding o s).2.delivery.inDelivery = s.delivery.inDelivery ∧
    (consultBinding o s).2.delivery.retries = s.delivery.retries ∧
    (consultBinding o s).2.delivery.discarded = s.delivery.discarded ∧ (consultBinding o s).2.trib = s.trib ∧
    (consultBinding o s).2.arbiter = s.arbiter ∧ (consultBinding o s).2.engine = s.engine ∧
    (consultBinding o s).2.events.stack = s.events.stack ∧ (consultBinding o s).2.events.faults = s.events.faults ∧
    (consultBinding o s).2.events.overflow = s.events.overflow ∧
    (consultBinding o s).2.events.canned = s.events.canned ∧
    (consultBinding o s).2.events.sequence = s.events.sequence ∧
    (consultBinding o s).2.events.floor = s.events.floor ∧ (consultBinding o s).2.events.timeout = s.events.timeout ∧
    (consultBinding o s).2.events.retries = s.events.retries ∧
    (consultBinding o s).2.events.abandoned = s.events.abandoned := by
  unfold consultBinding
  try dsimp only
  repeat' split
  all_goals simp_all

@[simp] theorem takeOccurrence_frame (o : Occurrence) (rest : List Occurrence) (s : State) :
    (takeOccurrence o rest s).pending = s.pending ∧ (takeOccurrence o rest s).pins = s.pins ∧
    (takeOccurrence o rest s).toData = s.toData ∧ (takeOccurrence o rest s).tickCounter = s.tickCounter ∧
    (takeOccurrence o rest s).nodeAddress = s.nodeAddress ∧ (takeOccurrence o rest s).align = s.align ∧
    (takeOccurrence o rest s).slot.bankA = s.slot.bankA ∧ (takeOccurrence o rest s).slot.bankB = s.slot.bankB ∧
    (takeOccurrence o rest s).slot.aligned = s.slot.aligned ∧
    (takeOccurrence o rest s).pool.segReserve = s.pool.segReserve ∧
    (takeOccurrence o rest s).pool.descReserve = s.pool.descReserve ∧
    (takeOccurrence o rest s).delivery.credits = s.delivery.credits ∧
    (takeOccurrence o rest s).delivery.quanta = s.delivery.quanta ∧
    (takeOccurrence o rest s).delivery.ageLimits = s.delivery.ageLimits ∧
    (takeOccurrence o rest s).delivery.stallLimit = s.delivery.stallLimit ∧
    (takeOccurrence o rest s).delivery.inDelivery = s.delivery.inDelivery ∧
    (takeOccurrence o rest s).delivery.retries = s.delivery.retries ∧
    (takeOccurrence o rest s).delivery.discarded = s.delivery.discarded ∧ (takeOccurrence o rest s).trib = s.trib ∧
    (takeOccurrence o rest s).arbiter.response = s.arbiter.response ∧ (takeOccurrence o rest s).engine = s.engine ∧
    (takeOccurrence o rest s).events.stack = s.events.stack ∧
    (takeOccurrence o rest s).events.faults = s.events.faults ∧
    (takeOccurrence o rest s).events.overflow = s.events.overflow ∧
    (takeOccurrence o rest s).events.canned = s.events.canned ∧
    (takeOccurrence o rest s).events.sequence = s.events.sequence ∧
    (takeOccurrence o rest s).events.floor = s.events.floor ∧
    (takeOccurrence o rest s).events.timeout = s.events.timeout ∧
    (takeOccurrence o rest s).events.retries = s.events.retries ∧
    (takeOccurrence o rest s).events.abandoned = s.events.abandoned := by
  simp [takeOccurrence]

@[simp] theorem takeInbox_frame (n : Nat) (s : State) :
    (takeInbox n s).pending = s.pending ∧ (takeInbox n s).pins = s.pins ∧ (takeInbox n s).toData = s.toData ∧
    (takeInbox n s).tickCounter = s.tickCounter ∧ (takeInbox n s).nodeAddress = s.nodeAddress ∧
    (takeInbox n s).align = s.align ∧ (takeInbox n s).slot.bankA = s.slot.bankA ∧
    (takeInbox n s).slot.bankB = s.slot.bankB ∧ (takeInbox n s).slot.aligned = s.slot.aligned ∧
    (takeInbox n s).pool.segReserve = s.pool.segReserve ∧ (takeInbox n s).pool.descReserve = s.pool.descReserve ∧
    (takeInbox n s).delivery.credits = s.delivery.credits ∧ (takeInbox n s).delivery.quanta = s.delivery.quanta ∧
    (takeInbox n s).delivery.ageLimits = s.delivery.ageLimits ∧
    (takeInbox n s).delivery.stallLimit = s.delivery.stallLimit ∧
    (takeInbox n s).delivery.inDelivery = s.delivery.inDelivery ∧
    (takeInbox n s).delivery.retries = s.delivery.retries ∧
    (takeInbox n s).delivery.discarded = s.delivery.discarded ∧ (takeInbox n s).trib = s.trib ∧
    (takeInbox n s).arbiter.response = s.arbiter.response ∧ (takeInbox n s).engine = s.engine ∧
    (takeInbox n s).events.stack = s.events.stack ∧ (takeInbox n s).events.faults = s.events.faults ∧
    (takeInbox n s).events.overflow = s.events.overflow ∧ (takeInbox n s).events.canned = s.events.canned ∧
    (takeInbox n s).events.sequence = s.events.sequence ∧ (takeInbox n s).events.floor = s.events.floor ∧
    (takeInbox n s).events.timeout = s.events.timeout ∧ (takeInbox n s).events.retries = s.events.retries ∧
    (takeInbox n s).events.abandoned = s.events.abandoned := by
  induction n generalizing s with
  | zero => simp [takeInbox]
  | succ n ih =>
    unfold takeInbox
    repeat' split
    all_goals simp [ih]

@[simp] theorem takeOccurrences_frame (s : State) :
    (takeOccurrences s).pending = s.pending ∧ (takeOccurrences s).pins = s.pins ∧
    (takeOccurrences s).toData = s.toData ∧ (takeOccurrences s).tickCounter = s.tickCounter ∧
    (takeOccurrences s).nodeAddress = s.nodeAddress ∧ (takeOccurrences s).align = s.align ∧
    (takeOccurrences s).slot.bankA = s.slot.bankA ∧ (takeOccurrences s).slot.bankB = s.slot.bankB ∧
    (takeOccurrences s).slot.aligned = s.slot.aligned ∧ (takeOccurrences s).pool.segReserve = s.pool.segReserve ∧
    (takeOccurrences s).pool.descReserve = s.pool.descReserve ∧
    (takeOccurrences s).delivery.credits = s.delivery.credits ∧
    (takeOccurrences s).delivery.quanta = s.delivery.quanta ∧
    (takeOccurrences s).delivery.ageLimits = s.delivery.ageLimits ∧
    (takeOccurrences s).delivery.stallLimit = s.delivery.stallLimit ∧
    (takeOccurrences s).delivery.inDelivery = s.delivery.inDelivery ∧
    (takeOccurrences s).delivery.retries = s.delivery.retries ∧
    (takeOccurrences s).delivery.discarded = s.delivery.discarded ∧ (takeOccurrences s).trib = s.trib ∧
    (takeOccurrences s).arbiter.response = s.arbiter.response ∧ (takeOccurrences s).engine = s.engine ∧
    (takeOccurrences s).events.stack = s.events.stack ∧ (takeOccurrences s).events.faults = s.events.faults ∧
    (takeOccurrences s).events.overflow = s.events.overflow ∧ (takeOccurrences s).events.canned = s.events.canned ∧
    (takeOccurrences s).events.sequence = s.events.sequence ∧ (takeOccurrences s).events.floor = s.events.floor ∧
    (takeOccurrences s).events.timeout = s.events.timeout ∧ (takeOccurrences s).events.retries = s.events.retries ∧
    (takeOccurrences s).events.abandoned = s.events.abandoned := by
  simp [takeOccurrences]

@[simp] theorem noticeEntered_frame (o : NoticeOffer) (s : State) :
    (noticeEntered o s).pending = s.pending ∧ (noticeEntered o s).pins = s.pins ∧
    (noticeEntered o s).toData = s.toData ∧ (noticeEntered o s).tickCounter = s.tickCounter ∧
    (noticeEntered o s).nodeAddress = s.nodeAddress ∧ (noticeEntered o s).align = s.align ∧
    (noticeEntered o s).slot = s.slot ∧ (noticeEntered o s).circuits = s.circuits ∧
    (noticeEntered o s).contexts = s.contexts ∧ (noticeEntered o s).pool = s.pool ∧
    (noticeEntered o s).delivery = s.delivery ∧ (noticeEntered o s).trib = s.trib ∧
    (noticeEntered o s).addQueues = s.addQueues ∧ (noticeEntered o s).emitters = s.emitters ∧
    (noticeEntered o s).arbiter.response = s.arbiter.response ∧ (noticeEntered o s).engine = s.engine ∧
    (noticeEntered o s).events.bindings = s.events.bindings ∧ (noticeEntered o s).events.faults = s.events.faults ∧
    (noticeEntered o s).events.overflow = s.events.overflow ∧ (noticeEntered o s).events.canned = s.events.canned ∧
    (noticeEntered o s).events.records = s.events.records ∧ (noticeEntered o s).events.inbox = s.events.inbox ∧
    (noticeEntered o s).events.floor = s.events.floor ∧ (noticeEntered o s).events.timeout = s.events.timeout ∧
    (noticeEntered o s).events.retries = s.events.retries ∧ (noticeEntered o s).events.misses = s.events.misses ∧
    (noticeEntered o s).events.abandoned = s.events.abandoned := by
  unfold noticeEntered
  try dsimp only
  repeat' split
  all_goals simp_all

@[simp] theorem tickNotice_frame (s : State) :
    (tickNotice s).pending = s.pending ∧ (tickNotice s).pins = s.pins ∧ (tickNotice s).toData = s.toData ∧
    (tickNotice s).tickCounter = s.tickCounter ∧ (tickNotice s).nodeAddress = s.nodeAddress ∧
    (tickNotice s).align = s.align ∧ (tickNotice s).slot = s.slot ∧ (tickNotice s).circuits = s.circuits ∧
    (tickNotice s).contexts = s.contexts ∧ (tickNotice s).pool = s.pool ∧ (tickNotice s).delivery = s.delivery ∧
    (tickNotice s).trib = s.trib ∧ (tickNotice s).addQueues = s.addQueues ∧ (tickNotice s).emitters = s.emitters ∧
    (tickNotice s).arbiter = s.arbiter ∧ (tickNotice s).engine = s.engine ∧
    (tickNotice s).events.bindings = s.events.bindings ∧ (tickNotice s).events.faults = s.events.faults ∧
    (tickNotice s).events.overflow = s.events.overflow ∧ (tickNotice s).events.canned = s.events.canned ∧
    (tickNotice s).events.records = s.events.records ∧ (tickNotice s).events.sequence = s.events.sequence ∧
    (tickNotice s).events.inbox = s.events.inbox ∧ (tickNotice s).events.floor = s.events.floor ∧
    (tickNotice s).events.timeout = s.events.timeout ∧ (tickNotice s).events.retries = s.events.retries ∧
    (tickNotice s).events.misses = s.events.misses ∧ (tickNotice s).events.abandoned = s.events.abandoned := by
  unfold tickNotice
  try dsimp only
  repeat' split
  all_goals simp_all

@[simp] theorem noticeExpired_frame (s : State) :
    (noticeExpired s).pending = s.pending ∧ (noticeExpired s).pins = s.pins ∧ (noticeExpired s).toData = s.toData ∧
    (noticeExpired s).tickCounter = s.tickCounter ∧ (noticeExpired s).nodeAddress = s.nodeAddress ∧
    (noticeExpired s).align = s.align ∧ (noticeExpired s).slot = s.slot ∧ (noticeExpired s).circuits = s.circuits ∧
    (noticeExpired s).contexts = s.contexts ∧ (noticeExpired s).pool = s.pool ∧
    (noticeExpired s).delivery = s.delivery ∧ (noticeExpired s).trib = s.trib ∧
    (noticeExpired s).addQueues = s.addQueues ∧ (noticeExpired s).emitters = s.emitters ∧
    (noticeExpired s).arbiter.response = s.arbiter.response ∧ (noticeExpired s).engine = s.engine ∧
    (noticeExpired s).events.bindings = s.events.bindings ∧ (noticeExpired s).events.faults = s.events.faults ∧
    (noticeExpired s).events.overflow = s.events.overflow ∧ (noticeExpired s).events.canned = s.events.canned ∧
    (noticeExpired s).events.records = s.events.records ∧ (noticeExpired s).events.sequence = s.events.sequence ∧
    (noticeExpired s).events.inbox = s.events.inbox ∧ (noticeExpired s).events.floor = s.events.floor ∧
    (noticeExpired s).events.timeout = s.events.timeout ∧ (noticeExpired s).events.retries = s.events.retries ∧
    (noticeExpired s).events.misses = s.events.misses := by
  unfold noticeExpired
  try dsimp only
  repeat' split
  all_goals simp_all

@[simp] theorem acknowledgeTop_frame (clear : Bool) (s : State) :
    (acknowledgeTop clear s).pending = s.pending ∧ (acknowledgeTop clear s).pins = s.pins ∧
    (acknowledgeTop clear s).toData = s.toData ∧ (acknowledgeTop clear s).tickCounter = s.tickCounter ∧
    (acknowledgeTop clear s).nodeAddress = s.nodeAddress ∧ (acknowledgeTop clear s).align = s.align ∧
    (acknowledgeTop clear s).slot = s.slot ∧ (acknowledgeTop clear s).circuits = s.circuits ∧
    (acknowledgeTop clear s).contexts = s.contexts ∧ (acknowledgeTop clear s).pool = s.pool ∧
    (acknowledgeTop clear s).delivery = s.delivery ∧ (acknowledgeTop clear s).trib = s.trib ∧
    (acknowledgeTop clear s).addQueues = s.addQueues ∧ (acknowledgeTop clear s).emitters = s.emitters ∧
    (acknowledgeTop clear s).arbiter.response = s.arbiter.response ∧ (acknowledgeTop clear s).engine = s.engine ∧
    (acknowledgeTop clear s).events.bindings = s.events.bindings ∧
    (acknowledgeTop clear s).events.faults = s.events.faults ∧
    (acknowledgeTop clear s).events.overflow = s.events.overflow ∧
    (acknowledgeTop clear s).events.canned = s.events.canned ∧
    (acknowledgeTop clear s).events.sequence = s.events.sequence ∧
    (acknowledgeTop clear s).events.inbox = s.events.inbox ∧ (acknowledgeTop clear s).events.floor = s.events.floor ∧
    (acknowledgeTop clear s).events.timeout = s.events.timeout ∧
    (acknowledgeTop clear s).events.retries = s.events.retries ∧
    (acknowledgeTop clear s).events.misses = s.events.misses ∧
    (acknowledgeTop clear s).events.abandoned = s.events.abandoned := by
  unfold acknowledgeTop
  try dsimp only
  repeat' split
  all_goals simp_all

/-! ### Arbiter -/

@[simp] theorem tryNotice_frame (s : State) :
    (tryNotice s).pending = s.pending ∧ (tryNotice s).pins = s.pins ∧ (tryNotice s).toData = s.toData ∧
    (tryNotice s).tickCounter = s.tickCounter ∧ (tryNotice s).nodeAddress = s.nodeAddress ∧
    (tryNotice s).align = s.align ∧ (tryNotice s).slot = s.slot ∧ (tryNotice s).contexts = s.contexts ∧
    (tryNotice s).pool.segReserve = s.pool.segReserve ∧ (tryNotice s).pool.descReserve = s.pool.descReserve ∧
    (tryNotice s).delivery = s.delivery ∧ (tryNotice s).trib = s.trib ∧ (tryNotice s).emitters = s.emitters ∧
    (tryNotice s).arbiter.response = s.arbiter.response ∧ (tryNotice s).engine = s.engine ∧
    (tryNotice s).events.bindings = s.events.bindings ∧ (tryNotice s).events.faults = s.events.faults ∧
    (tryNotice s).events.overflow = s.events.overflow ∧ (tryNotice s).events.canned = s.events.canned ∧
    (tryNotice s).events.records = s.events.records ∧ (tryNotice s).events.floor = s.events.floor ∧
    (tryNotice s).events.timeout = s.events.timeout ∧ (tryNotice s).events.retries = s.events.retries ∧
    (tryNotice s).events.misses = s.events.misses ∧ (tryNotice s).events.abandoned = s.events.abandoned := by
  unfold tryNotice
  try dsimp only
  repeat' split
  all_goals first
    | (simp; done)
    | (simp_all; done)
    | (rename_i h; have := enqueue_frame h; simp_all; done)
    | (rename_i h; have := allocate_frame h; simp_all; done)

@[simp] theorem responseQueued_frame (d : DescNo) (s : State) :
    (responseQueued d s).pending = s.pending ∧ (responseQueued d s).pins = s.pins ∧
    (responseQueued d s).toData = s.toData ∧ (responseQueued d s).tickCounter = s.tickCounter ∧
    (responseQueued d s).nodeAddress = s.nodeAddress ∧ (responseQueued d s).align = s.align ∧
    (responseQueued d s).slot = s.slot ∧ (responseQueued d s).circuits = s.circuits ∧
    (responseQueued d s).contexts = s.contexts ∧ (responseQueued d s).pool = s.pool ∧
    (responseQueued d s).delivery = s.delivery ∧ (responseQueued d s).trib = s.trib ∧
    (responseQueued d s).addQueues = s.addQueues ∧ (responseQueued d s).emitters = s.emitters ∧
    (responseQueued d s).arbiter = s.arbiter ∧ (responseQueued d s).engine.queue = s.engine.queue ∧
    (responseQueued d s).engine.inHand = s.engine.inHand ∧ (responseQueued d s).engine.owner = s.engine.owner ∧
    (responseQueued d s).engine.lease = s.engine.lease ∧ (responseQueued d s).engine.cache = s.engine.cache ∧
    (responseQueued d s).engine.counters = s.engine.counters ∧ (responseQueued d s).events = s.events ∧
    (responseQueued d s).owed = s.owed := by
  unfold responseQueued
  try dsimp only
  repeat' split
  all_goals simp_all

@[simp] theorem tryResponse_frame (s : State) :
    (tryResponse s).pending = s.pending ∧ (tryResponse s).pins = s.pins ∧ (tryResponse s).toData = s.toData ∧
    (tryResponse s).tickCounter = s.tickCounter ∧ (tryResponse s).nodeAddress = s.nodeAddress ∧
    (tryResponse s).align = s.align ∧ (tryResponse s).slot = s.slot ∧ (tryResponse s).contexts = s.contexts ∧
    (tryResponse s).pool.segReserve = s.pool.segReserve ∧ (tryResponse s).pool.descReserve = s.pool.descReserve ∧
    (tryResponse s).delivery = s.delivery ∧ (tryResponse s).trib = s.trib ∧ (tryResponse s).emitters = s.emitters ∧
    (tryResponse s).arbiter.notice = s.arbiter.notice ∧ (tryResponse s).engine.queue = s.engine.queue ∧
    (tryResponse s).engine.inHand = s.engine.inHand ∧ (tryResponse s).engine.owner = s.engine.owner ∧
    (tryResponse s).engine.lease = s.engine.lease ∧ (tryResponse s).engine.cache = s.engine.cache ∧
    (tryResponse s).engine.counters = s.engine.counters ∧ (tryResponse s).events.stack = s.events.stack ∧
    (tryResponse s).events.bindings = s.events.bindings ∧ (tryResponse s).events.faults = s.events.faults ∧
    (tryResponse s).events.overflow = s.events.overflow ∧ (tryResponse s).events.canned = s.events.canned ∧
    (tryResponse s).events.records = s.events.records ∧ (tryResponse s).events.sequence = s.events.sequence ∧
    (tryResponse s).events.floor = s.events.floor ∧ (tryResponse s).events.timeout = s.events.timeout ∧
    (tryResponse s).events.retries = s.events.retries ∧ (tryResponse s).events.misses = s.events.misses ∧
    (tryResponse s).events.abandoned = s.events.abandoned ∧ (tryResponse s).owed = s.owed := by
  unfold tryResponse
  try dsimp only
  repeat' split
  all_goals first
    | (simp; done)
    | (simp_all; done)
    | (rename_i h; have := enqueue_frame h; simp_all; done)
    | (rename_i h; have := allocate_frame h; simp_all; done)

@[simp] theorem beginAttempt_frame (s : State) :
    (beginAttempt s).pending = s.pending ∧ (beginAttempt s).pins = s.pins ∧ (beginAttempt s).toData = s.toData ∧
    (beginAttempt s).tickCounter = s.tickCounter ∧ (beginAttempt s).nodeAddress = s.nodeAddress ∧
    (beginAttempt s).align = s.align ∧ (beginAttempt s).slot = s.slot ∧ (beginAttempt s).contexts = s.contexts ∧
    (beginAttempt s).pool.segReserve = s.pool.segReserve ∧ (beginAttempt s).pool.descReserve = s.pool.descReserve ∧
    (beginAttempt s).delivery = s.delivery ∧ (beginAttempt s).trib = s.trib ∧ (beginAttempt s).emitters = s.emitters ∧
    (beginAttempt s).arbiter.response = s.arbiter.response ∧ (beginAttempt s).engine = s.engine ∧
    (beginAttempt s).events.bindings = s.events.bindings ∧ (beginAttempt s).events.faults = s.events.faults ∧
    (beginAttempt s).events.overflow = s.events.overflow ∧ (beginAttempt s).events.canned = s.events.canned ∧
    (beginAttempt s).events.records = s.events.records ∧ (beginAttempt s).events.floor = s.events.floor ∧
    (beginAttempt s).events.timeout = s.events.timeout ∧ (beginAttempt s).events.retries = s.events.retries ∧
    (beginAttempt s).events.misses = s.events.misses ∧ (beginAttempt s).events.abandoned = s.events.abandoned := by
  simp [beginAttempt]

@[simp] theorem endAttempt_frame (s : State) :
    (endAttempt s).pending = s.pending ∧ (endAttempt s).pins = s.pins ∧ (endAttempt s).toData = s.toData ∧
    (endAttempt s).tickCounter = s.tickCounter ∧ (endAttempt s).nodeAddress = s.nodeAddress ∧
    (endAttempt s).align = s.align ∧ (endAttempt s).slot = s.slot ∧ (endAttempt s).contexts = s.contexts ∧
    (endAttempt s).pool.segReserve = s.pool.segReserve ∧ (endAttempt s).pool.descReserve = s.pool.descReserve ∧
    (endAttempt s).delivery = s.delivery ∧ (endAttempt s).trib = s.trib ∧ (endAttempt s).emitters = s.emitters ∧
    (endAttempt s).arbiter.notice = s.arbiter.notice ∧ (endAttempt s).engine.queue = s.engine.queue ∧
    (endAttempt s).engine.inHand = s.engine.inHand ∧ (endAttempt s).engine.owner = s.engine.owner ∧
    (endAttempt s).engine.lease = s.engine.lease ∧ (endAttempt s).engine.cache = s.engine.cache ∧
    (endAttempt s).engine.counters = s.engine.counters ∧ (endAttempt s).events.stack = s.events.stack ∧
    (endAttempt s).events.bindings = s.events.bindings ∧ (endAttempt s).events.faults = s.events.faults ∧
    (endAttempt s).events.overflow = s.events.overflow ∧ (endAttempt s).events.canned = s.events.canned ∧
    (endAttempt s).events.records = s.events.records ∧ (endAttempt s).events.sequence = s.events.sequence ∧
    (endAttempt s).events.floor = s.events.floor ∧ (endAttempt s).events.timeout = s.events.timeout ∧
    (endAttempt s).events.retries = s.events.retries ∧ (endAttempt s).events.misses = s.events.misses ∧
    (endAttempt s).events.abandoned = s.events.abandoned := by
  simp [endAttempt]

/-! ### Engine -/

@[simp] theorem refreshLease_frame (id : BitVec 4) (s : State) :
    (refreshLease id s).pending = s.pending ∧ (refreshLease id s).pins = s.pins ∧
    (refreshLease id s).toData = s.toData ∧ (refreshLease id s).tickCounter = s.tickCounter ∧
    (refreshLease id s).nodeAddress = s.nodeAddress ∧ (refreshLease id s).align = s.align ∧
    (refreshLease id s).slot = s.slot ∧ (refreshLease id s).circuits = s.circuits ∧
    (refreshLease id s).contexts = s.contexts ∧ (refreshLease id s).pool = s.pool ∧
    (refreshLease id s).delivery = s.delivery ∧ (refreshLease id s).trib = s.trib ∧
    (refreshLease id s).addQueues = s.addQueues ∧ (refreshLease id s).emitters = s.emitters ∧
    (refreshLease id s).arbiter = s.arbiter ∧ (refreshLease id s).engine.state = s.engine.state ∧
    (refreshLease id s).engine.queue = s.engine.queue ∧ (refreshLease id s).engine.inHand = s.engine.inHand ∧
    (refreshLease id s).engine.lease = s.engine.lease ∧ (refreshLease id s).engine.cache = s.engine.cache ∧
    (refreshLease id s).engine.counters = s.engine.counters ∧ (refreshLease id s).engine.noted = s.engine.noted ∧
    (refreshLease id s).events = s.events ∧ (refreshLease id s).owed = s.owed := by
  unfold refreshLease
  try dsimp only
  repeat' split
  all_goals simp_all

@[simp] theorem tickLease_frame (s : State) :
    (tickLease s).pending = s.pending ∧ (tickLease s).pins = s.pins ∧ (tickLease s).toData = s.toData ∧
    (tickLease s).tickCounter = s.tickCounter ∧ (tickLease s).nodeAddress = s.nodeAddress ∧
    (tickLease s).align = s.align ∧ (tickLease s).slot = s.slot ∧ (tickLease s).circuits = s.circuits ∧
    (tickLease s).contexts = s.contexts ∧ (tickLease s).pool = s.pool ∧ (tickLease s).delivery = s.delivery ∧
    (tickLease s).trib = s.trib ∧ (tickLease s).addQueues = s.addQueues ∧ (tickLease s).emitters = s.emitters ∧
    (tickLease s).arbiter = s.arbiter ∧ (tickLease s).engine.state = s.engine.state ∧
    (tickLease s).engine.queue = s.engine.queue ∧ (tickLease s).engine.inHand = s.engine.inHand ∧
    (tickLease s).engine.lease = s.engine.lease ∧ (tickLease s).engine.cache = s.engine.cache ∧
    (tickLease s).engine.counters = s.engine.counters ∧ (tickLease s).engine.noted = s.engine.noted ∧
    (tickLease s).events = s.events := by
  unfold tickLease
  try dsimp only
  repeat' split
  all_goals simp_all

@[simp] theorem leaseEnd_frame (s : State) :
    (leaseEnd s).pending = s.pending ∧ (leaseEnd s).pins = s.pins ∧ (leaseEnd s).toData = s.toData ∧
    (leaseEnd s).tickCounter = s.tickCounter ∧ (leaseEnd s).nodeAddress = s.nodeAddress ∧
    (leaseEnd s).align = s.align ∧ (leaseEnd s).slot = s.slot ∧ (leaseEnd s).circuits = s.circuits ∧
    (leaseEnd s).contexts = s.contexts ∧ (leaseEnd s).pool = s.pool ∧ (leaseEnd s).delivery = s.delivery ∧
    (leaseEnd s).trib = s.trib ∧ (leaseEnd s).addQueues = s.addQueues ∧ (leaseEnd s).emitters = s.emitters ∧
    (leaseEnd s).arbiter = s.arbiter ∧ (leaseEnd s).engine.state = s.engine.state ∧
    (leaseEnd s).engine.queue = s.engine.queue ∧ (leaseEnd s).engine.inHand = s.engine.inHand ∧
    (leaseEnd s).engine.lease = s.engine.lease ∧ (leaseEnd s).engine.cache = s.engine.cache ∧
    (leaseEnd s).engine.counters = s.engine.counters ∧ (leaseEnd s).engine.noted = s.engine.noted ∧
    (leaseEnd s).events.stack = s.events.stack ∧ (leaseEnd s).events.bindings = s.events.bindings ∧
    (leaseEnd s).events.faults = s.events.faults ∧ (leaseEnd s).events.overflow = s.events.overflow ∧
    (leaseEnd s).events.canned = s.events.canned ∧ (leaseEnd s).events.records = s.events.records ∧
    (leaseEnd s).events.sequence = s.events.sequence ∧ (leaseEnd s).events.floor = s.events.floor ∧
    (leaseEnd s).events.timeout = s.events.timeout ∧ (leaseEnd s).events.retries = s.events.retries ∧
    (leaseEnd s).events.misses = s.events.misses ∧ (leaseEnd s).events.abandoned = s.events.abandoned ∧
    (leaseEnd s).owed = s.owed := by
  unfold leaseEnd
  try dsimp only
  repeat' split
  all_goals simp_all

@[simp] theorem offerResponse_frame (body : List Byte) (s : State) :
    (offerResponse body s).pending = s.pending ∧ (offerResponse body s).pins = s.pins ∧
    (offerResponse body s).toData = s.toData ∧ (offerResponse body s).tickCounter = s.tickCounter ∧
    (offerResponse body s).nodeAddress = s.nodeAddress ∧ (offerResponse body s).align = s.align ∧
    (offerResponse body s).slot = s.slot ∧ (offerResponse body s).circuits = s.circuits ∧
    (offerResponse body s).contexts = s.contexts ∧ (offerResponse body s).pool = s.pool ∧
    (offerResponse body s).delivery = s.delivery ∧ (offerResponse body s).trib = s.trib ∧
    (offerResponse body s).addQueues = s.addQueues ∧ (offerResponse body s).emitters = s.emitters ∧
    (offerResponse body s).arbiter.notice = s.arbiter.notice ∧ (offerResponse body s).engine = s.engine ∧
    (offerResponse body s).events = s.events := by
  simp [offerResponse]

@[simp] theorem countResponse_frame (status : Status) (s : State) :
    (countResponse status s).pending = s.pending ∧ (countResponse status s).pins = s.pins ∧
    (countResponse status s).toData = s.toData ∧ (countResponse status s).tickCounter = s.tickCounter ∧
    (countResponse status s).nodeAddress = s.nodeAddress ∧ (countResponse status s).align = s.align ∧
    (countResponse status s).slot = s.slot ∧ (countResponse status s).circuits = s.circuits ∧
    (countResponse status s).contexts = s.contexts ∧ (countResponse status s).pool = s.pool ∧
    (countResponse status s).delivery = s.delivery ∧ (countResponse status s).trib = s.trib ∧
    (countResponse status s).addQueues = s.addQueues ∧ (countResponse status s).emitters = s.emitters ∧
    (countResponse status s).arbiter = s.arbiter ∧ (countResponse status s).engine.state = s.engine.state ∧
    (countResponse status s).engine.queue = s.engine.queue ∧
    (countResponse status s).engine.inHand = s.engine.inHand ∧
    (countResponse status s).engine.owner = s.engine.owner ∧ (countResponse status s).engine.lease = s.engine.lease ∧
    (countResponse status s).engine.cache = s.engine.cache ∧ (countResponse status s).engine.noted = s.engine.noted ∧
    (countResponse status s).events = s.events ∧ (countResponse status s).owed = s.owed := by
  simp [countResponse]

@[simp] theorem respond_frame (request : List Byte) (status : Status) (results : List Byte) (recorded : Bool) (s : State) :
    (respond request status results recorded s).pending = s.pending ∧
    (respond request status results recorded s).pins = s.pins ∧
    (respond request status results recorded s).toData = s.toData ∧
    (respond request status results recorded s).tickCounter = s.tickCounter ∧
    (respond request status results recorded s).nodeAddress = s.nodeAddress ∧
    (respond request status results recorded s).align = s.align ∧
    (respond request status results recorded s).slot = s.slot ∧
    (respond request status results recorded s).circuits = s.circuits ∧
    (respond request status results recorded s).contexts = s.contexts ∧
    (respond request status results recorded s).pool = s.pool ∧
    (respond request status results recorded s).delivery = s.delivery ∧
    (respond request status results recorded s).trib = s.trib ∧
    (respond request status results recorded s).addQueues = s.addQueues ∧
    (respond request status results recorded s).emitters = s.emitters ∧
    (respond request status results recorded s).arbiter.notice = s.arbiter.notice ∧
    (respond request status results recorded s).engine.queue = s.engine.queue ∧
    (respond request status results recorded s).engine.owner = s.engine.owner ∧
    (respond request status results recorded s).engine.lease = s.engine.lease ∧
    (respond request status results recorded s).engine.noted = s.engine.noted ∧
    (respond request status results recorded s).events = s.events := by
  unfold respond
  try dsimp only
  repeat' split
  all_goals simp_all

@[simp] theorem judgeRequest_frame (request : List Byte) (s : State) :
    (judgeRequest request s).pending = s.pending ∧ (judgeRequest request s).pins = s.pins ∧
    (judgeRequest request s).toData = s.toData ∧ (judgeRequest request s).tickCounter = s.tickCounter ∧
    (judgeRequest request s).nodeAddress = s.nodeAddress ∧ (judgeRequest request s).align = s.align ∧
    (judgeRequest request s).slot = s.slot ∧ (judgeRequest request s).circuits = s.circuits ∧
    (judgeRequest request s).contexts = s.contexts ∧ (judgeRequest request s).pool = s.pool ∧
    (judgeRequest request s).delivery = s.delivery ∧ (judgeRequest request s).trib = s.trib ∧
    (judgeRequest request s).addQueues = s.addQueues ∧ (judgeRequest request s).emitters = s.emitters ∧
    (judgeRequest request s).arbiter.notice = s.arbiter.notice ∧
    (judgeRequest request s).engine.queue = s.engine.queue ∧ (judgeRequest request s).engine.lease = s.engine.lease ∧
    (judgeRequest request s).engine.noted = s.engine.noted ∧ (judgeRequest request s).events = s.events := by
  unfold judgeRequest
  try dsimp only
  repeat' split
  all_goals simp_all

@[simp] theorem screenRequest_frame (request : List Byte) (s : State) :
    (screenRequest request s).pending = s.pending ∧ (screenRequest request s).pins = s.pins ∧
    (screenRequest request s).toData = s.toData ∧ (screenRequest request s).tickCounter = s.tickCounter ∧
    (screenRequest request s).nodeAddress = s.nodeAddress ∧ (screenRequest request s).align = s.align ∧
    (screenRequest request s).slot = s.slot ∧ (screenRequest request s).circuits = s.circuits ∧
    (screenRequest request s).contexts = s.contexts ∧ (screenRequest request s).pool = s.pool ∧
    (screenRequest request s).delivery = s.delivery ∧ (screenRequest request s).trib = s.trib ∧
    (screenRequest request s).addQueues = s.addQueues ∧ (screenRequest request s).emitters = s.emitters ∧
    (screenRequest request s).arbiter.notice = s.arbiter.notice ∧
    (screenRequest request s).engine.queue = s.engine.queue ∧
    (screenRequest request s).engine.lease = s.engine.lease ∧
    (screenRequest request s).engine.noted = s.engine.noted ∧ (screenRequest request s).events = s.events := by
  unfold screenRequest
  try dsimp only
  repeat' split
  all_goals simp_all

@[simp] theorem copyRequest_frame (d : DescNo) (rest : List DescNo) (request : List Byte) (s : State) :
    (copyRequest d rest request s).pending = s.pending ∧ (copyRequest d rest request s).pins = s.pins ∧
    (copyRequest d rest request s).toData = s.toData ∧ (copyRequest d rest request s).tickCounter = s.tickCounter ∧
    (copyRequest d rest request s).nodeAddress = s.nodeAddress ∧ (copyRequest d rest request s).align = s.align ∧
    (copyRequest d rest request s).slot = s.slot ∧ (copyRequest d rest request s).contexts = s.contexts ∧
    (copyRequest d rest request s).pool.store = s.pool.store ∧
    (copyRequest d rest request s).pool.segReserve = s.pool.segReserve ∧
    (copyRequest d rest request s).pool.descReserve = s.pool.descReserve ∧
    (copyRequest d rest request s).delivery = s.delivery ∧ (copyRequest d rest request s).trib = s.trib ∧
    (copyRequest d rest request s).addQueues = s.addQueues ∧ (copyRequest d rest request s).emitters = s.emitters ∧
    (copyRequest d rest request s).arbiter = s.arbiter ∧
    (copyRequest d rest request s).engine.owner = s.engine.owner ∧
    (copyRequest d rest request s).engine.lease = s.engine.lease ∧
    (copyRequest d rest request s).engine.cache = s.engine.cache ∧
    (copyRequest d rest request s).engine.counters = s.engine.counters ∧
    (copyRequest d rest request s).engine.noted = s.engine.noted ∧ (copyRequest d rest request s).events = s.events := by
  simp [copyRequest]

@[simp] theorem takeRequest_frame (s : State) :
    (takeRequest s).pending = s.pending ∧ (takeRequest s).pins = s.pins ∧ (takeRequest s).toData = s.toData ∧
    (takeRequest s).tickCounter = s.tickCounter ∧ (takeRequest s).nodeAddress = s.nodeAddress ∧
    (takeRequest s).align = s.align ∧ (takeRequest s).slot = s.slot ∧ (takeRequest s).contexts = s.contexts ∧
    (takeRequest s).pool.store = s.pool.store ∧ (takeRequest s).pool.segReserve = s.pool.segReserve ∧
    (takeRequest s).pool.descReserve = s.pool.descReserve ∧ (takeRequest s).delivery = s.delivery ∧
    (takeRequest s).trib = s.trib ∧ (takeRequest s).addQueues = s.addQueues ∧ (takeRequest s).emitters = s.emitters ∧
    (takeRequest s).arbiter.notice = s.arbiter.notice ∧ (takeRequest s).engine.lease = s.engine.lease ∧
    (takeRequest s).engine.noted = s.engine.noted ∧ (takeRequest s).events = s.events := by
  unfold takeRequest
  try dsimp only
  repeat' split
  all_goals simp_all

/-! ### Due -/

@[simp] theorem tickContexts_frame (s : State) :
    (tickContexts s).pending = s.pending ∧ (tickContexts s).pins = s.pins ∧ (tickContexts s).toData = s.toData ∧
    (tickContexts s).tickCounter = s.tickCounter ∧ (tickContexts s).nodeAddress = s.nodeAddress ∧
    (tickContexts s).align = s.align ∧ (tickContexts s).slot = s.slot ∧ (tickContexts s).circuits = s.circuits ∧
    (tickContexts s).pool = s.pool ∧ (tickContexts s).delivery = s.delivery ∧ (tickContexts s).trib = s.trib ∧
    (tickContexts s).addQueues = s.addQueues ∧ (tickContexts s).emitters = s.emitters ∧
    (tickContexts s).arbiter = s.arbiter ∧ (tickContexts s).engine = s.engine ∧ (tickContexts s).events = s.events := by
  simp [tickContexts]

@[simp] theorem tickConfirm_frame (s : State) :
    (tickConfirm s).pending = s.pending ∧ (tickConfirm s).pins = s.pins ∧ (tickConfirm s).toData = s.toData ∧
    (tickConfirm s).tickCounter = s.tickCounter ∧ (tickConfirm s).nodeAddress = s.nodeAddress ∧
    (tickConfirm s).align = s.align ∧ (tickConfirm s).slot.bankA = s.slot.bankA ∧
    (tickConfirm s).slot.bankB = s.slot.bankB ∧ (tickConfirm s).slot.active = s.slot.active ∧
    (tickConfirm s).slot.aligned = s.slot.aligned ∧ (tickConfirm s).slot.swap = s.slot.swap ∧
    (tickConfirm s).slot.armed = s.slot.armed ∧ (tickConfirm s).circuits = s.circuits ∧
    (tickConfirm s).contexts = s.contexts ∧ (tickConfirm s).pool = s.pool ∧ (tickConfirm s).delivery = s.delivery ∧
    (tickConfirm s).trib = s.trib ∧ (tickConfirm s).addQueues = s.addQueues ∧ (tickConfirm s).emitters = s.emitters ∧
    (tickConfirm s).arbiter = s.arbiter ∧ (tickConfirm s).engine = s.engine ∧ (tickConfirm s).events = s.events := by
  unfold tickConfirm
  try dsimp only
  repeat' split
  all_goals simp_all

@[simp] theorem takeTick_frame (s : State) :
    (takeTick s).pending = s.pending ∧ (takeTick s).pins = s.pins ∧ (takeTick s).toData = s.toData ∧
    (takeTick s).nodeAddress = s.nodeAddress ∧ (takeTick s).align = s.align ∧ (takeTick s).slot.bankA = s.slot.bankA ∧
    (takeTick s).slot.bankB = s.slot.bankB ∧ (takeTick s).slot.active = s.slot.active ∧
    (takeTick s).slot.aligned = s.slot.aligned ∧ (takeTick s).slot.swap = s.slot.swap ∧
    (takeTick s).slot.armed = s.slot.armed ∧ (takeTick s).circuits = s.circuits ∧ (takeTick s).pool = s.pool ∧
    (takeTick s).delivery.credits = s.delivery.credits ∧ (takeTick s).delivery.queues = s.delivery.queues ∧
    (takeTick s).delivery.quanta = s.delivery.quanta ∧ (takeTick s).delivery.ageLimits = s.delivery.ageLimits ∧
    (takeTick s).delivery.stallLimit = s.delivery.stallLimit ∧
    (takeTick s).delivery.inDelivery = s.delivery.inDelivery ∧ (takeTick s).delivery.retries = s.delivery.retries ∧
    (takeTick s).delivery.discarded = s.delivery.discarded ∧ (takeTick s).trib = s.trib ∧
    (takeTick s).addQueues = s.addQueues ∧ (takeTick s).emitters = s.emitters ∧ (takeTick s).arbiter = s.arbiter ∧
    (takeTick s).engine.state = s.engine.state ∧ (takeTick s).engine.queue = s.engine.queue ∧
    (takeTick s).engine.inHand = s.engine.inHand ∧ (takeTick s).engine.lease = s.engine.lease ∧
    (takeTick s).engine.cache = s.engine.cache ∧ (takeTick s).engine.counters = s.engine.counters ∧
    (takeTick s).engine.noted = s.engine.noted ∧ (takeTick s).events.bindings = s.events.bindings ∧
    (takeTick s).events.faults = s.events.faults ∧ (takeTick s).events.overflow = s.events.overflow ∧
    (takeTick s).events.canned = s.events.canned ∧ (takeTick s).events.records = s.events.records ∧
    (takeTick s).events.sequence = s.events.sequence ∧ (takeTick s).events.inbox = s.events.inbox ∧
    (takeTick s).events.floor = s.events.floor ∧ (takeTick s).events.timeout = s.events.timeout ∧
    (takeTick s).events.retries = s.events.retries ∧ (takeTick s).events.misses = s.events.misses ∧
    (takeTick s).events.abandoned = s.events.abandoned := by
  simp [takeTick]

@[simp] theorem stallOwed_frame (c : Circuit) (s : State) :
    (stallOwed c s).pending = s.pending ∧ (stallOwed c s).pins = s.pins ∧ (stallOwed c s).toData = s.toData ∧
    (stallOwed c s).tickCounter = s.tickCounter ∧ (stallOwed c s).nodeAddress = s.nodeAddress ∧
    (stallOwed c s).align = s.align ∧ (stallOwed c s).slot = s.slot ∧ (stallOwed c s).pool.store = s.pool.store ∧
    (stallOwed c s).pool.segReserve = s.pool.segReserve ∧ (stallOwed c s).pool.descReserve = s.pool.descReserve ∧
    (stallOwed c s).delivery = s.delivery ∧ (stallOwed c s).trib = s.trib ∧ (stallOwed c s).addQueues = s.addQueues ∧
    (stallOwed c s).emitters = s.emitters ∧ (stallOwed c s).arbiter = s.arbiter ∧ (stallOwed c s).engine = s.engine ∧
    (stallOwed c s).events.stack = s.events.stack ∧ (stallOwed c s).events.bindings = s.events.bindings ∧
    (stallOwed c s).events.canned = s.events.canned ∧ (stallOwed c s).events.records = s.events.records ∧
    (stallOwed c s).events.sequence = s.events.sequence ∧ (stallOwed c s).events.floor = s.events.floor ∧
    (stallOwed c s).events.timeout = s.events.timeout ∧ (stallOwed c s).events.retries = s.events.retries ∧
    (stallOwed c s).events.misses = s.events.misses ∧ (stallOwed c s).events.abandoned = s.events.abandoned := by
  unfold stallOwed
  try dsimp only
  repeat' split
  all_goals simp_all

@[simp] theorem confirmOwed_frame (s : State) :
    (confirmOwed s).pending = s.pending ∧ (confirmOwed s).pins = s.pins ∧ (confirmOwed s).toData = s.toData ∧
    (confirmOwed s).tickCounter = s.tickCounter ∧ (confirmOwed s).nodeAddress = s.nodeAddress ∧
    (confirmOwed s).align = s.align ∧ (confirmOwed s).slot.bankA = s.slot.bankA ∧
    (confirmOwed s).slot.bankB = s.slot.bankB ∧ (confirmOwed s).slot.aligned = s.slot.aligned ∧
    (confirmOwed s).slot.armed = s.slot.armed ∧ (confirmOwed s).circuits = s.circuits ∧
    (confirmOwed s).contexts = s.contexts ∧ (confirmOwed s).pool = s.pool ∧ (confirmOwed s).delivery = s.delivery ∧
    (confirmOwed s).trib = s.trib ∧ (confirmOwed s).addQueues = s.addQueues ∧ (confirmOwed s).emitters = s.emitters ∧
    (confirmOwed s).arbiter = s.arbiter ∧ (confirmOwed s).engine = s.engine ∧
    (confirmOwed s).events.stack = s.events.stack ∧ (confirmOwed s).events.bindings = s.events.bindings ∧
    (confirmOwed s).events.faults = s.events.faults ∧ (confirmOwed s).events.overflow = s.events.overflow ∧
    (confirmOwed s).events.canned = s.events.canned ∧ (confirmOwed s).events.records = s.events.records ∧
    (confirmOwed s).events.sequence = s.events.sequence ∧ (confirmOwed s).events.floor = s.events.floor ∧
    (confirmOwed s).events.timeout = s.events.timeout ∧ (confirmOwed s).events.retries = s.events.retries ∧
    (confirmOwed s).events.misses = s.events.misses ∧ (confirmOwed s).events.abandoned = s.events.abandoned := by
  unfold confirmOwed
  try dsimp only
  repeat' split
  all_goals simp_all

@[simp] theorem endAgeCheck_frame (s : State) :
    (endAgeCheck s).pending = s.pending ∧ (endAgeCheck s).pins = s.pins ∧ (endAgeCheck s).toData = s.toData ∧
    (endAgeCheck s).tickCounter = s.tickCounter ∧ (endAgeCheck s).nodeAddress = s.nodeAddress ∧
    (endAgeCheck s).align = s.align ∧ (endAgeCheck s).slot = s.slot ∧ (endAgeCheck s).circuits = s.circuits ∧
    (endAgeCheck s).contexts = s.contexts ∧ (endAgeCheck s).pool = s.pool ∧
    (endAgeCheck s).delivery.credits = s.delivery.credits ∧ (endAgeCheck s).delivery.queues = s.delivery.queues ∧
    (endAgeCheck s).delivery.quanta = s.delivery.quanta ∧ (endAgeCheck s).delivery.ageLimits = s.delivery.ageLimits ∧
    (endAgeCheck s).delivery.stallLimit = s.delivery.stallLimit ∧
    (endAgeCheck s).delivery.inDelivery = s.delivery.inDelivery ∧
    (endAgeCheck s).delivery.retries = s.delivery.retries ∧
    (endAgeCheck s).delivery.discarded = s.delivery.discarded ∧ (endAgeCheck s).trib = s.trib ∧
    (endAgeCheck s).addQueues = s.addQueues ∧ (endAgeCheck s).emitters = s.emitters ∧
    (endAgeCheck s).arbiter = s.arbiter ∧ (endAgeCheck s).engine = s.engine ∧ (endAgeCheck s).events = s.events := by
  unfold endAgeCheck
  try dsimp only
  repeat' split
  all_goals simp_all

@[simp] theorem ageOutOwed_frame (q : Class) (s : State) :
    (ageOutOwed q s).pending = s.pending ∧ (ageOutOwed q s).pins = s.pins ∧ (ageOutOwed q s).toData = s.toData ∧
    (ageOutOwed q s).tickCounter = s.tickCounter ∧ (ageOutOwed q s).nodeAddress = s.nodeAddress ∧
    (ageOutOwed q s).align = s.align ∧ (ageOutOwed q s).slot = s.slot ∧ (ageOutOwed q s).contexts = s.contexts ∧
    (ageOutOwed q s).pool.store = s.pool.store ∧ (ageOutOwed q s).pool.segReserve = s.pool.segReserve ∧
    (ageOutOwed q s).pool.descReserve = s.pool.descReserve ∧ (ageOutOwed q s).delivery.credits = s.delivery.credits ∧
    (ageOutOwed q s).delivery.quanta = s.delivery.quanta ∧
    (ageOutOwed q s).delivery.ageLimits = s.delivery.ageLimits ∧
    (ageOutOwed q s).delivery.stallLimit = s.delivery.stallLimit ∧
    (ageOutOwed q s).delivery.inDelivery = s.delivery.inDelivery ∧
    (ageOutOwed q s).delivery.retries = s.delivery.retries ∧
    (ageOutOwed q s).delivery.discarded = s.delivery.discarded ∧ (ageOutOwed q s).trib = s.trib ∧
    (ageOutOwed q s).addQueues = s.addQueues ∧ (ageOutOwed q s).emitters = s.emitters ∧
    (ageOutOwed q s).arbiter = s.arbiter ∧ (ageOutOwed q s).engine = s.engine ∧
    (ageOutOwed q s).events.stack = s.events.stack ∧ (ageOutOwed q s).events.bindings = s.events.bindings ∧
    (ageOutOwed q s).events.faults = s.events.faults ∧ (ageOutOwed q s).events.overflow = s.events.overflow ∧
    (ageOutOwed q s).events.canned = s.events.canned ∧ (ageOutOwed q s).events.records = s.events.records ∧
    (ageOutOwed q s).events.sequence = s.events.sequence ∧ (ageOutOwed q s).events.floor = s.events.floor ∧
    (ageOutOwed q s).events.timeout = s.events.timeout ∧ (ageOutOwed q s).events.retries = s.events.retries ∧
    (ageOutOwed q s).events.misses = s.events.misses ∧ (ageOutOwed q s).events.abandoned = s.events.abandoned := by
  unfold ageOutOwed
  try dsimp only
  repeat' split
  all_goals simp_all

@[simp] theorem creditStallOwed_frame (s : State) :
    (creditStallOwed s).pending = s.pending ∧ (creditStallOwed s).pins = s.pins ∧
    (creditStallOwed s).toData = s.toData ∧ (creditStallOwed s).tickCounter = s.tickCounter ∧
    (creditStallOwed s).nodeAddress = s.nodeAddress ∧ (creditStallOwed s).align = s.align ∧
    (creditStallOwed s).slot = s.slot ∧ (creditStallOwed s).circuits = s.circuits ∧
    (creditStallOwed s).contexts = s.contexts ∧ (creditStallOwed s).pool = s.pool ∧
    (creditStallOwed s).delivery.credits = s.delivery.credits ∧
    (creditStallOwed s).delivery.queues = s.delivery.queues ∧
    (creditStallOwed s).delivery.quanta = s.delivery.quanta ∧
    (creditStallOwed s).delivery.ageLimits = s.delivery.ageLimits ∧
    (creditStallOwed s).delivery.stallLimit = s.delivery.stallLimit ∧
    (creditStallOwed s).delivery.inDelivery = s.delivery.inDelivery ∧
    (creditStallOwed s).delivery.retries = s.delivery.retries ∧
    (creditStallOwed s).delivery.discarded = s.delivery.discarded ∧ (creditStallOwed s).trib = s.trib ∧
    (creditStallOwed s).addQueues = s.addQueues ∧ (creditStallOwed s).emitters = s.emitters ∧
    (creditStallOwed s).arbiter = s.arbiter ∧ (creditStallOwed s).engine = s.engine ∧
    (creditStallOwed s).events.stack = s.events.stack ∧ (creditStallOwed s).events.bindings = s.events.bindings ∧
    (creditStallOwed s).events.faults = s.events.faults ∧ (creditStallOwed s).events.overflow = s.events.overflow ∧
    (creditStallOwed s).events.canned = s.events.canned ∧ (creditStallOwed s).events.records = s.events.records ∧
    (creditStallOwed s).events.sequence = s.events.sequence ∧ (creditStallOwed s).events.floor = s.events.floor ∧
    (creditStallOwed s).events.timeout = s.events.timeout ∧ (creditStallOwed s).events.retries = s.events.retries ∧
    (creditStallOwed s).events.misses = s.events.misses ∧ (creditStallOwed s).events.abandoned = s.events.abandoned := by
  unfold creditStallOwed
  try dsimp only
  repeat' split
  all_goals simp_all

@[simp] theorem ownerLostOwed_frame (s : State) :
    (ownerLostOwed s).pending = s.pending ∧ (ownerLostOwed s).pins = s.pins ∧ (ownerLostOwed s).toData = s.toData ∧
    (ownerLostOwed s).tickCounter = s.tickCounter ∧ (ownerLostOwed s).nodeAddress = s.nodeAddress ∧
    (ownerLostOwed s).align = s.align ∧ (ownerLostOwed s).slot = s.slot ∧ (ownerLostOwed s).circuits = s.circuits ∧
    (ownerLostOwed s).contexts = s.contexts ∧ (ownerLostOwed s).pool = s.pool ∧
    (ownerLostOwed s).delivery = s.delivery ∧ (ownerLostOwed s).trib = s.trib ∧
    (ownerLostOwed s).addQueues = s.addQueues ∧ (ownerLostOwed s).emitters = s.emitters ∧
    (ownerLostOwed s).arbiter = s.arbiter ∧ (ownerLostOwed s).engine.state = s.engine.state ∧
    (ownerLostOwed s).engine.queue = s.engine.queue ∧ (ownerLostOwed s).engine.inHand = s.engine.inHand ∧
    (ownerLostOwed s).engine.lease = s.engine.lease ∧ (ownerLostOwed s).engine.cache = s.engine.cache ∧
    (ownerLostOwed s).engine.counters = s.engine.counters ∧ (ownerLostOwed s).engine.noted = s.engine.noted ∧
    (ownerLostOwed s).events.stack = s.events.stack ∧ (ownerLostOwed s).events.bindings = s.events.bindings ∧
    (ownerLostOwed s).events.faults = s.events.faults ∧ (ownerLostOwed s).events.overflow = s.events.overflow ∧
    (ownerLostOwed s).events.canned = s.events.canned ∧ (ownerLostOwed s).events.records = s.events.records ∧
    (ownerLostOwed s).events.sequence = s.events.sequence ∧ (ownerLostOwed s).events.floor = s.events.floor ∧
    (ownerLostOwed s).events.timeout = s.events.timeout ∧ (ownerLostOwed s).events.retries = s.events.retries ∧
    (ownerLostOwed s).events.misses = s.events.misses ∧ (ownerLostOwed s).events.abandoned = s.events.abandoned := by
  unfold ownerLostOwed
  try dsimp only
  repeat' split
  all_goals simp_all

@[simp] theorem noticeTimeoutOwed_frame (s : State) :
    (noticeTimeoutOwed s).pending = s.pending ∧ (noticeTimeoutOwed s).pins = s.pins ∧
    (noticeTimeoutOwed s).toData = s.toData ∧ (noticeTimeoutOwed s).tickCounter = s.tickCounter ∧
    (noticeTimeoutOwed s).nodeAddress = s.nodeAddress ∧ (noticeTimeoutOwed s).align = s.align ∧
    (noticeTimeoutOwed s).slot = s.slot ∧ (noticeTimeoutOwed s).circuits = s.circuits ∧
    (noticeTimeoutOwed s).contexts = s.contexts ∧ (noticeTimeoutOwed s).pool = s.pool ∧
    (noticeTimeoutOwed s).delivery = s.delivery ∧ (noticeTimeoutOwed s).trib = s.trib ∧
    (noticeTimeoutOwed s).addQueues = s.addQueues ∧ (noticeTimeoutOwed s).emitters = s.emitters ∧
    (noticeTimeoutOwed s).arbiter.response = s.arbiter.response ∧ (noticeTimeoutOwed s).engine = s.engine ∧
    (noticeTimeoutOwed s).events.bindings = s.events.bindings ∧
    (noticeTimeoutOwed s).events.faults = s.events.faults ∧
    (noticeTimeoutOwed s).events.overflow = s.events.overflow ∧
    (noticeTimeoutOwed s).events.canned = s.events.canned ∧ (noticeTimeoutOwed s).events.records = s.events.records ∧
    (noticeTimeoutOwed s).events.sequence = s.events.sequence ∧ (noticeTimeoutOwed s).events.inbox = s.events.inbox ∧
    (noticeTimeoutOwed s).events.floor = s.events.floor ∧ (noticeTimeoutOwed s).events.timeout = s.events.timeout ∧
    (noticeTimeoutOwed s).events.retries = s.events.retries ∧ (noticeTimeoutOwed s).events.misses = s.events.misses := by
  unfold noticeTimeoutOwed
  try dsimp only
  repeat' split
  all_goals simp_all

@[simp] theorem noticePartOwed_frame (s : State) :
    (noticePartOwed s).pending = s.pending ∧ (noticePartOwed s).pins = s.pins ∧ (noticePartOwed s).toData = s.toData ∧
    (noticePartOwed s).tickCounter = s.tickCounter ∧ (noticePartOwed s).nodeAddress = s.nodeAddress ∧
    (noticePartOwed s).align = s.align ∧ (noticePartOwed s).slot = s.slot ∧ (noticePartOwed s).contexts = s.contexts ∧
    (noticePartOwed s).pool.segReserve = s.pool.segReserve ∧
    (noticePartOwed s).pool.descReserve = s.pool.descReserve ∧ (noticePartOwed s).delivery = s.delivery ∧
    (noticePartOwed s).trib = s.trib ∧ (noticePartOwed s).emitters = s.emitters ∧
    (noticePartOwed s).arbiter.response = s.arbiter.response ∧ (noticePartOwed s).engine = s.engine ∧
    (noticePartOwed s).events.bindings = s.events.bindings ∧ (noticePartOwed s).events.faults = s.events.faults ∧
    (noticePartOwed s).events.overflow = s.events.overflow ∧ (noticePartOwed s).events.canned = s.events.canned ∧
    (noticePartOwed s).events.records = s.events.records ∧ (noticePartOwed s).events.floor = s.events.floor ∧
    (noticePartOwed s).events.timeout = s.events.timeout ∧ (noticePartOwed s).events.retries = s.events.retries ∧
    (noticePartOwed s).events.misses = s.events.misses ∧ (noticePartOwed s).events.abandoned = s.events.abandoned := by
  unfold noticePartOwed
  try dsimp only
  repeat' split
  all_goals simp_all

@[simp] theorem responsePartOwed_frame (s : State) :
    (responsePartOwed s).pending = s.pending ∧ (responsePartOwed s).pins = s.pins ∧
    (responsePartOwed s).toData = s.toData ∧ (responsePartOwed s).tickCounter = s.tickCounter ∧
    (responsePartOwed s).nodeAddress = s.nodeAddress ∧ (responsePartOwed s).align = s.align ∧
    (responsePartOwed s).slot = s.slot ∧ (responsePartOwed s).contexts = s.contexts ∧
    (responsePartOwed s).pool.segReserve = s.pool.segReserve ∧
    (responsePartOwed s).pool.descReserve = s.pool.descReserve ∧ (responsePartOwed s).delivery = s.delivery ∧
    (responsePartOwed s).trib = s.trib ∧ (responsePartOwed s).emitters = s.emitters ∧
    (responsePartOwed s).arbiter.notice = s.arbiter.notice ∧ (responsePartOwed s).engine.queue = s.engine.queue ∧
    (responsePartOwed s).engine.inHand = s.engine.inHand ∧ (responsePartOwed s).engine.owner = s.engine.owner ∧
    (responsePartOwed s).engine.lease = s.engine.lease ∧ (responsePartOwed s).engine.cache = s.engine.cache ∧
    (responsePartOwed s).engine.counters = s.engine.counters ∧ (responsePartOwed s).events.stack = s.events.stack ∧
    (responsePartOwed s).events.bindings = s.events.bindings ∧ (responsePartOwed s).events.faults = s.events.faults ∧
    (responsePartOwed s).events.overflow = s.events.overflow ∧ (responsePartOwed s).events.canned = s.events.canned ∧
    (responsePartOwed s).events.records = s.events.records ∧
    (responsePartOwed s).events.sequence = s.events.sequence ∧ (responsePartOwed s).events.floor = s.events.floor ∧
    (responsePartOwed s).events.timeout = s.events.timeout ∧ (responsePartOwed s).events.retries = s.events.retries ∧
    (responsePartOwed s).events.misses = s.events.misses ∧ (responsePartOwed s).events.abandoned = s.events.abandoned := by
  unfold responsePartOwed
  try dsimp only
  repeat' split
  all_goals simp_all

@[simp] theorem attemptTaken_frame (s : State) :
    (attemptTaken s).pending = s.pending ∧ (attemptTaken s).pins = s.pins ∧ (attemptTaken s).toData = s.toData ∧
    (attemptTaken s).tickCounter = s.tickCounter ∧ (attemptTaken s).nodeAddress = s.nodeAddress ∧
    (attemptTaken s).align = s.align ∧ (attemptTaken s).slot.bankA = s.slot.bankA ∧
    (attemptTaken s).slot.bankB = s.slot.bankB ∧ (attemptTaken s).slot.aligned = s.slot.aligned ∧
    (attemptTaken s).pool.segReserve = s.pool.segReserve ∧ (attemptTaken s).pool.descReserve = s.pool.descReserve ∧
    (attemptTaken s).delivery.credits = s.delivery.credits ∧ (attemptTaken s).delivery.quanta = s.delivery.quanta ∧
    (attemptTaken s).delivery.ageLimits = s.delivery.ageLimits ∧
    (attemptTaken s).delivery.stallLimit = s.delivery.stallLimit ∧
    (attemptTaken s).delivery.inDelivery = s.delivery.inDelivery ∧
    (attemptTaken s).delivery.retries = s.delivery.retries ∧
    (attemptTaken s).delivery.discarded = s.delivery.discarded ∧ (attemptTaken s).trib = s.trib ∧
    (attemptTaken s).engine.queue = s.engine.queue ∧ (attemptTaken s).engine.inHand = s.engine.inHand ∧
    (attemptTaken s).engine.owner = s.engine.owner ∧ (attemptTaken s).engine.lease = s.engine.lease ∧
    (attemptTaken s).engine.cache = s.engine.cache ∧ (attemptTaken s).engine.counters = s.engine.counters ∧
    (attemptTaken s).events.faults = s.events.faults ∧ (attemptTaken s).events.overflow = s.events.overflow ∧
    (attemptTaken s).events.canned = s.events.canned ∧ (attemptTaken s).events.floor = s.events.floor ∧
    (attemptTaken s).events.timeout = s.events.timeout ∧ (attemptTaken s).events.retries = s.events.retries ∧
    (attemptTaken s).events.abandoned = s.events.abandoned := by
  simp [attemptTaken]

@[simp] theorem settleAttempts_frame (n : Nat) (s : State) :
    (settleAttempts n s).pending = s.pending ∧ (settleAttempts n s).pins = s.pins ∧
    (settleAttempts n s).toData = s.toData ∧ (settleAttempts n s).tickCounter = s.tickCounter ∧
    (settleAttempts n s).nodeAddress = s.nodeAddress ∧ (settleAttempts n s).align = s.align ∧
    (settleAttempts n s).slot.bankA = s.slot.bankA ∧ (settleAttempts n s).slot.bankB = s.slot.bankB ∧
    (settleAttempts n s).slot.aligned = s.slot.aligned ∧ (settleAttempts n s).pool.segReserve = s.pool.segReserve ∧
    (settleAttempts n s).pool.descReserve = s.pool.descReserve ∧
    (settleAttempts n s).delivery.credits = s.delivery.credits ∧
    (settleAttempts n s).delivery.quanta = s.delivery.quanta ∧
    (settleAttempts n s).delivery.ageLimits = s.delivery.ageLimits ∧
    (settleAttempts n s).delivery.stallLimit = s.delivery.stallLimit ∧
    (settleAttempts n s).delivery.inDelivery = s.delivery.inDelivery ∧
    (settleAttempts n s).delivery.retries = s.delivery.retries ∧
    (settleAttempts n s).delivery.discarded = s.delivery.discarded ∧ (settleAttempts n s).trib = s.trib ∧
    (settleAttempts n s).engine.queue = s.engine.queue ∧ (settleAttempts n s).engine.inHand = s.engine.inHand ∧
    (settleAttempts n s).engine.owner = s.engine.owner ∧ (settleAttempts n s).engine.lease = s.engine.lease ∧
    (settleAttempts n s).engine.cache = s.engine.cache ∧ (settleAttempts n s).engine.counters = s.engine.counters ∧
    (settleAttempts n s).events.faults = s.events.faults ∧ (settleAttempts n s).events.overflow = s.events.overflow ∧
    (settleAttempts n s).events.canned = s.events.canned ∧ (settleAttempts n s).events.floor = s.events.floor ∧
    (settleAttempts n s).events.timeout = s.events.timeout ∧ (settleAttempts n s).events.retries = s.events.retries ∧
    (settleAttempts n s).events.abandoned = s.events.abandoned := by
  induction n generalizing s with
  | zero => simp [settleAttempts]
  | succ n ih =>
    unfold settleAttempts
    repeat' split
    all_goals simp [ih]

@[simp] theorem attemptsTaken_frame (s : State) :
    (attemptsTaken s).pending = s.pending ∧ (attemptsTaken s).pins = s.pins ∧ (attemptsTaken s).toData = s.toData ∧
    (attemptsTaken s).tickCounter = s.tickCounter ∧ (attemptsTaken s).nodeAddress = s.nodeAddress ∧
    (attemptsTaken s).align = s.align ∧ (attemptsTaken s).slot.bankA = s.slot.bankA ∧
    (attemptsTaken s).slot.bankB = s.slot.bankB ∧ (attemptsTaken s).slot.aligned = s.slot.aligned ∧
    (attemptsTaken s).pool.segReserve = s.pool.segReserve ∧ (attemptsTaken s).pool.descReserve = s.pool.descReserve ∧
    (attemptsTaken s).delivery.credits = s.delivery.credits ∧ (attemptsTaken s).delivery.quanta = s.delivery.quanta ∧
    (attemptsTaken s).delivery.ageLimits = s.delivery.ageLimits ∧
    (attemptsTaken s).delivery.stallLimit = s.delivery.stallLimit ∧
    (attemptsTaken s).delivery.inDelivery = s.delivery.inDelivery ∧
    (attemptsTaken s).delivery.retries = s.delivery.retries ∧
    (attemptsTaken s).delivery.discarded = s.delivery.discarded ∧ (attemptsTaken s).trib = s.trib ∧
    (attemptsTaken s).engine.queue = s.engine.queue ∧ (attemptsTaken s).engine.inHand = s.engine.inHand ∧
    (attemptsTaken s).engine.owner = s.engine.owner ∧ (attemptsTaken s).engine.lease = s.engine.lease ∧
    (attemptsTaken s).engine.cache = s.engine.cache ∧ (attemptsTaken s).engine.counters = s.engine.counters ∧
    (attemptsTaken s).events.faults = s.events.faults ∧ (attemptsTaken s).events.overflow = s.events.overflow ∧
    (attemptsTaken s).events.canned = s.events.canned ∧ (attemptsTaken s).events.floor = s.events.floor ∧
    (attemptsTaken s).events.timeout = s.events.timeout ∧ (attemptsTaken s).events.retries = s.events.retries ∧
    (attemptsTaken s).events.abandoned = s.events.abandoned := by
  simp [attemptsTaken]

@[simp] theorem attemptsFirst_frame (s : State) :
    (attemptsFirst s).pending = s.pending ∧ (attemptsFirst s).pins = s.pins ∧ (attemptsFirst s).toData = s.toData ∧
    (attemptsFirst s).tickCounter = s.tickCounter ∧ (attemptsFirst s).nodeAddress = s.nodeAddress ∧
    (attemptsFirst s).align = s.align ∧ (attemptsFirst s).slot.bankA = s.slot.bankA ∧
    (attemptsFirst s).slot.bankB = s.slot.bankB ∧ (attemptsFirst s).slot.aligned = s.slot.aligned ∧
    (attemptsFirst s).pool.segReserve = s.pool.segReserve ∧ (attemptsFirst s).pool.descReserve = s.pool.descReserve ∧
    (attemptsFirst s).delivery.credits = s.delivery.credits ∧ (attemptsFirst s).delivery.quanta = s.delivery.quanta ∧
    (attemptsFirst s).delivery.ageLimits = s.delivery.ageLimits ∧
    (attemptsFirst s).delivery.stallLimit = s.delivery.stallLimit ∧
    (attemptsFirst s).delivery.inDelivery = s.delivery.inDelivery ∧
    (attemptsFirst s).delivery.retries = s.delivery.retries ∧
    (attemptsFirst s).delivery.discarded = s.delivery.discarded ∧ (attemptsFirst s).trib = s.trib ∧
    (attemptsFirst s).engine.queue = s.engine.queue ∧ (attemptsFirst s).engine.inHand = s.engine.inHand ∧
    (attemptsFirst s).engine.lease = s.engine.lease ∧ (attemptsFirst s).engine.cache = s.engine.cache ∧
    (attemptsFirst s).engine.counters = s.engine.counters ∧ (attemptsFirst s).events.canned = s.events.canned ∧
    (attemptsFirst s).events.floor = s.events.floor ∧ (attemptsFirst s).events.timeout = s.events.timeout ∧
    (attemptsFirst s).events.retries = s.events.retries := by
  simp [attemptsFirst]

@[simp] theorem stepFollowed_frame (s : State) :
    (stepFollowed s).pending = s.pending ∧ (stepFollowed s).pins = s.pins ∧ (stepFollowed s).toData = s.toData ∧
    (stepFollowed s).tickCounter = s.tickCounter ∧ (stepFollowed s).nodeAddress = s.nodeAddress ∧
    (stepFollowed s).align = s.align ∧ (stepFollowed s).slot.bankA = s.slot.bankA ∧
    (stepFollowed s).slot.bankB = s.slot.bankB ∧ (stepFollowed s).slot.aligned = s.slot.aligned ∧
    (stepFollowed s).pool.segReserve = s.pool.segReserve ∧ (stepFollowed s).pool.descReserve = s.pool.descReserve ∧
    (stepFollowed s).delivery.credits = s.delivery.credits ∧ (stepFollowed s).delivery.quanta = s.delivery.quanta ∧
    (stepFollowed s).delivery.ageLimits = s.delivery.ageLimits ∧
    (stepFollowed s).delivery.stallLimit = s.delivery.stallLimit ∧
    (stepFollowed s).delivery.inDelivery = s.delivery.inDelivery ∧
    (stepFollowed s).delivery.retries = s.delivery.retries ∧
    (stepFollowed s).delivery.discarded = s.delivery.discarded ∧ (stepFollowed s).trib = s.trib ∧
    (stepFollowed s).engine.queue = s.engine.queue ∧ (stepFollowed s).engine.inHand = s.engine.inHand ∧
    (stepFollowed s).engine.lease = s.engine.lease ∧ (stepFollowed s).engine.cache = s.engine.cache ∧
    (stepFollowed s).engine.counters = s.engine.counters ∧ (stepFollowed s).events.canned = s.events.canned ∧
    (stepFollowed s).events.floor = s.events.floor ∧ (stepFollowed s).events.timeout = s.events.timeout ∧
    (stepFollowed s).events.retries = s.events.retries := by
  simp [stepFollowed]

@[simp] theorem settleStalls_frame (l : List Circuit) (s : State) :
    (settleStalls l s).pending = s.pending ∧ (settleStalls l s).pins = s.pins ∧ (settleStalls l s).toData = s.toData ∧
    (settleStalls l s).tickCounter = s.tickCounter ∧ (settleStalls l s).nodeAddress = s.nodeAddress ∧
    (settleStalls l s).align = s.align ∧ (settleStalls l s).slot.bankA = s.slot.bankA ∧
    (settleStalls l s).slot.bankB = s.slot.bankB ∧ (settleStalls l s).slot.aligned = s.slot.aligned ∧
    (settleStalls l s).pool.segReserve = s.pool.segReserve ∧
    (settleStalls l s).pool.descReserve = s.pool.descReserve ∧
    (settleStalls l s).delivery.credits = s.delivery.credits ∧
    (settleStalls l s).delivery.quanta = s.delivery.quanta ∧
    (settleStalls l s).delivery.ageLimits = s.delivery.ageLimits ∧
    (settleStalls l s).delivery.stallLimit = s.delivery.stallLimit ∧
    (settleStalls l s).delivery.inDelivery = s.delivery.inDelivery ∧
    (settleStalls l s).delivery.retries = s.delivery.retries ∧
    (settleStalls l s).delivery.discarded = s.delivery.discarded ∧ (settleStalls l s).trib = s.trib ∧
    (settleStalls l s).engine.queue = s.engine.queue ∧ (settleStalls l s).engine.inHand = s.engine.inHand ∧
    (settleStalls l s).engine.lease = s.engine.lease ∧ (settleStalls l s).engine.cache = s.engine.cache ∧
    (settleStalls l s).engine.counters = s.engine.counters ∧ (settleStalls l s).events.canned = s.events.canned ∧
    (settleStalls l s).events.floor = s.events.floor ∧ (settleStalls l s).events.timeout = s.events.timeout ∧
    (settleStalls l s).events.retries = s.events.retries := by
  unfold settleStalls
  refine ⟨foldl_keeps (·.pending) (fun t d => by simp) _ s,
    foldl_keeps (·.pins) (fun t d => by simp) _ s,
    foldl_keeps (·.toData) (fun t d => by simp) _ s,
    foldl_keeps (·.tickCounter) (fun t d => by simp) _ s,
    foldl_keeps (·.nodeAddress) (fun t d => by simp) _ s,
    foldl_keeps (·.align) (fun t d => by simp) _ s,
    foldl_keeps (·.slot.bankA) (fun t d => by simp) _ s,
    foldl_keeps (·.slot.bankB) (fun t d => by simp) _ s,
    foldl_keeps (·.slot.aligned) (fun t d => by simp) _ s,
    foldl_keeps (·.pool.segReserve) (fun t d => by simp) _ s,
    foldl_keeps (·.pool.descReserve) (fun t d => by simp) _ s,
    foldl_keeps (·.delivery.credits) (fun t d => by simp) _ s,
    foldl_keeps (·.delivery.quanta) (fun t d => by simp) _ s,
    foldl_keeps (·.delivery.ageLimits) (fun t d => by simp) _ s,
    foldl_keeps (·.delivery.stallLimit) (fun t d => by simp) _ s,
    foldl_keeps (·.delivery.inDelivery) (fun t d => by simp) _ s,
    foldl_keeps (·.delivery.retries) (fun t d => by simp) _ s,
    foldl_keeps (·.delivery.discarded) (fun t d => by simp) _ s,
    foldl_keeps (·.trib) (fun t d => by simp) _ s,
    foldl_keeps (·.engine.queue) (fun t d => by simp) _ s,
    foldl_keeps (·.engine.inHand) (fun t d => by simp) _ s,
    foldl_keeps (·.engine.lease) (fun t d => by simp) _ s,
    foldl_keeps (·.engine.cache) (fun t d => by simp) _ s,
    foldl_keeps (·.engine.counters) (fun t d => by simp) _ s,
    foldl_keeps (·.events.canned) (fun t d => by simp) _ s,
    foldl_keeps (·.events.floor) (fun t d => by simp) _ s,
    foldl_keeps (·.events.timeout) (fun t d => by simp) _ s,
    foldl_keeps (·.events.retries) (fun t d => by simp) _ s⟩

@[simp] theorem ageOutFirst_frame (s : State) :
    (ageOutFirst s).pending = s.pending ∧ (ageOutFirst s).pins = s.pins ∧ (ageOutFirst s).toData = s.toData ∧
    (ageOutFirst s).tickCounter = s.tickCounter ∧ (ageOutFirst s).nodeAddress = s.nodeAddress ∧
    (ageOutFirst s).align = s.align ∧ (ageOutFirst s).slot.bankA = s.slot.bankA ∧
    (ageOutFirst s).slot.bankB = s.slot.bankB ∧ (ageOutFirst s).slot.aligned = s.slot.aligned ∧
    (ageOutFirst s).pool.segReserve = s.pool.segReserve ∧ (ageOutFirst s).pool.descReserve = s.pool.descReserve ∧
    (ageOutFirst s).delivery.credits = s.delivery.credits ∧ (ageOutFirst s).delivery.quanta = s.delivery.quanta ∧
    (ageOutFirst s).delivery.ageLimits = s.delivery.ageLimits ∧
    (ageOutFirst s).delivery.stallLimit = s.delivery.stallLimit ∧
    (ageOutFirst s).delivery.inDelivery = s.delivery.inDelivery ∧
    (ageOutFirst s).delivery.retries = s.delivery.retries ∧
    (ageOutFirst s).delivery.discarded = s.delivery.discarded ∧ (ageOutFirst s).trib = s.trib ∧
    (ageOutFirst s).engine.queue = s.engine.queue ∧ (ageOutFirst s).engine.inHand = s.engine.inHand ∧
    (ageOutFirst s).engine.lease = s.engine.lease ∧ (ageOutFirst s).engine.cache = s.engine.cache ∧
    (ageOutFirst s).engine.counters = s.engine.counters ∧ (ageOutFirst s).events.canned = s.events.canned ∧
    (ageOutFirst s).events.floor = s.events.floor ∧ (ageOutFirst s).events.timeout = s.events.timeout ∧
    (ageOutFirst s).events.retries = s.events.retries := by
  unfold ageOutFirst
  try dsimp only
  repeat' split
  all_goals simp_all

@[simp] theorem settleAges_frame (n : Nat) (s : State) :
    (settleAges n s).pending = s.pending ∧ (settleAges n s).pins = s.pins ∧ (settleAges n s).toData = s.toData ∧
    (settleAges n s).tickCounter = s.tickCounter ∧ (settleAges n s).nodeAddress = s.nodeAddress ∧
    (settleAges n s).align = s.align ∧ (settleAges n s).slot.bankA = s.slot.bankA ∧
    (settleAges n s).slot.bankB = s.slot.bankB ∧ (settleAges n s).slot.aligned = s.slot.aligned ∧
    (settleAges n s).pool.segReserve = s.pool.segReserve ∧ (settleAges n s).pool.descReserve = s.pool.descReserve ∧
    (settleAges n s).delivery.credits = s.delivery.credits ∧ (settleAges n s).delivery.quanta = s.delivery.quanta ∧
    (settleAges n s).delivery.ageLimits = s.delivery.ageLimits ∧
    (settleAges n s).delivery.stallLimit = s.delivery.stallLimit ∧
    (settleAges n s).delivery.inDelivery = s.delivery.inDelivery ∧
    (settleAges n s).delivery.retries = s.delivery.retries ∧
    (settleAges n s).delivery.discarded = s.delivery.discarded ∧ (settleAges n s).trib = s.trib ∧
    (settleAges n s).engine.queue = s.engine.queue ∧ (settleAges n s).engine.inHand = s.engine.inHand ∧
    (settleAges n s).engine.lease = s.engine.lease ∧ (settleAges n s).engine.cache = s.engine.cache ∧
    (settleAges n s).engine.counters = s.engine.counters ∧ (settleAges n s).events.canned = s.events.canned ∧
    (settleAges n s).events.floor = s.events.floor ∧ (settleAges n s).events.timeout = s.events.timeout ∧
    (settleAges n s).events.retries = s.events.retries := by
  induction n generalizing s with
  | zero => simp [settleAges]
  | succ n ih =>
    unfold settleAges
    repeat' split
    all_goals simp [ih]

@[simp] theorem takeIfDue_confirmOwed_frame (b : Bool) (s : State) :
    (takeIfDue b confirmOwed s).pending = s.pending ∧ (takeIfDue b confirmOwed s).pins = s.pins ∧
    (takeIfDue b confirmOwed s).toData = s.toData ∧ (takeIfDue b confirmOwed s).tickCounter = s.tickCounter ∧
    (takeIfDue b confirmOwed s).nodeAddress = s.nodeAddress ∧ (takeIfDue b confirmOwed s).align = s.align ∧
    (takeIfDue b confirmOwed s).slot.bankA = s.slot.bankA ∧ (takeIfDue b confirmOwed s).slot.bankB = s.slot.bankB ∧
    (takeIfDue b confirmOwed s).slot.aligned = s.slot.aligned ∧
    (takeIfDue b confirmOwed s).pool.segReserve = s.pool.segReserve ∧
    (takeIfDue b confirmOwed s).pool.descReserve = s.pool.descReserve ∧
    (takeIfDue b confirmOwed s).delivery.credits = s.delivery.credits ∧
    (takeIfDue b confirmOwed s).delivery.quanta = s.delivery.quanta ∧
    (takeIfDue b confirmOwed s).delivery.ageLimits = s.delivery.ageLimits ∧
    (takeIfDue b confirmOwed s).delivery.stallLimit = s.delivery.stallLimit ∧
    (takeIfDue b confirmOwed s).delivery.inDelivery = s.delivery.inDelivery ∧
    (takeIfDue b confirmOwed s).delivery.retries = s.delivery.retries ∧
    (takeIfDue b confirmOwed s).delivery.discarded = s.delivery.discarded ∧
    (takeIfDue b confirmOwed s).trib = s.trib ∧ (takeIfDue b confirmOwed s).engine.queue = s.engine.queue ∧
    (takeIfDue b confirmOwed s).engine.inHand = s.engine.inHand ∧
    (takeIfDue b confirmOwed s).engine.lease = s.engine.lease ∧
    (takeIfDue b confirmOwed s).engine.cache = s.engine.cache ∧
    (takeIfDue b confirmOwed s).engine.counters = s.engine.counters ∧
    (takeIfDue b confirmOwed s).events.canned = s.events.canned ∧
    (takeIfDue b confirmOwed s).events.floor = s.events.floor ∧
    (takeIfDue b confirmOwed s).events.timeout = s.events.timeout ∧
    (takeIfDue b confirmOwed s).events.retries = s.events.retries := by
  unfold takeIfDue
  split
  all_goals simp

@[simp] theorem takeIfDue_creditStallOwed_frame (b : Bool) (s : State) :
    (takeIfDue b creditStallOwed s).pending = s.pending ∧ (takeIfDue b creditStallOwed s).pins = s.pins ∧
    (takeIfDue b creditStallOwed s).toData = s.toData ∧ (takeIfDue b creditStallOwed s).tickCounter = s.tickCounter ∧
    (takeIfDue b creditStallOwed s).nodeAddress = s.nodeAddress ∧ (takeIfDue b creditStallOwed s).align = s.align ∧
    (takeIfDue b creditStallOwed s).slot.bankA = s.slot.bankA ∧
    (takeIfDue b creditStallOwed s).slot.bankB = s.slot.bankB ∧
    (takeIfDue b creditStallOwed s).slot.aligned = s.slot.aligned ∧
    (takeIfDue b creditStallOwed s).pool.segReserve = s.pool.segReserve ∧
    (takeIfDue b creditStallOwed s).pool.descReserve = s.pool.descReserve ∧
    (takeIfDue b creditStallOwed s).delivery.credits = s.delivery.credits ∧
    (takeIfDue b creditStallOwed s).delivery.quanta = s.delivery.quanta ∧
    (takeIfDue b creditStallOwed s).delivery.ageLimits = s.delivery.ageLimits ∧
    (takeIfDue b creditStallOwed s).delivery.stallLimit = s.delivery.stallLimit ∧
    (takeIfDue b creditStallOwed s).delivery.inDelivery = s.delivery.inDelivery ∧
    (takeIfDue b creditStallOwed s).delivery.retries = s.delivery.retries ∧
    (takeIfDue b creditStallOwed s).delivery.discarded = s.delivery.discarded ∧
    (takeIfDue b creditStallOwed s).trib = s.trib ∧ (takeIfDue b creditStallOwed s).engine.queue = s.engine.queue ∧
    (takeIfDue b creditStallOwed s).engine.inHand = s.engine.inHand ∧
    (takeIfDue b creditStallOwed s).engine.lease = s.engine.lease ∧
    (takeIfDue b creditStallOwed s).engine.cache = s.engine.cache ∧
    (takeIfDue b creditStallOwed s).engine.counters = s.engine.counters ∧
    (takeIfDue b creditStallOwed s).events.canned = s.events.canned ∧
    (takeIfDue b creditStallOwed s).events.floor = s.events.floor ∧
    (takeIfDue b creditStallOwed s).events.timeout = s.events.timeout ∧
    (takeIfDue b creditStallOwed s).events.retries = s.events.retries := by
  unfold takeIfDue
  split
  all_goals simp

@[simp] theorem takeIfDue_ownerLostOwed_frame (b : Bool) (s : State) :
    (takeIfDue b ownerLostOwed s).pending = s.pending ∧ (takeIfDue b ownerLostOwed s).pins = s.pins ∧
    (takeIfDue b ownerLostOwed s).toData = s.toData ∧ (takeIfDue b ownerLostOwed s).tickCounter = s.tickCounter ∧
    (takeIfDue b ownerLostOwed s).nodeAddress = s.nodeAddress ∧ (takeIfDue b ownerLostOwed s).align = s.align ∧
    (takeIfDue b ownerLostOwed s).slot.bankA = s.slot.bankA ∧
    (takeIfDue b ownerLostOwed s).slot.bankB = s.slot.bankB ∧
    (takeIfDue b ownerLostOwed s).slot.aligned = s.slot.aligned ∧
    (takeIfDue b ownerLostOwed s).pool.segReserve = s.pool.segReserve ∧
    (takeIfDue b ownerLostOwed s).pool.descReserve = s.pool.descReserve ∧
    (takeIfDue b ownerLostOwed s).delivery.credits = s.delivery.credits ∧
    (takeIfDue b ownerLostOwed s).delivery.quanta = s.delivery.quanta ∧
    (takeIfDue b ownerLostOwed s).delivery.ageLimits = s.delivery.ageLimits ∧
    (takeIfDue b ownerLostOwed s).delivery.stallLimit = s.delivery.stallLimit ∧
    (takeIfDue b ownerLostOwed s).delivery.inDelivery = s.delivery.inDelivery ∧
    (takeIfDue b ownerLostOwed s).delivery.retries = s.delivery.retries ∧
    (takeIfDue b ownerLostOwed s).delivery.discarded = s.delivery.discarded ∧
    (takeIfDue b ownerLostOwed s).trib = s.trib ∧ (takeIfDue b ownerLostOwed s).engine.queue = s.engine.queue ∧
    (takeIfDue b ownerLostOwed s).engine.inHand = s.engine.inHand ∧
    (takeIfDue b ownerLostOwed s).engine.lease = s.engine.lease ∧
    (takeIfDue b ownerLostOwed s).engine.cache = s.engine.cache ∧
    (takeIfDue b ownerLostOwed s).engine.counters = s.engine.counters ∧
    (takeIfDue b ownerLostOwed s).events.canned = s.events.canned ∧
    (takeIfDue b ownerLostOwed s).events.floor = s.events.floor ∧
    (takeIfDue b ownerLostOwed s).events.timeout = s.events.timeout ∧
    (takeIfDue b ownerLostOwed s).events.retries = s.events.retries := by
  unfold takeIfDue
  split
  all_goals simp

@[simp] theorem takeIfDue_noticeTimeoutOwed_frame (b : Bool) (s : State) :
    (takeIfDue b noticeTimeoutOwed s).pending = s.pending ∧ (takeIfDue b noticeTimeoutOwed s).pins = s.pins ∧
    (takeIfDue b noticeTimeoutOwed s).toData = s.toData ∧
    (takeIfDue b noticeTimeoutOwed s).tickCounter = s.tickCounter ∧
    (takeIfDue b noticeTimeoutOwed s).nodeAddress = s.nodeAddress ∧
    (takeIfDue b noticeTimeoutOwed s).align = s.align ∧ (takeIfDue b noticeTimeoutOwed s).slot.bankA = s.slot.bankA ∧
    (takeIfDue b noticeTimeoutOwed s).slot.bankB = s.slot.bankB ∧
    (takeIfDue b noticeTimeoutOwed s).slot.aligned = s.slot.aligned ∧
    (takeIfDue b noticeTimeoutOwed s).pool.segReserve = s.pool.segReserve ∧
    (takeIfDue b noticeTimeoutOwed s).pool.descReserve = s.pool.descReserve ∧
    (takeIfDue b noticeTimeoutOwed s).delivery.credits = s.delivery.credits ∧
    (takeIfDue b noticeTimeoutOwed s).delivery.quanta = s.delivery.quanta ∧
    (takeIfDue b noticeTimeoutOwed s).delivery.ageLimits = s.delivery.ageLimits ∧
    (takeIfDue b noticeTimeoutOwed s).delivery.stallLimit = s.delivery.stallLimit ∧
    (takeIfDue b noticeTimeoutOwed s).delivery.inDelivery = s.delivery.inDelivery ∧
    (takeIfDue b noticeTimeoutOwed s).delivery.retries = s.delivery.retries ∧
    (takeIfDue b noticeTimeoutOwed s).delivery.discarded = s.delivery.discarded ∧
    (takeIfDue b noticeTimeoutOwed s).trib = s.trib ∧
    (takeIfDue b noticeTimeoutOwed s).engine.queue = s.engine.queue ∧
    (takeIfDue b noticeTimeoutOwed s).engine.inHand = s.engine.inHand ∧
    (takeIfDue b noticeTimeoutOwed s).engine.lease = s.engine.lease ∧
    (takeIfDue b noticeTimeoutOwed s).engine.cache = s.engine.cache ∧
    (takeIfDue b noticeTimeoutOwed s).engine.counters = s.engine.counters ∧
    (takeIfDue b noticeTimeoutOwed s).events.canned = s.events.canned ∧
    (takeIfDue b noticeTimeoutOwed s).events.floor = s.events.floor ∧
    (takeIfDue b noticeTimeoutOwed s).events.timeout = s.events.timeout ∧
    (takeIfDue b noticeTimeoutOwed s).events.retries = s.events.retries := by
  unfold takeIfDue
  split
  all_goals simp

@[simp] theorem settleTick_frame (s : State) :
    (settleTick s).pending = s.pending ∧ (settleTick s).pins = s.pins ∧ (settleTick s).toData = s.toData ∧
    (settleTick s).tickCounter = s.tickCounter ∧ (settleTick s).nodeAddress = s.nodeAddress ∧
    (settleTick s).align = s.align ∧ (settleTick s).slot.bankA = s.slot.bankA ∧
    (settleTick s).slot.bankB = s.slot.bankB ∧ (settleTick s).slot.aligned = s.slot.aligned ∧
    (settleTick s).pool.segReserve = s.pool.segReserve ∧ (settleTick s).pool.descReserve = s.pool.descReserve ∧
    (settleTick s).delivery.credits = s.delivery.credits ∧ (settleTick s).delivery.quanta = s.delivery.quanta ∧
    (settleTick s).delivery.ageLimits = s.delivery.ageLimits ∧
    (settleTick s).delivery.stallLimit = s.delivery.stallLimit ∧
    (settleTick s).delivery.inDelivery = s.delivery.inDelivery ∧
    (settleTick s).delivery.retries = s.delivery.retries ∧ (settleTick s).delivery.discarded = s.delivery.discarded ∧
    (settleTick s).trib = s.trib ∧ (settleTick s).engine.queue = s.engine.queue ∧
    (settleTick s).engine.inHand = s.engine.inHand ∧ (settleTick s).engine.lease = s.engine.lease ∧
    (settleTick s).engine.cache = s.engine.cache ∧ (settleTick s).engine.counters = s.engine.counters ∧
    (settleTick s).events.canned = s.events.canned ∧ (settleTick s).events.floor = s.events.floor ∧
    (settleTick s).events.timeout = s.events.timeout ∧ (settleTick s).events.retries = s.events.retries := by
  simp [settleTick]

@[simp] theorem settleOwed_frame (s : State) :
    (settleOwed s).pending = s.pending ∧ (settleOwed s).pins = s.pins ∧ (settleOwed s).toData = s.toData ∧
    (settleOwed s).tickCounter = s.tickCounter ∧ (settleOwed s).nodeAddress = s.nodeAddress ∧
    (settleOwed s).align = s.align ∧ (settleOwed s).slot.bankA = s.slot.bankA ∧
    (settleOwed s).slot.bankB = s.slot.bankB ∧ (settleOwed s).slot.aligned = s.slot.aligned ∧
    (settleOwed s).pool.segReserve = s.pool.segReserve ∧ (settleOwed s).pool.descReserve = s.pool.descReserve ∧
    (settleOwed s).delivery.credits = s.delivery.credits ∧ (settleOwed s).delivery.quanta = s.delivery.quanta ∧
    (settleOwed s).delivery.ageLimits = s.delivery.ageLimits ∧
    (settleOwed s).delivery.stallLimit = s.delivery.stallLimit ∧
    (settleOwed s).delivery.inDelivery = s.delivery.inDelivery ∧
    (settleOwed s).delivery.retries = s.delivery.retries ∧ (settleOwed s).delivery.discarded = s.delivery.discarded ∧
    (settleOwed s).trib = s.trib ∧ (settleOwed s).engine.queue = s.engine.queue ∧
    (settleOwed s).engine.inHand = s.engine.inHand ∧ (settleOwed s).engine.lease = s.engine.lease ∧
    (settleOwed s).engine.cache = s.engine.cache ∧ (settleOwed s).engine.counters = s.engine.counters ∧
    (settleOwed s).events.canned = s.events.canned ∧ (settleOwed s).events.floor = s.events.floor ∧
    (settleOwed s).events.timeout = s.events.timeout ∧ (settleOwed s).events.retries = s.events.retries := by
  simp [settleOwed]

@[simp] theorem settle_frame (s : State) :
    (settle s).pending = s.pending ∧ (settle s).pins = s.pins ∧ (settle s).toData = s.toData ∧
    (settle s).tickCounter = s.tickCounter ∧ (settle s).nodeAddress = s.nodeAddress ∧ (settle s).align = s.align ∧
    (settle s).slot.bankA = s.slot.bankA ∧ (settle s).slot.bankB = s.slot.bankB ∧
    (settle s).slot.aligned = s.slot.aligned ∧ (settle s).pool.segReserve = s.pool.segReserve ∧
    (settle s).pool.descReserve = s.pool.descReserve ∧ (settle s).delivery.credits = s.delivery.credits ∧
    (settle s).delivery.quanta = s.delivery.quanta ∧ (settle s).delivery.ageLimits = s.delivery.ageLimits ∧
    (settle s).delivery.stallLimit = s.delivery.stallLimit ∧ (settle s).delivery.inDelivery = s.delivery.inDelivery ∧
    (settle s).delivery.retries = s.delivery.retries ∧ (settle s).delivery.discarded = s.delivery.discarded ∧
    (settle s).trib = s.trib ∧ (settle s).engine.queue = s.engine.queue ∧ (settle s).engine.inHand = s.engine.inHand ∧
    (settle s).engine.lease = s.engine.lease ∧ (settle s).engine.cache = s.engine.cache ∧
    (settle s).engine.counters = s.engine.counters ∧ (settle s).events.canned = s.events.canned ∧
    (settle s).events.floor = s.events.floor ∧ (settle s).events.timeout = s.events.timeout ∧
    (settle s).events.retries = s.events.retries := by
  unfold settle
  try dsimp only
  repeat' split
  all_goals simp_all

@[simp] theorem noticeStep_frame (s : State) :
    (noticeStep s).pending = s.pending ∧ (noticeStep s).pins = s.pins ∧ (noticeStep s).toData = s.toData ∧
    (noticeStep s).tickCounter = s.tickCounter ∧ (noticeStep s).nodeAddress = s.nodeAddress ∧
    (noticeStep s).align = s.align ∧ (noticeStep s).slot.bankA = s.slot.bankA ∧
    (noticeStep s).slot.bankB = s.slot.bankB ∧ (noticeStep s).slot.aligned = s.slot.aligned ∧
    (noticeStep s).pool.segReserve = s.pool.segReserve ∧ (noticeStep s).pool.descReserve = s.pool.descReserve ∧
    (noticeStep s).delivery.credits = s.delivery.credits ∧ (noticeStep s).delivery.quanta = s.delivery.quanta ∧
    (noticeStep s).delivery.ageLimits = s.delivery.ageLimits ∧
    (noticeStep s).delivery.stallLimit = s.delivery.stallLimit ∧
    (noticeStep s).delivery.inDelivery = s.delivery.inDelivery ∧
    (noticeStep s).delivery.retries = s.delivery.retries ∧ (noticeStep s).delivery.discarded = s.delivery.discarded ∧
    (noticeStep s).trib = s.trib ∧ (noticeStep s).engine.queue = s.engine.queue ∧
    (noticeStep s).engine.inHand = s.engine.inHand ∧ (noticeStep s).engine.owner = s.engine.owner ∧
    (noticeStep s).engine.lease = s.engine.lease ∧ (noticeStep s).engine.cache = s.engine.cache ∧
    (noticeStep s).engine.counters = s.engine.counters ∧ (noticeStep s).events.faults = s.events.faults ∧
    (noticeStep s).events.overflow = s.events.overflow ∧ (noticeStep s).events.canned = s.events.canned ∧
    (noticeStep s).events.floor = s.events.floor ∧ (noticeStep s).events.timeout = s.events.timeout ∧
    (noticeStep s).events.retries = s.events.retries ∧ (noticeStep s).events.abandoned = s.events.abandoned := by
  unfold noticeStep
  try dsimp only
  repeat' split
  all_goals simp_all

@[simp] theorem responseStep_frame (s : State) :
    (responseStep s).pending = s.pending ∧ (responseStep s).pins = s.pins ∧ (responseStep s).toData = s.toData ∧
    (responseStep s).tickCounter = s.tickCounter ∧ (responseStep s).nodeAddress = s.nodeAddress ∧
    (responseStep s).align = s.align ∧ (responseStep s).slot.bankA = s.slot.bankA ∧
    (responseStep s).slot.bankB = s.slot.bankB ∧ (responseStep s).slot.aligned = s.slot.aligned ∧
    (responseStep s).pool.segReserve = s.pool.segReserve ∧ (responseStep s).pool.descReserve = s.pool.descReserve ∧
    (responseStep s).delivery.credits = s.delivery.credits ∧ (responseStep s).delivery.quanta = s.delivery.quanta ∧
    (responseStep s).delivery.ageLimits = s.delivery.ageLimits ∧
    (responseStep s).delivery.stallLimit = s.delivery.stallLimit ∧
    (responseStep s).delivery.inDelivery = s.delivery.inDelivery ∧
    (responseStep s).delivery.retries = s.delivery.retries ∧
    (responseStep s).delivery.discarded = s.delivery.discarded ∧ (responseStep s).trib = s.trib ∧
    (responseStep s).engine.queue = s.engine.queue ∧ (responseStep s).engine.inHand = s.engine.inHand ∧
    (responseStep s).engine.owner = s.engine.owner ∧ (responseStep s).engine.lease = s.engine.lease ∧
    (responseStep s).engine.cache = s.engine.cache ∧ (responseStep s).engine.counters = s.engine.counters ∧
    (responseStep s).events.faults = s.events.faults ∧ (responseStep s).events.overflow = s.events.overflow ∧
    (responseStep s).events.canned = s.events.canned ∧ (responseStep s).events.floor = s.events.floor ∧
    (responseStep s).events.timeout = s.events.timeout ∧ (responseStep s).events.retries = s.events.retries ∧
    (responseStep s).events.abandoned = s.events.abandoned := by
  unfold responseStep
  try dsimp only
  repeat' split
  all_goals simp_all

/-! ### Tributary -/

@[simp] theorem countLinkError_frame (k : LinkError) (s : State) :
    (countLinkError k s).pending = s.pending ∧ (countLinkError k s).pins = s.pins ∧
    (countLinkError k s).toData = s.toData ∧ (countLinkError k s).tickCounter = s.tickCounter ∧
    (countLinkError k s).nodeAddress = s.nodeAddress ∧ (countLinkError k s).align = s.align ∧
    (countLinkError k s).slot = s.slot ∧ (countLinkError k s).circuits = s.circuits ∧
    (countLinkError k s).contexts = s.contexts ∧ (countLinkError k s).pool = s.pool ∧
    (countLinkError k s).delivery = s.delivery ∧ (countLinkError k s).trib.ready = s.trib.ready ∧
    (countLinkError k s).trib.parser = s.trib.parser ∧ (countLinkError k s).trib.rejects = s.trib.rejects ∧
    (countLinkError k s).trib.tx = s.trib.tx ∧ (countLinkError k s).trib.frame = s.trib.frame ∧
    (countLinkError k s).addQueues = s.addQueues ∧ (countLinkError k s).emitters = s.emitters ∧
    (countLinkError k s).arbiter = s.arbiter ∧ (countLinkError k s).engine = s.engine ∧
    (countLinkError k s).events = s.events ∧ (countLinkError k s).owed = s.owed := by
  unfold countLinkError
  try dsimp only
  repeat' split
  all_goals simp_all

@[simp] theorem dropFrame_frame (k : LinkError) (s : State) :
    (dropFrame k s).pending = s.pending ∧ (dropFrame k s).pins = s.pins ∧ (dropFrame k s).toData = s.toData ∧
    (dropFrame k s).tickCounter = s.tickCounter ∧ (dropFrame k s).nodeAddress = s.nodeAddress ∧
    (dropFrame k s).align = s.align ∧ (dropFrame k s).slot = s.slot ∧ (dropFrame k s).circuits = s.circuits ∧
    (dropFrame k s).contexts = s.contexts ∧ (dropFrame k s).pool = s.pool ∧ (dropFrame k s).delivery = s.delivery ∧
    (dropFrame k s).trib.ready = s.trib.ready ∧ (dropFrame k s).trib.rejects = s.trib.rejects ∧
    (dropFrame k s).trib.tx = s.trib.tx ∧ (dropFrame k s).trib.frame = s.trib.frame ∧
    (dropFrame k s).addQueues = s.addQueues ∧ (dropFrame k s).emitters = s.emitters ∧
    (dropFrame k s).arbiter = s.arbiter ∧ (dropFrame k s).engine = s.engine ∧
    (dropFrame k s).events.stack = s.events.stack ∧ (dropFrame k s).events.bindings = s.events.bindings ∧
    (dropFrame k s).events.faults = s.events.faults ∧ (dropFrame k s).events.overflow = s.events.overflow ∧
    (dropFrame k s).events.canned = s.events.canned ∧ (dropFrame k s).events.records = s.events.records ∧
    (dropFrame k s).events.sequence = s.events.sequence ∧ (dropFrame k s).events.floor = s.events.floor ∧
    (dropFrame k s).events.timeout = s.events.timeout ∧ (dropFrame k s).events.retries = s.events.retries ∧
    (dropFrame k s).events.misses = s.events.misses ∧ (dropFrame k s).events.abandoned = s.events.abandoned ∧
    (dropFrame k s).owed = s.owed := by
  simp [dropFrame]

@[simp] theorem offerReject_frame (e : RejectEntry) (s : State) :
    (offerReject e s).pending = s.pending ∧ (offerReject e s).pins = s.pins ∧ (offerReject e s).toData = s.toData ∧
    (offerReject e s).tickCounter = s.tickCounter ∧ (offerReject e s).nodeAddress = s.nodeAddress ∧
    (offerReject e s).align = s.align ∧ (offerReject e s).slot = s.slot ∧ (offerReject e s).circuits = s.circuits ∧
    (offerReject e s).contexts = s.contexts ∧ (offerReject e s).pool = s.pool ∧
    (offerReject e s).delivery = s.delivery ∧ (offerReject e s).trib.ready = s.trib.ready ∧
    (offerReject e s).trib.parser = s.trib.parser ∧ (offerReject e s).trib.tx = s.trib.tx ∧
    (offerReject e s).trib.frame = s.trib.frame ∧ (offerReject e s).addQueues = s.addQueues ∧
    (offerReject e s).emitters = s.emitters ∧ (offerReject e s).arbiter = s.arbiter ∧
    (offerReject e s).engine = s.engine ∧ (offerReject e s).events = s.events ∧ (offerReject e s).owed = s.owed := by
  unfold offerReject
  try dsimp only
  repeat' split
  all_goals simp_all

@[simp] theorem countRefusedAdd_frame (circuit : Byte) (s : State) :
    (countRefusedAdd circuit s).pending = s.pending ∧ (countRefusedAdd circuit s).pins = s.pins ∧
    (countRefusedAdd circuit s).toData = s.toData ∧ (countRefusedAdd circuit s).tickCounter = s.tickCounter ∧
    (countRefusedAdd circuit s).nodeAddress = s.nodeAddress ∧ (countRefusedAdd circuit s).align = s.align ∧
    (countRefusedAdd circuit s).slot = s.slot ∧ (countRefusedAdd circuit s).contexts = s.contexts ∧
    (countRefusedAdd circuit s).pool = s.pool ∧ (countRefusedAdd circuit s).delivery = s.delivery ∧
    (countRefusedAdd circuit s).trib.ready = s.trib.ready ∧ (countRefusedAdd circuit s).trib.parser = s.trib.parser ∧
    (countRefusedAdd circuit s).trib.rejects = s.trib.rejects ∧ (countRefusedAdd circuit s).trib.tx = s.trib.tx ∧
    (countRefusedAdd circuit s).trib.frame = s.trib.frame ∧ (countRefusedAdd circuit s).addQueues = s.addQueues ∧
    (countRefusedAdd circuit s).emitters = s.emitters ∧ (countRefusedAdd circuit s).arbiter = s.arbiter ∧
    (countRefusedAdd circuit s).engine = s.engine ∧ (countRefusedAdd circuit s).events = s.events ∧
    (countRefusedAdd circuit s).owed = s.owed := by
  unfold countRefusedAdd
  try dsimp only
  repeat' split
  all_goals simp_all

@[simp] theorem refuseAdd_frame (tag circuit : Byte) (reason : RejectReason) (s : State) :
    (refuseAdd tag circuit reason s).pending = s.pending ∧ (refuseAdd tag circuit reason s).pins = s.pins ∧
    (refuseAdd tag circuit reason s).toData = s.toData ∧
    (refuseAdd tag circuit reason s).tickCounter = s.tickCounter ∧
    (refuseAdd tag circuit reason s).nodeAddress = s.nodeAddress ∧ (refuseAdd tag circuit reason s).align = s.align ∧
    (refuseAdd tag circuit reason s).slot = s.slot ∧ (refuseAdd tag circuit reason s).contexts = s.contexts ∧
    (refuseAdd tag circuit reason s).pool = s.pool ∧ (refuseAdd tag circuit reason s).delivery = s.delivery ∧
    (refuseAdd tag circuit reason s).trib.ready = s.trib.ready ∧
    (refuseAdd tag circuit reason s).trib.parser = s.trib.parser ∧
    (refuseAdd tag circuit reason s).trib.tx = s.trib.tx ∧
    (refuseAdd tag circuit reason s).trib.frame = s.trib.frame ∧
    (refuseAdd tag circuit reason s).addQueues = s.addQueues ∧
    (refuseAdd tag circuit reason s).emitters = s.emitters ∧ (refuseAdd tag circuit reason s).arbiter = s.arbiter ∧
    (refuseAdd tag circuit reason s).engine = s.engine ∧
    (refuseAdd tag circuit reason s).events.stack = s.events.stack ∧
    (refuseAdd tag circuit reason s).events.bindings = s.events.bindings ∧
    (refuseAdd tag circuit reason s).events.faults = s.events.faults ∧
    (refuseAdd tag circuit reason s).events.overflow = s.events.overflow ∧
    (refuseAdd tag circuit reason s).events.canned = s.events.canned ∧
    (refuseAdd tag circuit reason s).events.records = s.events.records ∧
    (refuseAdd tag circuit reason s).events.sequence = s.events.sequence ∧
    (refuseAdd tag circuit reason s).events.floor = s.events.floor ∧
    (refuseAdd tag circuit reason s).events.timeout = s.events.timeout ∧
    (refuseAdd tag circuit reason s).events.retries = s.events.retries ∧
    (refuseAdd tag circuit reason s).events.misses = s.events.misses ∧
    (refuseAdd tag circuit reason s).events.abandoned = s.events.abandoned ∧
    (refuseAdd tag circuit reason s).owed = s.owed := by
  simp [refuseAdd]

@[simp] theorem admitAdd_frame (tag : Byte) (c : Circuit) (cls : Class) (mark : Bool) (body : List Byte) (s : State) :
    (admitAdd tag c cls mark body s).pending = s.pending ∧ (admitAdd tag c cls mark body s).pins = s.pins ∧
    (admitAdd tag c cls mark body s).toData = s.toData ∧
    (admitAdd tag c cls mark body s).tickCounter = s.tickCounter ∧
    (admitAdd tag c cls mark body s).nodeAddress = s.nodeAddress ∧ (admitAdd tag c cls mark body s).align = s.align ∧
    (admitAdd tag c cls mark body s).slot = s.slot ∧ (admitAdd tag c cls mark body s).contexts = s.contexts ∧
    (admitAdd tag c cls mark body s).pool.segReserve = s.pool.segReserve ∧
    (admitAdd tag c cls mark body s).pool.descReserve = s.pool.descReserve ∧
    (admitAdd tag c cls mark body s).delivery = s.delivery ∧
    (admitAdd tag c cls mark body s).trib.ready = s.trib.ready ∧
    (admitAdd tag c cls mark body s).trib.parser = s.trib.parser ∧
    (admitAdd tag c cls mark body s).trib.tx = s.trib.tx ∧
    (admitAdd tag c cls mark body s).trib.frame = s.trib.frame ∧
    (admitAdd tag c cls mark body s).emitters = s.emitters ∧ (admitAdd tag c cls mark body s).arbiter = s.arbiter ∧
    (admitAdd tag c cls mark body s).engine = s.engine ∧
    (admitAdd tag c cls mark body s).events.stack = s.events.stack ∧
    (admitAdd tag c cls mark body s).events.bindings = s.events.bindings ∧
    (admitAdd tag c cls mark body s).events.faults = s.events.faults ∧
    (admitAdd tag c cls mark body s).events.overflow = s.events.overflow ∧
    (admitAdd tag c cls mark body s).events.canned = s.events.canned ∧
    (admitAdd tag c cls mark body s).events.records = s.events.records ∧
    (admitAdd tag c cls mark body s).events.sequence = s.events.sequence ∧
    (admitAdd tag c cls mark body s).events.floor = s.events.floor ∧
    (admitAdd tag c cls mark body s).events.timeout = s.events.timeout ∧
    (admitAdd tag c cls mark body s).events.retries = s.events.retries ∧
    (admitAdd tag c cls mark body s).events.misses = s.events.misses ∧
    (admitAdd tag c cls mark body s).events.abandoned = s.events.abandoned ∧
    (admitAdd tag c cls mark body s).owed = s.owed := by
  unfold admitAdd
  try dsimp only
  repeat' split
  all_goals first
    | (simp; done)
    | (simp_all; done)
    | (rename_i h; have := enqueue_frame h; simp_all; done)
    | (rename_i h; have := allocate_frame h; simp_all; done)

@[simp] theorem judgeAdd_frame (payload : List Byte) (s : State) :
    (judgeAdd payload s).pending = s.pending ∧ (judgeAdd payload s).pins = s.pins ∧
    (judgeAdd payload s).toData = s.toData ∧ (judgeAdd payload s).tickCounter = s.tickCounter ∧
    (judgeAdd payload s).nodeAddress = s.nodeAddress ∧ (judgeAdd payload s).align = s.align ∧
    (judgeAdd payload s).slot = s.slot ∧ (judgeAdd payload s).contexts = s.contexts ∧
    (judgeAdd payload s).pool.segReserve = s.pool.segReserve ∧
    (judgeAdd payload s).pool.descReserve = s.pool.descReserve ∧ (judgeAdd payload s).delivery = s.delivery ∧
    (judgeAdd payload s).trib.ready = s.trib.ready ∧ (judgeAdd payload s).trib.tx = s.trib.tx ∧
    (judgeAdd payload s).trib.frame = s.trib.frame ∧ (judgeAdd payload s).emitters = s.emitters ∧
    (judgeAdd payload s).arbiter = s.arbiter ∧ (judgeAdd payload s).engine = s.engine ∧
    (judgeAdd payload s).events.stack = s.events.stack ∧ (judgeAdd payload s).events.bindings = s.events.bindings ∧
    (judgeAdd payload s).events.faults = s.events.faults ∧ (judgeAdd payload s).events.overflow = s.events.overflow ∧
    (judgeAdd payload s).events.canned = s.events.canned ∧ (judgeAdd payload s).events.records = s.events.records ∧
    (judgeAdd payload s).events.sequence = s.events.sequence ∧ (judgeAdd payload s).events.floor = s.events.floor ∧
    (judgeAdd payload s).events.timeout = s.events.timeout ∧ (judgeAdd payload s).events.retries = s.events.retries ∧
    (judgeAdd payload s).events.misses = s.events.misses ∧
    (judgeAdd payload s).events.abandoned = s.events.abandoned ∧ (judgeAdd payload s).owed = s.owed := by
  unfold judgeAdd
  try dsimp only
  repeat' split
  all_goals simp_all

@[simp] theorem judgeCredit_frame (payload : List Byte) (s : State) :
    (judgeCredit payload s).pending = s.pending ∧ (judgeCredit payload s).pins = s.pins ∧
    (judgeCredit payload s).toData = s.toData ∧ (judgeCredit payload s).tickCounter = s.tickCounter ∧
    (judgeCredit payload s).nodeAddress = s.nodeAddress ∧ (judgeCredit payload s).align = s.align ∧
    (judgeCredit payload s).slot = s.slot ∧ (judgeCredit payload s).circuits = s.circuits ∧
    (judgeCredit payload s).contexts = s.contexts ∧ (judgeCredit payload s).pool = s.pool ∧
    (judgeCredit payload s).delivery.queues = s.delivery.queues ∧
    (judgeCredit payload s).delivery.quanta = s.delivery.quanta ∧
    (judgeCredit payload s).delivery.ageLimits = s.delivery.ageLimits ∧
    (judgeCredit payload s).delivery.stallLimit = s.delivery.stallLimit ∧
    (judgeCredit payload s).delivery.inDelivery = s.delivery.inDelivery ∧
    (judgeCredit payload s).delivery.retries = s.delivery.retries ∧
    (judgeCredit payload s).trib.ready = s.trib.ready ∧ (judgeCredit payload s).trib.rejects = s.trib.rejects ∧
    (judgeCredit payload s).trib.tx = s.trib.tx ∧ (judgeCredit payload s).trib.frame = s.trib.frame ∧
    (judgeCredit payload s).addQueues = s.addQueues ∧ (judgeCredit payload s).emitters = s.emitters ∧
    (judgeCredit payload s).arbiter = s.arbiter ∧ (judgeCredit payload s).engine = s.engine ∧
    (judgeCredit payload s).events.stack = s.events.stack ∧
    (judgeCredit payload s).events.bindings = s.events.bindings ∧
    (judgeCredit payload s).events.faults = s.events.faults ∧
    (judgeCredit payload s).events.overflow = s.events.overflow ∧
    (judgeCredit payload s).events.canned = s.events.canned ∧
    (judgeCredit payload s).events.records = s.events.records ∧
    (judgeCredit payload s).events.sequence = s.events.sequence ∧
    (judgeCredit payload s).events.floor = s.events.floor ∧
    (judgeCredit payload s).events.timeout = s.events.timeout ∧
    (judgeCredit payload s).events.retries = s.events.retries ∧
    (judgeCredit payload s).events.misses = s.events.misses ∧
    (judgeCredit payload s).events.abandoned = s.events.abandoned ∧ (judgeCredit payload s).owed = s.owed := by
  unfold judgeCredit
  try dsimp only
  repeat' split
  all_goals simp_all

@[simp] theorem acceptFrame_frame (p : Parser) (s : State) :
    (acceptFrame p s).pending = s.pending ∧ (acceptFrame p s).pins = s.pins ∧ (acceptFrame p s).toData = s.toData ∧
    (acceptFrame p s).tickCounter = s.tickCounter ∧ (acceptFrame p s).nodeAddress = s.nodeAddress ∧
    (acceptFrame p s).align = s.align ∧ (acceptFrame p s).slot = s.slot ∧ (acceptFrame p s).contexts = s.contexts ∧
    (acceptFrame p s).pool.segReserve = s.pool.segReserve ∧ (acceptFrame p s).pool.descReserve = s.pool.descReserve ∧
    (acceptFrame p s).delivery.queues = s.delivery.queues ∧ (acceptFrame p s).delivery.quanta = s.delivery.quanta ∧
    (acceptFrame p s).delivery.ageLimits = s.delivery.ageLimits ∧
    (acceptFrame p s).delivery.stallLimit = s.delivery.stallLimit ∧
    (acceptFrame p s).delivery.inDelivery = s.delivery.inDelivery ∧
    (acceptFrame p s).delivery.retries = s.delivery.retries ∧ (acceptFrame p s).trib.ready = s.trib.ready ∧
    (acceptFrame p s).trib.tx = s.trib.tx ∧ (acceptFrame p s).trib.frame = s.trib.frame ∧
    (acceptFrame p s).emitters = s.emitters ∧ (acceptFrame p s).arbiter = s.arbiter ∧
    (acceptFrame p s).engine = s.engine ∧ (acceptFrame p s).events.stack = s.events.stack ∧
    (acceptFrame p s).events.bindings = s.events.bindings ∧ (acceptFrame p s).events.faults = s.events.faults ∧
    (acceptFrame p s).events.overflow = s.events.overflow ∧ (acceptFrame p s).events.canned = s.events.canned ∧
    (acceptFrame p s).events.records = s.events.records ∧ (acceptFrame p s).events.sequence = s.events.sequence ∧
    (acceptFrame p s).events.floor = s.events.floor ∧ (acceptFrame p s).events.timeout = s.events.timeout ∧
    (acceptFrame p s).events.retries = s.events.retries ∧ (acceptFrame p s).events.misses = s.events.misses ∧
    (acceptFrame p s).events.abandoned = s.events.abandoned ∧ (acceptFrame p s).owed = s.owed := by
  unfold acceptFrame
  try dsimp only
  repeat' split
  all_goals simp_all

@[simp] theorem parseHunt_frame (b : Byte) (s : State) :
    (parseHunt b s).pending = s.pending ∧ (parseHunt b s).pins = s.pins ∧ (parseHunt b s).toData = s.toData ∧
    (parseHunt b s).tickCounter = s.tickCounter ∧ (parseHunt b s).nodeAddress = s.nodeAddress ∧
    (parseHunt b s).align = s.align ∧ (parseHunt b s).slot = s.slot ∧ (parseHunt b s).circuits = s.circuits ∧
    (parseHunt b s).contexts = s.contexts ∧ (parseHunt b s).pool = s.pool ∧ (parseHunt b s).delivery = s.delivery ∧
    (parseHunt b s).trib.ready = s.trib.ready ∧ (parseHunt b s).trib.rejects = s.trib.rejects ∧
    (parseHunt b s).trib.tx = s.trib.tx ∧ (parseHunt b s).trib.frame = s.trib.frame ∧
    (parseHunt b s).addQueues = s.addQueues ∧ (parseHunt b s).emitters = s.emitters ∧
    (parseHunt b s).arbiter = s.arbiter ∧ (parseHunt b s).engine = s.engine ∧ (parseHunt b s).events = s.events ∧
    (parseHunt b s).owed = s.owed := by
  unfold parseHunt
  try dsimp only
  repeat' split
  all_goals simp_all

@[simp] theorem parseType_frame (b : Byte) (s : State) :
    (parseType b s).pending = s.pending ∧ (parseType b s).pins = s.pins ∧ (parseType b s).toData = s.toData ∧
    (parseType b s).tickCounter = s.tickCounter ∧ (parseType b s).nodeAddress = s.nodeAddress ∧
    (parseType b s).align = s.align ∧ (parseType b s).slot = s.slot ∧ (parseType b s).circuits = s.circuits ∧
    (parseType b s).contexts = s.contexts ∧ (parseType b s).pool = s.pool ∧ (parseType b s).delivery = s.delivery ∧
    (parseType b s).trib.ready = s.trib.ready ∧ (parseType b s).trib.rejects = s.trib.rejects ∧
    (parseType b s).trib.tx = s.trib.tx ∧ (parseType b s).trib.frame = s.trib.frame ∧
    (parseType b s).addQueues = s.addQueues ∧ (parseType b s).emitters = s.emitters ∧
    (parseType b s).arbiter = s.arbiter ∧ (parseType b s).engine = s.engine ∧
    (parseType b s).events.stack = s.events.stack ∧ (parseType b s).events.bindings = s.events.bindings ∧
    (parseType b s).events.faults = s.events.faults ∧ (parseType b s).events.overflow = s.events.overflow ∧
    (parseType b s).events.canned = s.events.canned ∧ (parseType b s).events.records = s.events.records ∧
    (parseType b s).events.sequence = s.events.sequence ∧ (parseType b s).events.floor = s.events.floor ∧
    (parseType b s).events.timeout = s.events.timeout ∧ (parseType b s).events.retries = s.events.retries ∧
    (parseType b s).events.misses = s.events.misses ∧ (parseType b s).events.abandoned = s.events.abandoned ∧
    (parseType b s).owed = s.owed := by
  unfold parseType
  try dsimp only
  repeat' split
  all_goals simp_all

@[simp] theorem parseLength_frame (b : Byte) (s : State) :
    (parseLength b s).pending = s.pending ∧ (parseLength b s).pins = s.pins ∧ (parseLength b s).toData = s.toData ∧
    (parseLength b s).tickCounter = s.tickCounter ∧ (parseLength b s).nodeAddress = s.nodeAddress ∧
    (parseLength b s).align = s.align ∧ (parseLength b s).slot = s.slot ∧ (parseLength b s).circuits = s.circuits ∧
    (parseLength b s).contexts = s.contexts ∧ (parseLength b s).pool = s.pool ∧
    (parseLength b s).delivery = s.delivery ∧ (parseLength b s).trib.ready = s.trib.ready ∧
    (parseLength b s).trib.rejects = s.trib.rejects ∧ (parseLength b s).trib.tx = s.trib.tx ∧
    (parseLength b s).trib.frame = s.trib.frame ∧ (parseLength b s).addQueues = s.addQueues ∧
    (parseLength b s).emitters = s.emitters ∧ (parseLength b s).arbiter = s.arbiter ∧
    (parseLength b s).engine = s.engine ∧ (parseLength b s).events.stack = s.events.stack ∧
    (parseLength b s).events.bindings = s.events.bindings ∧ (parseLength b s).events.faults = s.events.faults ∧
    (parseLength b s).events.overflow = s.events.overflow ∧ (parseLength b s).events.canned = s.events.canned ∧
    (parseLength b s).events.records = s.events.records ∧ (parseLength b s).events.sequence = s.events.sequence ∧
    (parseLength b s).events.floor = s.events.floor ∧ (parseLength b s).events.timeout = s.events.timeout ∧
    (parseLength b s).events.retries = s.events.retries ∧ (parseLength b s).events.misses = s.events.misses ∧
    (parseLength b s).events.abandoned = s.events.abandoned ∧ (parseLength b s).owed = s.owed := by
  unfold parseLength
  try dsimp only
  repeat' split
  all_goals simp_all

@[simp] theorem parsePayload_frame (b : Byte) (s : State) :
    (parsePayload b s).pending = s.pending ∧ (parsePayload b s).pins = s.pins ∧ (parsePayload b s).toData = s.toData ∧
    (parsePayload b s).tickCounter = s.tickCounter ∧ (parsePayload b s).nodeAddress = s.nodeAddress ∧
    (parsePayload b s).align = s.align ∧ (parsePayload b s).slot = s.slot ∧ (parsePayload b s).circuits = s.circuits ∧
    (parsePayload b s).contexts = s.contexts ∧ (parsePayload b s).pool = s.pool ∧
    (parsePayload b s).delivery = s.delivery ∧ (parsePayload b s).trib.ready = s.trib.ready ∧
    (parsePayload b s).trib.rejects = s.trib.rejects ∧ (parsePayload b s).trib.counters = s.trib.counters ∧
    (parsePayload b s).trib.tx = s.trib.tx ∧ (parsePayload b s).trib.frame = s.trib.frame ∧
    (parsePayload b s).addQueues = s.addQueues ∧ (parsePayload b s).emitters = s.emitters ∧
    (parsePayload b s).arbiter = s.arbiter ∧ (parsePayload b s).engine = s.engine ∧
    (parsePayload b s).events = s.events ∧ (parsePayload b s).owed = s.owed := by
  simp [parsePayload]

@[simp] theorem parseCheck_frame (b : Byte) (s : State) :
    (parseCheck b s).pending = s.pending ∧ (parseCheck b s).pins = s.pins ∧ (parseCheck b s).toData = s.toData ∧
    (parseCheck b s).tickCounter = s.tickCounter ∧ (parseCheck b s).nodeAddress = s.nodeAddress ∧
    (parseCheck b s).align = s.align ∧ (parseCheck b s).slot = s.slot ∧ (parseCheck b s).contexts = s.contexts ∧
    (parseCheck b s).pool.segReserve = s.pool.segReserve ∧ (parseCheck b s).pool.descReserve = s.pool.descReserve ∧
    (parseCheck b s).delivery.queues = s.delivery.queues ∧ (parseCheck b s).delivery.quanta = s.delivery.quanta ∧
    (parseCheck b s).delivery.ageLimits = s.delivery.ageLimits ∧
    (parseCheck b s).delivery.stallLimit = s.delivery.stallLimit ∧
    (parseCheck b s).delivery.inDelivery = s.delivery.inDelivery ∧
    (parseCheck b s).delivery.retries = s.delivery.retries ∧ (parseCheck b s).trib.ready = s.trib.ready ∧
    (parseCheck b s).trib.tx = s.trib.tx ∧ (parseCheck b s).trib.frame = s.trib.frame ∧
    (parseCheck b s).emitters = s.emitters ∧ (parseCheck b s).arbiter = s.arbiter ∧
    (parseCheck b s).engine = s.engine ∧ (parseCheck b s).events.stack = s.events.stack ∧
    (parseCheck b s).events.bindings = s.events.bindings ∧ (parseCheck b s).events.faults = s.events.faults ∧
    (parseCheck b s).events.overflow = s.events.overflow ∧ (parseCheck b s).events.canned = s.events.canned ∧
    (parseCheck b s).events.records = s.events.records ∧ (parseCheck b s).events.sequence = s.events.sequence ∧
    (parseCheck b s).events.floor = s.events.floor ∧ (parseCheck b s).events.timeout = s.events.timeout ∧
    (parseCheck b s).events.retries = s.events.retries ∧ (parseCheck b s).events.misses = s.events.misses ∧
    (parseCheck b s).events.abandoned = s.events.abandoned ∧ (parseCheck b s).owed = s.owed := by
  unfold parseCheck
  try dsimp only
  repeat' split
  all_goals simp_all

@[simp] theorem parseOctet_frame (b : Byte) (s : State) :
    (parseOctet b s).pending = s.pending ∧ (parseOctet b s).pins = s.pins ∧ (parseOctet b s).toData = s.toData ∧
    (parseOctet b s).tickCounter = s.tickCounter ∧ (parseOctet b s).nodeAddress = s.nodeAddress ∧
    (parseOctet b s).align = s.align ∧ (parseOctet b s).slot = s.slot ∧ (parseOctet b s).contexts = s.contexts ∧
    (parseOctet b s).pool.segReserve = s.pool.segReserve ∧ (parseOctet b s).pool.descReserve = s.pool.descReserve ∧
    (parseOctet b s).delivery.queues = s.delivery.queues ∧ (parseOctet b s).delivery.quanta = s.delivery.quanta ∧
    (parseOctet b s).delivery.ageLimits = s.delivery.ageLimits ∧
    (parseOctet b s).delivery.stallLimit = s.delivery.stallLimit ∧
    (parseOctet b s).delivery.inDelivery = s.delivery.inDelivery ∧
    (parseOctet b s).delivery.retries = s.delivery.retries ∧ (parseOctet b s).trib.ready = s.trib.ready ∧
    (parseOctet b s).trib.tx = s.trib.tx ∧ (parseOctet b s).trib.frame = s.trib.frame ∧
    (parseOctet b s).emitters = s.emitters ∧ (parseOctet b s).arbiter = s.arbiter ∧
    (parseOctet b s).engine = s.engine ∧ (parseOctet b s).events.stack = s.events.stack ∧
    (parseOctet b s).events.bindings = s.events.bindings ∧ (parseOctet b s).events.faults = s.events.faults ∧
    (parseOctet b s).events.overflow = s.events.overflow ∧ (parseOctet b s).events.canned = s.events.canned ∧
    (parseOctet b s).events.records = s.events.records ∧ (parseOctet b s).events.sequence = s.events.sequence ∧
    (parseOctet b s).events.floor = s.events.floor ∧ (parseOctet b s).events.timeout = s.events.timeout ∧
    (parseOctet b s).events.retries = s.events.retries ∧ (parseOctet b s).events.misses = s.events.misses ∧
    (parseOctet b s).events.abandoned = s.events.abandoned ∧ (parseOctet b s).owed = s.owed := by
  unfold parseOctet
  try dsimp only
  repeat' split
  all_goals simp_all

@[simp] theorem parseFramingError_frame (s : State) :
    (parseFramingError s).pending = s.pending ∧ (parseFramingError s).pins = s.pins ∧
    (parseFramingError s).toData = s.toData ∧ (parseFramingError s).tickCounter = s.tickCounter ∧
    (parseFramingError s).nodeAddress = s.nodeAddress ∧ (parseFramingError s).align = s.align ∧
    (parseFramingError s).slot = s.slot ∧ (parseFramingError s).circuits = s.circuits ∧
    (parseFramingError s).contexts = s.contexts ∧ (parseFramingError s).pool = s.pool ∧
    (parseFramingError s).delivery = s.delivery ∧ (parseFramingError s).trib.ready = s.trib.ready ∧
    (parseFramingError s).trib.rejects = s.trib.rejects ∧ (parseFramingError s).trib.tx = s.trib.tx ∧
    (parseFramingError s).trib.frame = s.trib.frame ∧ (parseFramingError s).addQueues = s.addQueues ∧
    (parseFramingError s).emitters = s.emitters ∧ (parseFramingError s).arbiter = s.arbiter ∧
    (parseFramingError s).engine = s.engine ∧ (parseFramingError s).events.stack = s.events.stack ∧
    (parseFramingError s).events.bindings = s.events.bindings ∧
    (parseFramingError s).events.faults = s.events.faults ∧
    (parseFramingError s).events.overflow = s.events.overflow ∧
    (parseFramingError s).events.canned = s.events.canned ∧ (parseFramingError s).events.records = s.events.records ∧
    (parseFramingError s).events.sequence = s.events.sequence ∧ (parseFramingError s).events.floor = s.events.floor ∧
    (parseFramingError s).events.timeout = s.events.timeout ∧
    (parseFramingError s).events.retries = s.events.retries ∧ (parseFramingError s).events.misses = s.events.misses ∧
    (parseFramingError s).events.abandoned = s.events.abandoned ∧ (parseFramingError s).owed = s.owed := by
  unfold parseFramingError
  try dsimp only
  repeat' split
  all_goals simp_all

@[simp] theorem startReject_frame (s : State) :
    (startReject s).pending = s.pending ∧ (startReject s).pins = s.pins ∧ (startReject s).toData = s.toData ∧
    (startReject s).tickCounter = s.tickCounter ∧ (startReject s).nodeAddress = s.nodeAddress ∧
    (startReject s).align = s.align ∧ (startReject s).slot = s.slot ∧ (startReject s).circuits = s.circuits ∧
    (startReject s).contexts = s.contexts ∧ (startReject s).pool = s.pool ∧ (startReject s).delivery = s.delivery ∧
    (startReject s).trib.ready = s.trib.ready ∧ (startReject s).trib.parser = s.trib.parser ∧
    (startReject s).trib.counters = s.trib.counters ∧ (startReject s).addQueues = s.addQueues ∧
    (startReject s).emitters = s.emitters ∧ (startReject s).arbiter = s.arbiter ∧ (startReject s).engine = s.engine ∧
    (startReject s).events = s.events ∧ (startReject s).owed = s.owed := by
  unfold startReject
  try dsimp only
  repeat' split
  all_goals simp_all

@[simp] theorem endReject_frame (s : State) :
    (endReject s).pending = s.pending ∧ (endReject s).pins = s.pins ∧ (endReject s).toData = s.toData ∧
    (endReject s).tickCounter = s.tickCounter ∧ (endReject s).nodeAddress = s.nodeAddress ∧
    (endReject s).align = s.align ∧ (endReject s).slot = s.slot ∧ (endReject s).circuits = s.circuits ∧
    (endReject s).contexts = s.contexts ∧ (endReject s).pool = s.pool ∧ (endReject s).delivery = s.delivery ∧
    (endReject s).trib.ready = s.trib.ready ∧ (endReject s).trib.parser = s.trib.parser ∧
    (endReject s).trib.rejects = s.trib.rejects ∧ (endReject s).addQueues = s.addQueues ∧
    (endReject s).emitters = s.emitters ∧ (endReject s).arbiter = s.arbiter ∧ (endReject s).engine = s.engine ∧
    (endReject s).events = s.events ∧ (endReject s).owed = s.owed := by
  unfold endReject
  try dsimp only
  repeat' split
  all_goals simp_all

@[simp] theorem takeReadyFall_frame (s : State) :
    (takeReadyFall s).pending = s.pending ∧ (takeReadyFall s).pins = s.pins ∧ (takeReadyFall s).toData = s.toData ∧
    (takeReadyFall s).tickCounter = s.tickCounter ∧ (takeReadyFall s).nodeAddress = s.nodeAddress ∧
    (takeReadyFall s).align = s.align ∧ (takeReadyFall s).slot = s.slot ∧ (takeReadyFall s).circuits = s.circuits ∧
    (takeReadyFall s).contexts = s.contexts ∧ (takeReadyFall s).pool.store = s.pool.store ∧
    (takeReadyFall s).pool.segReserve = s.pool.segReserve ∧ (takeReadyFall s).pool.descReserve = s.pool.descReserve ∧
    (takeReadyFall s).pool.freeSegs = s.pool.freeSegs ∧ (takeReadyFall s).pool.freeDescs = s.pool.freeDescs ∧
    (takeReadyFall s).delivery.quanta = s.delivery.quanta ∧
    (takeReadyFall s).delivery.ageLimits = s.delivery.ageLimits ∧
    (takeReadyFall s).delivery.stallLimit = s.delivery.stallLimit ∧
    (takeReadyFall s).delivery.discarded = s.delivery.discarded ∧ (takeReadyFall s).trib.parser = s.trib.parser ∧
    (takeReadyFall s).trib.rejects = s.trib.rejects ∧ (takeReadyFall s).trib.counters = s.trib.counters ∧
    (takeReadyFall s).addQueues = s.addQueues ∧ (takeReadyFall s).emitters = s.emitters ∧
    (takeReadyFall s).arbiter = s.arbiter ∧ (takeReadyFall s).engine = s.engine ∧
    (takeReadyFall s).events = s.events ∧ (takeReadyFall s).owed = s.owed := by
  unfold takeReadyFall
  try dsimp only
  repeat' split
  all_goals simp_all

@[simp] theorem takeReadyRise_frame (s : State) :
    (takeReadyRise s).pending = s.pending ∧ (takeReadyRise s).pins = s.pins ∧ (takeReadyRise s).toData = s.toData ∧
    (takeReadyRise s).tickCounter = s.tickCounter ∧ (takeReadyRise s).nodeAddress = s.nodeAddress ∧
    (takeReadyRise s).align = s.align ∧ (takeReadyRise s).slot = s.slot ∧ (takeReadyRise s).circuits = s.circuits ∧
    (takeReadyRise s).contexts = s.contexts ∧ (takeReadyRise s).pool = s.pool ∧
    (takeReadyRise s).delivery = s.delivery ∧ (takeReadyRise s).trib.parser = s.trib.parser ∧
    (takeReadyRise s).trib.rejects = s.trib.rejects ∧ (takeReadyRise s).trib.counters = s.trib.counters ∧
    (takeReadyRise s).trib.tx = s.trib.tx ∧ (takeReadyRise s).trib.frame = s.trib.frame ∧
    (takeReadyRise s).addQueues = s.addQueues ∧ (takeReadyRise s).emitters = s.emitters ∧
    (takeReadyRise s).arbiter = s.arbiter ∧ (takeReadyRise s).engine = s.engine ∧
    (takeReadyRise s).events = s.events ∧ (takeReadyRise s).owed = s.owed := by
  simp [takeReadyRise]

/-! ### Trunk -/

@[simp] theorem searchOctet_frame (b : Byte) (s : State) :
    (searchOctet b s).pending = s.pending ∧ (searchOctet b s).pins = s.pins ∧ (searchOctet b s).toData = s.toData ∧
    (searchOctet b s).tickCounter = s.tickCounter ∧ (searchOctet b s).nodeAddress = s.nodeAddress ∧
    (searchOctet b s).slot = s.slot ∧ (searchOctet b s).circuits = s.circuits ∧
    (searchOctet b s).contexts = s.contexts ∧ (searchOctet b s).pool = s.pool ∧
    (searchOctet b s).delivery = s.delivery ∧ (searchOctet b s).trib = s.trib ∧
    (searchOctet b s).addQueues = s.addQueues ∧ (searchOctet b s).emitters = s.emitters ∧
    (searchOctet b s).arbiter = s.arbiter ∧ (searchOctet b s).engine = s.engine ∧
    (searchOctet b s).events = s.events ∧ (searchOctet b s).owed = s.owed := by
  unfold searchOctet
  try dsimp only
  repeat' split
  all_goals simp_all

@[simp] theorem gainAlignment_frame (f : BitVec 4) (s : State) :
    (gainAlignment f s).pending = s.pending ∧ (gainAlignment f s).pins = s.pins ∧
    (gainAlignment f s).toData = s.toData ∧ (gainAlignment f s).tickCounter = s.tickCounter ∧
    (gainAlignment f s).nodeAddress = s.nodeAddress ∧ (gainAlignment f s).slot.bankA = s.slot.bankA ∧
    (gainAlignment f s).slot.bankB = s.slot.bankB ∧ (gainAlignment f s).slot.active = s.slot.active ∧
    (gainAlignment f s).slot.swap = s.slot.swap ∧ (gainAlignment f s).slot.armed = s.slot.armed ∧
    (gainAlignment f s).slot.countdown = s.slot.countdown ∧ (gainAlignment f s).circuits = s.circuits ∧
    (gainAlignment f s).contexts = s.contexts ∧ (gainAlignment f s).pool = s.pool ∧
    (gainAlignment f s).delivery = s.delivery ∧ (gainAlignment f s).trib = s.trib ∧
    (gainAlignment f s).addQueues = s.addQueues ∧ (gainAlignment f s).emitters = s.emitters ∧
    (gainAlignment f s).arbiter = s.arbiter ∧ (gainAlignment f s).engine = s.engine ∧
    (gainAlignment f s).events.stack = s.events.stack ∧ (gainAlignment f s).events.bindings = s.events.bindings ∧
    (gainAlignment f s).events.faults = s.events.faults ∧ (gainAlignment f s).events.overflow = s.events.overflow ∧
    (gainAlignment f s).events.canned = s.events.canned ∧ (gainAlignment f s).events.records = s.events.records ∧
    (gainAlignment f s).events.sequence = s.events.sequence ∧ (gainAlignment f s).events.floor = s.events.floor ∧
    (gainAlignment f s).events.timeout = s.events.timeout ∧ (gainAlignment f s).events.retries = s.events.retries ∧
    (gainAlignment f s).events.misses = s.events.misses ∧ (gainAlignment f s).events.abandoned = s.events.abandoned ∧
    (gainAlignment f s).owed = s.owed := by
  simp [gainAlignment]

@[simp] theorem verifyMark_frame (b : Byte) (s : State) :
    (verifyMark b s).pending = s.pending ∧ (verifyMark b s).pins = s.pins ∧ (verifyMark b s).toData = s.toData ∧
    (verifyMark b s).tickCounter = s.tickCounter ∧ (verifyMark b s).nodeAddress = s.nodeAddress ∧
    (verifyMark b s).slot.bankA = s.slot.bankA ∧ (verifyMark b s).slot.bankB = s.slot.bankB ∧
    (verifyMark b s).slot.active = s.slot.active ∧ (verifyMark b s).slot.swap = s.slot.swap ∧
    (verifyMark b s).slot.armed = s.slot.armed ∧ (verifyMark b s).slot.countdown = s.slot.countdown ∧
    (verifyMark b s).circuits = s.circuits ∧ (verifyMark b s).contexts = s.contexts ∧ (verifyMark b s).pool = s.pool ∧
    (verifyMark b s).delivery = s.delivery ∧ (verifyMark b s).trib = s.trib ∧
    (verifyMark b s).addQueues = s.addQueues ∧ (verifyMark b s).emitters = s.emitters ∧
    (verifyMark b s).arbiter = s.arbiter ∧ (verifyMark b s).engine = s.engine ∧
    (verifyMark b s).events.stack = s.events.stack ∧ (verifyMark b s).events.bindings = s.events.bindings ∧
    (verifyMark b s).events.faults = s.events.faults ∧ (verifyMark b s).events.overflow = s.events.overflow ∧
    (verifyMark b s).events.canned = s.events.canned ∧ (verifyMark b s).events.records = s.events.records ∧
    (verifyMark b s).events.sequence = s.events.sequence ∧ (verifyMark b s).events.floor = s.events.floor ∧
    (verifyMark b s).events.timeout = s.events.timeout ∧ (verifyMark b s).events.retries = s.events.retries ∧
    (verifyMark b s).events.misses = s.events.misses ∧ (verifyMark b s).events.abandoned = s.events.abandoned ∧
    (verifyMark b s).owed = s.owed := by
  unfold verifyMark
  try dsimp only
  repeat' split
  all_goals simp_all

@[simp] theorem verifyOctet_frame (b : Byte) (s : State) :
    (verifyOctet b s).pending = s.pending ∧ (verifyOctet b s).pins = s.pins ∧ (verifyOctet b s).toData = s.toData ∧
    (verifyOctet b s).tickCounter = s.tickCounter ∧ (verifyOctet b s).nodeAddress = s.nodeAddress ∧
    (verifyOctet b s).slot.bankA = s.slot.bankA ∧ (verifyOctet b s).slot.bankB = s.slot.bankB ∧
    (verifyOctet b s).slot.active = s.slot.active ∧ (verifyOctet b s).slot.swap = s.slot.swap ∧
    (verifyOctet b s).slot.armed = s.slot.armed ∧ (verifyOctet b s).slot.countdown = s.slot.countdown ∧
    (verifyOctet b s).circuits = s.circuits ∧ (verifyOctet b s).contexts = s.contexts ∧
    (verifyOctet b s).pool = s.pool ∧ (verifyOctet b s).delivery = s.delivery ∧ (verifyOctet b s).trib = s.trib ∧
    (verifyOctet b s).addQueues = s.addQueues ∧ (verifyOctet b s).emitters = s.emitters ∧
    (verifyOctet b s).arbiter = s.arbiter ∧ (verifyOctet b s).engine = s.engine ∧
    (verifyOctet b s).events.stack = s.events.stack ∧ (verifyOctet b s).events.bindings = s.events.bindings ∧
    (verifyOctet b s).events.faults = s.events.faults ∧ (verifyOctet b s).events.overflow = s.events.overflow ∧
    (verifyOctet b s).events.canned = s.events.canned ∧ (verifyOctet b s).events.records = s.events.records ∧
    (verifyOctet b s).events.sequence = s.events.sequence ∧ (verifyOctet b s).events.floor = s.events.floor ∧
    (verifyOctet b s).events.timeout = s.events.timeout ∧ (verifyOctet b s).events.retries = s.events.retries ∧
    (verifyOctet b s).events.misses = s.events.misses ∧ (verifyOctet b s).events.abandoned = s.events.abandoned ∧
    (verifyOctet b s).owed = s.owed := by
  unfold verifyOctet
  try dsimp only
  repeat' split
  all_goals simp_all

@[simp] theorem loseAlignment_frame (s : State) :
    (loseAlignment s).pending = s.pending ∧ (loseAlignment s).pins = s.pins ∧ (loseAlignment s).toData = s.toData ∧
    (loseAlignment s).tickCounter = s.tickCounter ∧ (loseAlignment s).nodeAddress = s.nodeAddress ∧
    (loseAlignment s).slot.bankA = s.slot.bankA ∧ (loseAlignment s).slot.bankB = s.slot.bankB ∧
    (loseAlignment s).circuits = s.circuits ∧ (loseAlignment s).contexts = s.contexts ∧
    (loseAlignment s).pool = s.pool ∧ (loseAlignment s).delivery = s.delivery ∧ (loseAlignment s).trib = s.trib ∧
    (loseAlignment s).addQueues = s.addQueues ∧ (loseAlignment s).emitters = s.emitters ∧
    (loseAlignment s).arbiter = s.arbiter ∧ (loseAlignment s).engine = s.engine ∧
    (loseAlignment s).events.stack = s.events.stack ∧ (loseAlignment s).events.bindings = s.events.bindings ∧
    (loseAlignment s).events.faults = s.events.faults ∧ (loseAlignment s).events.overflow = s.events.overflow ∧
    (loseAlignment s).events.canned = s.events.canned ∧ (loseAlignment s).events.records = s.events.records ∧
    (loseAlignment s).events.sequence = s.events.sequence ∧ (loseAlignment s).events.floor = s.events.floor ∧
    (loseAlignment s).events.timeout = s.events.timeout ∧ (loseAlignment s).events.retries = s.events.retries ∧
    (loseAlignment s).events.misses = s.events.misses ∧ (loseAlignment s).events.abandoned = s.events.abandoned ∧
    (loseAlignment s).owed = s.owed := by
  simp [loseAlignment]

@[simp] theorem alignedMark_frame (b : Byte) (s : State) :
    (alignedMark b s).pending = s.pending ∧ (alignedMark b s).pins = s.pins ∧ (alignedMark b s).toData = s.toData ∧
    (alignedMark b s).tickCounter = s.tickCounter ∧ (alignedMark b s).nodeAddress = s.nodeAddress ∧
    (alignedMark b s).slot.bankA = s.slot.bankA ∧ (alignedMark b s).slot.bankB = s.slot.bankB ∧
    (alignedMark b s).circuits = s.circuits ∧ (alignedMark b s).contexts = s.contexts ∧
    (alignedMark b s).pool = s.pool ∧ (alignedMark b s).delivery = s.delivery ∧ (alignedMark b s).trib = s.trib ∧
    (alignedMark b s).addQueues = s.addQueues ∧ (alignedMark b s).emitters = s.emitters ∧
    (alignedMark b s).arbiter = s.arbiter ∧ (alignedMark b s).engine = s.engine ∧
    (alignedMark b s).events.stack = s.events.stack ∧ (alignedMark b s).events.bindings = s.events.bindings ∧
    (alignedMark b s).events.faults = s.events.faults ∧ (alignedMark b s).events.overflow = s.events.overflow ∧
    (alignedMark b s).events.canned = s.events.canned ∧ (alignedMark b s).events.records = s.events.records ∧
    (alignedMark b s).events.sequence = s.events.sequence ∧ (alignedMark b s).events.floor = s.events.floor ∧
    (alignedMark b s).events.timeout = s.events.timeout ∧ (alignedMark b s).events.retries = s.events.retries ∧
    (alignedMark b s).events.misses = s.events.misses ∧ (alignedMark b s).events.abandoned = s.events.abandoned ∧
    (alignedMark b s).owed = s.owed := by
  unfold alignedMark
  try dsimp only
  repeat' split
  all_goals simp_all

@[simp] theorem dropOctet_frame (c : Circuit) (b : Byte) (s : State) :
    (dropOctet c b s).pending = s.pending ∧ (dropOctet c b s).pins = s.pins ∧ (dropOctet c b s).toData = s.toData ∧
    (dropOctet c b s).tickCounter = s.tickCounter ∧ (dropOctet c b s).nodeAddress = s.nodeAddress ∧
    (dropOctet c b s).align = s.align ∧ (dropOctet c b s).slot = s.slot ∧
    (dropOctet c b s).pool.segReserve = s.pool.segReserve ∧ (dropOctet c b s).pool.descReserve = s.pool.descReserve ∧
    (dropOctet c b s).delivery.credits = s.delivery.credits ∧ (dropOctet c b s).delivery.quanta = s.delivery.quanta ∧
    (dropOctet c b s).delivery.ageLimits = s.delivery.ageLimits ∧
    (dropOctet c b s).delivery.stallLimit = s.delivery.stallLimit ∧
    (dropOctet c b s).delivery.inDelivery = s.delivery.inDelivery ∧
    (dropOctet c b s).delivery.retries = s.delivery.retries ∧
    (dropOctet c b s).delivery.discarded = s.delivery.discarded ∧ (dropOctet c b s).trib = s.trib ∧
    (dropOctet c b s).addQueues = s.addQueues ∧ (dropOctet c b s).emitters = s.emitters ∧
    (dropOctet c b s).arbiter = s.arbiter ∧ (dropOctet c b s).engine.state = s.engine.state ∧
    (dropOctet c b s).engine.inHand = s.engine.inHand ∧ (dropOctet c b s).engine.owner = s.engine.owner ∧
    (dropOctet c b s).engine.lease = s.engine.lease ∧ (dropOctet c b s).engine.cache = s.engine.cache ∧
    (dropOctet c b s).engine.noted = s.engine.noted ∧ (dropOctet c b s).events.stack = s.events.stack ∧
    (dropOctet c b s).events.bindings = s.events.bindings ∧ (dropOctet c b s).events.canned = s.events.canned ∧
    (dropOctet c b s).events.records = s.events.records ∧ (dropOctet c b s).events.sequence = s.events.sequence ∧
    (dropOctet c b s).events.floor = s.events.floor ∧ (dropOctet c b s).events.timeout = s.events.timeout ∧
    (dropOctet c b s).events.retries = s.events.retries ∧ (dropOctet c b s).events.misses = s.events.misses ∧
    (dropOctet c b s).events.abandoned = s.events.abandoned := by
  unfold dropOctet
  try dsimp only
  repeat' split
  all_goals simp_all

@[simp] theorem slotAction_frame (e : PlanEntry) (b : Byte) (s : State) :
    (slotAction e b s).2.pending = s.pending ∧ (slotAction e b s).2.pins = s.pins ∧
    (slotAction e b s).2.toData = s.toData := by
  unfold slotAction
  try dsimp only
  repeat' split
  all_goals simp_all

@[simp] theorem announceBoundary_frame (s : State) :
    (announceBoundary s).pending = s.pending ∧ (announceBoundary s).pins = s.pins ∧
    (announceBoundary s).toData = s.toData ∧ (announceBoundary s).tickCounter = s.tickCounter ∧
    (announceBoundary s).nodeAddress = s.nodeAddress ∧ (announceBoundary s).slot.bankA = s.slot.bankA ∧
    (announceBoundary s).slot.bankB = s.slot.bankB ∧ (announceBoundary s).slot.aligned = s.slot.aligned ∧
    (announceBoundary s).circuits = s.circuits ∧ (announceBoundary s).contexts = s.contexts ∧
    (announceBoundary s).pool = s.pool ∧ (announceBoundary s).delivery = s.delivery ∧
    (announceBoundary s).trib = s.trib ∧ (announceBoundary s).addQueues = s.addQueues ∧
    (announceBoundary s).emitters = s.emitters ∧ (announceBoundary s).arbiter = s.arbiter ∧
    (announceBoundary s).engine = s.engine ∧ (announceBoundary s).events.stack = s.events.stack ∧
    (announceBoundary s).events.bindings = s.events.bindings ∧ (announceBoundary s).events.faults = s.events.faults ∧
    (announceBoundary s).events.overflow = s.events.overflow ∧ (announceBoundary s).events.canned = s.events.canned ∧
    (announceBoundary s).events.records = s.events.records ∧
    (announceBoundary s).events.sequence = s.events.sequence ∧ (announceBoundary s).events.floor = s.events.floor ∧
    (announceBoundary s).events.timeout = s.events.timeout ∧ (announceBoundary s).events.retries = s.events.retries ∧
    (announceBoundary s).events.misses = s.events.misses ∧
    (announceBoundary s).events.abandoned = s.events.abandoned ∧ (announceBoundary s).owed = s.owed := by
  simp [announceBoundary]

@[simp] theorem boundaryAfter_frame (position : Nat) (s : State) :
    (boundaryAfter position s).pending = s.pending ∧ (boundaryAfter position s).pins = s.pins ∧
    (boundaryAfter position s).toData = s.toData ∧ (boundaryAfter position s).tickCounter = s.tickCounter ∧
    (boundaryAfter position s).nodeAddress = s.nodeAddress ∧ (boundaryAfter position s).slot.bankA = s.slot.bankA ∧
    (boundaryAfter position s).slot.bankB = s.slot.bankB ∧ (boundaryAfter position s).slot.aligned = s.slot.aligned ∧
    (boundaryAfter position s).circuits = s.circuits ∧ (boundaryAfter position s).contexts = s.contexts ∧
    (boundaryAfter position s).pool = s.pool ∧ (boundaryAfter position s).delivery = s.delivery ∧
    (boundaryAfter position s).trib = s.trib ∧ (boundaryAfter position s).addQueues = s.addQueues ∧
    (boundaryAfter position s).emitters = s.emitters ∧ (boundaryAfter position s).arbiter = s.arbiter ∧
    (boundaryAfter position s).engine = s.engine ∧ (boundaryAfter position s).events.stack = s.events.stack ∧
    (boundaryAfter position s).events.bindings = s.events.bindings ∧
    (boundaryAfter position s).events.faults = s.events.faults ∧
    (boundaryAfter position s).events.overflow = s.events.overflow ∧
    (boundaryAfter position s).events.canned = s.events.canned ∧
    (boundaryAfter position s).events.records = s.events.records ∧
    (boundaryAfter position s).events.sequence = s.events.sequence ∧
    (boundaryAfter position s).events.floor = s.events.floor ∧
    (boundaryAfter position s).events.timeout = s.events.timeout ∧
    (boundaryAfter position s).events.retries = s.events.retries ∧
    (boundaryAfter position s).events.misses = s.events.misses ∧
    (boundaryAfter position s).events.abandoned = s.events.abandoned ∧ (boundaryAfter position s).owed = s.owed := by
  unfold boundaryAfter
  try dsimp only
  repeat' split
  all_goals simp_all

@[simp] theorem payloadOctet_frame (b : Byte) (s : State) :
    (payloadOctet b s).2.pending = s.pending ∧ (payloadOctet b s).2.pins = s.pins ∧
    (payloadOctet b s).2.toData = s.toData := by
  simp [payloadOctet]

@[simp] theorem alignedOctet_frame (b : Byte) (s : State) :
    (alignedOctet b s).2.pending = s.pending ∧ (alignedOctet b s).2.pins = s.pins ∧
    (alignedOctet b s).2.toData = s.toData := by
  unfold alignedOctet
  try dsimp only
  repeat' split
  all_goals simp_all

@[simp] theorem trunkOctet_frame (b : Byte) (s : State) :
    (trunkOctet b s).2.pending = s.pending ∧ (trunkOctet b s).2.pins = s.pins ∧ (trunkOctet b s).2.toData = s.toData := by
  unfold trunkOctet
  try dsimp only
  repeat' split
  all_goals simp_all

@[simp] theorem takeOctet_frame (b : Byte) (s : State) :
    (takeOctet b s).pending = s.pending ∧ (takeOctet b s).pins = s.pins := by
  simp [takeOctet]

@[simp] theorem takeLineFall_frame (s : State) :
    (takeLineFall s).pending = s.pending ∧ (takeLineFall s).pins = s.pins ∧ (takeLineFall s).toData = s.toData ∧
    (takeLineFall s).tickCounter = s.tickCounter ∧ (takeLineFall s).nodeAddress = s.nodeAddress ∧
    (takeLineFall s).slot.bankA = s.slot.bankA ∧ (takeLineFall s).slot.bankB = s.slot.bankB ∧
    (takeLineFall s).circuits = s.circuits ∧ (takeLineFall s).contexts = s.contexts ∧ (takeLineFall s).pool = s.pool ∧
    (takeLineFall s).delivery = s.delivery ∧ (takeLineFall s).trib = s.trib ∧
    (takeLineFall s).addQueues = s.addQueues ∧ (takeLineFall s).emitters = s.emitters ∧
    (takeLineFall s).arbiter = s.arbiter ∧ (takeLineFall s).engine = s.engine ∧
    (takeLineFall s).events.stack = s.events.stack ∧ (takeLineFall s).events.bindings = s.events.bindings ∧
    (takeLineFall s).events.faults = s.events.faults ∧ (takeLineFall s).events.overflow = s.events.overflow ∧
    (takeLineFall s).events.canned = s.events.canned ∧ (takeLineFall s).events.records = s.events.records ∧
    (takeLineFall s).events.sequence = s.events.sequence ∧ (takeLineFall s).events.floor = s.events.floor ∧
    (takeLineFall s).events.timeout = s.events.timeout ∧ (takeLineFall s).events.retries = s.events.retries ∧
    (takeLineFall s).events.misses = s.events.misses ∧ (takeLineFall s).events.abandoned = s.events.abandoned ∧
    (takeLineFall s).owed = s.owed := by
  unfold takeLineFall
  try dsimp only
  repeat' split
  all_goals simp_all

/-! ### Reset -/

@[simp] theorem pinReset_frame (s : State) :
    (pinReset s).pending = s.pending ∧ (pinReset s).toData = s.toData ∧ (pinReset s).nodeAddress = s.nodeAddress := by
  simp [pinReset, State.resetWith]

@[simp] theorem refuseReset_frame (request : List Byte) (s : State) :
    (refuseReset request s).pending = s.pending ∧ (refuseReset request s).pins = s.pins ∧
    (refuseReset request s).toData = s.toData ∧ (refuseReset request s).tickCounter = s.tickCounter ∧
    (refuseReset request s).nodeAddress = s.nodeAddress ∧ (refuseReset request s).align = s.align ∧
    (refuseReset request s).slot = s.slot ∧ (refuseReset request s).circuits = s.circuits ∧
    (refuseReset request s).contexts = s.contexts ∧ (refuseReset request s).pool = s.pool ∧
    (refuseReset request s).delivery = s.delivery ∧ (refuseReset request s).trib = s.trib ∧
    (refuseReset request s).addQueues = s.addQueues ∧ (refuseReset request s).emitters = s.emitters ∧
    (refuseReset request s).arbiter.notice = s.arbiter.notice ∧
    (refuseReset request s).engine.queue = s.engine.queue ∧ (refuseReset request s).engine.owner = s.engine.owner ∧
    (refuseReset request s).engine.lease = s.engine.lease ∧ (refuseReset request s).engine.noted = s.engine.noted ∧
    (refuseReset request s).events = s.events := by
  simp [refuseReset]

@[simp] theorem clearTraffic_frame (s : State) :
    (clearTraffic s).pending = s.pending ∧ (clearTraffic s).pins = s.pins ∧ (clearTraffic s).toData = s.toData ∧
    (clearTraffic s).tickCounter = s.tickCounter ∧ (clearTraffic s).nodeAddress = s.nodeAddress ∧
    (clearTraffic s).align = s.align ∧ (clearTraffic s).slot.bankA = s.slot.bankA ∧
    (clearTraffic s).slot.bankB = s.slot.bankB ∧ (clearTraffic s).slot.active = s.slot.active ∧
    (clearTraffic s).slot.aligned = s.slot.aligned ∧ (clearTraffic s).delivery.quanta = s.delivery.quanta ∧
    (clearTraffic s).delivery.ageLimits = s.delivery.ageLimits ∧
    (clearTraffic s).delivery.stallLimit = s.delivery.stallLimit ∧
    (clearTraffic s).delivery.retries = s.delivery.retries ∧
    (clearTraffic s).delivery.discarded = s.delivery.discarded ∧ (clearTraffic s).trib.ready = s.trib.ready ∧
    (clearTraffic s).trib.counters = s.trib.counters ∧ (clearTraffic s).arbiter = s.arbiter ∧
    (clearTraffic s).engine.state = s.engine.state ∧ (clearTraffic s).engine.inHand = s.engine.inHand ∧
    (clearTraffic s).engine.owner = s.engine.owner ∧ (clearTraffic s).engine.lease = s.engine.lease ∧
    (clearTraffic s).engine.cache = s.engine.cache ∧ (clearTraffic s).engine.counters = s.engine.counters ∧
    (clearTraffic s).engine.noted = s.engine.noted ∧ (clearTraffic s).events = s.events ∧
    (clearTraffic s).owed = s.owed ∧ (clearTraffic s).pool.store = s.pool.store ∧
    (clearTraffic s).pool.segReserve = s.pool.segReserve ∧ (clearTraffic s).pool.descReserve = s.pool.descReserve := by
  simp [clearTraffic]

@[simp] theorem queueResetResponse_frame (body : List Byte) (s : State) :
    (queueResetResponse body s).pending = s.pending ∧ (queueResetResponse body s).pins = s.pins ∧
    (queueResetResponse body s).toData = s.toData ∧ (queueResetResponse body s).tickCounter = s.tickCounter ∧
    (queueResetResponse body s).nodeAddress = s.nodeAddress ∧ (queueResetResponse body s).align = s.align ∧
    (queueResetResponse body s).slot = s.slot ∧ (queueResetResponse body s).contexts = s.contexts ∧
    (queueResetResponse body s).pool.segReserve = s.pool.segReserve ∧
    (queueResetResponse body s).pool.descReserve = s.pool.descReserve ∧
    (queueResetResponse body s).delivery = s.delivery ∧ (queueResetResponse body s).trib = s.trib ∧
    (queueResetResponse body s).emitters = s.emitters ∧
    (queueResetResponse body s).arbiter.notice = s.arbiter.notice ∧
    (queueResetResponse body s).engine.queue = s.engine.queue ∧
    (queueResetResponse body s).engine.owner = s.engine.owner ∧
    (queueResetResponse body s).engine.lease = s.engine.lease ∧
    (queueResetResponse body s).engine.cache = s.engine.cache ∧
    (queueResetResponse body s).engine.counters = s.engine.counters ∧
    (queueResetResponse body s).engine.noted = s.engine.noted ∧
    (queueResetResponse body s).events.stack = s.events.stack ∧
    (queueResetResponse body s).events.bindings = s.events.bindings ∧
    (queueResetResponse body s).events.faults = s.events.faults ∧
    (queueResetResponse body s).events.overflow = s.events.overflow ∧
    (queueResetResponse body s).events.canned = s.events.canned ∧
    (queueResetResponse body s).events.records = s.events.records ∧
    (queueResetResponse body s).events.sequence = s.events.sequence ∧
    (queueResetResponse body s).events.floor = s.events.floor ∧
    (queueResetResponse body s).events.timeout = s.events.timeout ∧
    (queueResetResponse body s).events.retries = s.events.retries ∧
    (queueResetResponse body s).events.misses = s.events.misses ∧
    (queueResetResponse body s).events.abandoned = s.events.abandoned := by
  unfold queueResetResponse
  try dsimp only
  repeat' split
  all_goals first
    | (simp; done)
    | (simp_all; done)
    | (rename_i h; have := enqueue_frame h; simp_all; done)
    | (rename_i h; have := allocate_frame h; simp_all; done)

@[simp] theorem trafficReset_frame (request : List Byte) (s : State) :
    (trafficReset request s).pending = s.pending ∧ (trafficReset request s).pins = s.pins ∧
    (trafficReset request s).toData = s.toData ∧ (trafficReset request s).tickCounter = s.tickCounter ∧
    (trafficReset request s).nodeAddress = s.nodeAddress ∧ (trafficReset request s).align = s.align ∧
    (trafficReset request s).slot.bankA = s.slot.bankA ∧ (trafficReset request s).slot.bankB = s.slot.bankB ∧
    (trafficReset request s).slot.active = s.slot.active ∧ (trafficReset request s).slot.aligned = s.slot.aligned ∧
    (trafficReset request s).delivery.quanta = s.delivery.quanta ∧
    (trafficReset request s).delivery.ageLimits = s.delivery.ageLimits ∧
    (trafficReset request s).delivery.stallLimit = s.delivery.stallLimit ∧
    (trafficReset request s).delivery.retries = s.delivery.retries ∧
    (trafficReset request s).delivery.discarded = s.delivery.discarded ∧
    (trafficReset request s).trib.ready = s.trib.ready ∧ (trafficReset request s).trib.counters = s.trib.counters ∧
    (trafficReset request s).arbiter.notice = s.arbiter.notice ∧
    (trafficReset request s).engine.owner = s.engine.owner ∧ (trafficReset request s).engine.lease = s.engine.lease ∧
    (trafficReset request s).engine.noted = s.engine.noted ∧ (trafficReset request s).events.stack = s.events.stack ∧
    (trafficReset request s).events.bindings = s.events.bindings ∧
    (trafficReset request s).events.faults = s.events.faults ∧
    (trafficReset request s).events.overflow = s.events.overflow ∧
    (trafficReset request s).events.canned = s.events.canned ∧
    (trafficReset request s).events.records = s.events.records ∧
    (trafficReset request s).events.sequence = s.events.sequence ∧
    (trafficReset request s).events.floor = s.events.floor ∧
    (trafficReset request s).events.timeout = s.events.timeout ∧
    (trafficReset request s).events.retries = s.events.retries ∧
    (trafficReset request s).events.misses = s.events.misses ∧
    (trafficReset request s).events.abandoned = s.events.abandoned ∧
    (trafficReset request s).pool.segReserve = s.pool.segReserve ∧
    (trafficReset request s).pool.descReserve = s.pool.descReserve := by
  simp [trafficReset]

@[simp] theorem fullResetBegun_frame (request : List Byte) (s : State) :
    (fullResetBegun request s).pending = s.pending ∧ (fullResetBegun request s).pins = s.pins ∧
    (fullResetBegun request s).toData = s.toData ∧ (fullResetBegun request s).tickCounter = s.tickCounter ∧
    (fullResetBegun request s).nodeAddress = s.nodeAddress ∧ (fullResetBegun request s).align = s.align ∧
    (fullResetBegun request s).slot = s.slot ∧ (fullResetBegun request s).circuits = s.circuits ∧
    (fullResetBegun request s).contexts = s.contexts ∧ (fullResetBegun request s).pool = s.pool ∧
    (fullResetBegun request s).delivery = s.delivery ∧ (fullResetBegun request s).trib = s.trib ∧
    (fullResetBegun request s).addQueues = s.addQueues ∧ (fullResetBegun request s).emitters = s.emitters ∧
    (fullResetBegun request s).arbiter.notice = s.arbiter.notice ∧
    (fullResetBegun request s).engine.queue = s.engine.queue ∧
    (fullResetBegun request s).engine.owner = s.engine.owner ∧
    (fullResetBegun request s).engine.lease = s.engine.lease ∧
    (fullResetBegun request s).engine.noted = s.engine.noted ∧ (fullResetBegun request s).events = s.events := by
  simp [fullResetBegun]

/-! ### Ownership -/

@[simp] theorem accepted_frame (results : List Byte) (s : State) :
    (accepted results s).state.pending = s.pending ∧ (accepted results s).state.pins = s.pins ∧
    (accepted results s).state.toData = s.toData ∧ (accepted results s).state.tickCounter = s.tickCounter ∧
    (accepted results s).state.nodeAddress = s.nodeAddress ∧ (accepted results s).state.align = s.align ∧
    (accepted results s).state.slot = s.slot ∧ (accepted results s).state.circuits = s.circuits ∧
    (accepted results s).state.contexts = s.contexts ∧ (accepted results s).state.pool = s.pool ∧
    (accepted results s).state.delivery = s.delivery ∧ (accepted results s).state.trib = s.trib ∧
    (accepted results s).state.addQueues = s.addQueues ∧ (accepted results s).state.emitters = s.emitters ∧
    (accepted results s).state.arbiter = s.arbiter ∧ (accepted results s).state.engine = s.engine ∧
    (accepted results s).state.events = s.events ∧ (accepted results s).state.owed = s.owed := by
  simp [accepted]

@[simp] theorem refusedWith_frame (status : Status) (s : State) :
    (refusedWith status s).state.pending = s.pending ∧ (refusedWith status s).state.pins = s.pins ∧
    (refusedWith status s).state.toData = s.toData ∧ (refusedWith status s).state.tickCounter = s.tickCounter ∧
    (refusedWith status s).state.nodeAddress = s.nodeAddress ∧ (refusedWith status s).state.align = s.align ∧
    (refusedWith status s).state.slot = s.slot ∧ (refusedWith status s).state.circuits = s.circuits ∧
    (refusedWith status s).state.contexts = s.contexts ∧ (refusedWith status s).state.pool = s.pool ∧
    (refusedWith status s).state.delivery = s.delivery ∧ (refusedWith status s).state.trib = s.trib ∧
    (refusedWith status s).state.addQueues = s.addQueues ∧ (refusedWith status s).state.emitters = s.emitters ∧
    (refusedWith status s).state.arbiter = s.arbiter ∧ (refusedWith status s).state.engine = s.engine ∧
    (refusedWith status s).state.events = s.events ∧ (refusedWith status s).state.owed = s.owed := by
  simp [refusedWith]

@[simp] theorem identifyRun_frame (_params : List Byte) (s : State) :
    (identifyRun _params s).state.pending = s.pending ∧ (identifyRun _params s).state.pins = s.pins ∧
    (identifyRun _params s).state.toData = s.toData ∧ (identifyRun _params s).state.tickCounter = s.tickCounter ∧
    (identifyRun _params s).state.nodeAddress = s.nodeAddress ∧ (identifyRun _params s).state.align = s.align ∧
    (identifyRun _params s).state.slot = s.slot ∧ (identifyRun _params s).state.circuits = s.circuits ∧
    (identifyRun _params s).state.contexts = s.contexts ∧ (identifyRun _params s).state.pool = s.pool ∧
    (identifyRun _params s).state.delivery = s.delivery ∧ (identifyRun _params s).state.trib = s.trib ∧
    (identifyRun _params s).state.addQueues = s.addQueues ∧ (identifyRun _params s).state.emitters = s.emitters ∧
    (identifyRun _params s).state.arbiter = s.arbiter ∧ (identifyRun _params s).state.engine = s.engine ∧
    (identifyRun _params s).state.events = s.events ∧ (identifyRun _params s).state.owed = s.owed := by
  simp [identifyRun]

@[simp] theorem grantOwnership_frame (id : BitVec 4) (epoch : Word) (s : State) :
    (grantOwnership id epoch s).pending = s.pending ∧ (grantOwnership id epoch s).pins = s.pins ∧
    (grantOwnership id epoch s).toData = s.toData ∧ (grantOwnership id epoch s).tickCounter = s.tickCounter ∧
    (grantOwnership id epoch s).nodeAddress = s.nodeAddress ∧ (grantOwnership id epoch s).align = s.align ∧
    (grantOwnership id epoch s).slot = s.slot ∧ (grantOwnership id epoch s).circuits = s.circuits ∧
    (grantOwnership id epoch s).contexts = s.contexts ∧ (grantOwnership id epoch s).pool = s.pool ∧
    (grantOwnership id epoch s).delivery = s.delivery ∧ (grantOwnership id epoch s).trib = s.trib ∧
    (grantOwnership id epoch s).addQueues = s.addQueues ∧ (grantOwnership id epoch s).emitters = s.emitters ∧
    (grantOwnership id epoch s).arbiter = s.arbiter ∧ (grantOwnership id epoch s).engine.state = s.engine.state ∧
    (grantOwnership id epoch s).engine.queue = s.engine.queue ∧
    (grantOwnership id epoch s).engine.inHand = s.engine.inHand ∧
    (grantOwnership id epoch s).engine.lease = s.engine.lease ∧
    (grantOwnership id epoch s).engine.cache = s.engine.cache ∧
    (grantOwnership id epoch s).engine.counters = s.engine.counters ∧
    (grantOwnership id epoch s).engine.noted = s.engine.noted ∧ (grantOwnership id epoch s).events = s.events ∧
    (grantOwnership id epoch s).owed = s.owed := by
  simp [grantOwnership]

@[simp] theorem claimTaken_frame (s : State) :
    (claimTaken s).state.pending = s.pending ∧ (claimTaken s).state.pins = s.pins ∧
    (claimTaken s).state.toData = s.toData ∧ (claimTaken s).state.tickCounter = s.tickCounter ∧
    (claimTaken s).state.nodeAddress = s.nodeAddress ∧ (claimTaken s).state.align = s.align ∧
    (claimTaken s).state.slot = s.slot ∧ (claimTaken s).state.circuits = s.circuits ∧
    (claimTaken s).state.contexts = s.contexts ∧ (claimTaken s).state.pool = s.pool ∧
    (claimTaken s).state.delivery = s.delivery ∧ (claimTaken s).state.trib = s.trib ∧
    (claimTaken s).state.addQueues = s.addQueues ∧ (claimTaken s).state.emitters = s.emitters ∧
    (claimTaken s).state.arbiter = s.arbiter ∧ (claimTaken s).state.engine = s.engine ∧
    (claimTaken s).state.events = s.events ∧ (claimTaken s).state.owed = s.owed := by
  simp [claimTaken]

@[simp] theorem claimStale_frame (s : State) :
    (claimStale s).state.pending = s.pending ∧ (claimStale s).state.pins = s.pins ∧
    (claimStale s).state.toData = s.toData ∧ (claimStale s).state.tickCounter = s.tickCounter ∧
    (claimStale s).state.nodeAddress = s.nodeAddress ∧ (claimStale s).state.align = s.align ∧
    (claimStale s).state.slot = s.slot ∧ (claimStale s).state.circuits = s.circuits ∧
    (claimStale s).state.contexts = s.contexts ∧ (claimStale s).state.pool = s.pool ∧
    (claimStale s).state.delivery = s.delivery ∧ (claimStale s).state.trib = s.trib ∧
    (claimStale s).state.addQueues = s.addQueues ∧ (claimStale s).state.emitters = s.emitters ∧
    (claimStale s).state.arbiter = s.arbiter ∧ (claimStale s).state.engine = s.engine ∧
    (claimStale s).state.events = s.events ∧ (claimStale s).state.owed = s.owed := by
  simp [claimStale]

@[simp] theorem claimBy_frame (id : BitVec 4) (epoch : Word) (s : State) :
    (claimBy id epoch s).state.pending = s.pending ∧ (claimBy id epoch s).state.pins = s.pins ∧
    (claimBy id epoch s).state.toData = s.toData ∧ (claimBy id epoch s).state.tickCounter = s.tickCounter ∧
    (claimBy id epoch s).state.nodeAddress = s.nodeAddress ∧ (claimBy id epoch s).state.align = s.align ∧
    (claimBy id epoch s).state.slot = s.slot ∧ (claimBy id epoch s).state.circuits = s.circuits ∧
    (claimBy id epoch s).state.contexts = s.contexts ∧ (claimBy id epoch s).state.pool = s.pool ∧
    (claimBy id epoch s).state.delivery = s.delivery ∧ (claimBy id epoch s).state.trib = s.trib ∧
    (claimBy id epoch s).state.addQueues = s.addQueues ∧ (claimBy id epoch s).state.emitters = s.emitters ∧
    (claimBy id epoch s).state.arbiter = s.arbiter ∧ (claimBy id epoch s).state.engine.state = s.engine.state ∧
    (claimBy id epoch s).state.engine.queue = s.engine.queue ∧
    (claimBy id epoch s).state.engine.inHand = s.engine.inHand ∧
    (claimBy id epoch s).state.engine.lease = s.engine.lease ∧
    (claimBy id epoch s).state.engine.cache = s.engine.cache ∧
    (claimBy id epoch s).state.engine.counters = s.engine.counters ∧
    (claimBy id epoch s).state.engine.noted = s.engine.noted ∧
    (claimBy id epoch s).state.events.stack = s.events.stack ∧
    (claimBy id epoch s).state.events.bindings = s.events.bindings ∧
    (claimBy id epoch s).state.events.faults = s.events.faults ∧
    (claimBy id epoch s).state.events.overflow = s.events.overflow ∧
    (claimBy id epoch s).state.events.canned = s.events.canned ∧
    (claimBy id epoch s).state.events.records = s.events.records ∧
    (claimBy id epoch s).state.events.sequence = s.events.sequence ∧
    (claimBy id epoch s).state.events.floor = s.events.floor ∧
    (claimBy id epoch s).state.events.timeout = s.events.timeout ∧
    (claimBy id epoch s).state.events.retries = s.events.retries ∧
    (claimBy id epoch s).state.events.misses = s.events.misses ∧
    (claimBy id epoch s).state.events.abandoned = s.events.abandoned ∧ (claimBy id epoch s).state.owed = s.owed := by
  unfold claimBy
  try dsimp only
  repeat' split
  all_goals simp_all

@[simp] theorem claimRun_frame (params : List Byte) (s : State) :
    (claimRun params s).state.pending = s.pending ∧ (claimRun params s).state.pins = s.pins ∧
    (claimRun params s).state.toData = s.toData ∧ (claimRun params s).state.tickCounter = s.tickCounter ∧
    (claimRun params s).state.nodeAddress = s.nodeAddress ∧ (claimRun params s).state.align = s.align ∧
    (claimRun params s).state.slot = s.slot ∧ (claimRun params s).state.circuits = s.circuits ∧
    (claimRun params s).state.contexts = s.contexts ∧ (claimRun params s).state.pool = s.pool ∧
    (claimRun params s).state.delivery = s.delivery ∧ (claimRun params s).state.trib = s.trib ∧
    (claimRun params s).state.addQueues = s.addQueues ∧ (claimRun params s).state.emitters = s.emitters ∧
    (claimRun params s).state.arbiter = s.arbiter ∧ (claimRun params s).state.engine.state = s.engine.state ∧
    (claimRun params s).state.engine.queue = s.engine.queue ∧
    (claimRun params s).state.engine.inHand = s.engine.inHand ∧
    (claimRun params s).state.engine.lease = s.engine.lease ∧
    (claimRun params s).state.engine.cache = s.engine.cache ∧
    (claimRun params s).state.engine.counters = s.engine.counters ∧
    (claimRun params s).state.engine.noted = s.engine.noted ∧
    (claimRun params s).state.events.stack = s.events.stack ∧
    (claimRun params s).state.events.bindings = s.events.bindings ∧
    (claimRun params s).state.events.faults = s.events.faults ∧
    (claimRun params s).state.events.overflow = s.events.overflow ∧
    (claimRun params s).state.events.canned = s.events.canned ∧
    (claimRun params s).state.events.records = s.events.records ∧
    (claimRun params s).state.events.sequence = s.events.sequence ∧
    (claimRun params s).state.events.floor = s.events.floor ∧
    (claimRun params s).state.events.timeout = s.events.timeout ∧
    (claimRun params s).state.events.retries = s.events.retries ∧
    (claimRun params s).state.events.misses = s.events.misses ∧
    (claimRun params s).state.events.abandoned = s.events.abandoned ∧ (claimRun params s).state.owed = s.owed := by
  simp [claimRun]

@[simp] theorem releaseRun_frame (_params : List Byte) (s : State) :
    (releaseRun _params s).state.pending = s.pending ∧ (releaseRun _params s).state.pins = s.pins ∧
    (releaseRun _params s).state.toData = s.toData ∧ (releaseRun _params s).state.tickCounter = s.tickCounter ∧
    (releaseRun _params s).state.nodeAddress = s.nodeAddress ∧ (releaseRun _params s).state.align = s.align ∧
    (releaseRun _params s).state.slot = s.slot ∧ (releaseRun _params s).state.circuits = s.circuits ∧
    (releaseRun _params s).state.contexts = s.contexts ∧ (releaseRun _params s).state.pool = s.pool ∧
    (releaseRun _params s).state.delivery = s.delivery ∧ (releaseRun _params s).state.trib = s.trib ∧
    (releaseRun _params s).state.addQueues = s.addQueues ∧ (releaseRun _params s).state.emitters = s.emitters ∧
    (releaseRun _params s).state.arbiter = s.arbiter ∧ (releaseRun _params s).state.engine.state = s.engine.state ∧
    (releaseRun _params s).state.engine.queue = s.engine.queue ∧
    (releaseRun _params s).state.engine.inHand = s.engine.inHand ∧
    (releaseRun _params s).state.engine.lease = s.engine.lease ∧
    (releaseRun _params s).state.engine.cache = s.engine.cache ∧
    (releaseRun _params s).state.engine.counters = s.engine.counters ∧
    (releaseRun _params s).state.engine.noted = s.engine.noted ∧ (releaseRun _params s).state.events = s.events ∧
    (releaseRun _params s).state.owed = s.owed := by
  simp [releaseRun]

@[simp] theorem writeLease_frame (lease : Nat) (s : State) :
    (writeLease lease s).pending = s.pending ∧ (writeLease lease s).pins = s.pins ∧
    (writeLease lease s).toData = s.toData ∧ (writeLease lease s).tickCounter = s.tickCounter ∧
    (writeLease lease s).nodeAddress = s.nodeAddress ∧ (writeLease lease s).align = s.align ∧
    (writeLease lease s).slot = s.slot ∧ (writeLease lease s).circuits = s.circuits ∧
    (writeLease lease s).contexts = s.contexts ∧ (writeLease lease s).pool = s.pool ∧
    (writeLease lease s).delivery = s.delivery ∧ (writeLease lease s).trib = s.trib ∧
    (writeLease lease s).addQueues = s.addQueues ∧ (writeLease lease s).emitters = s.emitters ∧
    (writeLease lease s).arbiter = s.arbiter ∧ (writeLease lease s).engine.state = s.engine.state ∧
    (writeLease lease s).engine.queue = s.engine.queue ∧ (writeLease lease s).engine.inHand = s.engine.inHand ∧
    (writeLease lease s).engine.cache = s.engine.cache ∧ (writeLease lease s).engine.counters = s.engine.counters ∧
    (writeLease lease s).engine.noted = s.engine.noted ∧ (writeLease lease s).events = s.events ∧
    (writeLease lease s).owed = s.owed := by
  unfold writeLease
  try dsimp only
  repeat' split
  all_goals simp_all

@[simp] theorem setLeaseRun_frame (params : List Byte) (s : State) :
    (setLeaseRun params s).state.pending = s.pending ∧ (setLeaseRun params s).state.pins = s.pins ∧
    (setLeaseRun params s).state.toData = s.toData ∧ (setLeaseRun params s).state.tickCounter = s.tickCounter ∧
    (setLeaseRun params s).state.nodeAddress = s.nodeAddress ∧ (setLeaseRun params s).state.align = s.align ∧
    (setLeaseRun params s).state.slot = s.slot ∧ (setLeaseRun params s).state.circuits = s.circuits ∧
    (setLeaseRun params s).state.contexts = s.contexts ∧ (setLeaseRun params s).state.pool = s.pool ∧
    (setLeaseRun params s).state.delivery = s.delivery ∧ (setLeaseRun params s).state.trib = s.trib ∧
    (setLeaseRun params s).state.addQueues = s.addQueues ∧ (setLeaseRun params s).state.emitters = s.emitters ∧
    (setLeaseRun params s).state.arbiter = s.arbiter ∧ (setLeaseRun params s).state.engine.state = s.engine.state ∧
    (setLeaseRun params s).state.engine.queue = s.engine.queue ∧
    (setLeaseRun params s).state.engine.inHand = s.engine.inHand ∧
    (setLeaseRun params s).state.engine.cache = s.engine.cache ∧
    (setLeaseRun params s).state.engine.counters = s.engine.counters ∧
    (setLeaseRun params s).state.engine.noted = s.engine.noted ∧ (setLeaseRun params s).state.events = s.events ∧
    (setLeaseRun params s).state.owed = s.owed := by
  unfold setLeaseRun
  try dsimp only
  repeat' split
  all_goals simp_all

/-! ### PlanRequests -/

@[simp] theorem readPlanRun_frame (params : List Byte) (s : State) :
    (readPlanRun params s).state.pending = s.pending ∧ (readPlanRun params s).state.pins = s.pins ∧
    (readPlanRun params s).state.toData = s.toData ∧ (readPlanRun params s).state.tickCounter = s.tickCounter ∧
    (readPlanRun params s).state.nodeAddress = s.nodeAddress ∧ (readPlanRun params s).state.align = s.align ∧
    (readPlanRun params s).state.slot = s.slot ∧ (readPlanRun params s).state.circuits = s.circuits ∧
    (readPlanRun params s).state.contexts = s.contexts ∧ (readPlanRun params s).state.pool = s.pool ∧
    (readPlanRun params s).state.delivery = s.delivery ∧ (readPlanRun params s).state.trib = s.trib ∧
    (readPlanRun params s).state.addQueues = s.addQueues ∧ (readPlanRun params s).state.emitters = s.emitters ∧
    (readPlanRun params s).state.arbiter = s.arbiter ∧ (readPlanRun params s).state.engine = s.engine ∧
    (readPlanRun params s).state.events = s.events ∧ (readPlanRun params s).state.owed = s.owed := by
  unfold readPlanRun
  try dsimp only
  repeat' split
  all_goals simp_all

@[simp] theorem setStandby_frame (p : Plan) (s : State) :
    (setStandby p s).pending = s.pending ∧ (setStandby p s).pins = s.pins ∧ (setStandby p s).toData = s.toData ∧
    (setStandby p s).tickCounter = s.tickCounter ∧ (setStandby p s).nodeAddress = s.nodeAddress ∧
    (setStandby p s).align = s.align ∧ (setStandby p s).slot.active = s.slot.active ∧
    (setStandby p s).slot.aligned = s.slot.aligned ∧ (setStandby p s).slot.swap = s.slot.swap ∧
    (setStandby p s).slot.armed = s.slot.armed ∧ (setStandby p s).slot.countdown = s.slot.countdown ∧
    (setStandby p s).circuits = s.circuits ∧ (setStandby p s).contexts = s.contexts ∧ (setStandby p s).pool = s.pool ∧
    (setStandby p s).delivery = s.delivery ∧ (setStandby p s).trib = s.trib ∧
    (setStandby p s).addQueues = s.addQueues ∧ (setStandby p s).emitters = s.emitters ∧
    (setStandby p s).arbiter = s.arbiter ∧ (setStandby p s).engine = s.engine ∧ (setStandby p s).events = s.events ∧
    (setStandby p s).owed = s.owed := by
  simp [setStandby]

@[simp] theorem writePlanRun_frame (params : List Byte) (s : State) :
    (writePlanRun params s).state.pending = s.pending ∧ (writePlanRun params s).state.pins = s.pins ∧
    (writePlanRun params s).state.toData = s.toData ∧ (writePlanRun params s).state.tickCounter = s.tickCounter ∧
    (writePlanRun params s).state.nodeAddress = s.nodeAddress ∧ (writePlanRun params s).state.align = s.align ∧
    (writePlanRun params s).state.slot.active = s.slot.active ∧
    (writePlanRun params s).state.slot.aligned = s.slot.aligned ∧
    (writePlanRun params s).state.slot.swap = s.slot.swap ∧ (writePlanRun params s).state.slot.armed = s.slot.armed ∧
    (writePlanRun params s).state.slot.countdown = s.slot.countdown ∧
    (writePlanRun params s).state.circuits = s.circuits ∧ (writePlanRun params s).state.contexts = s.contexts ∧
    (writePlanRun params s).state.pool = s.pool ∧ (writePlanRun params s).state.delivery = s.delivery ∧
    (writePlanRun params s).state.trib = s.trib ∧ (writePlanRun params s).state.addQueues = s.addQueues ∧
    (writePlanRun params s).state.emitters = s.emitters ∧ (writePlanRun params s).state.arbiter = s.arbiter ∧
    (writePlanRun params s).state.engine = s.engine ∧ (writePlanRun params s).state.events = s.events ∧
    (writePlanRun params s).state.owed = s.owed := by
  unfold writePlanRun
  try dsimp only
  repeat' split
  all_goals simp_all

@[simp] theorem copyPlanRun_frame (_params : List Byte) (s : State) :
    (copyPlanRun _params s).state.pending = s.pending ∧ (copyPlanRun _params s).state.pins = s.pins ∧
    (copyPlanRun _params s).state.toData = s.toData ∧ (copyPlanRun _params s).state.tickCounter = s.tickCounter ∧
    (copyPlanRun _params s).state.nodeAddress = s.nodeAddress ∧ (copyPlanRun _params s).state.align = s.align ∧
    (copyPlanRun _params s).state.slot.active = s.slot.active ∧
    (copyPlanRun _params s).state.slot.aligned = s.slot.aligned ∧
    (copyPlanRun _params s).state.slot.swap = s.slot.swap ∧ (copyPlanRun _params s).state.slot.armed = s.slot.armed ∧
    (copyPlanRun _params s).state.slot.countdown = s.slot.countdown ∧
    (copyPlanRun _params s).state.circuits = s.circuits ∧ (copyPlanRun _params s).state.contexts = s.contexts ∧
    (copyPlanRun _params s).state.pool = s.pool ∧ (copyPlanRun _params s).state.delivery = s.delivery ∧
    (copyPlanRun _params s).state.trib = s.trib ∧ (copyPlanRun _params s).state.addQueues = s.addQueues ∧
    (copyPlanRun _params s).state.emitters = s.emitters ∧ (copyPlanRun _params s).state.arbiter = s.arbiter ∧
    (copyPlanRun _params s).state.engine = s.engine ∧ (copyPlanRun _params s).state.events = s.events ∧
    (copyPlanRun _params s).state.owed = s.owed := by
  unfold copyPlanRun
  try dsimp only
  repeat' split
  all_goals simp_all

@[simp] theorem swapStateRefusal_frame (s : State) :
    (swapStateRefusal s).state.pending = s.pending ∧ (swapStateRefusal s).state.pins = s.pins ∧
    (swapStateRefusal s).state.toData = s.toData ∧ (swapStateRefusal s).state.tickCounter = s.tickCounter ∧
    (swapStateRefusal s).state.nodeAddress = s.nodeAddress ∧ (swapStateRefusal s).state.align = s.align ∧
    (swapStateRefusal s).state.slot = s.slot ∧ (swapStateRefusal s).state.circuits = s.circuits ∧
    (swapStateRefusal s).state.contexts = s.contexts ∧ (swapStateRefusal s).state.pool = s.pool ∧
    (swapStateRefusal s).state.delivery = s.delivery ∧ (swapStateRefusal s).state.trib = s.trib ∧
    (swapStateRefusal s).state.addQueues = s.addQueues ∧ (swapStateRefusal s).state.emitters = s.emitters ∧
    (swapStateRefusal s).state.arbiter = s.arbiter ∧ (swapStateRefusal s).state.engine = s.engine ∧
    (swapStateRefusal s).state.events = s.events ∧ (swapStateRefusal s).state.owed = s.owed := by
  simp [swapStateRefusal]

@[simp] theorem armSwapRun_frame (params : List Byte) (s : State) :
    (armSwapRun params s).state.pending = s.pending ∧ (armSwapRun params s).state.pins = s.pins ∧
    (armSwapRun params s).state.toData = s.toData ∧ (armSwapRun params s).state.tickCounter = s.tickCounter ∧
    (armSwapRun params s).state.nodeAddress = s.nodeAddress ∧ (armSwapRun params s).state.align = s.align ∧
    (armSwapRun params s).state.slot.bankA = s.slot.bankA ∧ (armSwapRun params s).state.slot.bankB = s.slot.bankB ∧
    (armSwapRun params s).state.slot.aligned = s.slot.aligned ∧ (armSwapRun params s).state.circuits = s.circuits ∧
    (armSwapRun params s).state.contexts = s.contexts ∧ (armSwapRun params s).state.pool = s.pool ∧
    (armSwapRun params s).state.delivery = s.delivery ∧ (armSwapRun params s).state.trib = s.trib ∧
    (armSwapRun params s).state.addQueues = s.addQueues ∧ (armSwapRun params s).state.emitters = s.emitters ∧
    (armSwapRun params s).state.arbiter = s.arbiter ∧ (armSwapRun params s).state.engine = s.engine ∧
    (armSwapRun params s).state.events.stack = s.events.stack ∧
    (armSwapRun params s).state.events.bindings = s.events.bindings ∧
    (armSwapRun params s).state.events.faults = s.events.faults ∧
    (armSwapRun params s).state.events.overflow = s.events.overflow ∧
    (armSwapRun params s).state.events.canned = s.events.canned ∧
    (armSwapRun params s).state.events.records = s.events.records ∧
    (armSwapRun params s).state.events.sequence = s.events.sequence ∧
    (armSwapRun params s).state.events.floor = s.events.floor ∧
    (armSwapRun params s).state.events.timeout = s.events.timeout ∧
    (armSwapRun params s).state.events.retries = s.events.retries ∧
    (armSwapRun params s).state.events.misses = s.events.misses ∧
    (armSwapRun params s).state.events.abandoned = s.events.abandoned ∧ (armSwapRun params s).state.owed = s.owed := by
  unfold armSwapRun
  try dsimp only
  repeat' split
  all_goals simp_all

@[simp] theorem endSwap_frame (s : State) :
    (endSwap s).pending = s.pending ∧ (endSwap s).pins = s.pins ∧ (endSwap s).toData = s.toData ∧
    (endSwap s).tickCounter = s.tickCounter ∧ (endSwap s).nodeAddress = s.nodeAddress ∧ (endSwap s).align = s.align ∧
    (endSwap s).slot.bankA = s.slot.bankA ∧ (endSwap s).slot.bankB = s.slot.bankB ∧
    (endSwap s).slot.active = s.slot.active ∧ (endSwap s).slot.aligned = s.slot.aligned ∧
    (endSwap s).circuits = s.circuits ∧ (endSwap s).contexts = s.contexts ∧ (endSwap s).pool = s.pool ∧
    (endSwap s).delivery = s.delivery ∧ (endSwap s).trib = s.trib ∧ (endSwap s).addQueues = s.addQueues ∧
    (endSwap s).emitters = s.emitters ∧ (endSwap s).arbiter = s.arbiter ∧ (endSwap s).engine = s.engine ∧
    (endSwap s).events = s.events ∧ (endSwap s).owed = s.owed := by
  simp [endSwap]

@[simp] theorem cancelSwapRun_frame (_params : List Byte) (s : State) :
    (cancelSwapRun _params s).state.pending = s.pending ∧ (cancelSwapRun _params s).state.pins = s.pins ∧
    (cancelSwapRun _params s).state.toData = s.toData ∧ (cancelSwapRun _params s).state.tickCounter = s.tickCounter ∧
    (cancelSwapRun _params s).state.nodeAddress = s.nodeAddress ∧ (cancelSwapRun _params s).state.align = s.align ∧
    (cancelSwapRun _params s).state.slot.bankA = s.slot.bankA ∧
    (cancelSwapRun _params s).state.slot.bankB = s.slot.bankB ∧
    (cancelSwapRun _params s).state.slot.active = s.slot.active ∧
    (cancelSwapRun _params s).state.slot.aligned = s.slot.aligned ∧
    (cancelSwapRun _params s).state.circuits = s.circuits ∧ (cancelSwapRun _params s).state.contexts = s.contexts ∧
    (cancelSwapRun _params s).state.pool = s.pool ∧ (cancelSwapRun _params s).state.delivery = s.delivery ∧
    (cancelSwapRun _params s).state.trib = s.trib ∧ (cancelSwapRun _params s).state.addQueues = s.addQueues ∧
    (cancelSwapRun _params s).state.emitters = s.emitters ∧ (cancelSwapRun _params s).state.arbiter = s.arbiter ∧
    (cancelSwapRun _params s).state.engine = s.engine ∧ (cancelSwapRun _params s).state.events = s.events ∧
    (cancelSwapRun _params s).state.owed = s.owed := by
  unfold cancelSwapRun
  try dsimp only
  repeat' split
  all_goals simp_all

@[simp] theorem confirmSwapRun_frame (_params : List Byte) (s : State) :
    (confirmSwapRun _params s).state.pending = s.pending ∧ (confirmSwapRun _params s).state.pins = s.pins ∧
    (confirmSwapRun _params s).state.toData = s.toData ∧
    (confirmSwapRun _params s).state.tickCounter = s.tickCounter ∧
    (confirmSwapRun _params s).state.nodeAddress = s.nodeAddress ∧ (confirmSwapRun _params s).state.align = s.align ∧
    (confirmSwapRun _params s).state.slot.bankA = s.slot.bankA ∧
    (confirmSwapRun _params s).state.slot.bankB = s.slot.bankB ∧
    (confirmSwapRun _params s).state.slot.active = s.slot.active ∧
    (confirmSwapRun _params s).state.slot.aligned = s.slot.aligned ∧
    (confirmSwapRun _params s).state.circuits = s.circuits ∧ (confirmSwapRun _params s).state.contexts = s.contexts ∧
    (confirmSwapRun _params s).state.pool = s.pool ∧ (confirmSwapRun _params s).state.delivery = s.delivery ∧
    (confirmSwapRun _params s).state.trib = s.trib ∧ (confirmSwapRun _params s).state.addQueues = s.addQueues ∧
    (confirmSwapRun _params s).state.emitters = s.emitters ∧ (confirmSwapRun _params s).state.arbiter = s.arbiter ∧
    (confirmSwapRun _params s).state.engine = s.engine ∧ (confirmSwapRun _params s).state.events = s.events ∧
    (confirmSwapRun _params s).state.owed = s.owed := by
  unfold confirmSwapRun
  try dsimp only
  repeat' split
  all_goals simp_all

/-! ### CircuitRequests -/

@[simp] theorem readCircuitRun_frame (params : List Byte) (s : State) :
    (readCircuitRun params s).state.pending = s.pending ∧ (readCircuitRun params s).state.pins = s.pins ∧
    (readCircuitRun params s).state.toData = s.toData ∧ (readCircuitRun params s).state.tickCounter = s.tickCounter ∧
    (readCircuitRun params s).state.nodeAddress = s.nodeAddress ∧ (readCircuitRun params s).state.align = s.align ∧
    (readCircuitRun params s).state.slot = s.slot ∧ (readCircuitRun params s).state.circuits = s.circuits ∧
    (readCircuitRun params s).state.contexts = s.contexts ∧ (readCircuitRun params s).state.pool = s.pool ∧
    (readCircuitRun params s).state.delivery = s.delivery ∧ (readCircuitRun params s).state.trib = s.trib ∧
    (readCircuitRun params s).state.addQueues = s.addQueues ∧ (readCircuitRun params s).state.emitters = s.emitters ∧
    (readCircuitRun params s).state.arbiter = s.arbiter ∧ (readCircuitRun params s).state.engine = s.engine ∧
    (readCircuitRun params s).state.events = s.events ∧ (readCircuitRun params s).state.owed = s.owed := by
  unfold readCircuitRun
  try dsimp only
  repeat' split
  all_goals simp_all

@[simp] theorem writeRecord_frame (c : Circuit) (r : CircuitRecord) (s : State) :
    (writeRecord c r s).pending = s.pending ∧ (writeRecord c r s).pins = s.pins ∧
    (writeRecord c r s).toData = s.toData ∧ (writeRecord c r s).tickCounter = s.tickCounter ∧
    (writeRecord c r s).nodeAddress = s.nodeAddress ∧ (writeRecord c r s).align = s.align ∧
    (writeRecord c r s).slot = s.slot ∧ (writeRecord c r s).contexts = s.contexts ∧
    (writeRecord c r s).pool = s.pool ∧ (writeRecord c r s).delivery = s.delivery ∧
    (writeRecord c r s).trib = s.trib ∧ (writeRecord c r s).addQueues = s.addQueues ∧
    (writeRecord c r s).emitters = s.emitters ∧ (writeRecord c r s).arbiter = s.arbiter ∧
    (writeRecord c r s).engine = s.engine ∧ (writeRecord c r s).events = s.events := by
  unfold writeRecord
  try dsimp only
  repeat' split
  all_goals simp_all

@[simp] theorem writeCircuitRun_frame (params : List Byte) (s : State) :
    (writeCircuitRun params s).state.pending = s.pending ∧ (writeCircuitRun params s).state.pins = s.pins ∧
    (writeCircuitRun params s).state.toData = s.toData ∧
    (writeCircuitRun params s).state.tickCounter = s.tickCounter ∧
    (writeCircuitRun params s).state.nodeAddress = s.nodeAddress ∧ (writeCircuitRun params s).state.align = s.align ∧
    (writeCircuitRun params s).state.slot = s.slot ∧ (writeCircuitRun params s).state.contexts = s.contexts ∧
    (writeCircuitRun params s).state.pool = s.pool ∧ (writeCircuitRun params s).state.delivery = s.delivery ∧
    (writeCircuitRun params s).state.trib = s.trib ∧ (writeCircuitRun params s).state.addQueues = s.addQueues ∧
    (writeCircuitRun params s).state.emitters = s.emitters ∧ (writeCircuitRun params s).state.arbiter = s.arbiter ∧
    (writeCircuitRun params s).state.engine = s.engine ∧ (writeCircuitRun params s).state.events = s.events := by
  unfold writeCircuitRun
  try dsimp only
  repeat' split
  all_goals simp_all

@[simp] theorem startCircuitRun_frame (params : List Byte) (s : State) :
    (startCircuitRun params s).state.pending = s.pending ∧ (startCircuitRun params s).state.pins = s.pins ∧
    (startCircuitRun params s).state.toData = s.toData ∧
    (startCircuitRun params s).state.tickCounter = s.tickCounter ∧
    (startCircuitRun params s).state.nodeAddress = s.nodeAddress ∧ (startCircuitRun params s).state.align = s.align ∧
    (startCircuitRun params s).state.slot = s.slot ∧ (startCircuitRun params s).state.pool = s.pool ∧
    (startCircuitRun params s).state.delivery = s.delivery ∧ (startCircuitRun params s).state.trib = s.trib ∧
    (startCircuitRun params s).state.addQueues = s.addQueues ∧ (startCircuitRun params s).state.arbiter = s.arbiter ∧
    (startCircuitRun params s).state.engine = s.engine ∧ (startCircuitRun params s).state.events = s.events ∧
    (startCircuitRun params s).state.owed = s.owed := by
  unfold startCircuitRun
  try dsimp only
  repeat' split
  all_goals simp_all

@[simp] theorem stopCircuitRun_frame (params : List Byte) (s : State) :
    (stopCircuitRun params s).state.pending = s.pending ∧ (stopCircuitRun params s).state.pins = s.pins ∧
    (stopCircuitRun params s).state.toData = s.toData ∧ (stopCircuitRun params s).state.tickCounter = s.tickCounter ∧
    (stopCircuitRun params s).state.nodeAddress = s.nodeAddress ∧ (stopCircuitRun params s).state.align = s.align ∧
    (stopCircuitRun params s).state.slot = s.slot ∧ (stopCircuitRun params s).state.pool.store = s.pool.store ∧
    (stopCircuitRun params s).state.pool.segReserve = s.pool.segReserve ∧
    (stopCircuitRun params s).state.pool.descReserve = s.pool.descReserve ∧
    (stopCircuitRun params s).state.delivery.credits = s.delivery.credits ∧
    (stopCircuitRun params s).state.delivery.quanta = s.delivery.quanta ∧
    (stopCircuitRun params s).state.delivery.ageLimits = s.delivery.ageLimits ∧
    (stopCircuitRun params s).state.delivery.stallLimit = s.delivery.stallLimit ∧
    (stopCircuitRun params s).state.delivery.inDelivery = s.delivery.inDelivery ∧
    (stopCircuitRun params s).state.delivery.retries = s.delivery.retries ∧
    (stopCircuitRun params s).state.delivery.discarded = s.delivery.discarded ∧
    (stopCircuitRun params s).state.trib = s.trib ∧ (stopCircuitRun params s).state.arbiter = s.arbiter ∧
    (stopCircuitRun params s).state.engine = s.engine ∧ (stopCircuitRun params s).state.events = s.events := by
  unfold stopCircuitRun
  try dsimp only
  repeat' split
  all_goals simp_all

@[simp] theorem clearGlobalCounters_frame (s : State) :
    (clearGlobalCounters s).pending = s.pending ∧ (clearGlobalCounters s).pins = s.pins ∧
    (clearGlobalCounters s).toData = s.toData ∧ (clearGlobalCounters s).tickCounter = s.tickCounter ∧
    (clearGlobalCounters s).nodeAddress = s.nodeAddress ∧ (clearGlobalCounters s).slot = s.slot ∧
    (clearGlobalCounters s).circuits = s.circuits ∧ (clearGlobalCounters s).contexts = s.contexts ∧
    (clearGlobalCounters s).pool = s.pool ∧ (clearGlobalCounters s).delivery.credits = s.delivery.credits ∧
    (clearGlobalCounters s).delivery.queues = s.delivery.queues ∧
    (clearGlobalCounters s).delivery.quanta = s.delivery.quanta ∧
    (clearGlobalCounters s).delivery.ageLimits = s.delivery.ageLimits ∧
    (clearGlobalCounters s).delivery.stallLimit = s.delivery.stallLimit ∧
    (clearGlobalCounters s).delivery.inDelivery = s.delivery.inDelivery ∧
    (clearGlobalCounters s).trib.ready = s.trib.ready ∧ (clearGlobalCounters s).trib.parser = s.trib.parser ∧
    (clearGlobalCounters s).trib.rejects = s.trib.rejects ∧ (clearGlobalCounters s).trib.tx = s.trib.tx ∧
    (clearGlobalCounters s).trib.frame = s.trib.frame ∧ (clearGlobalCounters s).addQueues = s.addQueues ∧
    (clearGlobalCounters s).emitters = s.emitters ∧ (clearGlobalCounters s).arbiter = s.arbiter ∧
    (clearGlobalCounters s).engine.state = s.engine.state ∧ (clearGlobalCounters s).engine.queue = s.engine.queue ∧
    (clearGlobalCounters s).engine.inHand = s.engine.inHand ∧ (clearGlobalCounters s).engine.owner = s.engine.owner ∧
    (clearGlobalCounters s).engine.lease = s.engine.lease ∧ (clearGlobalCounters s).engine.cache = s.engine.cache ∧
    (clearGlobalCounters s).engine.noted = s.engine.noted ∧ (clearGlobalCounters s).events.stack = s.events.stack ∧
    (clearGlobalCounters s).events.bindings = s.events.bindings ∧
    (clearGlobalCounters s).events.faults = s.events.faults ∧
    (clearGlobalCounters s).events.overflow = s.events.overflow ∧
    (clearGlobalCounters s).events.canned = s.events.canned ∧
    (clearGlobalCounters s).events.records = s.events.records ∧
    (clearGlobalCounters s).events.sequence = s.events.sequence ∧
    (clearGlobalCounters s).events.inbox = s.events.inbox ∧ (clearGlobalCounters s).events.floor = s.events.floor ∧
    (clearGlobalCounters s).events.timeout = s.events.timeout ∧
    (clearGlobalCounters s).events.retries = s.events.retries ∧ (clearGlobalCounters s).owed = s.owed := by
  simp [clearGlobalCounters]

@[simp] theorem readCountersRun_frame (params : List Byte) (s : State) :
    (readCountersRun params s).state.pending = s.pending ∧ (readCountersRun params s).state.pins = s.pins ∧
    (readCountersRun params s).state.toData = s.toData ∧
    (readCountersRun params s).state.tickCounter = s.tickCounter ∧
    (readCountersRun params s).state.nodeAddress = s.nodeAddress ∧ (readCountersRun params s).state.slot = s.slot ∧
    (readCountersRun params s).state.contexts = s.contexts ∧ (readCountersRun params s).state.pool = s.pool ∧
    (readCountersRun params s).state.delivery.credits = s.delivery.credits ∧
    (readCountersRun params s).state.delivery.queues = s.delivery.queues ∧
    (readCountersRun params s).state.delivery.quanta = s.delivery.quanta ∧
    (readCountersRun params s).state.delivery.ageLimits = s.delivery.ageLimits ∧
    (readCountersRun params s).state.delivery.stallLimit = s.delivery.stallLimit ∧
    (readCountersRun params s).state.delivery.inDelivery = s.delivery.inDelivery ∧
    (readCountersRun params s).state.trib.ready = s.trib.ready ∧
    (readCountersRun params s).state.trib.parser = s.trib.parser ∧
    (readCountersRun params s).state.trib.rejects = s.trib.rejects ∧
    (readCountersRun params s).state.trib.tx = s.trib.tx ∧
    (readCountersRun params s).state.trib.frame = s.trib.frame ∧
    (readCountersRun params s).state.addQueues = s.addQueues ∧
    (readCountersRun params s).state.emitters = s.emitters ∧ (readCountersRun params s).state.arbiter = s.arbiter ∧
    (readCountersRun params s).state.engine.state = s.engine.state ∧
    (readCountersRun params s).state.engine.queue = s.engine.queue ∧
    (readCountersRun params s).state.engine.inHand = s.engine.inHand ∧
    (readCountersRun params s).state.engine.owner = s.engine.owner ∧
    (readCountersRun params s).state.engine.lease = s.engine.lease ∧
    (readCountersRun params s).state.engine.cache = s.engine.cache ∧
    (readCountersRun params s).state.engine.noted = s.engine.noted ∧
    (readCountersRun params s).state.events.stack = s.events.stack ∧
    (readCountersRun params s).state.events.bindings = s.events.bindings ∧
    (readCountersRun params s).state.events.faults = s.events.faults ∧
    (readCountersRun params s).state.events.overflow = s.events.overflow ∧
    (readCountersRun params s).state.events.canned = s.events.canned ∧
    (readCountersRun params s).state.events.records = s.events.records ∧
    (readCountersRun params s).state.events.sequence = s.events.sequence ∧
    (readCountersRun params s).state.events.inbox = s.events.inbox ∧
    (readCountersRun params s).state.events.floor = s.events.floor ∧
    (readCountersRun params s).state.events.timeout = s.events.timeout ∧
    (readCountersRun params s).state.events.retries = s.events.retries ∧
    (readCountersRun params s).state.owed = s.owed := by
  unfold readCountersRun
  try dsimp only
  repeat' split
  all_goals simp_all

/-! ### PoolRequests -/

@[simp] theorem readPoolRun_frame (params : List Byte) (s : State) :
    (readPoolRun params s).state.pending = s.pending ∧ (readPoolRun params s).state.pins = s.pins ∧
    (readPoolRun params s).state.toData = s.toData ∧ (readPoolRun params s).state.tickCounter = s.tickCounter ∧
    (readPoolRun params s).state.nodeAddress = s.nodeAddress ∧ (readPoolRun params s).state.align = s.align ∧
    (readPoolRun params s).state.slot = s.slot ∧ (readPoolRun params s).state.circuits = s.circuits ∧
    (readPoolRun params s).state.contexts = s.contexts ∧ (readPoolRun params s).state.pool = s.pool ∧
    (readPoolRun params s).state.delivery = s.delivery ∧ (readPoolRun params s).state.trib = s.trib ∧
    (readPoolRun params s).state.addQueues = s.addQueues ∧ (readPoolRun params s).state.emitters = s.emitters ∧
    (readPoolRun params s).state.arbiter = s.arbiter ∧ (readPoolRun params s).state.engine = s.engine ∧
    (readPoolRun params s).state.events = s.events ∧ (readPoolRun params s).state.owed = s.owed := by
  unfold readPoolRun
  try dsimp only
  repeat' split
  all_goals simp_all

@[simp] theorem writeLevels_frame (segReserve descReserve : Nat) (s : State) :
    (writeLevels segReserve descReserve s).pending = s.pending ∧
    (writeLevels segReserve descReserve s).pins = s.pins ∧ (writeLevels segReserve descReserve s).toData = s.toData ∧
    (writeLevels segReserve descReserve s).tickCounter = s.tickCounter ∧
    (writeLevels segReserve descReserve s).nodeAddress = s.nodeAddress ∧
    (writeLevels segReserve descReserve s).align = s.align ∧ (writeLevels segReserve descReserve s).slot = s.slot ∧
    (writeLevels segReserve descReserve s).circuits = s.circuits ∧
    (writeLevels segReserve descReserve s).contexts = s.contexts ∧
    (writeLevels segReserve descReserve s).pool.store = s.pool.store ∧
    (writeLevels segReserve descReserve s).pool.freeSegs = s.pool.freeSegs ∧
    (writeLevels segReserve descReserve s).pool.freeDescs = s.pool.freeDescs ∧
    (writeLevels segReserve descReserve s).pool.descs = s.pool.descs ∧
    (writeLevels segReserve descReserve s).delivery = s.delivery ∧
    (writeLevels segReserve descReserve s).trib = s.trib ∧
    (writeLevels segReserve descReserve s).addQueues = s.addQueues ∧
    (writeLevels segReserve descReserve s).emitters = s.emitters ∧
    (writeLevels segReserve descReserve s).arbiter = s.arbiter ∧
    (writeLevels segReserve descReserve s).engine = s.engine ∧
    (writeLevels segReserve descReserve s).events.stack = s.events.stack ∧
    (writeLevels segReserve descReserve s).events.bindings = s.events.bindings ∧
    (writeLevels segReserve descReserve s).events.faults = s.events.faults ∧
    (writeLevels segReserve descReserve s).events.overflow = s.events.overflow ∧
    (writeLevels segReserve descReserve s).events.canned = s.events.canned ∧
    (writeLevels segReserve descReserve s).events.records = s.events.records ∧
    (writeLevels segReserve descReserve s).events.sequence = s.events.sequence ∧
    (writeLevels segReserve descReserve s).events.floor = s.events.floor ∧
    (writeLevels segReserve descReserve s).events.timeout = s.events.timeout ∧
    (writeLevels segReserve descReserve s).events.retries = s.events.retries ∧
    (writeLevels segReserve descReserve s).events.misses = s.events.misses ∧
    (writeLevels segReserve descReserve s).events.abandoned = s.events.abandoned := by
  simp [writeLevels]

@[simp] theorem writePoolRun_frame (params : List Byte) (s : State) :
    (writePoolRun params s).state.pending = s.pending ∧ (writePoolRun params s).state.pins = s.pins ∧
    (writePoolRun params s).state.toData = s.toData ∧ (writePoolRun params s).state.tickCounter = s.tickCounter ∧
    (writePoolRun params s).state.nodeAddress = s.nodeAddress ∧ (writePoolRun params s).state.align = s.align ∧
    (writePoolRun params s).state.slot = s.slot ∧ (writePoolRun params s).state.circuits = s.circuits ∧
    (writePoolRun params s).state.contexts = s.contexts ∧ (writePoolRun params s).state.pool.store = s.pool.store ∧
    (writePoolRun params s).state.pool.freeSegs = s.pool.freeSegs ∧
    (writePoolRun params s).state.pool.freeDescs = s.pool.freeDescs ∧
    (writePoolRun params s).state.pool.descs = s.pool.descs ∧ (writePoolRun params s).state.delivery = s.delivery ∧
    (writePoolRun params s).state.trib = s.trib ∧ (writePoolRun params s).state.addQueues = s.addQueues ∧
    (writePoolRun params s).state.emitters = s.emitters ∧ (writePoolRun params s).state.arbiter = s.arbiter ∧
    (writePoolRun params s).state.engine = s.engine ∧ (writePoolRun params s).state.events.stack = s.events.stack ∧
    (writePoolRun params s).state.events.bindings = s.events.bindings ∧
    (writePoolRun params s).state.events.faults = s.events.faults ∧
    (writePoolRun params s).state.events.overflow = s.events.overflow ∧
    (writePoolRun params s).state.events.canned = s.events.canned ∧
    (writePoolRun params s).state.events.records = s.events.records ∧
    (writePoolRun params s).state.events.sequence = s.events.sequence ∧
    (writePoolRun params s).state.events.floor = s.events.floor ∧
    (writePoolRun params s).state.events.timeout = s.events.timeout ∧
    (writePoolRun params s).state.events.retries = s.events.retries ∧
    (writePoolRun params s).state.events.misses = s.events.misses ∧
    (writePoolRun params s).state.events.abandoned = s.events.abandoned := by
  unfold writePoolRun
  try dsimp only
  repeat' split
  all_goals simp_all

@[simp] theorem readSchedRun_frame (_params : List Byte) (s : State) :
    (readSchedRun _params s).state.pending = s.pending ∧ (readSchedRun _params s).state.pins = s.pins ∧
    (readSchedRun _params s).state.toData = s.toData ∧ (readSchedRun _params s).state.tickCounter = s.tickCounter ∧
    (readSchedRun _params s).state.nodeAddress = s.nodeAddress ∧ (readSchedRun _params s).state.align = s.align ∧
    (readSchedRun _params s).state.slot = s.slot ∧ (readSchedRun _params s).state.circuits = s.circuits ∧
    (readSchedRun _params s).state.contexts = s.contexts ∧ (readSchedRun _params s).state.pool = s.pool ∧
    (readSchedRun _params s).state.delivery = s.delivery ∧ (readSchedRun _params s).state.trib = s.trib ∧
    (readSchedRun _params s).state.addQueues = s.addQueues ∧ (readSchedRun _params s).state.emitters = s.emitters ∧
    (readSchedRun _params s).state.arbiter = s.arbiter ∧ (readSchedRun _params s).state.engine = s.engine ∧
    (readSchedRun _params s).state.events = s.events ∧ (readSchedRun _params s).state.owed = s.owed := by
  simp [readSchedRun]

@[simp] theorem writeSchedRun_frame (params : List Byte) (s : State) :
    (writeSchedRun params s).state.pending = s.pending ∧ (writeSchedRun params s).state.pins = s.pins ∧
    (writeSchedRun params s).state.toData = s.toData ∧ (writeSchedRun params s).state.tickCounter = s.tickCounter ∧
    (writeSchedRun params s).state.nodeAddress = s.nodeAddress ∧ (writeSchedRun params s).state.align = s.align ∧
    (writeSchedRun params s).state.slot = s.slot ∧ (writeSchedRun params s).state.circuits = s.circuits ∧
    (writeSchedRun params s).state.contexts = s.contexts ∧ (writeSchedRun params s).state.pool = s.pool ∧
    (writeSchedRun params s).state.delivery.credits = s.delivery.credits ∧
    (writeSchedRun params s).state.delivery.queues = s.delivery.queues ∧
    (writeSchedRun params s).state.delivery.inDelivery = s.delivery.inDelivery ∧
    (writeSchedRun params s).state.delivery.retries = s.delivery.retries ∧
    (writeSchedRun params s).state.delivery.discarded = s.delivery.discarded ∧
    (writeSchedRun params s).state.trib = s.trib ∧ (writeSchedRun params s).state.addQueues = s.addQueues ∧
    (writeSchedRun params s).state.emitters = s.emitters ∧ (writeSchedRun params s).state.arbiter = s.arbiter ∧
    (writeSchedRun params s).state.engine = s.engine ∧ (writeSchedRun params s).state.events = s.events ∧
    (writeSchedRun params s).state.owed = s.owed := by
  unfold writeSchedRun
  try dsimp only
  repeat' split
  all_goals simp_all

/-! ### EventRequests -/

@[simp] theorem readEventsRun_frame (_params : List Byte) (s : State) :
    (readEventsRun _params s).state.pending = s.pending ∧ (readEventsRun _params s).state.pins = s.pins ∧
    (readEventsRun _params s).state.toData = s.toData ∧ (readEventsRun _params s).state.tickCounter = s.tickCounter ∧
    (readEventsRun _params s).state.nodeAddress = s.nodeAddress ∧ (readEventsRun _params s).state.align = s.align ∧
    (readEventsRun _params s).state.slot = s.slot ∧ (readEventsRun _params s).state.circuits = s.circuits ∧
    (readEventsRun _params s).state.contexts = s.contexts ∧ (readEventsRun _params s).state.pool = s.pool ∧
    (readEventsRun _params s).state.delivery = s.delivery ∧ (readEventsRun _params s).state.trib = s.trib ∧
    (readEventsRun _params s).state.addQueues = s.addQueues ∧ (readEventsRun _params s).state.emitters = s.emitters ∧
    (readEventsRun _params s).state.arbiter = s.arbiter ∧ (readEventsRun _params s).state.engine = s.engine ∧
    (readEventsRun _params s).state.events = s.events ∧ (readEventsRun _params s).state.owed = s.owed := by
  simp [readEventsRun]

@[simp] theorem writeEventConfigRun_frame (params : List Byte) (s : State) :
    (writeEventConfigRun params s).state.pending = s.pending ∧ (writeEventConfigRun params s).state.pins = s.pins ∧
    (writeEventConfigRun params s).state.toData = s.toData ∧
    (writeEventConfigRun params s).state.tickCounter = s.tickCounter ∧
    (writeEventConfigRun params s).state.nodeAddress = s.nodeAddress ∧
    (writeEventConfigRun params s).state.align = s.align ∧ (writeEventConfigRun params s).state.slot = s.slot ∧
    (writeEventConfigRun params s).state.circuits = s.circuits ∧
    (writeEventConfigRun params s).state.contexts = s.contexts ∧ (writeEventConfigRun params s).state.pool = s.pool ∧
    (writeEventConfigRun params s).state.delivery = s.delivery ∧ (writeEventConfigRun params s).state.trib = s.trib ∧
    (writeEventConfigRun params s).state.addQueues = s.addQueues ∧
    (writeEventConfigRun params s).state.emitters = s.emitters ∧
    (writeEventConfigRun params s).state.arbiter.response = s.arbiter.response ∧
    (writeEventConfigRun params s).state.engine = s.engine := by
  unfold writeEventConfigRun
  try dsimp only
  repeat' split
  all_goals simp_all

@[simp] theorem clearRecords_frame (kinds : List EventKind) (s : State) :
    (clearRecords kinds s).pending = s.pending ∧ (clearRecords kinds s).pins = s.pins ∧
    (clearRecords kinds s).toData = s.toData ∧ (clearRecords kinds s).tickCounter = s.tickCounter ∧
    (clearRecords kinds s).nodeAddress = s.nodeAddress ∧ (clearRecords kinds s).align = s.align ∧
    (clearRecords kinds s).slot = s.slot ∧ (clearRecords kinds s).circuits = s.circuits ∧
    (clearRecords kinds s).contexts = s.contexts ∧ (clearRecords kinds s).pool = s.pool ∧
    (clearRecords kinds s).delivery = s.delivery ∧ (clearRecords kinds s).trib = s.trib ∧
    (clearRecords kinds s).addQueues = s.addQueues ∧ (clearRecords kinds s).emitters = s.emitters ∧
    (clearRecords kinds s).arbiter = s.arbiter ∧ (clearRecords kinds s).engine = s.engine ∧
    (clearRecords kinds s).events.stack = s.events.stack ∧
    (clearRecords kinds s).events.bindings = s.events.bindings ∧
    (clearRecords kinds s).events.faults = s.events.faults ∧
    (clearRecords kinds s).events.overflow = s.events.overflow ∧
    (clearRecords kinds s).events.canned = s.events.canned ∧
    (clearRecords kinds s).events.sequence = s.events.sequence ∧
    (clearRecords kinds s).events.inbox = s.events.inbox ∧ (clearRecords kinds s).events.floor = s.events.floor ∧
    (clearRecords kinds s).events.timeout = s.events.timeout ∧
    (clearRecords kinds s).events.retries = s.events.retries ∧
    (clearRecords kinds s).events.misses = s.events.misses ∧
    (clearRecords kinds s).events.abandoned = s.events.abandoned ∧ (clearRecords kinds s).owed = s.owed := by
  unfold clearRecords
  refine ⟨foldl_keeps (·.pending) (fun t d => by simp) _ s,
    foldl_keeps (·.pins) (fun t d => by simp) _ s,
    foldl_keeps (·.toData) (fun t d => by simp) _ s,
    foldl_keeps (·.tickCounter) (fun t d => by simp) _ s,
    foldl_keeps (·.nodeAddress) (fun t d => by simp) _ s,
    foldl_keeps (·.align) (fun t d => by simp) _ s,
    foldl_keeps (·.slot) (fun t d => by simp) _ s,
    foldl_keeps (·.circuits) (fun t d => by simp) _ s,
    foldl_keeps (·.contexts) (fun t d => by simp) _ s,
    foldl_keeps (·.pool) (fun t d => by simp) _ s,
    foldl_keeps (·.delivery) (fun t d => by simp) _ s,
    foldl_keeps (·.trib) (fun t d => by simp) _ s,
    foldl_keeps (·.addQueues) (fun t d => by simp) _ s,
    foldl_keeps (·.emitters) (fun t d => by simp) _ s,
    foldl_keeps (·.arbiter) (fun t d => by simp) _ s,
    foldl_keeps (·.engine) (fun t d => by simp) _ s,
    foldl_keeps (·.events.stack) (fun t d => by simp) _ s,
    foldl_keeps (·.events.bindings) (fun t d => by simp) _ s,
    foldl_keeps (·.events.faults) (fun t d => by simp) _ s,
    foldl_keeps (·.events.overflow) (fun t d => by simp) _ s,
    foldl_keeps (·.events.canned) (fun t d => by simp) _ s,
    foldl_keeps (·.events.sequence) (fun t d => by simp) _ s,
    foldl_keeps (·.events.inbox) (fun t d => by simp) _ s,
    foldl_keeps (·.events.floor) (fun t d => by simp) _ s,
    foldl_keeps (·.events.timeout) (fun t d => by simp) _ s,
    foldl_keeps (·.events.retries) (fun t d => by simp) _ s,
    foldl_keeps (·.events.misses) (fun t d => by simp) _ s,
    foldl_keeps (·.events.abandoned) (fun t d => by simp) _ s,
    foldl_keeps (·.owed) (fun t d => by simp) _ s⟩

@[simp] theorem ackEventsRun_frame (params : List Byte) (s : State) :
    (ackEventsRun params s).state.pending = s.pending ∧ (ackEventsRun params s).state.pins = s.pins ∧
    (ackEventsRun params s).state.toData = s.toData ∧ (ackEventsRun params s).state.tickCounter = s.tickCounter ∧
    (ackEventsRun params s).state.nodeAddress = s.nodeAddress ∧ (ackEventsRun params s).state.align = s.align ∧
    (ackEventsRun params s).state.slot = s.slot ∧ (ackEventsRun params s).state.circuits = s.circuits ∧
    (ackEventsRun params s).state.contexts = s.contexts ∧ (ackEventsRun params s).state.pool = s.pool ∧
    (ackEventsRun params s).state.delivery = s.delivery ∧ (ackEventsRun params s).state.trib = s.trib ∧
    (ackEventsRun params s).state.addQueues = s.addQueues ∧ (ackEventsRun params s).state.emitters = s.emitters ∧
    (ackEventsRun params s).state.arbiter.response = s.arbiter.response ∧
    (ackEventsRun params s).state.engine = s.engine ∧ (ackEventsRun params s).state.events.stack = s.events.stack ∧
    (ackEventsRun params s).state.events.bindings = s.events.bindings ∧
    (ackEventsRun params s).state.events.faults = s.events.faults ∧
    (ackEventsRun params s).state.events.overflow = s.events.overflow ∧
    (ackEventsRun params s).state.events.canned = s.events.canned ∧
    (ackEventsRun params s).state.events.sequence = s.events.sequence ∧
    (ackEventsRun params s).state.events.inbox = s.events.inbox ∧
    (ackEventsRun params s).state.events.floor = s.events.floor ∧
    (ackEventsRun params s).state.events.timeout = s.events.timeout ∧
    (ackEventsRun params s).state.events.retries = s.events.retries ∧
    (ackEventsRun params s).state.events.misses = s.events.misses ∧
    (ackEventsRun params s).state.events.abandoned = s.events.abandoned := by
  unfold ackEventsRun
  try dsimp only
  repeat' split
  all_goals simp_all

@[simp] theorem noticeAckRun_frame (params : List Byte) (s : State) :
    (noticeAckRun params s).state.pending = s.pending ∧ (noticeAckRun params s).state.pins = s.pins ∧
    (noticeAckRun params s).state.toData = s.toData ∧ (noticeAckRun params s).state.tickCounter = s.tickCounter ∧
    (noticeAckRun params s).state.nodeAddress = s.nodeAddress ∧ (noticeAckRun params s).state.align = s.align ∧
    (noticeAckRun params s).state.slot = s.slot ∧ (noticeAckRun params s).state.circuits = s.circuits ∧
    (noticeAckRun params s).state.contexts = s.contexts ∧ (noticeAckRun params s).state.pool = s.pool ∧
    (noticeAckRun params s).state.delivery = s.delivery ∧ (noticeAckRun params s).state.trib = s.trib ∧
    (noticeAckRun params s).state.addQueues = s.addQueues ∧ (noticeAckRun params s).state.emitters = s.emitters ∧
    (noticeAckRun params s).state.arbiter.response = s.arbiter.response ∧
    (noticeAckRun params s).state.engine = s.engine ∧
    (noticeAckRun params s).state.events.bindings = s.events.bindings ∧
    (noticeAckRun params s).state.events.faults = s.events.faults ∧
    (noticeAckRun params s).state.events.overflow = s.events.overflow ∧
    (noticeAckRun params s).state.events.canned = s.events.canned ∧
    (noticeAckRun params s).state.events.sequence = s.events.sequence ∧
    (noticeAckRun params s).state.events.inbox = s.events.inbox ∧
    (noticeAckRun params s).state.events.floor = s.events.floor ∧
    (noticeAckRun params s).state.events.timeout = s.events.timeout ∧
    (noticeAckRun params s).state.events.retries = s.events.retries ∧
    (noticeAckRun params s).state.events.misses = s.events.misses ∧
    (noticeAckRun params s).state.events.abandoned = s.events.abandoned := by
  unfold noticeAckRun
  try dsimp only
  repeat' split
  all_goals simp_all

@[simp] theorem readFaultsRun_frame (_params : List Byte) (s : State) :
    (readFaultsRun _params s).state.pending = s.pending ∧ (readFaultsRun _params s).state.pins = s.pins ∧
    (readFaultsRun _params s).state.toData = s.toData ∧ (readFaultsRun _params s).state.tickCounter = s.tickCounter ∧
    (readFaultsRun _params s).state.nodeAddress = s.nodeAddress ∧ (readFaultsRun _params s).state.align = s.align ∧
    (readFaultsRun _params s).state.slot = s.slot ∧ (readFaultsRun _params s).state.circuits = s.circuits ∧
    (readFaultsRun _params s).state.contexts = s.contexts ∧ (readFaultsRun _params s).state.pool = s.pool ∧
    (readFaultsRun _params s).state.delivery = s.delivery ∧ (readFaultsRun _params s).state.trib = s.trib ∧
    (readFaultsRun _params s).state.addQueues = s.addQueues ∧ (readFaultsRun _params s).state.emitters = s.emitters ∧
    (readFaultsRun _params s).state.arbiter = s.arbiter ∧ (readFaultsRun _params s).state.engine = s.engine ∧
    (readFaultsRun _params s).state.events = s.events ∧ (readFaultsRun _params s).state.owed = s.owed := by
  simp [readFaultsRun]

@[simp] theorem clearFaultsRun_frame (_params : List Byte) (s : State) :
    (clearFaultsRun _params s).state.pending = s.pending ∧ (clearFaultsRun _params s).state.pins = s.pins ∧
    (clearFaultsRun _params s).state.toData = s.toData ∧
    (clearFaultsRun _params s).state.tickCounter = s.tickCounter ∧
    (clearFaultsRun _params s).state.nodeAddress = s.nodeAddress ∧ (clearFaultsRun _params s).state.align = s.align ∧
    (clearFaultsRun _params s).state.slot = s.slot ∧ (clearFaultsRun _params s).state.circuits = s.circuits ∧
    (clearFaultsRun _params s).state.contexts = s.contexts ∧ (clearFaultsRun _params s).state.pool = s.pool ∧
    (clearFaultsRun _params s).state.delivery = s.delivery ∧ (clearFaultsRun _params s).state.trib = s.trib ∧
    (clearFaultsRun _params s).state.addQueues = s.addQueues ∧
    (clearFaultsRun _params s).state.emitters = s.emitters ∧ (clearFaultsRun _params s).state.arbiter = s.arbiter ∧
    (clearFaultsRun _params s).state.engine = s.engine ∧
    (clearFaultsRun _params s).state.events.stack = s.events.stack ∧
    (clearFaultsRun _params s).state.events.bindings = s.events.bindings ∧
    (clearFaultsRun _params s).state.events.canned = s.events.canned ∧
    (clearFaultsRun _params s).state.events.records = s.events.records ∧
    (clearFaultsRun _params s).state.events.sequence = s.events.sequence ∧
    (clearFaultsRun _params s).state.events.inbox = s.events.inbox ∧
    (clearFaultsRun _params s).state.events.floor = s.events.floor ∧
    (clearFaultsRun _params s).state.events.timeout = s.events.timeout ∧
    (clearFaultsRun _params s).state.events.retries = s.events.retries ∧
    (clearFaultsRun _params s).state.events.misses = s.events.misses ∧
    (clearFaultsRun _params s).state.events.abandoned = s.events.abandoned ∧
    (clearFaultsRun _params s).state.owed = s.owed := by
  simp [clearFaultsRun]

@[simp] theorem writeBindingRun_frame (params : List Byte) (s : State) :
    (writeBindingRun params s).state.pending = s.pending ∧ (writeBindingRun params s).state.pins = s.pins ∧
    (writeBindingRun params s).state.toData = s.toData ∧
    (writeBindingRun params s).state.tickCounter = s.tickCounter ∧
    (writeBindingRun params s).state.nodeAddress = s.nodeAddress ∧ (writeBindingRun params s).state.align = s.align ∧
    (writeBindingRun params s).state.slot = s.slot ∧ (writeBindingRun params s).state.circuits = s.circuits ∧
    (writeBindingRun params s).state.contexts = s.contexts ∧ (writeBindingRun params s).state.pool = s.pool ∧
    (writeBindingRun params s).state.delivery = s.delivery ∧ (writeBindingRun params s).state.trib = s.trib ∧
    (writeBindingRun params s).state.addQueues = s.addQueues ∧
    (writeBindingRun params s).state.emitters = s.emitters ∧ (writeBindingRun params s).state.arbiter = s.arbiter ∧
    (writeBindingRun params s).state.engine = s.engine ∧
    (writeBindingRun params s).state.events.stack = s.events.stack ∧
    (writeBindingRun params s).state.events.faults = s.events.faults ∧
    (writeBindingRun params s).state.events.overflow = s.events.overflow ∧
    (writeBindingRun params s).state.events.canned = s.events.canned ∧
    (writeBindingRun params s).state.events.records = s.events.records ∧
    (writeBindingRun params s).state.events.sequence = s.events.sequence ∧
    (writeBindingRun params s).state.events.inbox = s.events.inbox ∧
    (writeBindingRun params s).state.events.floor = s.events.floor ∧
    (writeBindingRun params s).state.events.timeout = s.events.timeout ∧
    (writeBindingRun params s).state.events.retries = s.events.retries ∧
    (writeBindingRun params s).state.events.misses = s.events.misses ∧
    (writeBindingRun params s).state.events.abandoned = s.events.abandoned ∧
    (writeBindingRun params s).state.owed = s.owed := by
  unfold writeBindingRun
  try dsimp only
  repeat' split
  all_goals simp_all

@[simp] theorem readBindingsRun_frame (_params : List Byte) (s : State) :
    (readBindingsRun _params s).state.pending = s.pending ∧ (readBindingsRun _params s).state.pins = s.pins ∧
    (readBindingsRun _params s).state.toData = s.toData ∧
    (readBindingsRun _params s).state.tickCounter = s.tickCounter ∧
    (readBindingsRun _params s).state.nodeAddress = s.nodeAddress ∧
    (readBindingsRun _params s).state.align = s.align ∧ (readBindingsRun _params s).state.slot = s.slot ∧
    (readBindingsRun _params s).state.circuits = s.circuits ∧
    (readBindingsRun _params s).state.contexts = s.contexts ∧ (readBindingsRun _params s).state.pool = s.pool ∧
    (readBindingsRun _params s).state.delivery = s.delivery ∧ (readBindingsRun _params s).state.trib = s.trib ∧
    (readBindingsRun _params s).state.addQueues = s.addQueues ∧
    (readBindingsRun _params s).state.emitters = s.emitters ∧ (readBindingsRun _params s).state.arbiter = s.arbiter ∧
    (readBindingsRun _params s).state.engine = s.engine ∧ (readBindingsRun _params s).state.events = s.events ∧
    (readBindingsRun _params s).state.owed = s.owed := by
  simp [readBindingsRun]

@[simp] theorem loadCannedRun_frame (params : List Byte) (s : State) :
    (loadCannedRun params s).state.pending = s.pending ∧ (loadCannedRun params s).state.pins = s.pins ∧
    (loadCannedRun params s).state.toData = s.toData ∧ (loadCannedRun params s).state.tickCounter = s.tickCounter ∧
    (loadCannedRun params s).state.nodeAddress = s.nodeAddress ∧ (loadCannedRun params s).state.align = s.align ∧
    (loadCannedRun params s).state.slot = s.slot ∧ (loadCannedRun params s).state.circuits = s.circuits ∧
    (loadCannedRun params s).state.contexts = s.contexts ∧ (loadCannedRun params s).state.pool = s.pool ∧
    (loadCannedRun params s).state.delivery = s.delivery ∧ (loadCannedRun params s).state.trib = s.trib ∧
    (loadCannedRun params s).state.addQueues = s.addQueues ∧ (loadCannedRun params s).state.emitters = s.emitters ∧
    (loadCannedRun params s).state.arbiter = s.arbiter ∧ (loadCannedRun params s).state.engine = s.engine ∧
    (loadCannedRun params s).state.events.stack = s.events.stack ∧
    (loadCannedRun params s).state.events.bindings = s.events.bindings ∧
    (loadCannedRun params s).state.events.faults = s.events.faults ∧
    (loadCannedRun params s).state.events.overflow = s.events.overflow ∧
    (loadCannedRun params s).state.events.records = s.events.records ∧
    (loadCannedRun params s).state.events.sequence = s.events.sequence ∧
    (loadCannedRun params s).state.events.inbox = s.events.inbox ∧
    (loadCannedRun params s).state.events.floor = s.events.floor ∧
    (loadCannedRun params s).state.events.timeout = s.events.timeout ∧
    (loadCannedRun params s).state.events.retries = s.events.retries ∧
    (loadCannedRun params s).state.events.misses = s.events.misses ∧
    (loadCannedRun params s).state.events.abandoned = s.events.abandoned ∧
    (loadCannedRun params s).state.owed = s.owed := by
  unfold loadCannedRun
  try dsimp only
  repeat' split
  all_goals simp_all

end Sys2Proof.Machine
end

