-- ==== Sys2Proof/Laws/Chains.lean ====
section
/-!
SUPPORT. Chains of occurrences end: what is taken gives rise to less than it uses up, so that the bound of
`takeOccurrences` is never reached and occurrences are taken until none waits (R182, R194, R195; log entry 9).
-/

namespace Sys2Proof.Machine

/-! ### What an action raises -/

/-- A grant raises one occurrence at most (R82). -/
theorem allocate_raises {m : NewMessage} {d : DescNo} {s t : State} (h : allocate m s = .ok (d, t)) :
    t.events.inbox.length ≤ s.events.inbox.length + 1 := by
  unfold allocate at h
  split at h
  · cases h
  · cases h
  · cases h
    unfold judgeReserve
    split <;> simp [raise]

/-- An admission raises one occurrence at most (R82). -/
theorem enqueue_raises {m : NewMessage} {body : List Byte} {d : DescNo} {s t : State}
    (h : enqueue m body s = .ok (d, t)) : t.events.inbox.length ≤ s.events.inbox.length + 1 := by
  unfold enqueue at h
  split at h
  · cases h
  · rename_i ha
    cases h
    simpa using allocate_raises ha

/-- A refusal raises one occurrence at most (R76). -/
theorem raiseRefusal_raises (f : AllocFailure) (c : Circuit) (length : Nat) (s : State) :
    (raiseRefusal f c length s).events.inbox.length ≤ s.events.inbox.length + 1 := by
  cases f <;> simp [raiseRefusal, raise]

/-- An action raises one occurrence at most. -/
theorem performAction_raises (a : BindingAction) (s : State) :
    (performAction a s).2.events.inbox.length ≤ s.events.inbox.length + 1 := by
  cases a with
  | swap =>
    show (boundSwap s).2.events.inbox.length ≤ _
    unfold boundSwap armSwapRecord performSwap
    repeat' split
    all_goals simp [raise]
  | circuitStop c => simp [performAction]
  | circuitStart c => simp [performAction]
  | sendCanned i c =>
    show (boundSend i c s).2.events.inbox.length ≤ _
    unfold boundSend
    repeat' split
    · simp
    · simp
    · simp
    · rename_i h
      exact enqueue_raises h
    · exact raiseRefusal_raises ..
  | flushClass q => simp [performAction]

/-! ### What is left to a chain -/

/-- The bindings not barred. -/
def unbarred (barred : List (Fin Config.bindings)) : Nat :=
  ((List.finRange Config.bindings).filter fun i => !barred.contains i).length

/-- More occurrences than one can come to without a success: each failure bars one binding more and raises two at most. -/
def chainWeight (barred : List (Fin Config.bindings)) : Nat := 2 ^ (unbarred barred + 1) - 1

/-- What is left: of successes, each of which begins a chain anew, and of the occurrences that wait. -/
def chainLeft (s : State) : Nat :=
  127 * successesLeft s.events + (s.events.inbox.map fun o => chainWeight o.barred).sum

theorem unbarred_le (barred : List (Fin Config.bindings)) : unbarred barred ≤ 6 := by
  have h := List.length_filter_le (fun i => !barred.contains i) (List.finRange Config.bindings)
  simpa [unbarred] using h

theorem chainWeight_pos (barred : List (Fin Config.bindings)) : 1 ≤ chainWeight barred := by
  have h : 2 ≤ 2 ^ (unbarred barred + 1) := by rw [Nat.pow_succ]; have := Nat.one_le_two_pow (n := unbarred barred); omega
  unfold chainWeight
  omega

theorem chainWeight_le (barred : List (Fin Config.bindings)) : chainWeight barred ≤ 127 := by
  have h : 2 ^ (unbarred barred + 1) ≤ 2 ^ 7 := Nat.pow_le_pow_right (by omega) (by have := unbarred_le barred; omega)
  unfold chainWeight
  omega

/-- A failure bars one binding more. -/
theorem unbarred_cons (i : Fin Config.bindings) (barred : List (Fin Config.bindings)) (h : i ∉ barred) :
    unbarred (i :: barred) < unbarred barred := by
  have hf : ((List.finRange Config.bindings).filter fun j => !(i :: barred).contains j) =
      (((List.finRange Config.bindings).filter fun j => !barred.contains j).filter fun j => j != i) := by
    rw [List.filter_filter]
    apply List.filter_congr
    intro j _
    by_cases hj : j = i <;> simp [hj]
  unfold unbarred
  rw [hf, List.length_filter_lt_length_iff_exists]
  exact ⟨i, by simp [h], by simp⟩

/-- Two occurrences that a failure raises weigh less than the one it failed at. -/
theorem chainWeight_cons (i : Fin Config.bindings) (barred : List (Fin Config.bindings)) (h : i ∉ barred) :
    2 * chainWeight (i :: barred) < chainWeight barred := by
  have hp : 2 ^ (unbarred (i :: barred) + 1) ≤ 2 ^ unbarred barred :=
    Nat.pow_le_pow_right (by omega) (unbarred_cons i barred h)
  have h1 := Nat.one_le_two_pow (n := unbarred barred)
  have h2 : 2 ^ (unbarred barred + 1) = 2 ^ unbarred barred * 2 := Nat.pow_succ ..
  unfold chainWeight
  omega

/-! ### Successes -/

/-- A success uses one up. -/
theorem Binding.successesLeft_after {b : Binding} (ha : b.armed = true) (he : b.enabled = true) :
    b.afterSuccess.successesLeft < b.successesLeft := by
  have h : b.successesLeft = b.count + 1 := by simp [Binding.successesLeft, ha, he]
  rw [h]
  unfold Binding.afterSuccess
  dsimp only
  split
  · split <;> simp [Binding.successesLeft]
  · simp [Binding.successesLeft, ha, he]
    omega

/-- The successes left are told by the bindings. -/
theorem successesLeft_congr {a b : Events} (h : a.bindings = b.bindings) : successesLeft a = successesLeft b := by
  simp [successesLeft, h]

/-- The successes left with a binding replaced. -/
theorem successesLeft_put {e t : Events} {i : Fin Config.bindings} {x : Option Binding}
    (h : t.bindings = e.bindings.put i x) :
    successesLeft t + ((e.bindings.get i).map Binding.successesLeft).getD 0 =
      successesLeft e + (x.map Binding.successesLeft).getD 0 := by
  unfold successesLeft
  rw [h]
  exact sum_map_set e.bindings.cells i.val (by rw [e.bindings.size]; exact i.isLt) x
    fun b => (b.map Binding.successesLeft).getD 0

/-! ### One occurrence -/

/-- What consulting a binding raises, and what it leaves: nothing and all, one occurrence at most and a success fewer, or
two at most and a binding barred that was not. -/
theorem consultBinding_leaves (o : Occurrence) (s : State) (hi : s.events.inbox = []) :
    ((consultBinding o s).1 = none ∧ (consultBinding o s).2.events.inbox = [] ∧
      successesLeft (consultBinding o s).2.events = successesLeft s.events) ∨
    ((consultBinding o s).1 = none ∧ (consultBinding o s).2.events.inbox.length ≤ 1 ∧
      successesLeft (consultBinding o s).2.events < successesLeft s.events) ∨
    (∃ i, (consultBinding o s).1 = some i ∧ i ∉ o.barred ∧ (consultBinding o s).2.events.inbox.length ≤ 2 ∧
      successesLeft (consultBinding o s).2.events = successesLeft s.events) := by
  unfold consultBinding
  split
  · exact .inl ⟨rfl, hi, rfl⟩
  rename_i i _
  split
  · exact .inl ⟨rfl, hi, rfl⟩
  rename_i b hb
  split
  · rename_i hacts
    simp only [Bool.and_eq_true, Bool.not_eq_true'] at hacts
    obtain ⟨⟨⟨ha, he⟩, hn⟩, _⟩ := hacts
    have hr := performAction_raises b.action s
    rw [hi] at hr
    split
    · refine .inr (.inl ⟨rfl, ?_, ?_⟩)
      · have : (bindingSucceeded i b (performAction b.action s).2).events.inbox =
            (performAction b.action s).2.events.inbox := by simp
        rw [this]
        simpa using hr
      · have hput : (bindingSucceeded i b (performAction b.action s).2).events.bindings =
            s.events.bindings.put i (some b.afterSuccess) := by
          unfold bindingSucceeded clearRecord Events.changeRecord setEvents
          dsimp only
          split <;> simp
        have h2 := successesLeft_put hput
        have h3 := Binding.successesLeft_after ha he
        simp only [hb, Option.map_some, Option.getD_some] at h2
        show successesLeft (bindingSucceeded i b (performAction b.action s).2).events < _
        omega
    · rename_i f _
      refine .inr (.inr ⟨i, rfl, ?_, ?_, ?_⟩)
      · intro hm
        simp [hm] at hn
      · have : (bindingFailed i o.kind f (performAction b.action s).2).events.inbox.length =
            (performAction b.action s).2.events.inbox.length + 1 := by simp [bindingFailed, raise, setEvents]
        rw [this]
        simp only [List.length_nil] at hr
        omega
      · apply successesLeft_congr
        simp [bindingFailed, raise, setEvents]
  · exact .inl ⟨rfl, hi, rfl⟩

theorem sum_replicate_le (l : List Occurrence) (b : List (Fin Config.bindings)) :
    ((l.map fun x => { x with barred := b }).map fun o => chainWeight o.barred).sum = l.length * chainWeight b := by
  induction l with
  | nil => simp
  | cons a l ih =>
    simp only [List.map_cons, List.sum_cons, ih, List.length_cons, Nat.add_mul]
    omega

/-- An occurrence taken leaves less to its chain. -/
theorem takeOccurrence_leaves {o : Occurrence} {rest : List Occurrence} {s : State} (h : s.events.inbox = o :: rest) :
    chainLeft (takeOccurrence o rest s) < chainLeft s := by
  let s1 := recordOccurrence o.kind o.detail (setInbox [] s)
  have hs1 : s1.events.inbox = [] := by simp [s1]
  have hleft : successesLeft s1.events = successesLeft s.events := successesLeft_congr (by simp [s1])
  have hpos := chainWeight_pos o.barred
  have hout : chainLeft (takeOccurrence o rest s) = 127 * successesLeft (consultBinding o s1).2.events +
      ((rest.map fun x => chainWeight x.barred).sum +
        (consultBinding o s1).2.events.inbox.length * chainWeight (barredAfter o (consultBinding o s1).1)) := by
    have he : (takeOccurrence o rest s).events = (setInbox (rest ++ ((consultBinding o s1).2.events.inbox.map fun x =>
        { x with barred := barredAfter o (consultBinding o s1).1 })) (consultBinding o s1).2).events := by
      simp [takeOccurrence, s1]
    unfold chainLeft
    rw [he]
    simp only [setInbox, List.map_append, List.sum_append, sum_replicate_le]
    rfl
  have hin : chainLeft s = 127 * successesLeft s.events +
      (chainWeight o.barred + (rest.map fun x => chainWeight x.barred).sum) := by
    simp [chainLeft, h]
  rw [hout, hin]
  rcases consultBinding_leaves o s1 hs1 with ⟨_, h2, h3⟩ | ⟨h1, h2, h3⟩ | ⟨i, h1, hn, h2, h3⟩
  · rw [h2, h3, hleft]
    simp only [List.length_nil, Nat.zero_mul]
    omega
  · rw [hleft] at h3
    have hw := chainWeight_le (barredAfter o (consultBinding o s1).1)
    have := Nat.mul_le_mul h2 hw
    omega
  · rw [h3, hleft, h1]
    have hw := chainWeight_cons i o.barred hn
    have : (consultBinding o s1).2.events.inbox.length * chainWeight (barredAfter o (some i)) ≤
        2 * chainWeight (i :: o.barred) := Nat.mul_le_mul_right _ h2
    omega

/-! ### All of them -/

/-- Bounds that are not reached do not matter. -/
theorem takeInbox_enough (n : Nat) : ∀ (m : Nat) (s : State), chainLeft s ≤ n → chainLeft s ≤ m →
    takeInbox n s = takeInbox m s := by
  have idle : ∀ (m : Nat) (s : State), chainLeft s = 0 → takeInbox m s = s := by
    intro m s h
    have hi : s.events.inbox = [] := by
      cases he : s.events.inbox with
      | nil => rfl
      | cons o rest =>
        have := chainWeight_pos o.barred
        simp only [chainLeft, he, List.map_cons, List.sum_cons] at h
        omega
    cases m with
    | zero => rfl
    | succ m => simp [takeInbox, hi]
  induction n with
  | zero =>
    intro m s h _
    rw [idle m s (by omega), idle 0 s (by omega)]
  | succ n ih =>
    intro m s hn hm
    cases m with
    | zero => rw [idle _ s (by omega), idle 0 s (by omega)]
    | succ m =>
      unfold takeInbox
      split
      · rfl
      · rename_i he
        have := takeOccurrence_leaves he
        exact ih m _ (by omega) (by omega)

theorem chainLeft_le (s : State) : chainLeft s ≤ occurrenceBound s := by
  have : ∀ l : List Occurrence, (l.map fun o => chainWeight o.barred).sum ≤ 127 * l.length := by
    intro l
    induction l with
    | nil => simp
    | cons a l ih =>
      have := chainWeight_le a.barred
      simp only [List.map_cons, List.sum_cons, List.length_cons]
      omega
  have := this s.events.inbox
  unfold chainLeft occurrenceBound
  omega

/-- The occurrence that waits longest is taken first, and then all the others (R182). -/
theorem takeOccurrences_cons {o : Occurrence} {rest : List Occurrence} {s : State} (h : s.events.inbox = o :: rest) :
    takeOccurrences s = takeOccurrences (takeOccurrence o rest s) := by
  have hb := chainLeft_le s
  have hl := takeOccurrence_leaves h
  obtain ⟨n, hn⟩ : ∃ n, occurrenceBound s = n + 1 := ⟨occurrenceBound s - 1, by omega⟩
  rw [takeOccurrences, hn, takeInbox, h]
  exact takeInbox_enough _ _ _ (by omega) (chainLeft_le _)

/-- Once they have been taken no occurrence waits. -/
@[simp] theorem takeOccurrences_inbox (s : State) : (takeOccurrences s).events.inbox = [] := by
  generalize hn : chainLeft s = n
  induction n using Nat.strongRecOn generalizing s with
  | ind n ih =>
    cases he : s.events.inbox with
    | nil => rw [takeOccurrences, show takeInbox (occurrenceBound s) s = s by cases occurrenceBound s <;> simp [takeInbox, he]]; exact he
    | cons o rest =>
      rw [takeOccurrences_cons he]
      exact ih _ (hn ▸ takeOccurrence_leaves he) _ rfl

end Sys2Proof.Machine
end

