-- ==== Sys2Proof/Laws/Taking.lean ====
section
/-!
SUPPORT. How a command is taken: nothing is owed to a quiet part, a command that raises nothing ends as it is, one
occurrence of an unbound kind is recorded and no more, and a request in hand is answered.
-/

namespace Sys2Proof.Machine

/-! ### Nothing owed, nothing raised -/

theorem settle_none {s : State} (h : s.owed = .none) : settle s = s := by
  simp [settle, h]

theorem takeInbox_empty {s : State} (n : Nat) (h : s.events.inbox = []) : takeInbox n s = s := by
  cases n with
  | zero => rfl
  | succ n => simp [takeInbox, h]

theorem takeOccurrences_empty {s : State} (h : s.events.inbox = []) : takeOccurrences s = s :=
  takeInbox_empty _ h

/-- A command of a quiet part: the command, then the occurrences it raised. -/
theorem perform_quiet {s : State} (f : State → State) (h : Quiet s) : perform f s = .next (takeOccurrences (f s)) := by
  simp [perform, h.1, settle_none h.2.1]

/-- A command of a quiet part that raises nothing. -/
theorem perform_silent {s : State} {f : State → State} (h : Quiet s) (hf : (f s).events.inbox = []) :
    perform f s = .next (f s) := by
  rw [perform_quiet f h, takeOccurrences_empty hf]

theorem settleAttempts_off {s : State} (n : Nat) (h : s.owed.attempts = 0) : settleAttempts n s = s := by
  cases n <;> simp [settleAttempts, h]

theorem attemptsTaken_off {s : State} (h : s.owed.attempts = 0) : attemptsTaken s = s := settleAttempts_off _ h

/-- No attempt is owed, none is under way and no occurrence waits: nothing is taken first. -/
theorem attemptsFirst_off {s : State} (h : s.owed.attempts = 0) (hp : s.owed.partTwo = false)
    (hi : s.events.inbox = []) : attemptsFirst s = s := by
  simp [attemptsFirst, responsePartOwed, hp, takeOccurrences_empty hi, attemptsTaken_off h]

/-- The step of performOwed, where no attempt is owed or under way and no occurrence waits. -/
theorem performOwed_eq {s : State} (f : State → State) (hr : s.pins.rstN = true) (ha : s.owed.attempts = 0)
    (hp : s.owed.partTwo = false) (hi : s.events.inbox = []) :
    performOwed f s = .next (endAgeCheck (takeOccurrences (f s))) := by
  simp [performOwed, hr, attemptsFirst_off ha hp hi]

theorem endAgeCheck_none {s : State} (h : s.owed.ages = false) : endAgeCheck s = s := by
  simp [endAgeCheck, h]

/-! ### One occurrence -/

theorem Events.set_inbox_self (e : Events) : { e with inbox := e.inbox } = e := rfl

/-- An occurrence of a kind no binding names leaves nothing further (R182). -/
theorem takeOccurrence_unbound {s : State} {k : EventKind} (detail : Option (List Byte)) (rest : List Occurrence)
    (h : Unbound k s) : takeOccurrence ⟨k, detail, []⟩ rest s = recorded k detail (setInbox rest s) := by
  have hb : boundTo (recordOccurrence k detail (setInbox [] s)).events k = none := by
    simpa [boundTo, Unbound] using h
  have hn : (recordOccurrence k detail (setInbox [] s)).events.inbox = [] := by simp
  simp only [takeOccurrence, consultBinding, hb, hn, List.map_nil, List.append_nil]
  simp only [recorded, recordOccurrence, Events.changeRecord, raiseRepeat, setEvents, setInbox]

@[simp] theorem recorded_inbox (k : EventKind) (detail : Option (List Byte)) (s : State) :
    (recorded k detail s).events.inbox = s.events.inbox := by
  simp [recorded]

/-- The only occurrence waiting is of an unbound kind: it is recorded (R182). -/
theorem takeOccurrences_unbound {s : State} {k : EventKind} {detail : Option (List Byte)}
    (hi : s.events.inbox = [⟨k, detail, []⟩]) (hu : Unbound k s) :
    takeOccurrences s = recorded k detail (setInbox [] s) := by
  rw [takeOccurrences_cons hi, takeOccurrence_unbound detail [] hu]
  exact takeOccurrences_empty (by simp)

/-- With no occurrence waiting, emptying the inbox changes nothing. -/
theorem setInbox_self {s : State} (h : s.events.inbox = []) : setInbox [] s = s := by
  have : s.events = { s.events with inbox := [] } := by rw [← h]
  simp only [setInbox]
  rw [← this]

/-- The selection does not look at the inbox. -/
theorem selectNotice_setInbox (l : List Occurrence) (s : State) :
    selectNotice (setInbox l s) = setInbox l (selectNotice s) := by
  unfold selectNotice
  have h1 : (setInbox l s).arbiter = s.arbiter := rfl
  have h2 : selectedKind (setInbox l s).events = selectedKind s.events := rfl
  have h3 : (setInbox l s).events.stack = s.events.stack := rfl
  have h4 : ∀ k, newOffer (setInbox l s) k = newOffer s k := fun _ => rfl
  have h5 : ∀ k, resendOffer (setInbox l s) k = resendOffer s k := fun _ => rfl
  have h6 : ∀ a b, keepOrReplace a b (setInbox l s) = setInbox l (keepOrReplace a b s) := by
    intro a b
    unfold keepOrReplace
    split <;> rfl
  rw [h1, h2, h3]
  simp only [h4, h5, h6]
  repeat' split
  all_goals rfl

/-- Recording does not look at the inbox. -/
theorem recorded_setInbox (k : EventKind) (detail : Option (List Byte)) (l : List Occurrence) (s : State) :
    recorded k detail (setInbox l s) = setInbox l (recorded k detail s) := by
  have : recorded k detail (setInbox l s) = selectNotice (setInbox l (recordOccurrence k detail s)) := rfl
  rw [this, selectNotice_setInbox]
  rfl

/-- The selection makes no step due but attempts. -/
@[simp] theorem selectNotice_owed (s : State) :
    (selectNotice s).owed.stalls = s.owed.stalls ∧ (selectNotice s).owed.confirm = s.owed.confirm ∧
    (selectNotice s).owed.ages = s.owed.ages ∧ (selectNotice s).owed.creditStall = s.owed.creditStall ∧
    (selectNotice s).owed.ownerLost = s.owed.ownerLost ∧
    (selectNotice s).owed.noticeTimeout = s.owed.noticeTimeout ∧ (selectNotice s).owed.partTwo = s.owed.partTwo := by
  unfold selectNotice keepOrReplace makeOffer oweAttempt withdrawOffer
  repeat' split
  all_goals simp

/-- Recording makes no step due but attempts. -/
@[simp] theorem recorded_owed (k : EventKind) (detail : Option (List Byte)) (s : State) :
    (recorded k detail s).owed.stalls = s.owed.stalls ∧ (recorded k detail s).owed.confirm = s.owed.confirm ∧
    (recorded k detail s).owed.ages = s.owed.ages ∧ (recorded k detail s).owed.creditStall = s.owed.creditStall ∧
    (recorded k detail s).owed.ownerLost = s.owed.ownerLost ∧
    (recorded k detail s).owed.noticeTimeout = s.owed.noticeTimeout ∧
    (recorded k detail s).owed.partTwo = s.owed.partTwo := by
  simp [recorded]

/-- The one occurrence raised is of an unbound kind: it is recorded (R182). -/
theorem takeOccurrences_raise {s t : State} {k : EventKind} {detail : Option (List Byte)} (he : s = raise k detail t)
    (ht : t.events.inbox = []) (hu : Unbound k t) : takeOccurrences s = recorded k detail t := by
  subst he
  rw [takeOccurrences_unbound (detail := detail) (k := k) (by simp [ht]) (by simpa [Unbound, boundTo] using hu)]
  have : setInbox [] (raise k detail t) = setInbox [] t := rfl
  rw [this, setInbox_self ht]

/-- A command that raises one occurrence of an unbound kind on a quiet part. -/
theorem perform_raise {s t : State} {f : State → State} {k : EventKind} {detail : Option (List Byte)} (h : Quiet s)
    (hf : f s = raise k detail t) (ht : t.events.inbox = []) (hu : Unbound k t) :
    perform f s = .next (recorded k detail t) := by
  rw [perform_quiet f h, hf, takeOccurrences_unbound (detail := detail) (k := k) (by simp [ht])
    (by simpa [Unbound, boundTo] using hu)]
  have : setInbox [] (raise k detail t) = t := by
    have : t.events = { t.events with inbox := [] } := by rw [← ht]
    simp only [setInbox, raise]
    rw [← this]
  rw [this]

/-- What recording leaves: everything but the record of the kind, the notice offer and what is owed (R182, R186). -/
@[simp] theorem recorded_frame (k : EventKind) (detail : Option (List Byte)) (s : State) :
    (recorded k detail s).pending = s.pending ∧ (recorded k detail s).pins = s.pins ∧
    (recorded k detail s).toData = s.toData ∧ (recorded k detail s).tickCounter = s.tickCounter ∧
    (recorded k detail s).nodeAddress = s.nodeAddress ∧ (recorded k detail s).align = s.align ∧
    (recorded k detail s).slot = s.slot ∧ (recorded k detail s).circuits = s.circuits ∧
    (recorded k detail s).contexts = s.contexts ∧ (recorded k detail s).pool = s.pool ∧
    (recorded k detail s).delivery = s.delivery ∧ (recorded k detail s).trib = s.trib ∧
    (recorded k detail s).addQueues = s.addQueues ∧ (recorded k detail s).emitters = s.emitters ∧
    (recorded k detail s).engine = s.engine ∧ (recorded k detail s).arbiter.response = s.arbiter.response ∧
    (recorded k detail s).events.stack = s.events.stack ∧ (recorded k detail s).events.faults = s.events.faults ∧
    (recorded k detail s).events.bindings = s.events.bindings := by
  simp [recorded]

/-- What recording writes (R182). -/
theorem recorded_records (k : EventKind) (detail : Option (List Byte)) (s : State) :
    (recorded k detail s).events.records = s.events.records.change k.num fun r =>
      { r with pending := true, repeatCount := if r.repeatCount = 255 then 255 else r.repeatCount + 1
               detail := detail, lastTick := s.tickCounter } := by
  simp [recorded]

/-- Occurrences of unbound kinds are recorded in the order they were raised (R182). -/
theorem takeOccurrences_raised (l : List (EventKind × Option (List Byte))) :
    ∀ {s t : State}, t.events.inbox = [] → s = setInbox (l.map fun x => ⟨x.1, x.2, []⟩) t → (∀ x ∈ l, Unbound x.1 t) →
      takeOccurrences s = l.foldl (fun u x => recorded x.1 x.2 u) t := by
  induction l with
  | nil =>
    intro s t ht hs _
    rw [hs, List.map_nil, setInbox_self ht, takeOccurrences_empty ht, List.foldl_nil]
  | cons x l ih =>
    intro s t ht hs hu
    have hi : s.events.inbox = ⟨x.1, x.2, []⟩ :: l.map fun x => ⟨x.1, x.2, []⟩ := by rw [hs]; rfl
    have hx : Unbound x.1 s := by rw [hs]; exact hu x (List.mem_cons_self ..)
    rw [takeOccurrences_cons hi, takeOccurrence_unbound x.2 _ hx, List.foldl_cons]
    refine ih (t := recorded x.1 x.2 t) (by simpa using ht) ?_ ?_
    · rw [← recorded_setInbox, hs]
      rfl
    · intro y hy
      have := hu y (List.mem_cons_of_mem _ hy)
      simpa [Unbound, boundTo] using this

/-- Two occurrences of unbound kinds wait: they are recorded in their order (R182). -/
theorem takeOccurrences_unbound_two {s : State} {k1 k2 : EventKind} {d1 d2 : Option (List Byte)}
    (hi : s.events.inbox = [⟨k1, d1, []⟩, ⟨k2, d2, []⟩]) (hu1 : Unbound k1 s) (hu2 : Unbound k2 s) :
    takeOccurrences s = recorded k2 d2 (recorded k1 d1 (setInbox [] s)) := by
  refine takeOccurrences_raised [(k1, d1), (k2, d2)] (t := setInbox [] s) rfl ?_ ?_
  · simp only [List.map_cons, List.map_nil, ← hi]
    rfl
  · intro x hx
    simp only [List.mem_cons, List.not_mem_nil, or_false] at hx
    rcases hx with rfl | rfl
    · exact hu1
    · exact hu2

/-! ### Requests -/

/-- A response formed is the request answered (R153). -/
theorem respond_eq_answered (request : List Byte) (status : Status) (results : List Byte) (r : Bool) (s : State) :
    respond request status results r s = answered request status results r s := by
  cases r <;>
    simp [respond, answered, setEngine, offerResponse, oweAttempt, setResponseOffer, cacheResponse, countResponse,
      countEngine, responseBody, responseOctets, requestIdOctet, requestTag, requestKindOctet]

@[simp] theorem answered_inbox (request : List Byte) (status : Status) (results : List Byte) (r : Bool) (s : State) :
    (answered request status results r s).events.inbox = s.events.inbox := rfl

/-- A request in hand is executed and answered (R153). -/
theorem execute_inHand {k : RequestKind} {request : List Byte} {s : State} (run : List Byte → State → Executed)
    (h : InHand k request s) :
    execute k run s =
      answered request (run (requestParams request) s).status (run (requestParams request) s).results true
        (run (requestParams request) s).state := by
  obtain ⟨h1, h2, h3⟩ := h
  simp only [execute, h1, h2, h3, if_true]
  exact respond_eq_answered ..

/-- With no request of its kind in hand a row of a request changes nothing (log entry 4). -/
theorem execute_idle {k : RequestKind} {s : State} (run : List Byte → State → Executed)
    (h : ∀ request, ¬ InHand k request s) : execute k run s = s := by
  unfold execute
  split
  · rename_i h1 h2
    split
    · rename_i h3
      exact absurd ⟨h1, h2, h3⟩ (h _)
    · rfl
  · rfl

/-- A request in hand at a quiet part, whose execution raises nothing. -/
theorem perform_request {k : RequestKind} {request : List Byte} {s : State} {run : List Byte → State → Executed}
    (hq : Quiet s) (h : InHand k request s) (hi : (run (requestParams request) s).state.events.inbox = []) :
    perform (execute k run) s =
      .next (answered request (run (requestParams request) s).status (run (requestParams request) s).results true
        (run (requestParams request) s).state) := by
  rw [perform_silent hq (by rw [execute_inHand run h, answered_inbox]; exact hi), execute_inHand run h]

end Sys2Proof.Machine
end

