-- ==== Sys2Proof/Laws/Boundary.lean ====
section
/-!
SUPPORT. What a payload octet leaves of the alignment unit, and the boundary after it (R14).
-/

namespace Sys2Proof.Machine

/-- An emitter leaves the alignment unit as it is, or brings the FULL reset into effect (R157). -/
theorem emitterSupply_align (c : Circuit) (s : State) :
    (emitterSupply c s).2.align = s.align ∨ (emitterSupply c s).2.align = .reset := by
  unfold emitterSupply emitNext emissionComplete emitterTake
  dsimp only
  repeat' split
  all_goals first
    | exact .inr rfl
    | exact .inl (by simp)

/-- A payload octet leaves the alignment unit as it is, or brings the FULL reset into effect (R157). -/
theorem slotAction_align (e : PlanEntry) (b : Byte) (s : State) :
    (slotAction e b s).2.align = s.align ∨ (slotAction e b s).2.align = .reset := by
  unfold slotAction dropOctet
  repeat' split
  all_goals first
    | exact emitterSupply_align ..
    | exact .inl (by simp)

/-- Where alignment held before the octet of position 1007, the boundary is announced after it unless the part has been
reset (R14, R157). -/
theorem boundaryAfter_1007 {e : PlanEntry} {b : Byte} {s : State} (h : s.align.state = .locked ∨ s.align.state = .holdover) :
    boundaryAfter 1007 (slotAction e b s).2 =
      if (slotAction e b s).2.align.state = .search then (slotAction e b s).2
      else announceBoundary (slotAction e b s).2 := by
  rcases slotAction_align e b s with ha | ha
  · rcases h with h | h <;> simp [boundaryAfter, Align.handsOn, ha, h]
  · simp [boundaryAfter, Align.handsOn, ha, Align.reset]

end Sys2Proof.Machine
end

