-- ==== Sys2Proof/Laws/Octets.lean ====
section
/-!
SUPPORT. What the octets of requests, headers and checks are: each reading of an octet in plain arithmetic.
-/

namespace Sys2Proof.Machine

/-- The high nibble of an octet. -/
theorem highNibble_iff (b : Byte) : b.extractLsb' 4 4 = 0xB ↔ b.toNat / 16 = 0xB := by
  have : ∀ b : Byte, decide (b.extractLsb' 4 4 = (0xB : BitVec 4) ↔ b.toNat / 16 = 0xB) = true := by decide +kernel
  exact of_decide_eq_true (this b)

/-- A candidate of R4 and the frame it is of. -/
theorem candidateFrame_some (b : Byte) (f : BitVec 4) (h : (b.toNat / 16 = 0xB ∧ b.toNat % 16 = f.toNat) ∨ (b.toNat = 0xDF ∧ f = 15)) :
    candidateFrame b = some f := by
  have : ∀ (b : Byte) (f : BitVec 4), decide ((b.toNat / 16 = 0xB ∧ b.toNat % 16 = f.toNat) ∨ (b.toNat = 0xDF ∧ f = 15) → candidateFrame b = some f) = true := by decide +kernel
  exact of_decide_eq_true (this b f) h

/-- An octet that is no candidate of R4. -/
theorem candidateFrame_none (b : Byte) (h1 : b.toNat / 16 ≠ 0xB) (h2 : b.toNat ≠ 0xDF) :
    candidateFrame b = none := by
  have : ∀ (b : Byte), decide (b.toNat / 16 ≠ 0xB → b.toNat ≠ 0xDF → candidateFrame b = none) = true := by decide +kernel
  exact of_decide_eq_true (this b) h1 h2

/-- A bank letter read back. -/
theorem Bank.code_ofCode {x : Byte} {bank : Bank} (h : Bank.ofCode x = some bank) : bank.code = x := by
  unfold Bank.ofCode at h
  split at h
  · cases h; subst_vars; rfl
  · split at h
    · cases h; subst_vars; rfl
    · cases h

/-- The octet of an octet's value. -/
theorem octet_toNat (b : Byte) : octet b.toNat = b := by simp [octet]

/-- Two octets taken as a number and laid out again. -/
theorem octets2_of_two (h l : Byte) : octets2 (h.toNat * 256 + l.toNat) = [h, l] := by
  have h1 := h.isLt
  have h2 := l.isLt
  simp only [octets2, octet]
  congr 1
  · apply BitVec.eq_of_toNat_eq; simp; omega
  · congr 1
    apply BitVec.eq_of_toNat_eq; simp; omega

/-- The range test of R27 and R164. -/
theorem goodRange_iff (f n : Nat) : goodRange f n = true ↔ f ≤ 1007 ∧ 1 ≤ n ∧ n ≤ 32 ∧ f + n ≤ 1008 := by
  have : Config.positions = 1008 := rfl
  simp [goodRange]; omega

/-- A mode octet that is no mode (R30). -/
theorem SwapMode.ofCode_none (m : Byte) : SwapMode.ofCode m = none ↔ ¬ m.toNat ≤ 1 := by
  have : ∀ m : Byte, decide (SwapMode.ofCode m = none ↔ ¬ m.toNat ≤ 1) = true := by decide +kernel
  exact of_decide_eq_true (this m)

/-- A good header in plain arithmetic (R54). -/
theorem goodHeader_iff (L b : Byte) : goodHeader L b = true ↔ (1 ≤ L.toNat ∧ L.toNat ≤ 248 ∧ b.toNat % 2 = 0) := by
  have : b.getLsbD 0 = (b.toNat % 2 == 1) := by
    rw [BitVec.getLsbD]; simp [Nat.testBit_zero]; rfl
  simp only [goodHeader, this]
  rw [Bool.and_eq_true, Bool.and_eq_true]
  simp [and_assoc]

/-- The fields of the second header octet (R202). -/
theorem header_fields {b : Byte} {cls : Class} {seq : BitVec 4} {mark : Bool}
   (h : b.toNat = 64 * cls.val + 4 * seq.toNat + (if mark then 2 else 0)) :
   headerClass b = cls ∧ headerSeq b = seq ∧ headerMark b = mark := by
  have h4 : cls.val < 4 := cls.isLt
  have h5 := seq.isLt
  refine ⟨?_, ?_, ?_⟩
  · apply Fin.ext
    simp only [headerClass, Fin.ofNat]
    have h6 : cls.val < 4 := h4
    show b.toNat / 64 % 4 = cls.val
    cases mark <;> simp only [if_true, if_false, Bool.false_eq_true] at h <;> omega
  · apply BitVec.eq_of_toNat_eq
    simp only [headerSeq, BitVec.toNat_ofNat]
    cases mark <;> simp at h <;> omega
  · have : b.getLsbD 1 = (b.toNat / 2 % 2 == 1) := by
      rw [BitVec.getLsbD]; simp [Nat.testBit_succ, Nat.testBit_zero]; rfl
    simp only [headerMark, this]
    cases mark <;> simp at h ⊢ <;> omega

/-- Two octets match a check when they are its value, high octet first (R58). -/
theorem checkOctets_iff (high b : Byte) (w : Word) : ([high, b] = checkOctetsOf w) ↔ high.toNat * 256 + b.toNat = w.toNat := by
  have h1 := high.isLt; have h2 := b.isLt; have h3 := w.isLt
  simp only [checkOctetsOf, octets2, octet, List.cons.injEq, and_true, ← BitVec.toNat_inj, BitVec.toNat_ofNat]
  omega

/-- A flag octet is 0 or 1 (R200). -/
theorem flagOf_isSome (mark : Byte) : (flagOf mark).isSome = true ↔ mark.toNat ≤ 1 := by
  revert mark; decide +kernel

/-- The flag a good octet gives. -/
theorem flagOf_val (mark : Byte) (h : mark.toNat ≤ 1) : flagOf mark = some (mark == 1) := by
  revert mark; decide +kernel

/-- The class a good octet gives. -/
theorem classOf_val (cls : Byte) (h : cls.toNat ≤ 3) : classOf cls = some (Fin.ofNat 4 cls.toNat) := by
  revert cls; decide +kernel

/-- An octet above 95 names no circuit. -/
theorem circuitOf_none (c : Byte) (h : 95 < c.toNat) : circuitOf c = none := by
  revert c; decide +kernel

/-- An octet up to 95 names its circuit. -/
theorem circuitOf_some (c : Byte) (k : Circuit) (h : k.val = c.toNat) : circuitOf c = some k := by
  have := k.isLt
  simp only [circuitOf]; rw [dif_pos (by rw [← h]; exact this)]; exact congrArg some (Fin.ext h.symm)

/-- The octet of a circuit. -/
theorem circuitOctet_val (c : Byte) (k : Circuit) (h : k.val = c.toNat) : circuitOctet k = c := by
  apply BitVec.eq_of_toNat_eq; simp [circuitOctet, octet, h]

/-- The id in the high nibble. -/
theorem requestId_toNat (b : Byte) : (BitVec.ofNat 4 (b.toNat / 16)).toNat = b.toNat / 16 := by
  have := b.isLt; simp; omega

/-- The id in the high nibble is not 0. -/
theorem requestId_zero (b : Byte) : (BitVec.ofNat 4 (b.toNat / 16) ≠ 0) ↔ b.toNat / 16 ≠ 0 := by
  rw [ne_eq, ← BitVec.toNat_inj, requestId_toNat]; rfl

/-- Two octets as a word. -/
theorem word_of_two (h l : Byte) : (BitVec.ofNat 16 (h.toNat * 256 + l.toNat)).toNat = h.toNat * 256 + l.toNat := by
  have := h.isLt; have := l.isLt
  simp only [BitVec.toNat_ofNat]; omega

/-- The fields of a kind setting (R203). -/
theorem setting_fields (b : Byte) : (goodSetting b = true ↔ b.toNat % 128 < 8) ∧ settingEnable b = decide (128 ≤ b.toNat) ∧ (settingLevel b).val = b.toNat % 8 := by
  revert b; decide +kernel

/-- The kinds stand in the order of their numbers. -/
theorem EventKind.all_get (k : EventKind) : EventKind.all[k.num.val]? = some k := by cases k <;> rfl

/-- The kind at a place has that number. -/
theorem EventKind.all_num (i : Nat) (h : i < 16) : (EventKind.all[i]'h).num.val = i := by
  have : ∀ i : Fin 16, (EventKind.all[i.val]'i.isLt).num.val = i.val := by decide
  exact this ⟨i, h⟩

/-- An octet up to 15 names its kind. -/
theorem EventKind.ofCode_some (b : Byte) (h : b.toNat ≤ 15) : ∃ k, EventKind.ofCode b = some k ∧ k.num.val = b.toNat := by
  revert b; decide +kernel

/-- An octet above 15 names no kind. -/
theorem EventKind.ofCode_none (b : Byte) (h : 15 < b.toNat) : EventKind.ofCode b = none := by
  revert b; decide +kernel

/-- Octets up to 15 name their kinds. -/
theorem kindsOf_some (l : List Byte) (h : ∀ b ∈ l, b.toNat ≤ 15) : ∃ ks, kindsOf l = some ks ∧ ks.map (·.num.val) = l.map (·.toNat) := by
  induction l with
  | nil => exact ⟨[], rfl, rfl⟩
  | cons b r ih =>
    obtain ⟨ks, h1, h2⟩ := ih (fun x hx => h x (by simp [hx]))
    obtain ⟨k, hk, hv⟩ := EventKind.ofCode_some b (h b (by simp))
    exact ⟨k :: ks, by simp only [kindsOf, hk, h1], by simp [hv, h2]⟩

/-- With an octet above 15 no kinds are named. -/
theorem kindsOf_none (l : List Byte) (h : ∃ b ∈ l, 15 < b.toNat) : kindsOf l = none := by
  induction l with
  | nil => simp at h
  | cons b r ih =>
    simp only [kindsOf]
    by_cases hb : 15 < b.toNat
    · rw [EventKind.ofCode_none b hb]
    · rw [ih (by obtain ⟨x, hx, hx'⟩ := h; rcases List.mem_cons.1 hx with h | h; (subst h; exact absurd hx' hb); exact ⟨x, h, hx'⟩)]
      cases EventKind.ofCode b <;> rfl

/-- The circuit 1 to 95 an octet names. -/
theorem trafficCircuitOf_iff (o : Byte) (c : Circuit) : trafficCircuitOf o = some c ↔ (o.toNat = c.val ∧ c ≠ 0) := by
  simp only [trafficCircuitOf]
  by_cases h : o = 0
  · subst h; simp; intro h; exact Fin.ext h.symm
  · rw [if_neg h]
    have hz : o.toNat ≠ 0 := fun q => h (BitVec.eq_of_toNat_eq q)
    constructor
    · intro q; simp only [circuitOf] at q; split at q
      · cases q; refine ⟨rfl, ?_⟩; intro e; have := congrArg Fin.val e; exact hz this
      · cases q
    · rintro ⟨q, _⟩; exact circuitOf_some o c q.symm

/-- The canned slot an octet names. -/
theorem cannedSlotOf_iff (o : Byte) (i : Fin 4) : cannedSlotOf o = some i ↔ o.toNat = i.val := by
  simp only [cannedSlotOf]; split
  · simp only [Option.some.injEq]; exact ⟨fun h => by rw [← h], fun h => Fin.ext h⟩
  · simp; have := i.isLt; simp only [Config.cannedSlots] at *; omega

/-- The class an octet names. -/
theorem classOf_iff (o : Byte) (i : Fin 4) : classOf o = some i ↔ o.toNat = i.val := by
  simp only [classOf]; split
  · simp only [Option.some.injEq]; exact ⟨fun h => by rw [← h], fun h => Fin.ext h⟩
  · simp; have := i.isLt; simp only [Config.classes] at *; omega

/-- The action three octets name (R206). -/
theorem BindingAction.ofCode_iff (action a b : Byte) (x : BindingAction) : BindingAction.ofCode action a b = some x ↔
   ((action = 1 ∧ x = .swap) ∨ (∃ c : Circuit, action = 2 ∧ (a.toNat = c.val ∧ c ≠ 0) ∧ x = .circuitStop c) ∨
      (∃ c : Circuit, action = 3 ∧ (a.toNat = c.val ∧ c ≠ 0) ∧ x = .circuitStart c) ∨
      (∃ i c, action = 4 ∧ a.toNat = Fin.val i ∧ (b.toNat = c.val ∧ c ≠ 0) ∧ x = .sendCanned i c) ∨
      (∃ q, action = 5 ∧ a.toNat = Fin.val q ∧ x = .flushClass q)) := by
  simp only [BindingAction.ofCode]
  by_cases h1 : action = 1
  · subst h1; simp; exact eq_comm
  rw [if_neg h1]
  by_cases h2 : action = 2
  · subst h2; simp only [if_true, Option.map_eq_some_iff, trafficCircuitOf_iff]; simp [eq_comm]
  rw [if_neg h2]
  by_cases h3 : action = 3
  · subst h3; simp only [if_true, Option.map_eq_some_iff, trafficCircuitOf_iff]; simp [eq_comm]
  rw [if_neg h3]
  by_cases h4 : action = 4
  · subst h4
    simp only [if_true]
    constructor
    · intro h
      split at h
      · rename_i i c hi hc; cases h
        simp [(cannedSlotOf_iff _ _).1 hi, ((trafficCircuitOf_iff _ _).1 hc).1, ((trafficCircuitOf_iff _ _).1 hc).2]
      · cases h
    · intro h
      simp at h
      obtain ⟨i, hi, c, hc, rfl⟩ := h
      have e1 := (cannedSlotOf_iff a i).2 hi
      have e2 := (trafficCircuitOf_iff b c).2 hc
      rw [e1, e2]
  rw [if_neg h4]
  by_cases h5 : action = 5
  · subst h5; simp only [if_true, Option.map_eq_some_iff, classOf_iff]; simp [eq_comm]
  rw [if_neg h5]
  simp only [reduceCtorEq, false_iff]
  rintro (⟨h, _⟩ | ⟨_, h, _⟩ | ⟨_, h, _⟩ | ⟨_, _, h, _⟩ | ⟨_, h, _⟩)
  · exact h1 h
  · exact h2 h
  · exact h3 h
  · exact h4 h
  · exact h5 h

/-- The kind a binding may name (R193). -/
theorem boundKindOf_iff (b : Byte) (k : EventKind) : boundKindOf b = some k ↔ (k.num.val = b.toNat ∧ b.toNat ≤ 14) := by
  have h1 : ∀ b : Byte, b.toNat ≤ 14 → ∃ k, boundKindOf b = some k ∧ k.num.val = b.toNat := by decide +kernel
  have h2 : ∀ b : Byte, ¬ b.toNat ≤ 14 → boundKindOf b = none := by decide +kernel
  by_cases h : b.toNat ≤ 14
  · obtain ⟨k', a, c⟩ := h1 b h
    rw [a]; simp only [Option.some.injEq, ← c]
    constructor
    · rintro e; cases e; exact ⟨rfl, by omega⟩
    · intro e; revert e; cases k <;> cases k' <;> decide
  · rw [h2 b h]; simp [h]

/-- The end mode an octet names. -/
theorem EndMode.ofCode_iff (b : Byte) (m : EndMode) : EndMode.ofCode b = some m ↔ (b.toNat ≤ 1 ∧ m = (if b = 0 then .notify else .silent)) := by
  revert b; cases m <;> decide +kernel

/-- The flag an octet names. -/
theorem flagOf_iff (b : Byte) (m : Bool) : flagOf b = some m ↔ (b.toNat ≤ 1 ∧ m = (b == 1)) := by
  revert b; cases m <;> decide +kernel

end Sys2Proof.Machine
end

