-- ==== Sys2Proof/Laws/Events.lean ====
section
/-!
SUPPORT. What the selection, the settings and the clearing of records come to (R174, R183, R185).
-/

namespace Sys2Proof.Machine

/-- The binding of a kind is told by the bindings. -/
theorem boundTo_congr {a b : Events} (h : a.bindings = b.bindings) (k) : boundTo a k = boundTo b k := by
  simp [boundTo, h]

/-- The binding found names the kind. -/
theorem boundTo_kind {e : Events} {k i b} (h : boundTo e k = some i) (hb : e.bindings.get i = some b) : b.kind = k := by
  have := List.find?_some h
  simpa [hb] using this

/-- The level of a kind in its record. -/
def levelOf (e : Events) (j : EventKind) : Nat := (e.records.get j.num).level.val

/-- A kind the selection prefers to another, or the kind itself. -/
def Better (e : Events) (k j : EventKind) : Prop := levelOf e j < levelOf e k ∨ (levelOf e j = levelOf e k ∧ k.num ≤ j.num)

/-- A kind is told by its number. -/
theorem EventKind.num_injective {a b : EventKind} (h : a.num = b.num) : a = b := by
  revert h; cases a <;> cases b <;> decide

/-- The preference in numbers. -/
theorem better_iff (e : Events) (k j : EventKind) : Better e k j ↔ levelOf e j < levelOf e k ∨ (levelOf e j = levelOf e k ∧ k.num.val ≤ j.num.val) := Iff.rfl

/-- What going through the kinds in order finds. -/
theorem higherCandidate_fold (e : Events) (l : List EventKind) (hl : l.Pairwise (fun a b => a.num < b.num)) (best : Option EventKind)
   (hb : ∀ b, best = some b → isCandidate e b = true ∧ ∀ j ∈ l, b.num < j.num) (k : EventKind) :
   l.foldl (higherCandidate e) best = some k ↔
     (best = some k ∨ (k ∈ l ∧ isCandidate e k = true)) ∧ ∀ j, (best = some j ∨ (j ∈ l ∧ isCandidate e j = true)) → Better e k j := by
  induction l generalizing best with
  | nil =>
    simp only [List.foldl_nil, List.not_mem_nil, false_and, or_false]
    constructor
    · intro h; refine ⟨h, ?_⟩; intro j hj; rw [h] at hj; cases hj; exact .inr ⟨rfl, Nat.le_refl _⟩
    · exact fun h => h.1
  | cons a l ih =>
    rw [List.pairwise_cons] at hl
    rw [List.foldl_cons]
    have key : ∀ best', (∀ b, best' = some b → isCandidate e b = true ∧ ∀ j ∈ l, b.num < j.num) →
       (∀ x, best' = some x → best = some x ∨ (x = a ∧ isCandidate e a = true)) →
       (∀ x, (best = some x ∨ (x = a ∧ isCandidate e a = true)) → ∃ y, best' = some y ∧ Better e y x ∧ (Better e x y → x = y)) →
       (l.foldl (higherCandidate e) best' = some k ↔
         (best = some k ∨ (k ∈ a :: l ∧ isCandidate e k = true)) ∧ ∀ j, (best = some j ∨ (j ∈ a :: l ∧ isCandidate e j = true)) → Better e k j) := by
      intro best' h1 h2 h3
      rw [ih hl.2 best' h1]
      constructor
      · rintro ⟨hk, hj⟩
        refine ⟨?_, ?_⟩
        · rcases hk with hk | hk
          · rcases h2 k hk with h | h
            · exact .inl h
            · exact .inr ⟨by simp [h.1], by rw [h.1]; exact h.2⟩
          · exact .inr ⟨by simp [hk.1], hk.2⟩
        · intro j hjj
          have : (best = some j ∨ (j = a ∧ isCandidate e a = true)) ∨ (j ∈ l ∧ isCandidate e j = true) := by
            rcases hjj with h | ⟨h, h'⟩
            · exact .inl (.inl h)
            · rcases List.mem_cons.1 h with h | h
              · exact .inl (.inr ⟨h, h ▸ h'⟩)
              · exact .inr ⟨h, h'⟩
          rcases this with h | h
          · obtain ⟨y, hy, hb, _⟩ := h3 j h
            have := hj y (.inl hy)
            rw [better_iff] at *; omega
          · exact hj j (.inr h)
      · rintro ⟨hk, hj⟩
        have hj' : ∀ j, (best' = some j ∨ (j ∈ l ∧ isCandidate e j = true)) → Better e k j := by
          intro j h
          apply hj
          rcases h with h | h
          · rcases h2 j h with h | h
            · exact .inl h
            · exact .inr ⟨by simp [h.1], by rw [h.1]; exact h.2⟩
          · exact .inr ⟨by simp [h.1], h.2⟩
        refine ⟨?_, hj'⟩
        have : (best = some k ∨ (k = a ∧ isCandidate e a = true)) ∨ (k ∈ l ∧ isCandidate e k = true) := by
            rcases hk with h | ⟨h, h'⟩
            · exact .inl (.inl h)
            · rcases List.mem_cons.1 h with h | h
              · exact .inl (.inr ⟨h, h ▸ h'⟩)
              · exact .inr ⟨h, h'⟩
        rcases this with h | h
        · obtain ⟨y, hy, _, hyk⟩ := h3 k h
          rw [hyk (hj' y (.inl hy))]; exact .inl hy
        · exact .inr h
    apply key
    · intro b h
      simp only [higherCandidate] at h
      by_cases hc : isCandidate e a = true
      · rw [if_pos hc] at h
        cases hbest : best with
        | none => rw [hbest] at h; simp at h; subst h; exact ⟨hc, hl.1⟩
        | some b0 =>
          rw [hbest] at h; dsimp only at h
          have := hb b0 hbest
          split at h
          · cases h; exact ⟨hc, hl.1⟩
          · cases h; exact ⟨this.1, fun j hj => this.2 j (by simp [hj])⟩
      · rw [if_neg hc] at h
        have := hb b h
        exact ⟨this.1, fun j hj => this.2 j (by simp [hj])⟩
    · intro x h
      simp only [higherCandidate] at h
      by_cases hc : isCandidate e a = true
      · rw [if_pos hc] at h
        cases hbest : best with
        | none => rw [hbest] at h; simp at h; exact .inr ⟨h.symm, hc⟩
        | some b0 =>
          rw [hbest] at h; dsimp only at h
          split at h
          · cases h; exact .inr ⟨rfl, hc⟩
          · cases h; exact .inl rfl
      · rw [if_neg hc] at h; exact .inl h
    · intro x hx
      simp only [higherCandidate]
      by_cases hc : isCandidate e a = true
      · rw [if_pos hc]
        cases hbest : best with
        | none =>
          rcases hx with h | h
          · rw [hbest] at h; cases h
          · exact ⟨a, rfl, by rw [h.1]; exact .inr ⟨rfl, Nat.le_refl _⟩, fun _ => h.1⟩
        | some b0 =>
          have hb0 := hb b0 hbest
          have hlt : b0.num.val < a.num.val := hb0.2 a (by simp)
          dsimp only
          rw [hbest] at hx
          split
          · rename_i hlv
            have hlv' : levelOf e b0 < levelOf e a := hlv
            refine ⟨a, rfl, ?_⟩
            rcases hx with h | h
            · cases h; rw [better_iff, better_iff]; exact ⟨by omega, fun h => by omega⟩
            · rw [h.1]; exact ⟨.inr ⟨rfl, Nat.le_refl _⟩, fun _ => rfl⟩
          · rename_i hlv
            have hlv' : ¬ levelOf e b0 < levelOf e a := hlv
            refine ⟨b0, rfl, ?_⟩
            rcases hx with h | h
            · cases h; exact ⟨.inr ⟨rfl, Nat.le_refl _⟩, fun _ => rfl⟩
            · rw [h.1, better_iff, better_iff]; exact ⟨by omega, fun h => by omega⟩
      · rw [if_neg hc]
        rcases hx with h | h
        · exact ⟨x, h, .inr ⟨rfl, Nat.le_refl _⟩, fun _ => rfl⟩
        · exact absurd h.2 hc

/-- A candidate of R185. -/
theorem isCandidate_iff (e : Events) (k : EventKind) : isCandidate e k = true ↔
   ((e.records.get k.num).pending = true ∧ (e.records.get k.num).enabled = true ∧
      e.floor.val < levelOf e k ∧ (∀ top ∈ e.stack.head?, top.level.val < levelOf e k) ∧ ∀ entry ∈ e.stack, entry.kind ≠ k) := by
  have hthr : (noticeThreshold e < (e.records.get k.num).level) ↔ (e.floor.val < levelOf e k ∧ (∀ top ∈ e.stack.head?, top.level.val < levelOf e k)) := by
    simp only [noticeThreshold, levelOf]
    cases e.stack with
    | nil => simp <;> rfl
    | cons t b =>
      simp only [List.head?_cons, Option.mem_def, Option.some.injEq, forall_eq']
      have h1 : ∀ a b : Fin 8, a < b ↔ a.val < b.val := fun _ _ => Iff.rfl
      split
      · rename_i h; rw [h1] at *; omega
      · rename_i h; rw [h1] at *; omega
  simp only [isCandidate, Bool.and_eq_true, decide_eq_true_eq, hthr, Bool.not_eq_true', List.any_eq_false, beq_iff_eq, and_assoc, ne_eq]

/-- Every kind is among the kinds. -/
theorem EventKind.mem_all (k : EventKind) : k ∈ EventKind.all := by cases k <;> decide

/-- The settings written, kind by kind (R174). -/
theorem settings_fold (l : List (EventKind × Byte)) (hl : l.Pairwise (fun a b => a.1 ≠ b.1)) (e : Events) (k : EventKind) :
   let e' := l.foldl (fun e ks => e.changeRecord ks.1 fun r => { r with enabled := settingEnable ks.2, level := settingLevel ks.2 }) e
   e' = { e with records := e'.records } ∧
   (∀ b, (k, b) ∈ l → e'.records.get k.num = { e.records.get k.num with enabled := settingEnable b, level := settingLevel b }) ∧
   ((∀ b, (k, b) ∉ l) → e'.records.get k.num = e.records.get k.num) := by
  induction l generalizing e with
  | nil => simp
  | cons a l ih =>
    rw [List.pairwise_cons] at hl
    obtain ⟨h1, h2, h3⟩ := ih hl.2 (e.changeRecord a.1 fun r => { r with enabled := settingEnable a.2, level := settingLevel a.2 })
    simp only [List.foldl_cons]
    refine ⟨?_, ?_, ?_⟩
    · rw [h1]; rfl
    · intro b hb
      rcases List.mem_cons.1 hb with hb | hb
      · subst hb
        rw [h3 (fun b' hb' => hl.1 _ hb' rfl)]
        simp [Events.changeRecord]
      · rw [h2 b hb]
        have : k ≠ a.1 := fun h => hl.1 _ hb h.symm
        have hn : k.num ≠ a.1.num := by intro q; revert this; revert q; generalize a.1 = x; cases k <;> cases x <;> decide
        simp [Events.changeRecord, Table.get_change, hn]
    · intro hb
      rw [h3 (fun b' hb' => hb b' (by simp [hb']))]
      have : k ≠ a.1 := by rintro rfl; exact hb a.2 (by simp)
      have hn : k.num ≠ a.1.num := by intro q; revert this; revert q; generalize a.1 = x; cases k <;> cases x <;> decide
      simp [Events.changeRecord, Table.get_change, hn]

/-- The records a clearing changes (R183). -/
theorem clearRecords_spec (ks : List EventKind) (s : State) :
   clearRecords ks s = { s with events := { s.events with records := (clearRecords ks s).events.records } } ∧
   ∀ i, (clearRecords ks s).events.records.get i = if ∃ k ∈ ks, k.num = i then { s.events.records.get i with pending := false, repeatCount := 0, detail := none } else s.events.records.get i := by
  induction ks generalizing s with
  | nil => exact ⟨rfl, fun i => by simp [clearRecords]⟩
  | cons k ks ih =>
    obtain ⟨h1, h2⟩ := ih (clearRecord k s)
    have : clearRecords (k :: ks) s = clearRecords ks (clearRecord k s) := rfl
    rw [this]
    refine ⟨?_, ?_⟩
    · rw [h1]; rfl
    · intro i
      rw [h2]
      simp only [clearRecord, setEvents, Events.changeRecord, Table.get_change, List.mem_cons, EventRecord.clear]
      by_cases hk : k.num = i
      · subst hk; simp
      · have : ¬ i = k.num := fun h => hk h.symm
        simp [hk, this, or_and_right, exists_or]

end Sys2Proof.Machine
end

