-- ==== Sys2Proof/Laws/Kept.lean ====
section
/-!
SUPPORT. What every command keeps: a property kept by the operations named in `Kept` is kept by `exec`. The operations
are the ones that touch the lists, counts, banks and settings that laws speak of; all else a command does falls under
the first few fields.
-/

namespace Sys2Proof.Machine

-- One theorem at a time: many small ones compiled side by side take more memory than they save time.
set_option Elab.async false

/-- A message with no stamp, sequence or state that a law speaks of: what `f` may not change of a descriptor. -/
def KeepsStorage (f : Descriptor → Descriptor) : Prop := ∀ x, (f x).circuit = x.circuit ∧ (f x).chain = x.chain

/-- What `f` may not change of a circuit record: its settings and its held count. -/
def KeepsSettings (f : CircuitRecord → CircuitRecord) : Prop :=
  ∀ r, (f r).quota = r.quota ∧ (f r).held = r.held ∧ (f r).stallLimit = r.stallLimit ∧ (f r).addDepth = r.addDepth

/-- A property that each operation keeps. -/
structure Kept (P : State → Prop) : Prop where
  /-- Pins, trunk-out, tick counter, alignment unit, contexts, emitters, and what is owed. -/
  plain : ∀ (s : State) (pins : Pins) (b : Byte) (n : Word) (a : Align) (ctx : Table RxContext Config.circuits)
    (em : Table Emitter Config.circuits) (o : Owed), P s →
    P { s with pins := pins, toData := b, tickCounter := n, align := a, contexts := ctx, emitters := em, owed := o }
  /-- The tributary interface, with no more rejects waiting than before or than 8. -/
  trib : ∀ (s : State) (t : Tributary), t.rejects.length ≤ s.trib.rejects.length ∨ t.rejects.length ≤ 8 → P s →
    P { s with trib := t }
  /-- The delivery unit, with its settings as they were and no more credits than before or than 32. -/
  delivery : ∀ (s : State) (e : Delivery), e.quanta = s.delivery.quanta → e.ageLimits = s.delivery.ageLimits →
    e.stallLimit = s.delivery.stallLimit → e.credits ≤ s.delivery.credits ∨ e.credits ≤ 32 → P s →
    P { s with delivery := e }
  /-- The engine, with its lease setting as it was and no more requests waiting than before or than 4. -/
  engine : ∀ (s : State) (e : Engine), e.lease = s.engine.lease →
    e.queue.length ≤ s.engine.queue.length ∨ e.queue.length ≤ 4 → P s → P { s with engine := e }
  /-- The event unit, with its stack, bindings, fault list and settings as they were. -/
  events : ∀ (s : State) (e : Events), e.stack = s.events.stack → e.bindings = s.events.bindings →
    e.faults = s.events.faults → e.timeout = s.events.timeout → e.retries = s.events.retries → P s →
    P { s with events := e }
  /-- The response offer. -/
  response : ∀ (s : State) (o : Option ResponseOffer), P s → P (setResponseOffer o s)
  /-- A circuit record, with its settings and its held count as they were. -/
  record : ∀ (s : State) (c : Circuit) (f : CircuitRecord → CircuitRecord), KeepsSettings f → P s →
    P (changeRecord c f s)
  /-- A descriptor, with its circuit and its chain as they were. -/
  desc : ∀ (s : State) (d : DescNo) (f : Descriptor → Descriptor), KeepsStorage f → P s → P (changeDesc d f s)
  /-- An octet of a body stored. -/
  store : ∀ (s : State) (chain : List Segment) (i : Nat) (b : Byte), P s →
    P (setStore (storeOctet chain i b s.pool.store) s)
  /-- A grant. -/
  allocate : ∀ (s t : State) (m : NewMessage) (d : DescNo), allocate m s = .ok (d, t) → P s → P t
  /-- A message put in an add queue that has room. -/
  enqueue : ∀ (s t : State) (m : NewMessage) (body : List Byte) (d : DescNo), hasRoom s m.circuit = true →
    enqueue m body s = .ok (d, t) → P s → P t
  /-- A free. -/
  free : ∀ (s : State) (d : DescNo), P s → P (free d s)
  /-- An add queue made no longer. -/
  addQueue : ∀ (s : State) (c : Circuit) (q : List DescNo), q.length ≤ (s.addQueues.get c).length → P s →
    P (setAddQueue c q s)
  /-- A fault reported. -/
  fault : ∀ (s : State) (c : Circuit) (cause : FaultCause), P s → P (reportFault c cause s)
  /-- The slot engine told that alignment holds or not. -/
  aligned : ∀ (s : State) (b : Bool), P s → P { s with slot := { s.slot with aligned := b } }
  /-- A swap performed. -/
  swap : ∀ s : State, s.slot.swap ≠ .idle → P s → P (performSwap s)
  /-- A revert performed. -/
  revert : ∀ s : State, s.slot.swap ≠ .idle → P s → P (performRevert s)
  /-- A binding's swap. -/
  boundSwap : ∀ s : State, P s → P (boundSwap s).2
  /-- The confirm countdown lowered. -/
  countdown : ∀ (s : State) (n : Option Nat), P s → P { s with slot := { s.slot with countdown := n } }
  /-- The confirm countdown at its end. -/
  windowEnd : ∀ s : State, s.slot.swap ≠ .idle → P s → P (confirmWindowEnd s)
  /-- The selection of notices made anew. -/
  select : ∀ s : State, P s → P (selectNotice s)
  /-- A refused notice offer held. -/
  tried : ∀ (s : State) (o : NoticeOffer), s.arbiter.notice = some o → P s →
    P (setNoticeOffer (some { o with tried := true }) s)
  /-- A notice that has entered the queue. -/
  entered : ∀ (s : State) (o : NoticeOffer), s.arbiter.notice = some o → P s → P (noticeEntered o (setNoticeOffer none s))
  /-- The tick at the notice stack. -/
  noticeTick : ∀ s : State, P s → P (tickNotice s)
  /-- The top notice's timer at its end. -/
  expired : ∀ s : State, P s → P (noticeExpired s)
  /-- A binding that has acted. -/
  succeeded : ∀ (s : State) (i : Fin Config.bindings) (b : Binding), s.events.bindings.get i = some b → P s →
    P (bindingSucceeded i b s)
  /-- The requests that write settings, plans, lists or bindings. -/
  setLease : ∀ (s : State) (l : List Byte), P s → P (setLeaseRun l s).state
  writePlan : ∀ (s : State) (l : List Byte), P s → P (writePlanRun l s).state
  copyPlan : ∀ (s : State) (l : List Byte), P s → P (copyPlanRun l s).state
  armSwap : ∀ (s : State) (l : List Byte), P s → P (armSwapRun l s).state
  cancelSwap : ∀ (s : State) (l : List Byte), P s → P (cancelSwapRun l s).state
  confirmSwap : ∀ (s : State) (l : List Byte), P s → P (confirmSwapRun l s).state
  writeCircuit : ∀ (s : State) (l : List Byte), P s → P (writeCircuitRun l s).state
  writePool : ∀ (s : State) (l : List Byte), P s → P (writePoolRun l s).state
  writeSched : ∀ (s : State) (l : List Byte), P s → P (writeSchedRun l s).state
  writeEventConfig : ∀ (s : State) (l : List Byte), P s → P (writeEventConfigRun l s).state
  noticeAck : ∀ (s : State) (l : List Byte), P s → P (noticeAckRun l s).state
  clearFaults : ∀ (s : State) (l : List Byte), P s → P (clearFaultsRun l s).state
  writeBinding : ∀ (s : State) (l : List Byte), P s → P (writeBindingRun l s).state
  /-- The resets. -/
  reset : ∀ (s : State) (pins : Pins) (b : Byte), P s → P (.resetWith s.pending pins b)
  pinReset : ∀ s : State, P s → P (pinReset s)
  clearTraffic : ∀ s : State, P s → P (clearTraffic s)

namespace Kept

variable {P : State → Prop} {s : State}

/-! ### The plain fields, one by one -/

theorem pins (h : Kept P) (x : Pins) (hs : P s) : P { s with pins := x } :=
  h.plain s x s.toData s.tickCounter s.align s.contexts s.emitters s.owed hs
theorem toData (h : Kept P) (x : Byte) (hs : P s) : P { s with toData := x } :=
  h.plain s s.pins x s.tickCounter s.align s.contexts s.emitters s.owed hs
theorem tickCounter (h : Kept P) (x : Word) (hs : P s) : P { s with tickCounter := x } :=
  h.plain s s.pins s.toData x s.align s.contexts s.emitters s.owed hs
theorem align (h : Kept P) (x : Align) (hs : P s) : P (setAlign x s) :=
  h.plain s s.pins s.toData s.tickCounter x s.contexts s.emitters s.owed hs
theorem contexts (h : Kept P) (x : Table RxContext Config.circuits) (hs : P s) : P { s with contexts := x } :=
  h.plain s s.pins s.toData s.tickCounter s.align x s.emitters s.owed hs
theorem context (h : Kept P) (c : Circuit) (x : RxContext) (hs : P s) : P (setContext c x s) := h.contexts _ hs
theorem emitter (h : Kept P) (c : Circuit) (x : Emitter) (hs : P s) : P (setEmitter c x s) :=
  h.plain s s.pins s.toData s.tickCounter s.align s.contexts (s.emitters.put c x) s.owed hs
theorem owed (h : Kept P) (x : Owed) (hs : P s) : P { s with owed := x } :=
  h.plain s s.pins s.toData s.tickCounter s.align s.contexts s.emitters x hs

/-! ### Shared operations -/

theorem raise (h : Kept P) (k : EventKind) (d : Option (List Byte)) (hs : P s) : P (raise k d s) :=
  h.events s _ rfl rfl rfl rfl rfl hs
theorem count (h : Kept P) (c : Circuit) (f : CircuitCounters → CircuitCounters) (hs : P s) : P (count c f s) :=
  h.record s c _ (fun _ => ⟨rfl, rfl, rfl, rfl⟩) hs
theorem countLink (h : Kept P) (f : LinkCounters → LinkCounters) (hs : P s) : P (countLink f s) :=
  h.trib s _ (.inl (Nat.le_refl _)) hs
theorem countEngine (h : Kept P) (f : EngineCounters → EngineCounters) (hs : P s) : P (countEngine f s) :=
  h.engine s _ rfl (.inl (Nat.le_refl _)) hs
theorem classQueue (h : Kept P) (q : Class) (l : List DescNo) (hs : P s) : P (setClassQueue q l s) :=
  h.delivery s _ rfl rfl rfl (.inl (Nat.le_refl _)) hs
theorem attempt (h : Kept P) (hs : P s) : P (oweAttempt s) := h.owed _ hs
theorem informed (h : Kept P) (hs : P s) : P (informRequesters s) := by
  unfold informRequesters; split
  · exact h.attempt hs
  · exact hs
theorem refusal (h : Kept P) (f : AllocFailure) (c : Circuit) (n : Nat) (hs : P s) : P (raiseRefusal f c n s) := by
  cases f
  · exact hs
  · exact h.raise _ _ hs
  · exact h.raise _ _ hs
theorem flush (h : Kept P) (d : DescNo) (hs : P s) : P (flush d s) := by
  unfold Machine.flush; split
  · exact hs
  · exact h.free _ _ (h.count _ _ hs)
theorem flushAll (h : Kept P) (l : List DescNo) (hs : P s) : P (flushAll l s) := by
  unfold Machine.flushAll
  induction l generalizing s with
  | nil => exact hs
  | cons d l ih => exact ih (h.flush d hs)

/-! ### Circuits and the receive side -/

theorem startCircuit (h : Kept P) (c : Circuit) (hs : P s) : P (startCircuit c s) :=
  h.emitter _ _ (h.context _ _ (h.record s c _ (fun _ => ⟨rfl, rfl, rfl, rfl⟩) hs))
theorem stopContext (h : Kept P) (c : Circuit) (hs : P s) : P (stopContext c s) := by
  apply h.context; split
  · exact h.free _ _ hs
  · exact hs
theorem stopEmitter (h : Kept P) (c : Circuit) (hs : P s) : P (stopEmitter c s) := by
  apply h.emitter; split
  · exact h.flush _ hs
  · exact hs
theorem stopCircuit (h : Kept P) (c : Circuit) (w : Bool) (hs : P s) : P (stopCircuit c w s) := by
  have ht := h.stopEmitter c (h.stopContext c (h.record s c (fun r => { r with active := false })
    (fun _ => ⟨rfl, rfl, rfl, rfl⟩) hs))
  simp only [Machine.stopCircuit]; split
  · exact h.flushAll _ (h.addQueue _ _ _ (Nat.zero_le _) (h.delivery _ _ rfl rfl rfl (.inl (Nat.le_refl _)) ht))
  · exact ht
theorem countSkip (h : Kept P) (c : Circuit) (f : AllocFailure) (hs : P s) : P (countSkip c f s) := by
  cases f <;> exact h.fault _ _ _ (h.count _ _ hs)
theorem headerGood (h : Kept P) (c : Circuit) (l b : Byte) (crc : Word) (hs : P s) : P (headerGood c l b crc s) := by
  unfold Machine.headerGood; dsimp only; split
  · rename_i ha
    exact h.context _ _ (h.allocate _ _ _ _ ha hs)
  · exact h.context _ _ (h.countSkip _ _ (h.refusal _ _ _ hs))
theorem judgeSequence (h : Kept P) (c : Circuit) (q : BitVec 4) (hs : P s) : P (judgeSequence c q s) := by
  refine h.record _ c _ (fun _ => ⟨rfl, rfl, rfl, rfl⟩) ?_
  split
  · exact h.fault _ _ _ (h.count _ _ hs)
  · exact hs
theorem handOn (h : Kept P) (c : Circuit) (q : Class) (d : DescNo) (hs : P s) : P (handOn c q d s) := by
  unfold Machine.handOn; split
  · split
    · rename_i hl
      refine h.desc _ _ _ (fun _ => ⟨rfl, rfl⟩) (h.engine s _ rfl (.inr ?_) hs)
      simp only [List.length_append, List.length_cons, List.length_nil]
      exact hl
    · exact h.raise _ _ (h.free _ _ (h.countEngine _ hs))
  · exact h.desc _ _ _ (fun _ => ⟨rfl, rfl⟩) (h.classQueue _ _ hs)
theorem receiveOctet (h : Kept P) (c : Circuit) (b : Byte) (hs : P s) : P (receiveOctet c b s) := by
  unfold Machine.receiveOctet; split
  · exact hs
  · unfold receiveHunt
    repeat' split
    · exact hs
    · exact h.context _ _ hs
    · exact hs
    · exact h.count _ _ hs
  · unfold receiveHead; dsimp only; split
    · exact h.context _ _ hs
    · split
      · exact h.headerGood _ _ _ _ hs
      · exact h.context _ _ (h.fault _ _ _ (h.count _ _ hs))
  · exact h.context _ _ (h.store _ _ _ _ hs)
  · unfold receiveCheck; dsimp only; split
    · exact h.context _ _ hs
    · split
      · exact h.context _ _ (h.handOn _ _ _ (h.judgeSequence _ _ (h.count _ _
          (h.desc _ _ _ (fun _ => ⟨rfl, rfl⟩) hs))))
      · exact h.context _ _ (h.free _ _ (h.fault _ _ _ (h.count _ _ hs)))
    · exact h.context _ _ hs
  · unfold receiveSkip; dsimp only; split <;> exact h.context _ _ hs
theorem stallContext (h : Kept P) (c : Circuit) (hs : P s) : P (stallContext c s) := by
  apply h.context
  have hf : P (Machine.count c (fun k => { k with stalls := k.stalls + 1 }) (match (s.contexts.get c).desc with
      | some d => Machine.free d s
      | none => s)) := by
    apply h.count; split
    · exact h.free _ _ hs
    · exact hs
  split
  · exact hf
  · exact h.fault _ _ _ hf

/-! ### The delivery unit -/

theorem idleTransmitter (h : Kept P) (hs : P s) : P (idleTransmitter s) := h.trib s _ (.inl (Nat.le_refl _)) hs
theorem endDelivery (h : Kept P) (hs : P s) : P (endDelivery s) := h.delivery s _ rfl rfl rfl (.inl (Nat.le_refl _)) hs
theorem startDelivery (h : Kept P) (q : Class) (hs : P s) : P (startDelivery q s) := by
  unfold Machine.startDelivery; split
  · exact hs
  · rename_i d rest _
    have ht := h.desc _ d (fun x => { x with state := .delivering }) (fun _ => ⟨rfl, rfl⟩) (h.classQueue q rest hs)
    have hd : ∀ u : State, P u →
        P { u with delivery := { u.delivery with inDelivery := some d, credits := u.delivery.credits - 1 } } :=
      fun u hu => h.delivery u _ rfl rfl rfl (.inl (Nat.sub_le _ _)) hu
    refine h.trib _ _ ?_ (hd _ ht)
    exact .inl (Nat.le_refl _)
theorem chooseDelivery (h : Kept P) (hs : P s) : P (chooseDelivery s) := by
  unfold Machine.chooseDelivery; split
  · exact h.startDelivery _ hs
  · split
    · exact hs
    · exact h.startDelivery _ (h.delivery s _ rfl rfl rfl (.inl (Nat.le_refl _)) hs)
theorem completeDelivery (h : Kept P) (hs : P s) : P (completeDelivery s) := by
  unfold Machine.completeDelivery; split
  · exact h.idleTransmitter hs
  · refine h.idleTransmitter (h.endDelivery (h.free _ _ ?_))
    split
    · exact h.count _ _ hs
    · exact hs
theorem restoreDeficit (h : Kept P) (q : Class) (n : Nat) (hs : P s) : P (restoreDeficit q n s) := by
  unfold Machine.restoreDeficit; split
  · exact hs
  · exact h.delivery s _ rfl rfl rfl (.inl (Nat.le_refl _)) hs
theorem abortDelivery (h : Kept P) (hs : P s) : P (abortDelivery s) := by
  unfold Machine.abortDelivery; split
  · exact hs
  · refine h.endDelivery (h.delivery _ _ rfl rfl rfl (.inl (Nat.le_refl _)) ?_)
    split
    · exact h.restoreDeficit _ _ (h.classQueue _ _ (h.desc _ _ _ (fun _ => ⟨rfl, rfl⟩) hs))
    · exact hs
theorem readyFallen (h : Kept P) (hs : P s) : P (readyFallen s) := by
  have ht : P { s with delivery := { s.delivery with credits := 0 } } :=
    h.delivery s _ rfl rfl rfl (.inr (Nat.zero_le _)) hs
  unfold Machine.readyFallen; dsimp only; split
  · exact h.idleTransmitter (h.abortDelivery ht)
  · exact ht
theorem ageOutHead (h : Kept P) (q : Class) (hs : P s) : P (ageOutHead q s) := by
  unfold Machine.ageOutHead
  repeat' split
  · exact hs
  · exact h.classQueue _ _ hs
  · exact h.raise _ _ (h.count _ _ (h.free _ _ (h.classQueue _ _ hs)))
theorem creditStallCheck (h : Kept P) (hs : P s) : P (creditStallCheck s) := by
  have ht := h.delivery s { s.delivery with stallTimer := min (s.delivery.stallTimer + 1) Config.timerLimit } rfl rfl rfl
    (.inl (Nat.le_refl _)) hs
  unfold Machine.creditStallCheck; dsimp only; split
  · split
    · exact h.owed _ ht
    · exact ht
  · exact h.delivery s _ rfl rfl rfl (.inl (Nat.le_refl _)) hs

/-! ### The insertion side -/

theorem emitterTake (h : Kept P) (c : Circuit) (d : DescNo) (rest : List DescNo)
    (hl : rest.length ≤ (s.addQueues.get c).length) (hs : P s) : P (emitterTake c d rest s) := by
  have ht := h.emitter c { Emitter.idle with state := .head, desc := some d }
    (h.record _ c (fun r => { r with emitSeq := (s.circuits.get c).emitSeq + 1 }) (fun _ => ⟨rfl, rfl, rfl, rfl⟩)
      (h.desc _ d (fun x => { x with state := .emitting, seq := some (s.circuits.get c).emitSeq }) (fun _ => ⟨rfl, rfl⟩)
        (h.addQueue s c rest hl hs)))
  unfold Machine.emitterTake; dsimp only; split
  · exact h.informed ht
  · exact ht
theorem emissionComplete (h : Kept P) (c : Circuit) (d : DescNo) (x : Descriptor) (hs : P s) :
    P (emissionComplete c d x s) := by
  unfold Machine.emissionComplete; split
  · exact h.reset s _ _ hs
  · exact h.emitter _ _ (h.free _ _ (h.count _ _ hs))
theorem emitterSupply (h : Kept P) (c : Circuit) (hs : P s) : P (emitterSupply c s).2 := by
  unfold Machine.emitterSupply; dsimp only; split
  · split
    · exact hs
    · rename_i hq
      exact h.emitterTake _ _ _ (by rw [hq]; simp) hs
  · unfold emitNext; dsimp only; split
    · exact hs
    · split <;> exact h.emitter _ _ hs
    · exact h.emitter _ _ hs
    · split
      · exact h.emitter _ _ hs
      · exact h.emissionComplete _ _ _ hs
  · exact h.emitter _ _ hs
theorem boundSend (h : Kept P) (i : Fin Config.cannedSlots) (c : Circuit) (hs : P s) : P (boundSend i c s).2 := by
  unfold Machine.boundSend
  repeat' split
  · exact hs
  · exact hs
  · exact hs
  · rename_i hr _ _ _ ha
    exact h.enqueue _ _ _ _ _ (by simpa using hr) ha hs
  · exact h.refusal _ _ _ hs

/-! ### Occurrences -/

theorem performAction (h : Kept P) (a : BindingAction) (hs : P s) : P (performAction a s).2 := by
  cases a with
  | swap => exact h.boundSwap s hs
  | circuitStop c =>
    simp only [Machine.performAction, boundStop]; split
    · exact h.stopCircuit c false hs
    · exact hs
  | circuitStart c =>
    simp only [Machine.performAction, boundStart]; split
    · exact hs
    · exact h.startCircuit _ hs
  | sendCanned i c => exact h.boundSend i c hs
  | flushClass q => exact h.flushAll _ (h.classQueue _ _ hs)
theorem consultBinding (h : Kept P) (o : Occurrence) (hs : P s) : P (consultBinding o s).2 := by
  unfold Machine.consultBinding
  split
  · exact hs
  · split
    · exact hs
    · rename_i i _ _ b hb
      split
      · split
        · exact h.succeeded _ i b (by simpa using hb) (h.performAction _ hs)
        · exact h.raise _ _ (h.events _ _ rfl rfl rfl rfl rfl (h.performAction _ hs))
      · exact hs
theorem inbox (h : Kept P) (l : List Occurrence) (hs : P s) : P (setInbox l s) := h.events s _ rfl rfl rfl rfl rfl hs
theorem occurrence (h : Kept P) (o : Occurrence) (rest : List Occurrence) (hs : P s) : P (takeOccurrence o rest s) :=
  h.select _ (h.inbox _ (h.consultBinding o (h.events _ _ rfl rfl rfl rfl rfl (h.inbox _ hs))))
theorem takeInbox (h : Kept P) (n : Nat) (hs : P s) : P (takeInbox n s) := by
  induction n generalizing s with
  | zero => exact hs
  | succ n ih =>
    unfold Machine.takeInbox; split
    · exact hs
    · exact ih (h.occurrence _ _ hs)
/-- Whatever the occurrences of a step bring about. -/
theorem occurrences (h : Kept P) (hs : P s) : P (takeOccurrences s) := h.takeInbox _ hs

theorem record_cleared (h : Kept P) (k : EventKind) (hs : P s) : P (clearRecord k s) :=
  h.events s _ rfl rfl rfl rfl rfl hs
theorem records (h : Kept P) (kinds : List EventKind) (hs : P s) : P (clearRecords kinds s) := by
  unfold clearRecords
  induction kinds generalizing s with
  | nil => exact hs
  | cons k kinds ih => exact ih (h.record_cleared k hs)

/-! ### The arbiter -/

theorem tryNotice (h : Kept P) (hs : P s) : P (tryNotice s) := by
  unfold Machine.tryNotice; split
  · exact hs
  · rename_i o ho
    split
    · exact hs
    · rename_i hr
      split
      · rename_i ha
        exact h.entered _ _ (by have := enqueue_frame ha; simp_all) (h.enqueue _ _ _ _ _ (by simpa [offerMessage] using hr) ha hs)
      · refine h.tried _ _ ?_ ?_
        · split
          · exact ho
          · simpa using ho
        · split
          · exact hs
          · exact h.refusal _ _ _ hs
theorem responseQueued (h : Kept P) (d : DescNo) (hs : P s) : P (responseQueued d s) := by
  unfold Machine.responseQueued; split
  · exact h.engine s _ rfl (.inl (Nat.le_refl _)) hs
  · exact h.engine s _ rfl (.inl (Nat.le_refl _)) hs
  · exact hs
  · exact hs
theorem tryResponse (h : Kept P) (hs : P s) : P (tryResponse s) := by
  unfold Machine.tryResponse; split
  · exact hs
  · split
    · exact hs
    · rename_i hr
      split
      · rename_i ha
        exact h.responseQueued _ (h.response _ _ (h.enqueue _ _ _ _ _ (by simpa [offerMessage] using hr) ha hs))
      · apply h.response; split
        · exact hs
        · exact h.refusal _ _ _ hs
theorem noticePart (h : Kept P) (hs : P s) : P (noticePartOwed s) := by
  unfold noticePartOwed; split
  · exact hs
  · exact h.tryNotice (h.owed _ hs)
theorem responsePart (h : Kept P) (hs : P s) : P (responsePartOwed s) := by
  unfold responsePartOwed; split
  · exact h.tryResponse (h.owed _ hs)
  · exact hs

/-! ### The engine -/

theorem owner (h : Kept P) (o : Ownership) (hs : P s) : P (setOwner o s) := h.engine s _ rfl (.inl (Nat.le_refl _)) hs
theorem setEngine (h : Kept P) (e : EngineState) (hs : P s) : P (setEngine e s) :=
  h.engine s _ rfl (.inl (Nat.le_refl _)) hs
theorem offer (h : Kept P) (body : List Byte) (hs : P s) : P (offerResponse body s) := h.attempt (h.response _ _ hs)
theorem cache (h : Kept P) (request body : List Byte) (hs : P s) : P (cacheResponse request body s) :=
  h.engine s _ rfl (.inl (Nat.le_refl _)) hs
theorem respond (h : Kept P) (request : List Byte) (status : Status) (results : List Byte) (r : Bool) (hs : P s) :
    P (respond request status results r s) := by
  refine h.setEngine _ (h.offer _ ?_)
  split
  · exact h.cache _ _ (h.countEngine _ hs)
  · exact h.countEngine _ hs
theorem takeRequest (h : Kept P) (hs : P s) : P (takeRequest s) := by
  unfold Machine.takeRequest; split
  · rename_i d rest _ hq
    have hc : P (copyRequest d rest (messageBody s d) s) :=
      h.engine _ _ rfl (.inl (Nat.le_refl _)) (h.free _ _ (h.engine s _ rfl (.inl (by rw [hq]; simp)) hs))
    dsimp only
    unfold screenRequest
    split
    · exact h.setEngine _ (h.countEngine _ hc)
    · split
      · exact h.setEngine _ (h.countEngine _ hc)
      · unfold judgeRequest; split
        · exact h.setEngine _ (h.offer _ (h.countEngine _ hc))
        · split
          · exact h.respond _ _ _ _ hc
          · split
            · exact h.respond _ _ _ _ hc
            · split
              · exact h.respond _ _ _ _ hc
              · unfold refreshLease
                repeat' split
                · exact hc
                · exact h.owner _ hc
                · exact hc
  · exact hs
theorem execute (h : Kept P) (k : RequestKind) (run : List Byte → State → Executed)
    (hr : ∀ l t, P t → P (run l t).state) (hs : P s) : P (execute k run s) := by
  unfold Machine.execute; split
  · split
    · exact h.respond _ _ _ _ (hr _ _ hs)
    · exact hs
  · exact hs

/-! ### The tick and what falls due -/

theorem takeTick (h : Kept P) (hs : P s) : P (takeTick s) := by
  have h1 : P (tickContexts { s with tickCounter := s.tickCounter + 1 }) := h.owed _ (h.contexts _ (h.tickCounter _ hs))
  have h2 := (show ∀ t, P t → P (tickConfirm t) by
    intro t ht
    unfold tickConfirm; dsimp only; split
    · rename_i n _ _
      have hc := h.countdown t (some n) ht
      split
      · exact h.owed _ hc
      · exact hc
    · exact ht) _ h1
  have h3 := (show ∀ t, P t → P (tickDelivery t) by
    intro t ht
    unfold tickDelivery; split
    · exact h.creditStallCheck ht
    · exact h.owed _ ht) _ h2
  have h4 := (show ∀ t, P t → P (tickLease t) by
    intro t ht
    unfold tickLease; dsimp only
    split
    · split
      · exact h.owed _ (h.owner _ ht)
      · exact h.owner _ ht
    all_goals exact ht) _ h3
  exact h.noticeTick _ h4
theorem stallOwed (h : Kept P) (c : Circuit) (hs : P s) : P (stallOwed c s) := by
  unfold Machine.stallOwed; dsimp only; split
  · split
    · exact h.stallContext _ (h.owed _ hs)
    · exact h.owed _ hs
  · exact hs
theorem confirmOwed (h : Kept P) (hs : P s) : P (confirmOwed s) := by
  unfold Machine.confirmOwed; dsimp only; split
  · split
    · rename_i hw
      exact h.windowEnd _ (by show s.slot.swap ≠ _; rw [hw]; decide) (h.owed _ hs)
    · exact h.owed _ hs
  · exact hs
theorem endAgeCheck (h : Kept P) (hs : P s) : P (endAgeCheck s) := by
  unfold Machine.endAgeCheck; split
  · exact h.creditStallCheck (h.owed _ hs)
  · exact hs
theorem ageOutOwed (h : Kept P) (q : Class) (hs : P s) : P (ageOutOwed q s) := by
  unfold Machine.ageOutOwed; split
  · exact h.ageOutHead _ hs
  · exact hs
theorem creditStallOwed (h : Kept P) (hs : P s) : P (creditStallOwed s) := by
  unfold Machine.creditStallOwed; split
  · exact hs
  · exact h.raise _ _ (h.delivery _ _ rfl rfl rfl (.inl (Nat.le_refl _)) (h.owed _ hs))
theorem ownerLostOwed (h : Kept P) (hs : P s) : P (ownerLostOwed s) := by
  unfold Machine.ownerLostOwed; split
  · unfold leaseEnd; split
    · exact h.owed _ hs
    · exact h.raise _ _ (h.owner _ (h.owed _ hs))
  · exact hs
theorem noticeTimeoutOwed (h : Kept P) (hs : P s) : P (noticeTimeoutOwed s) := by
  unfold Machine.noticeTimeoutOwed; dsimp only; split
  · split
    · exact h.expired _ (h.owed _ hs)
    · exact h.owed _ hs
  · exact hs
theorem settleAttempts (h : Kept P) (n : Nat) (hs : P s) : P (settleAttempts n s) := by
  induction n generalizing s with
  | zero => exact hs
  | succ n ih =>
    unfold Machine.settleAttempts; split
    · exact hs
    · exact ih (h.occurrences (h.responsePart (h.noticePart hs)))
theorem attemptsFirst (h : Kept P) (hs : P s) : P (attemptsFirst s) :=
  h.settleAttempts _ (h.occurrences (h.responsePart hs))
theorem followed (h : Kept P) (hs : P s) : P (stepFollowed s) :=
  h.settleAttempts _ (h.endAgeCheck (h.occurrences hs))
theorem ifDue (h : Kept P) (b : Bool) {f : State → State} (hf : ∀ u, P u → P (f u)) (hs : P s) :
    P (takeIfDue b f s) := by
  unfold takeIfDue; split
  · exact h.followed (hf _ hs)
  · exact hs
theorem settleStalls (h : Kept P) (l : List Circuit) (hs : P s) : P (settleStalls l s) := by
  unfold Machine.settleStalls
  induction l generalizing s with
  | nil => exact hs
  | cons c l ih => exact ih (h.followed (h.stallOwed c hs))
theorem settleAges (h : Kept P) (n : Nat) (hs : P s) : P (settleAges n s) := by
  induction n generalizing s with
  | zero => exact h.endAgeCheck hs
  | succ n ih =>
    unfold Machine.settleAges; split
    · apply ih
      unfold ageOutFirst; split
      · exact hs
      · exact h.followed (h.ageOutOwed _ hs)
    · exact h.endAgeCheck hs
theorem settleTick (h : Kept P) (hs : P s) : P (settleTick s) :=
  h.ifDue _ (fun _ => h.noticeTimeoutOwed) (h.ifDue _ (fun _ => h.ownerLostOwed) (h.ifDue _ (fun _ => h.creditStallOwed)
    (h.settleAges _ (h.ifDue _ (fun _ => h.confirmOwed) (h.settleStalls _ hs)))))
/-- Whatever is owed, taken. -/
theorem settle (h : Kept P) (hs : P s) : P (settle s) := by
  unfold Machine.settle; split
  · exact hs
  · exact h.settleTick (h.attemptsFirst hs)

/-! ### Taking a command -/

theorem perform (h : Kept P) {f : State → State} {t : State} (hf : ∀ u, P u → P (f u)) (hs : P s)
    (he : perform f s = .next t) : P t := by
  unfold Machine.perform at he
  cases he
  split
  · exact h.occurrences (hf _ (h.settle hs))
  · exact hs
theorem performOwed (h : Kept P) {f : State → State} {t : State} (hf : ∀ u, P u → P (f u)) (hs : P s)
    (he : performOwed f s = .next t) : P t := by
  unfold Machine.performOwed at he
  cases he
  split
  · exact h.endAgeCheck (h.occurrences (hf _ (h.attemptsFirst hs)))
  · exact hs
theorem request (h : Kept P) {k : RequestKind} {run : List Byte → State → Executed} {t : State}
    (hr : ∀ u l, P u → P (run l u).state) (hs : P s) (he : Machine.perform (Machine.execute k run) s = .next t) : P t :=
  h.perform (fun _ hu => h.execute k run (fun l t ht => hr t l ht) hu) hs he

/-! ### The tributary -/

theorem parser (h : Kept P) (p : Parser) (hs : P s) : P (setParser p s) := h.trib s _ (.inl (Nat.le_refl _)) hs
theorem dropFrame (h : Kept P) (k : LinkError) (hs : P s) : P (dropFrame k s) := by
  apply h.raise
  have hp := h.parser .hunting hs
  cases k
  case framing => exact hp
  all_goals
    unfold countLinkError
    exact h.countLink _ hp
theorem refuseAdd (h : Kept P) (tag circuit : Byte) (r : RejectReason) (hs : P s) : P (refuseAdd tag circuit r s) := by
  have h1 : P (countRefusedAdd circuit s) := by
    unfold countRefusedAdd; split
    · exact h.count _ _ hs
    · exact h.countLink _ hs
  unfold Machine.refuseAdd offerReject; split
  · rename_i hl
    refine h.trib _ _ (.inr ?_) (h.raise _ _ h1)
    simp only [List.length_append, List.length_cons, List.length_nil]
    exact hl
  · exact h.countLink _ (h.raise _ _ h1)
theorem admitAdd (h : Kept P) (tag : Byte) (c : Circuit) (q : Class) (m : Bool) (body : List Byte) (hs : P s) :
    P (admitAdd tag c q m body s) := by
  unfold Machine.admitAdd; dsimp only
  repeat' split
  · exact h.refuseAdd _ _ _ hs
  · exact h.refuseAdd _ _ _ hs
  · exact h.refuseAdd _ _ _ hs
  · rename_i hr _ _ _ ha
    exact h.enqueue _ _ _ _ _ (by simpa using hr) ha hs
  · exact h.refuseAdd _ _ _ (h.refusal _ _ _ hs)
theorem judgeAdd (h : Kept P) (l : List Byte) (hs : P s) : P (judgeAdd l s) := by
  unfold Machine.judgeAdd; dsimp only
  repeat' split
  · exact h.refuseAdd _ _ _ hs
  · exact h.admitAdd _ _ _ _ _ hs
  · exact h.refuseAdd _ _ _ hs
  · exact h.dropFrame _ hs
theorem judgeCredit (h : Kept P) (l : List Byte) (hs : P s) : P (judgeCredit l s) := by
  unfold Machine.judgeCredit; dsimp only; split
  · exact h.delivery s _ rfl rfl rfl (.inr (Nat.min_le_right _ _)) hs
  · exact h.dropFrame _ hs
theorem parseOctet (h : Kept P) (b : Byte) (hs : P s) : P (parseOctet b s) := by
  unfold Machine.parseOctet; split
  · unfold parseHunt; split
    · exact h.parser _ hs
    · exact h.countLink _ hs
  · unfold parseType; dsimp only; split
    · exact h.parser _ hs
    · exact h.dropFrame _ hs
  · unfold parseLength; dsimp only; split
    · exact h.parser _ hs
    · split
      · exact h.parser _ hs
      · exact h.dropFrame _ hs
  · exact h.parser _ hs
  · unfold parseCheck; dsimp only; split
    · exact h.parser _ hs
    · split
      · unfold acceptFrame; dsimp only; split
        · exact h.judgeAdd _ (h.countLink _ (h.parser _ hs))
        · exact h.judgeCredit _ (h.countLink _ (h.parser _ hs))
      · exact h.dropFrame _ hs
theorem framingError (h : Kept P) (hs : P s) : P (parseFramingError s) := by
  unfold parseFramingError; dsimp only; split
  · exact h.countLink _ hs
  · exact h.dropFrame _ (h.countLink _ hs)
theorem startReject (h : Kept P) (hs : P s) : P (startReject s) := by
  unfold Machine.startReject; split
  · rename_i hq
    exact h.trib s _ (.inl (by rw [hq]; simp)) hs
  · exact hs
theorem endReject (h : Kept P) (hs : P s) : P (endReject s) := by
  unfold Machine.endReject; split
  · exact h.idleTransmitter (h.countLink _ hs)
  · exact hs
theorem readyFall (h : Kept P) (hs : P s) : P (takeReadyFall s) := by
  unfold takeReadyFall; split
  · exact h.readyFallen (h.trib s _ (.inl (Nat.le_refl _)) hs)
  · exact hs

/-! ### The trunk -/

theorem alignmentLost (h : Kept P) (hs : P s) : P (slotAlignmentLost s) := by
  have ht := h.aligned s false hs
  unfold slotAlignmentLost; dsimp only
  split
  · rename_i hw
    exact h.swap _ (by show s.slot.swap ≠ _; rw [hw]; decide) ht
  · rename_i hw
    exact h.revert _ (by show s.slot.swap ≠ _; rw [hw]; decide) ht
  all_goals exact ht
theorem boundary (h : Kept P) (w : Bool) (hs : P s) : P (slotBoundary w s) := by
  unfold slotBoundary; split
  · exact hs
  · rename_i hw
    exact h.swap _ (by rw [hw]; decide) hs
  · rename_i hw
    split
    · exact h.swap _ (by rw [hw]; decide) hs
    · exact hs
  · exact hs
  · rename_i hw
    exact h.revert _ (by rw [hw]; decide) hs
theorem loseAlignment (h : Kept P) (hs : P s) : P (loseAlignment s) :=
  h.alignmentLost (h.raise _ _ (h.align _ hs))
theorem dropOctet (h : Kept P) (c : Circuit) (b : Byte) (hs : P s) : P (dropOctet c b s) := by
  unfold Machine.dropOctet; split
  · exact h.receiveOctet _ _ hs
  · exact hs
theorem slotAction (h : Kept P) (e : PlanEntry) (b : Byte) (hs : P s) : P (slotAction e b s).2 := by
  unfold Machine.slotAction; split
  · exact hs
  · exact h.dropOctet _ _ hs
  · exact h.dropOctet _ _ hs
  · split
    · exact h.emitterSupply _ hs
    · exact hs
theorem alignedOctet (h : Kept P) (b : Byte) (hs : P s) : P (alignedOctet b s).2 := by
  unfold Machine.alignedOctet; split
  · show P (alignedMark b s)
    unfold alignedMark; dsimp only; split
    · exact h.align _ hs
    · split
      · exact h.align _ hs
      · exact h.loseAlignment (h.align _ hs)
  · simp only [payloadOctet, boundaryAfter]
    split
    · exact h.boundary _ (h.align _ (h.slotAction _ _ (h.align _ hs)))
    · exact h.slotAction _ _ (h.align _ hs)
theorem takeOctet (h : Kept P) (b : Byte) (hs : P s) : P (takeOctet b s) := by
  apply h.toData
  unfold trunkOctet; split
  · show P (searchOctet b s)
    unfold searchOctet
    repeat' split
    · exact h.align _ hs
    · exact hs
    · exact hs
  · show P (verifyOctet b s)
    unfold verifyOctet; split
    · unfold verifyMark; dsimp only; split
      · split
        · exact h.align _ hs
        · exact h.aligned _ _ (h.raise _ _ (h.align _ hs))
      · exact h.align _ hs
    · exact h.align _ hs
  · exact h.alignedOctet _ hs
  · exact h.alignedOctet _ hs
theorem lineFall (h : Kept P) (hs : P s) : P (takeLineFall s) := by
  unfold takeLineFall; split
  · exact hs
  · exact h.align _ hs
  · exact h.loseAlignment hs
  · exact h.loseAlignment hs

/-! ### The RESET request -/

theorem trafficReset (h : Kept P) (request : List Byte) (hs : P s) : P (trafficReset request s) := by
  have hc := h.cache request (resetBody request 0 s) (h.countEngine (fun k => { k with
    executed := k.executed + 1, refused := if Status.ok = .ok then k.refused else k.refused + 1 }) (h.clearTraffic s hs))
  unfold Machine.trafficReset queueResetResponse; dsimp only; split
  · rename_i ha
    refine h.informed (h.setEngine _ (h.enqueue _ _ _ _ _ ?_ ha hc))
    have hq : (Machine.clearTraffic s).addQueues.get 0 = [] := by simp [Machine.clearTraffic]
    have ho : (offerMessage .response (resetBody request 0 s)).circuit = 0 := rfl
    rw [ho]
    show (decide (((Machine.clearTraffic s).addQueues.get 0).length < 8)) = true
    rw [hq]; rfl
  · exact h.setEngine _ (h.offer _ hc)
theorem executeReset (h : Kept P) (full : Bool) (run : List Byte → State → State) (hr : ∀ l t, P t → P (run l t))
    (hs : P s) : P (executeReset full run s) := by
  unfold Machine.executeReset; split
  · split
    · split
      · exact h.respond _ _ _ _ hs
      · split
        · exact hr _ _ hs
        · exact hs
    · exact hs
  · exact hs

/-! ### Every command -/

/-- A property every operation keeps is kept by every command. -/
theorem exec (h : Kept P) (i : Instr) {t : State} (hs : P s) (he : exec i s = .next t) : P t := by
  cases i <;> simp only [Machine.exec] at he
  case powerOnReset => cases he; exact h.reset s _ _ hs
  case resetPin => cases he; exact h.pinReset s hs
  case rstNRise =>
    cases he; split
    · exact hs
    · exact h.reset s _ _ hs
  case octetArrival =>
    unfold execOctetArrival at he; split at he
    · exact h.perform (fun _ hu => h.takeOctet _ hu) hs he
    · cases he; exact h.toData _ hs
  case tiLpFall =>
    unfold execTiLpFall at he; split at he
    · exact h.perform (fun _ hu => h.lineFall (h.pins _ hu)) hs he
    · cases he; exact h.pins _ hs
  case tiLpRise =>
    unfold execTiLpRise at he; split at he
    · exact h.perform (fun _ hu => h.pins _ hu) hs he
    · cases he; exact h.pins _ hs
  case readyFall =>
    unfold execReadyFall at he; split at he
    · exact h.perform (fun _ hu => h.readyFall (h.pins _ hu)) hs he
    · cases he; exact h.pins _ hs
  case readyRise =>
    unfold execReadyRise at he; split at he
    · refine h.perform (fun u hu => ?_) hs he
      exact h.trib (setReadyPin true u) _ (.inl (by exact Nat.le_refl _)) (h.pins _ hu)
    · cases he; exact h.pins _ hs
  case tick => exact h.perform (fun _ hu => h.takeTick hu) hs he
  case stall =>
    unfold execStall at he; split at he
    · exact h.performOwed (fun _ hu => h.stallOwed _ hu) hs he
    · cases he; exact hs
  case ageOut =>
    unfold execAgeOut at he; split at he
    · exact h.performOwed (fun _ hu => h.ageOutOwed _ hu) hs he
    · cases he; exact hs
  case confirmWindowExpiry => exact h.performOwed (fun _ hu => h.confirmOwed hu) hs he
  case creditStall => exact h.performOwed (fun _ hu => h.creditStallOwed hu) hs he
  case ownerLost => exact h.performOwed (fun _ hu => h.ownerLostOwed hu) hs he
  case noticeTimeout => exact h.performOwed (fun _ hu => h.noticeTimeoutOwed hu) hs he
  case add => exact h.perform (fun _ hu => h.parseOctet _ hu) hs he
  case credit => exact h.perform (fun _ hu => h.parseOctet _ hu) hs he
  case frameDropped => exact h.perform (fun _ hu => h.parseOctet _ hu) hs he
  case huntOctet => exact h.perform (fun _ hu => h.parseOctet _ hu) hs he
  case goodOctet => exact h.perform (fun _ hu => h.parseOctet _ hu) hs he
  case framingError => exact h.perform (fun _ hu => h.framingError hu) hs he
  case deliveryChoice =>
    refine h.perform (fun u hu => ?_) hs he
    split
    · exact h.chooseDelivery hu
    · exact hu
  case deliveryComplete =>
    refine h.perform (fun u hu => ?_) hs he
    split
    · exact h.completeDelivery hu
    · exact hu
  case rejectStart => exact h.perform (fun _ hu => h.startReject hu) hs he
  case rejectSent => exact h.perform (fun _ hu => h.endReject hu) hs he
  case responseAdmitted =>
    cases he; split
    · apply h.occurrences; apply h.responsePart; split
      · exact hs
      · exact h.noticePart hs
    · exact hs
  case noticeAdmitted =>
    have hn := h.noticePart (h.occurrences (h.responsePart hs))
    cases he; split
    · unfold noticeStep; dsimp only; split
      · exact hn
      · exact h.occurrences hn
    · exact hs
  case requestTake => exact h.perform (fun _ hu => h.takeRequest hu) hs he
  case resetTraffic => exact h.perform (fun _ hu => h.executeReset _ _ (fun _ _ ht => h.trafficReset _ ht) hu) hs he
  case resetFull =>
    exact h.perform (fun _ hu => h.executeReset _ _ (fun _ _ ht =>
      h.setEngine _ (h.offer _ (h.cache _ _ (h.countEngine _ ht)))) hu) hs he
  case setLease => exact h.request h.setLease hs he
  case writePlan => exact h.request h.writePlan hs he
  case copyPlan => exact h.request h.copyPlan hs he
  case armSwap => exact h.request h.armSwap hs he
  case cancelSwap => exact h.request h.cancelSwap hs he
  case confirmSwap => exact h.request h.confirmSwap hs he
  case writeCircuit => exact h.request h.writeCircuit hs he
  case writePool => exact h.request h.writePool hs he
  case writeSched => exact h.request h.writeSched hs he
  case writeEventConfig => exact h.request h.writeEventConfig hs he
  case noticeAck => exact h.request h.noticeAck hs he
  case clearFaults => exact h.request h.clearFaults hs he
  case writeBinding => exact h.request h.writeBinding hs he
  case identify => exact h.request (fun _ _ hu => hu) hs he
  case readSched => exact h.request (fun _ _ hu => hu) hs he
  case readEvents => exact h.request (fun _ _ hu => hu) hs he
  case readFaults => exact h.request (fun _ _ hu => hu) hs he
  case readBindings => exact h.request (fun _ _ hu => hu) hs he
  case release => exact h.request (fun _ _ hu => h.owner .unowned hu) hs he
  case claim =>
    refine h.request (fun u l hu => ?_) hs he
    unfold claimRun claimBy
    repeat' split
    · exact h.owner _ hu
    · exact h.owner _ hu
    · exact hu
    · exact h.raise _ _ (h.owner _ hu)
    · exact hu
  case readPlan =>
    refine h.request (fun u l hu => ?_) hs he
    unfold readPlanRun; dsimp only
    repeat' split
    all_goals exact hu
  case readCircuit =>
    refine h.request (fun u l hu => ?_) hs he
    unfold readCircuitRun
    repeat' split
    all_goals exact hu
  case readPool =>
    refine h.request (fun u l hu => ?_) hs he
    unfold readPoolRun; dsimp only
    repeat' split
    all_goals exact hu
  case startCircuit =>
    refine h.request (fun u l hu => ?_) hs he
    unfold startCircuitRun
    repeat' split
    · exact hu
    · exact hu
    · exact h.startCircuit _ hu
  case stopCircuit =>
    refine h.request (fun u l hu => ?_) hs he
    unfold stopCircuitRun
    repeat' split
    · exact h.stopCircuit _ _ hu
    · exact hu
    · exact hu
  case readCounters =>
    refine h.request (fun u l hu => ?_) hs he
    have h1 := h.align { u.align with badMarks := 0, losses := 0 } hu
    have h2 := h.delivery _ { u.delivery with retries := 0, discarded := 0 } (by rfl) (by rfl) (by rfl) (.inl (by exact Nat.le_refl _)) h1
    have h3 := h.trib _ { u.trib with counters := .zero } (.inl (by exact Nat.le_refl _)) h2
    have h4 := h.engine _ { u.engine with counters := .zero } (by rfl) (.inl (by exact Nat.le_refl _)) h3
    have hz : P (clearGlobalCounters u) :=
      h.events _ { u.events with misses := 0, abandoned := 0 } (by rfl) (by rfl) (by rfl) (by rfl) (by rfl) h4
    unfold readCountersRun
    dsimp only
    repeat' split
    all_goals first | exact hu | exact hz | exact h.count _ (fun _ => .zero) hu
  case ackEvents =>
    refine h.request (fun u l hu => ?_) hs he
    unfold ackEventsRun; split
    · exact hu
    · rename_i kinds hk
      exact h.select _ (h.records kinds hu)
  case loadCanned =>
    refine h.request (fun u l hu => ?_) hs he
    unfold loadCannedRun; dsimp only; split
    · exact h.events _ _ rfl rfl rfl rfl rfl hu
    · exact hu

/-- A property every operation keeps, and that does not speak of the queue of commands, is kept by every step. -/
theorem step (h : Kept P) (hp : ∀ (u : State) (l : List Instr), P u → P (u.withPending l)) {t : State} (hs : P s)
    (he : step s = .next t) : P t := by
  unfold Machine.step at he; split at he
  · cases he; exact hs
  · exact h.exec _ (hp _ _ hs) he

end Kept

end Sys2Proof.Machine
end

