-- ==== Sys2Proof/Laws/Memory.lean ====
section
/-!
SUPPORT. Laws of the store: a write is read back, every other address keeps its octet, and every operation keeps the
canonical form; a body stored in a chain is read back from it.
-/

namespace Sys2Proof.Machine

/-! ### One octet -/

theorem Memory.read_cons (a x : Nat) (b : Byte) (m : Memory) (h : m.read a = Config.unwrittenOctet) :
    (Memory.cons a b m).read x = if x = a then b else m.read x := by
  unfold Memory.cons
  split
  · split
    · subst_vars; exact h
    · rfl
  · simp only [Memory.read]
    split
    · subst_vars; simp
    · rw [if_neg (fun e => by subst e; contradiction)]

/-- An address below every address listed reads as an unlisted one. -/
theorem Memory.read_below (a : Nat) (m : Memory) (h : ∀ cell ∈ m, a < cell.1) : m.read a = Config.unwrittenOctet := by
  induction m with
  | nil => rfl
  | cons cell rest ih =>
    have h1 := h cell (List.mem_cons_self ..)
    simp only [Memory.read]
    rw [if_neg (Nat.ne_of_gt h1)]
    exact ih fun c hc => h c (List.mem_cons_of_mem _ hc)

theorem Memory.wf_cons {k : Nat} {v : Byte} {rest : Memory} :
    Memory.wf ((k, v) :: rest) = true ↔
      v ≠ Config.unwrittenOctet ∧ (∀ cell ∈ rest, k < cell.1) ∧ Memory.wf rest = true := by
  simp [Memory.wf, and_assoc]

/-- Reading after a write, in canonical form. -/
theorem Memory.read_write (m : Memory) (h : m.wf = true) (a x : Nat) (b : Byte) :
    (m.write a b).read x = if x = a then b else m.read x := by
  induction m with
  | nil => exact Memory.read_cons a x b [] rfl
  | cons cell rest ih =>
    obtain ⟨k, v⟩ := cell
    obtain ⟨hv, hk, hr⟩ := Memory.wf_cons.mp h
    simp only [Memory.write]
    split
    · rename_i hlt
      apply Memory.read_cons
      apply Memory.read_below
      intro cell hc
      rcases List.mem_cons.mp hc with rfl | hc
      · exact hlt
      · exact Nat.lt_trans hlt (hk cell hc)
    · split
      · subst_vars
        rw [Memory.read_cons _ _ _ _ (Memory.read_below _ _ hk)]
        split
        · rfl
        · rename_i hne
          simp only [Memory.read]
          rw [if_neg (fun e => hne e.symm)]
      · rename_i hne
        simp only [Memory.read]
        rw [ih hr]
        split
        · rw [if_neg (fun e => by subst_vars; exact hne rfl)]
        · rfl

/-- The addresses listed after a write: those listed before, and the one written. -/
theorem Memory.mem_write (m : Memory) (a : Nat) (b : Byte) (cell : Host.Cell) (h : cell ∈ m.write a b) :
    cell ∈ m ∨ cell.1 = a := by
  induction m with
  | nil =>
    simp only [Memory.write, Memory.cons] at h
    split at h
    · cases h
    · right; simp_all
  | cons head rest ih =>
    obtain ⟨k, v⟩ := head
    simp only [Memory.write, Memory.cons] at h
    repeat' split at h
    all_goals simp_all
    all_goals grind

/-- A write keeps the canonical form. -/
theorem Memory.write_wf (m : Memory) (h : m.wf = true) (a : Nat) (b : Byte) : (m.write a b).wf = true := by
  induction m with
  | nil =>
    simp only [Memory.write, Memory.cons]
    split
    · rfl
    · rename_i hb
      exact Memory.wf_cons.mpr ⟨hb, by simp, rfl⟩
  | cons cell rest ih =>
    obtain ⟨k, v⟩ := cell
    obtain ⟨hv, hk, hr⟩ := Memory.wf_cons.mp h
    simp only [Memory.write]
    split
    · rename_i hlt
      simp only [Memory.cons]
      split
      · exact h
      · rename_i hb
        refine Memory.wf_cons.mpr ⟨hb, ?_, h⟩
        intro cell hc
        rcases List.mem_cons.mp hc with rfl | hc
        · exact hlt
        · exact Nat.lt_trans hlt (hk cell hc)
    · split
      · simp only [Memory.cons]
        split
        · exact hr
        · rename_i hb
          subst_vars
          exact Memory.wf_cons.mpr ⟨hb, hk, hr⟩
      · rename_i hle hne
        refine Memory.wf_cons.mpr ⟨hv, ?_, ih hr⟩
        intro cell hc
        rcases Memory.mem_write rest a b cell hc with hc | hc
        · exact hk cell hc
        · rw [hc]; omega

/-! ### Octets of a body -/

/-- Storing an octet in a chain keeps the canonical form. -/
theorem storeOctet_wf (chain : List Segment) (i : Nat) (b : Byte) (m : Memory) (h : m.wf = true) :
    (storeOctet chain i b m).wf = true := by
  unfold storeOctet
  split
  · exact m.write_wf h _ _
  · exact h

/-- Storing octets in a chain keeps the canonical form. -/
theorem storeFrom_wf (chain : List Segment) (body : List Byte) (i : Nat) (m : Memory) (h : m.wf = true) :
    (storeFrom chain i body m).wf = true := by
  induction body generalizing i m with
  | nil => exact h
  | cons b rest ih => exact ih _ _ (storeOctet_wf chain i b m h)

/-- Storing a body in a chain keeps the canonical form. -/
theorem storeBody_wf (chain : List Segment) (body : List Byte) (m : Memory) (h : m.wf = true) :
    (storeBody chain body m).wf = true := storeFrom_wf chain body 0 m h

/-- In a chain without a repeat, two places of a body have two addresses. -/
theorem bodyAddress_inj {chain : List Segment} (hn : chain.Nodup) {i j a : Nat}
    (hi : bodyAddress chain i = some a) (hj : bodyAddress chain j = some a) : i = j := by
  simp only [bodyAddress, Option.map_eq_some_iff] at hi hj
  obtain ⟨g, hg, rfl⟩ := hi
  obtain ⟨g', hg', he⟩ := hj
  simp only [Config.segmentSize] at *
  have hgg : g' = g := by
    apply Fin.ext
    omega
  subst hgg
  obtain ⟨hi1, hi2⟩ := List.getElem?_eq_some_iff.mp hg
  obtain ⟨hj1, hj2⟩ := List.getElem?_eq_some_iff.mp hg'
  have apart := List.pairwise_iff_getElem.mp hn
  have : i / 32 = j / 32 := by
    rcases Nat.lt_trichotomy (i / 32) (j / 32) with h | h | h
    · exact absurd (hi2.trans hj2.symm) (apart _ _ hi1 hj1 h)
    · exact h
    · exact absurd (hj2.trans hi2.symm) (apart _ _ hj1 hi1 h)
  omega

/-- The octet stored at a place is read back there, and every other place of the body is left. -/
theorem bodyOctet_storeOctet (chain : List Segment) (hn : chain.Nodup) (m : Memory) (h : m.wf = true) (i j : Nat)
    (b : Byte) (hi : i < chain.length * Config.segmentSize) :
    bodyOctet (storeOctet chain i b m) chain j = if j = i then b else bodyOctet m chain j := by
  have hg : i / Config.segmentSize < chain.length :=
    Nat.div_lt_of_lt_mul (by rw [Nat.mul_comm]; exact hi)
  have ha : bodyAddress chain i =
      some (chain[i / Config.segmentSize].val * Config.segmentSize + i % Config.segmentSize) := by
    simp [bodyAddress, hg]
  unfold storeOctet bodyOctet
  rw [ha]
  dsimp only
  cases hj : bodyAddress chain j with
  | none =>
    rw [if_neg]
    rintro rfl
    rw [hj] at ha
    cases ha
  | some x =>
    dsimp only
    rw [Memory.read_write m h]
    split
    · subst_vars
      rw [if_pos (bodyAddress_inj hn hj ha)]
    · rename_i hx
      rw [if_neg]
      rintro rfl
      rw [hj] at ha
      exact hx (Option.some.inj ha)

/-- Octets stored from a place on are read back, and the places before are left. -/
theorem bodyOctet_storeFrom (chain : List Segment) (hn : chain.Nodup) (body : List Byte) (m : Memory) (h : m.wf = true)
    (i j : Nat) (hl : i + body.length ≤ chain.length * Config.segmentSize) :
    bodyOctet (storeFrom chain i body m) chain j =
      if i ≤ j ∧ j < i + body.length then body.getD (j - i) 0 else bodyOctet m chain j := by
  induction body generalizing i m with
  | nil => simp [storeFrom] <;> omega
  | cons b rest ih =>
    simp only [List.length_cons] at hl
    simp only [storeFrom]
    rw [ih _ (storeOctet_wf chain i b m h) _ (by omega), bodyOctet_storeOctet chain hn m h i j b (by omega)]
    simp only [List.length_cons]
    by_cases hij : j = i
    · subst hij
      rw [if_neg (by omega), if_pos rfl, if_pos (by omega), Nat.sub_self]
      rfl
    · by_cases hin : i + 1 ≤ j ∧ j < i + 1 + rest.length
      · rw [if_pos hin, if_pos (by omega)]
        have : j - i = (j - (i + 1)) + 1 := by omega
        rw [this]
        rfl
      · rw [if_neg hin, if_neg hij, if_neg (by omega)]

end Sys2Proof.Machine
end

