-- ==== Sys2Proof/Laws/Owed.lean ====
section
/-!
SUPPORT. What occurrences make due: attempts of the circuit 0 arbiter at most (log entries 6 to 8).
-/

namespace Sys2Proof.Machine

/-- What is owed beside attempts. -/
def Owed.timed (o : Owed) : Owed := { o with attempts := 0 }

/-- A part that owes nothing beside attempts owes nothing timed. -/
@[simp] theorem Owed.timed_none : Owed.timed .none = .none := rfl

@[simp] theorem Owed.timed_attempts (o : Owed) (n : Nat) : Owed.timed { o with attempts := n } = o.timed := rfl

@[simp] theorem oweAttempt_timed (s : State) : (oweAttempt s).owed.timed = s.owed.timed := rfl

@[simp] theorem informRequesters_timed (s : State) : (informRequesters s).owed.timed = s.owed.timed := by
  unfold informRequesters
  split <;> rfl

@[simp] theorem free_timed (d : DescNo) (s : State) : (free d s).owed.timed = s.owed.timed := by
  unfold free
  split <;> simp

@[simp] theorem flush_timed (d : DescNo) (s : State) : (flush d s).owed.timed = s.owed.timed := by
  unfold flush
  split <;> simp

@[simp] theorem flushAll_timed (l : List DescNo) (s : State) : (flushAll l s).owed.timed = s.owed.timed :=
  foldl_keeps (fun t => t.owed.timed) (fun t d => flush_timed d t) l s

theorem allocate_timed {m : NewMessage} {d : DescNo} {s t : State} (h : allocate m s = .ok (d, t)) :
    t.owed.timed = s.owed.timed := by
  unfold allocate at h
  split at h
  · cases h
  · cases h
  · cases h
    simp

theorem enqueue_timed {m : NewMessage} {body : List Byte} {d : DescNo} {s t : State}
    (h : enqueue m body s = .ok (d, t)) : t.owed.timed = s.owed.timed := by
  unfold enqueue at h
  split at h
  · cases h
  · rename_i ha
    cases h
    simpa using allocate_timed ha

@[simp] theorem performSwap_timed (s : State) : (performSwap s).owed.timed = s.owed.timed := by
  unfold performSwap
  split <;> simp

@[simp] theorem boundSwap_timed (s : State) : (boundSwap s).2.owed.timed = s.owed.timed := by
  unfold boundSwap armSwapRecord
  repeat' split
  all_goals simp

@[simp] theorem boundStart_timed (c : Circuit) (s : State) : (boundStart c s).2.owed.timed = s.owed.timed := by
  unfold boundStart startCircuit
  split <;> simp

@[simp] theorem boundStop_timed (c : Circuit) (s : State) : (boundStop c s).2.owed.timed = s.owed.timed := by
  unfold boundStop stopCircuit stopEmitter stopContext
  repeat' split
  all_goals simp

@[simp] theorem boundSend_timed (i : Fin Config.cannedSlots) (c : Circuit) (s : State) :
    (boundSend i c s).2.owed.timed = s.owed.timed := by
  unfold boundSend
  repeat' split
  all_goals try simp
  rename_i h
  exact enqueue_timed h

@[simp] theorem performAction_timed (a : BindingAction) (s : State) :
    (performAction a s).2.owed.timed = s.owed.timed := by
  cases a <;> simp [performAction, flushClass]

@[simp] theorem consultBinding_timed (o : Occurrence) (s : State) :
    (consultBinding o s).2.owed.timed = s.owed.timed := by
  unfold consultBinding
  repeat' split
  all_goals simp [bindingSucceeded, bindingFailed]
  all_goals split <;> simp

@[simp] theorem selectNotice_timed (s : State) : (selectNotice s).owed.timed = s.owed.timed := by
  unfold selectNotice keepOrReplace makeOffer withdrawOffer
  repeat' split
  all_goals simp

@[simp] theorem takeOccurrence_timed (o : Occurrence) (rest : List Occurrence) (s : State) :
    (takeOccurrence o rest s).owed.timed = s.owed.timed := by
  simp [takeOccurrence]

@[simp] theorem takeInbox_timed (n : Nat) (s : State) : (takeInbox n s).owed.timed = s.owed.timed := by
  induction n generalizing s with
  | zero => rfl
  | succ n ih =>
    unfold takeInbox
    split <;> simp [ih]

/-- Taking the occurrences makes nothing due but attempts. -/
@[simp] theorem takeOccurrences_timed (s : State) : (takeOccurrences s).owed.timed = s.owed.timed := by
  simp [takeOccurrences]

theorem takeOccurrences_ages (s : State) : (takeOccurrences s).owed.ages = s.owed.ages := by
  have h : (takeOccurrences s).owed.timed.ages = s.owed.timed.ages := by rw [takeOccurrences_timed]
  exact h

end Sys2Proof.Machine
end

