-- ==== Sys2Proof/Laws/Plans.lean ====
section
/-!
SUPPORT. What writing a plan comes to, entry by entry (R27, R28), and what an octet at a position comes to (R13, R14).
-/

namespace Sys2Proof.Machine

/-- The standby bank just written. -/
theorem standbyPlan_setPlan (e : SlotEngine) (p : Plan) : (e.setPlan e.active.other p).standbyPlan = p := by
  unfold SlotEngine.standbyPlan SlotEngine.setPlan SlotEngine.plan
  cases e.active <;> rfl

/-- The entries of a plan with one written. -/
theorem planEntry_put (p : Plan) (i : Fin 1008) (e : PlanEntry) (q : Nat) :
    planEntry (p.put i e) q = if q = i.val then e else planEntry p q := by
  unfold planEntry
  have hi := i.isLt
  by_cases h : q < Config.positions
  · simp only [h, dif_pos, Table.get_put, Fin.ext_iff]
  · have : Config.positions = 1008 := rfl
    simp only [h, dif_neg, not_false_eq_true]
    rw [if_neg (by omega)]

/-- The entries of a plan with several written. -/
theorem planEntry_writeEntries (l : List PlanEntry) : ∀ (p : Plan) (first : Nat), first + l.length ≤ 1008 → ∀ q,
    planEntry (writeEntries p first l) q =
      if first ≤ q ∧ q < first + l.length then l.getD (q - first) ⟨.pass, 0⟩ else planEntry p q := by
  induction l with
  | nil => intro p first _ q; simp [writeEntries] <;> (intro h h2; omega)
  | cons e rest ih =>
    intro p first h q
    simp only [List.length_cons] at h
    have hf : first < Config.positions := by have : Config.positions = 1008 := rfl; omega
    rw [writeEntries, dif_pos hf, ih _ _ (by omega), planEntry_put]
    simp only [List.length_cons]
    by_cases h1 : first + 1 ≤ q ∧ q < first + 1 + rest.length
    · rw [if_pos h1, if_pos (by omega)]
      have : q - first = (q - (first + 1)) + 1 := by omega
      rw [this, List.getD_cons_succ]
    · rw [if_neg h1]
      by_cases h2 : q = first
      · subst h2; simp
      · rw [if_neg h2, if_neg (by omega)]

/-- A payload octet at its position. -/
theorem trunkOctet_payload {s : State} {p : Nat} {e : PlanEntry} (b : Byte) (h : PayloadNext p e s) :
    trunkOctet b s = ((slotAction e b { s with align := { s.align with slot := s.align.slot + 1 } }).1,
      boundaryAfter p (slotAction e b { s with align := { s.align with slot := s.align.slot + 1 } }).2) := by
  obtain ⟨h1, h2, h3, h4⟩ := h
  have hp : positionOf s.align.frame (s.align.slot + 1) = p := by
    have h5 : s.align.slot.toNat ≠ 63 := fun e => h2 (BitVec.eq_of_toNat_eq (by simpa using e))
    have := s.align.slot.isLt
    simp [positionOf, BitVec.toNat_add, h3]
    omega
  have : trunkOctet b s = payloadOctet b s := by
    simp at h2
    rcases h1 with h1 | h1 <;> simp [trunkOctet, h1, alignedOctet, h2]
  rw [this, payloadOctet, hp, h4]
  rfl

/-- A payload octet before the last position. -/
theorem takeOctet_payload {s : State} {p : Nat} {e : PlanEntry} (b : Byte) (h : PayloadNext p e s) (hp : p < 1007) :
    takeOctet b s = { (slotAction e b { s with align := { s.align with slot := s.align.slot + 1 } }).2 with
      toData := (slotAction e b { s with align := { s.align with slot := s.align.slot + 1 } }).1 } := by
  simp only [takeOctet, trunkOctet_payload b h, boundaryAfter]
  rw [if_neg (by omega)]
  rfl

/-- The entries of the bootstrap plan (R25). -/
theorem bootstrapPlan_get (a : BitVec 6) (p : Fin 1008) : (bootstrapPlan a).get p = bootstrapEntry a p.val := by
  have ha : a.toNat < 64 := a.isLt
  have e1 : p = Fin.ofNat 1008 (a.toNat - 1) ↔ p.val = a.toNat - 1 := by
    rw [Fin.ext_iff]; simp [Fin.ofNat]; omega
  have e2 : p = Fin.ofNat 1008 (503 + a.toNat) ↔ p.val = 503 + a.toNat := by
    rw [Fin.ext_iff]; simp [Fin.ofNat]; omega
  simp only [bootstrapPlan, Table.get_put, Table.get_fill, bootstrapEntry, e1, e2, PlanEntry.passEntry]
  by_cases h1 : p.val = a.toNat - 1 <;> by_cases h2 : p.val = 503 + a.toNat <;> simp [h1, h2] <;> omega

end Sys2Proof.Machine
end

