-- ==== Sys2Proof/Laws/Pool.lean ====
section
/-!
SUPPORT. What a grant, an admission and a free do, one lemma for each, and what a change of one descriptor does to the
chains taken together (R66, R71, R78, R80).
-/

namespace Sys2Proof.Machine

/-- What a grant is: no test failed, the head descriptor taken (R71). -/
theorem allocate_ok {m : NewMessage} {d : DescNo} {s t : State} (h : allocate m s = .ok (d, t)) :
   allocFailure s m.circuit (segmentsFor m.length) = none ∧ (∃ rest, s.pool.freeDescs = d :: rest) ∧ t = judgeReserve s.pool.freeSegs.length s.pool.segReserve (takeStorage m d s) := by
  unfold allocate at h
  split at h
  · cases h
  · cases h
  · rename_i a b; cases h; exact ⟨a, ⟨_, b⟩, rfl⟩

/-- What an admission is: a grant, the body written, the tail of the add queue (R70, R71). -/
theorem enqueue_ok {m : NewMessage} {body : List Byte} {d : DescNo} {s t : State}
  (h : enqueue m body s = .ok (d, t)) : ∃ u, allocate m s = .ok (d, u) ∧ t = setAddQueue m.circuit (u.addQueues.get m.circuit ++ [d])
      (setStore (storeBody (s.pool.freeSegs.take (segmentsFor m.length)) body u.pool.store) u) := by
  unfold enqueue at h
  split at h
  · cases h
  · rename_i ha; cases h; exact ⟨_, ha, rfl⟩

/-- An admission refused with the failure kind of its request (R71). -/
theorem enqueue_error {m body f} {s : State} (h : allocFailure s m.circuit (segmentsFor m.length) = some f) : enqueue m body s = .error f := by
  simp only [enqueue, allocate, h]

/-- An admission makes nothing due. -/
theorem enqueue_owed {m body d t} {s : State} (h : enqueue m body s = .ok (d, t)) : t.owed = s.owed := by
  unfold enqueue at h
  split at h
  · cases h
  · rename_i ha
    cases h
    simp only [setAddQueue, setStore]
    unfold allocate at ha
    split at ha
    · cases ha
    · cases ha
    · cases ha; simp

/-- What a free is (R78). -/
theorem free_cases (d : DescNo) (s : State) : (s.pool.descs.get d = none ∧ free d s = s) ∨ ∃ x, s.pool.descs.get d = some x ∧
   (free d s).circuits = s.circuits.change x.circuit (fun r => { r with held := r.held - x.chain.length }) ∧
   (free d s).pool = { s.pool with freeSegs := s.pool.freeSegs ++ x.chain, freeDescs := s.pool.freeDescs ++ [d], descs := s.pool.descs.put d none } := by
  cases h : s.pool.descs.get d with
  | none => left; simp [free, h]
  | some x => right; refine ⟨x, rfl, ?_⟩; simp [free, h]

/-- Informing the waiting requesters, in the terms of the statements. -/
theorem informRequesters_eq (s : State) : informRequesters s = informed s := by
  unfold informRequesters informed oweAttempt
  cases s.arbiter.response <;> cases s.arbiter.notice <;> rfl

/-- A free of a descriptor that is not FREE. -/
theorem free_eq_released {d x} {s : State} (hx : s.pool.descs.get d = some x) : free d s = released d x s := by
  simp only [free, hx, informRequesters_eq]
  rfl

/-- A message flushed, in the terms of the statements. -/
def flushedOf (d : DescNo) (t : State) : State := match t.pool.descs.get d with
      | some x => released d x (counted x.circuit (fun k => { k with flushed := k.flushed + 1 }) t)
      | none => t

/-- A flush of one message. -/
theorem flush_eq (d : DescNo) (t : State) : flush d t = flushedOf d t := by
  simp only [flush, flushedOf]
  cases h : t.pool.descs.get d with
  | none => rfl
  | some x => dsimp only; rw [free_eq_released (x := x)]; rfl; exact h

/-- A flush of several messages. -/
theorem flushAll_eq (l : List DescNo) (t : State) : flushAll l t = l.foldl (fun t d => flushedOf d t) t := by
  simp only [flushAll]; congr 1; funext a b; exact flush_eq b a

/-- What a flush keeps. -/
theorem flushedOf_frame (d : DescNo) (t : State) : (flushedOf d t).events = t.events ∧ (flushedOf d t).delivery = t.delivery ∧ (flushedOf d t).addQueues = t.addQueues
   ∧ (flushedOf d t).contexts = t.contexts ∧ (flushedOf d t).emitters = t.emitters := by
  rw [← flush_eq]; simp

/-- A count over a list with one place changed. -/
theorem count_flatMap_set {α β : Type} [BEq β] (l : List α) (i : Nat) (h : i < l.length) (a : α) (f : α → List β) (g : β) :
   ((l.set i a).flatMap f).count g + (f l[i]).count g = (l.flatMap f).count g + (f a).count g := by
  induction l generalizing i with
  | nil => simp at h
  | cons x l ih =>
    cases i with
    | zero => simp [List.count_append]; omega
    | succ i =>
      have := ih i (by simpa using h)
      simp [List.count_append]; omega

/-- The chain of a descriptor, empty for a FREE one. -/
def chainOf (x : Option Descriptor) : List Segment := (x.map (·.chain)).getD []

/-- The chain length a descriptor counts for a circuit (R80). -/
def chainLengthOf (c : Circuit) (x : Option Descriptor) : Nat := match x with
    | some y => if y.circuit = c then y.chain.length else 0
    | none => 0

/-- The chains taken together with one descriptor replaced. -/
theorem chained_put (t : Table (Option Descriptor) Config.descriptors) (d : DescNo) (x : Option Descriptor) (g : Segment) :
   (chained (t.put d x)).count g + (chainOf (t.get d)).count g = (chained t).count g + (chainOf x).count g :=
  count_flatMap_set t.cells d.val (by rw [t.size]; exact d.isLt) x chainOf g

/-- The chain total of a circuit with one descriptor replaced. -/
theorem chainTotal_put (t : Table (Option Descriptor) Config.descriptors) (d : DescNo) (x : Option Descriptor) (c : Circuit) :
   chainTotal c (t.put d x) + chainLengthOf c (t.get d) = chainTotal c t + chainLengthOf c x :=
  sum_map_set t.cells d.val (by rw [t.size]; exact d.isLt) x (chainLengthOf c)

/-- A segment of a chain is among the chains. -/
theorem chained_of_mem {d : DescNo} {x : Descriptor} {s : State} (hx : s.pool.descs.get d = some x) {g : Segment} (hg : g ∈ x.chain) :
    1 ≤ (chained s.pool.descs).count g := by
  rw [List.one_le_count_iff, chained, List.mem_flatMap]
  refine ⟨some x, ?_, by simpa using hg⟩
  rw [← hx]; simp [Table.get]

/-- The address of an octet of a body lies in a segment of its chain. -/
theorem bodyAddress_mem {chain : List Segment} {i a : Nat} (h : bodyAddress chain i = some a) : ∃ g ∈ chain, a / 32 = g.val := by
  unfold bodyAddress at h
  rw [Option.map_eq_some_iff] at h
  obtain ⟨g, hg, ha⟩ := h
  refine ⟨g, List.mem_of_getElem? hg, ?_⟩
  simp only [Config.segmentSize] at ha; omega

/-- Storing in a chain leaves every other segment. -/
theorem storeFrom_other (chain : List Segment) (body : List Byte) (a : Nat) (hno : ∀ g ∈ chain, a / 32 ≠ g.val) (i : Nat) (m : Memory) (hw : m.wf = true) :
   Memory.read (storeFrom chain i body m) a = m.read a := by
  induction body generalizing i m with
  | nil => rfl
  | cons b r ih =>
    simp only [storeFrom]
    rw [ih _ _ (storeOctet_wf chain i b m hw)]
    unfold storeOctet
    split
    · rename_i x hx
      rw [Memory.read_write m hw, if_neg]
      rintro rfl
      obtain ⟨g, hg, he⟩ := bodyAddress_mem hx
      exact hno g hg he
    · rfl

/-- The pool law holds of an emptied pool when every held count is 0 (R84). -/
theorem emptied_law (s : State) (m : Memory) (a b : Nat) (h0 : s.pool = .emptied m a b) (h4 : ∀ c, (s.circuits.get c).held = 0) : PoolLaw s := by
  have h1 : s.pool.freeSegs = List.finRange 1536 := by rw [h0]; simp only [Pool.emptied, Config.segments]
  have h2 : s.pool.freeDescs = List.finRange 320 := by rw [h0]; simp only [Pool.emptied, Config.descriptors]
  have h3 : s.pool.descs = .fill _ none := by rw [h0]; simp only [Pool.emptied]
  refine ⟨?_, ?_, ?_, ?_⟩
  · intro g
    rw [h1, h3]
    have hc : chained (.fill _ none) = [] := by decide +kernel
    rw [hc]
    have := List.nodup_finRange 1536
    simp [List.Nodup.count this]
  · intro d
    rw [h2, h3]
    have := List.nodup_finRange 320
    simp [List.Nodup.count this]
  · intro c
    rw [h4, h3]
    have : ∀ c, chainTotal c (.fill _ none) = 0 := by decide +kernel
    rw [this]
  · intro c; rw [h4]; exact Nat.zero_le _

end Sys2Proof.Machine
end

