-- ==== Sys2Proof/Laws/Search.lean ====
section
/-!
SUPPORT. What the search among classes 1 to 3 does, visit by visit, and what the delivery unit's small judgements say
(R90, R91, R97, R99).
-/

namespace Sys2Proof.Machine

/-- A table of four places, written out. -/
theorem Table.cells_four {α} (t : Table α 4) : t.cells = [t.get 0, t.get 1, t.get 2, t.get 3] := by
  obtain ⟨c, hc⟩ := t
  match c, hc with
  | [a, b, c, d], _ => rfl

/-- A table of three places, written out. -/
theorem Table.cells_three {α} (t : Table α 3) : t.cells = [t.get 0, t.get 1, t.get 2] := by
  obtain ⟨c, hc⟩ := t
  match c, hc with
  | [a, b, c], _ => rfl

/-- Whether a class queue holds a message. -/
theorem anyQueued_iff (s : State) : anyQueued s = true ↔ ∃ q, s.delivery.queues.get q ≠ [] := by
  simp only [anyQueued, Table.cells_four]
  constructor
  · intro h
    simp only [List.any_cons, List.any_nil, Bool.or_false, Bool.or_eq_true, Bool.not_eq_true', List.isEmpty_eq_false_iff] at h
    rcases h with h | h | h | h <;> exact ⟨_, h⟩
  · rintro ⟨q, hq⟩
    simp only [List.any_cons, List.any_nil, Bool.or_false, Bool.or_eq_true, Bool.not_eq_true', List.isEmpty_eq_false_iff]
    match q, hq with
    | 0, h => exact .inl h
    | 1, h => exact .inr (.inl h)
    | 2, h => exact .inr (.inr (.inl h))
    | 3, h => exact .inr (.inr (.inr h))

/-- Whether no head is over age. -/
theorem overAgeClasses_empty (s : State) : (overAgeClasses s).isEmpty = true ↔ ∀ q, headOverAge s q = false := by
  simp only [overAgeClasses, List.isEmpty_iff, List.filter_eq_nil_iff]
  constructor
  · intro h q
    have := h q (by match q with
      | 0 => simp
      | 1 => simp
      | 2 => simp
      | 3 => simp)
    simpa using this
  · intro h a _; simp [h a]

/-- The next class in the round. -/
theorem nextLane_eq (l : Lane) : nextLane l = l + 1 := by
  revert l; decide

/-- What the search answers is a search of R90. -/
theorem searchRound_sound {heads quanta} (n : Nat) (l : Lane) (d : Table Nat 3) (ch : Choice)
    (h : searchRound heads quanta n l d = some ch) : Search heads quanta l d ch.lane ch.deficits := by
  induction n generalizing l d with
  | zero => cases h
  | succ n ih =>
    simp only [searchRound] at h
    cases hh : heads.get l with
    | none => rw [hh] at h; exact .empty hh (by rw [← nextLane_eq]; exact ih _ _ h)
    | some k =>
      rw [hh] at h
      by_cases hk : k ≤ d.get l
      · simp only [hk, if_true, Option.some.injEq] at h
        subst h; exact .chosen hh hk
      · simp only [hk, if_false] at h
        exact .earned hh (by omega) (by rw [← nextLane_eq]; exact ih _ _ h)

/-- A search has one end. -/
theorem Search.deterministic {heads quanta} {l d l1 d1 l2 d2} (h1 : Search heads quanta l d l1 d1) (h2 : Search heads quanta l d l2 d2) :
    l2 = l1 ∧ d2 = d1 := by
  induction h1 with
  | empty hh _ ih =>
    cases h2 with
    | empty _ h => exact ih h
    | chosen h => rw [hh] at h; cases h
    | earned h => rw [hh] at h; cases h
  | chosen hh hk =>
    cases h2 with
    | empty h => rw [hh] at h; cases h
    | chosen h _ => rw [hh] at h; cases h; exact ⟨rfl, rfl⟩
    | earned h hl => rw [hh] at h; cases h; omega
  | earned hh hk _ ih =>
    cases h2 with
    | empty h => rw [hh] at h; cases h
    | chosen h hl => rw [hh] at h; cases h; omega
    | earned h _ h' => exact ih h'

/-- The visits a class still needs before its head is chosen. -/
def visitsNeeded (h : Option Nat) (d : Nat) : Nat := match h with
  | none => 0
  | some n => (n - d + 31) / 32

/-- With visits enough the search answers. -/
theorem searchRound_total {heads : Table (Option Nat) 3} {quanta} (hq : ∀ i, 32 ≤ quanta.get i)
   (i : Lane) (hi : heads.get i ≠ none) (k : Nat) (l : Lane) (d : Table Nat 3) (n : Nat)
   (hk : visitsNeeded (heads.get i) (d.get i) ≤ k) (hv : 3 * k + (i.val + 3 - l.val) % 3 < n) :
   ∃ ch, searchRound heads quanta n l d = some ch := by
  induction n generalizing l d k with
  | zero => omega
  | succ n ih =>
    simp only [searchRound]
    cases hh : heads.get l with
    | none =>
      have hne : l ≠ i := by rintro rfl; exact hi hh
      apply ih k
      · rw [Table.get_put_other _ _ _ _ (Ne.symm hne)]; exact hk
      · rw [nextLane_eq]
        have : l.val ≠ i.val := fun h => hne (Fin.ext h)
        have : (l + 1).val = (l.val + 1) % 3 := by simp [Fin.val_add]
        have := l.isLt; have := i.isLt
        omega
    | some m =>
      dsimp only
      split
      · exact ⟨_, rfl⟩
      · rename_i hlt
        by_cases he : l = i
        · subst he
          have : visitsNeeded (heads.get l) (d.get l) ≥ 1 := by rw [hh]; simp only [visitsNeeded]; omega
          have := hq l
          apply ih (k - 1)
          · simp only [Table.get_change_same, hh, visitsNeeded] at *; omega
          · rw [nextLane_eq]
            have : (l + 1).val = (l.val + 1) % 3 := by simp [Fin.val_add]
            have := l.isLt
            omega
        · apply ih k
          · rw [Table.get_change, if_neg (fun h => he h.symm)]; exact hk
          · rw [nextLane_eq]
            have : l.val ≠ i.val := fun h => he (Fin.ext h)
            have : (l + 1).val = (l.val + 1) % 3 := by simp [Fin.val_add]
            have := l.isLt; have := i.isLt
            omega

/-- A search ends at a class that holds a message. -/
theorem Search.head {heads quanta} {l d l1 d1} (h1 : Search heads quanta l d l1 d1) : ∃ n, heads.get l1 = some n := by
  induction h1 with
  | empty _ _ ih => exact ih
  | chosen hh _ => exact ⟨_, hh⟩
  | earned _ _ _ ih => exact ih

/-- A search keeps every deficit within 2295. -/
theorem Search.deficits {heads quanta} (hq : ∀ i, quanta.get i ≤ 2048) (hn : ∀ i n, heads.get i = some n → n ≤ 248)
   {l d l1 d1} (h1 : Search heads quanta l d l1 d1) : (∀ i, d.get i ≤ 2295) → ∀ i, d1.get i ≤ 2295 := by
  induction h1 with
  | empty _ _ ih => intro h; apply ih; intro i; rw [Table.get_put]; split; omega; exact h i
  | chosen hh _ => intro h i; rw [Table.get_put]; split; (have := h i; subst_vars; omega); exact h i
  | @earned l _ _ _ m hh hl _ ih =>
    intro h; apply ih; intro i; rw [Table.get_put]; split
    · have := hq l; have := hn l m hh; omega
    · exact h i

/-- A member of a list is at most the sum. -/
theorem le_sum_of_mem (l : List Nat) (n : Nat) (h : n ∈ l) : n ≤ l.sum := by
  induction l with
  | nil => cases h
  | cons a l ih => rcases List.mem_cons.1 h with rfl | h; simp; have := ih h; simp; omega

/-- The visits given are enough. -/
theorem searchRound_answers {heads : Table (Option Nat) 3} {quanta} (hq : ∀ i, 32 ≤ quanta.get i)
   (h : ∃ i, heads.get i ≠ none) (l : Lane) (d) : ∃ ch, searchRound heads quanta (searchVisits heads) l d = some ch := by
  obtain ⟨i, hi⟩ := h
  apply searchRound_total hq i hi (heads.cells.map fun h => h.getD 0).sum
  · cases hh : heads.get i with
    | none => simp [visitsNeeded]
    | some n =>
      have : n ≤ (heads.cells.map fun h => h.getD 0).sum := by
        apply le_sum_of_mem
        exact List.mem_map.2 ⟨heads.get i, by simp [Table.get], by rw [hh]; rfl⟩
      simp only [visitsNeeded]; omega
  · have := l.isLt; have := i.isLt; simp only [searchVisits]; omega

/-- A T-frame in the terms of the statements. -/
theorem tFrame_eq (type : Byte) (payload : List Byte) : tFrame type payload = frameOctets type payload := by
  simp [tFrame, frameOctets, octets2, checkOctetsOf]

/-- A delivery started, in the terms of the statements (R91). -/
theorem startDelivery_eq {q d rest x seq stamp} {s : State} (hq : s.delivery.queues.get q = d :: rest) (hx : s.pool.descs.get d = some x)
   (h1 : x.seq = some seq) (h2 : x.stamp = some stamp) : startDelivery q s = deliveryStarted q d rest x seq stamp s := by
  simp only [startDelivery, hq, hx, deliverFrame, tFrame_eq, h1, h2, Option.getD_some]
  simp [changeDesc, setDesc, setClassQueue, hx, deliveryStarted, octets2, circuitOctet]

end Sys2Proof.Machine
end

