-- ==== Sys2Proof/Laws/Settling.lean ====
section
/-!
SUPPORT. How what is owed is taken before a command: each step owed, taken by its own row, leaves the command the same
state to act on (log entries 6 and 7).
-/

namespace Sys2Proof.Machine

/-! ### What is not owed is not taken -/

theorem stallOwed_off {c : Circuit} {s : State} (h : c ∉ s.owed.stalls) : stallOwed c s = s := by
  simp [stallOwed, h]

theorem confirmOwed_off {s : State} (h : s.owed.confirm = false) : confirmOwed s = s := by
  simp [confirmOwed, h]

theorem creditStallOwed_off {s : State} (h : s.owed.creditStall = none) : creditStallOwed s = s := by
  simp [creditStallOwed, h]

theorem ownerLostOwed_off {s : State} (h : s.owed.ownerLost = false) : ownerLostOwed s = s := by
  simp [ownerLostOwed, h]

theorem noticeTimeoutOwed_off {s : State} (h : s.owed.noticeTimeout = false) : noticeTimeoutOwed s = s := by
  simp [noticeTimeoutOwed, h]

theorem responsePartOwed_off {s : State} (h : s.owed.partTwo = false) : responsePartOwed s = s := by
  simp [responsePartOwed, h]

theorem settleAges_off {s : State} (n : Nat) (h : s.owed.ages = false) : settleAges n s = s := by
  cases n <;> simp [settleAges, endAgeCheck, h]

/-! ### The age check -/

/-- What an action of a binding leaves of the class queues: all of them, or all but one that is emptied (R101). -/
theorem performAction_queues (a : BindingAction) (s : State) :
    (performAction a s).2.delivery.queues = s.delivery.queues ∨
      ∃ q, (performAction a s).2.delivery.queues = s.delivery.queues.put q [] := by
  cases a with
  | flushClass q => right; exact ⟨q, by simp [performAction, flushClass]⟩
  | circuitStop c =>
    left
    simp only [performAction, boundStop, stopCircuit]
    split <;> simp
  | _ => left; simp [performAction]

/-- A class queue emptied holds no more than before. -/
theorem queued_put_nil (t : Table (List DescNo) Config.classes) (q : Class) :
    ((t.put q []).cells.map List.length).sum ≤ (t.cells.map List.length).sum := by
  have := sum_map_set t.cells q.val (by rw [t.size]; exact q.isLt) [] List.length
  simp only [Table.put, List.length_nil] at *
  omega

theorem performAction_queued (a : BindingAction) (s : State) : queuedCount (performAction a s).2 ≤ queuedCount s := by
  rcases performAction_queues a s with h | ⟨q, h⟩
  · exact Nat.le_of_eq (by simp only [queuedCount, h])
  · simpa only [queuedCount, h] using queued_put_nil s.delivery.queues q

theorem consultBinding_queued (o : Occurrence) (s : State) : queuedCount (consultBinding o s).2 ≤ queuedCount s := by
  unfold consultBinding
  split
  · exact Nat.le_refl _
  · split
    · exact Nat.le_refl _
    · rename_i b _
      have ha := performAction_queued b.action s
      repeat' split
      · simpa [bindingSucceeded, queuedCount, apply_ite State.delivery] using ha
      · simpa [bindingFailed, queuedCount] using ha
      · exact Nat.le_refl _

theorem takeOccurrence_queued (o : Occurrence) (rest : List Occurrence) (s : State) :
    queuedCount (takeOccurrence o rest s) ≤ queuedCount s := by
  have h := consultBinding_queued o (recordOccurrence o.kind o.detail (setInbox [] s))
  simpa [takeOccurrence, queuedCount] using h

/-- What occurrences bring about puts no message in a class queue. -/
theorem takeOccurrences_queued (s : State) : queuedCount (takeOccurrences s) ≤ queuedCount s := by
  have h : ∀ n t, queuedCount (takeInbox n t) ≤ queuedCount t := by
    intro n
    induction n with
    | zero => exact fun t => Nat.le_refl _
    | succ n ih =>
      intro t
      unfold takeInbox
      split
      · exact Nat.le_refl _
      · exact Nat.le_trans (ih _) (takeOccurrence_queued _ _ t)
  exact h _ _

theorem settleAttempts_queued (n : Nat) : ∀ s : State, queuedCount (settleAttempts n s) ≤ queuedCount s := by
  induction n with
  | zero => exact fun s => Nat.le_refl _
  | succ n ih =>
    intro s
    unfold settleAttempts
    split
    · exact Nat.le_refl _
    · refine Nat.le_trans (ih _) (Nat.le_trans (takeOccurrences_queued _) ?_)
      simp [queuedCount]

/-- What follows a step puts no message in a class queue. -/
theorem stepFollowed_queued (s : State) : queuedCount (stepFollowed s) ≤ queuedCount s := by
  refine Nat.le_trans (settleAttempts_queued _ _) (Nat.le_trans ?_ (takeOccurrences_queued s))
  simp [queuedCount]

/-- A head over age stands in a queue. -/
theorem headOverAge_queue {q : Class} {s : State} (h : headOverAge s q = true) :
    ∃ d rest, s.delivery.queues.get q = d :: rest := by
  cases hq : s.delivery.queues.get q with
  | nil => simp [headOverAge, hq] at h
  | cons d rest => exact ⟨d, rest, rfl⟩

/-- A message aged out has left its queue. -/
theorem ageOutHead_queued {q : Class} {s : State} (h : headOverAge s q = true) :
    queuedCount (ageOutHead q s) + 1 = queuedCount s := by
  obtain ⟨d, rest, hq⟩ := headOverAge_queue h
  have hs := sum_map_set s.delivery.queues.cells q.val (by rw [s.delivery.queues.size]; exact q.isLt) rest List.length
  have he : (ageOutHead q s).delivery.queues = s.delivery.queues.put q rest := by
    unfold ageOutHead
    rw [hq]
    split
    · rename_i h1
      cases h1
    · rename_i h1
      cases h1
      split <;> simp [setClassQueue]
  have hl : s.delivery.queues.cells[q.val]'(by rw [s.delivery.queues.size]; exact q.isLt) = d :: rest := hq
  rw [hl] at hs
  simp only [queuedCount, he, Table.put]
  simp only [List.length_cons] at hs
  omega

theorem overAgeClasses_mem {q : Class} {s : State} : q ∈ overAgeClasses s ↔ headOverAge s q = true := by
  have : q ∈ [(0 : Class), 1, 2, 3] := by revert q; decide
  simp [overAgeClasses, List.mem_filter, this]

/-- The first over-age class is the lowest (log entry 6). -/
theorem overAgeClasses_head {q : Class} {s : State} (hq : headOverAge s q = true)
    (hp : ∀ p, p < q → headOverAge s p = false) : ∃ l, overAgeClasses s = q :: l := by
  have h : ∀ c : Class, c = 0 ∨ c = 1 ∨ c = 2 ∨ c = 3 := by decide
  rcases h q with rfl | rfl | rfl | rfl
  · exact ⟨_, by simp [overAgeClasses, hq]; rfl⟩
  · exact ⟨_, by simp [overAgeClasses, hq, hp 0 (by decide)]; rfl⟩
  · exact ⟨_, by simp [overAgeClasses, hq, hp 0 (by decide), hp 1 (by decide)]; rfl⟩
  · exact ⟨[], by simp [overAgeClasses, hq, hp 0 (by decide), hp 1 (by decide), hp 2 (by decide)]⟩

theorem ageOutFirst_eq {q : Class} {s : State} (hq : headOverAge s q = true)
    (hp : ∀ p, p < q → headOverAge s p = false) : ageOutFirst s = stepFollowed (ageOutOwed q s) := by
  obtain ⟨l, hl⟩ := overAgeClasses_head hq hp
  simp [ageOutFirst, hl]

theorem ageOutFirst_queued {s : State} (ha : s.owed.ages = true) (ho : overAgeClasses s ≠ []) :
    queuedCount (ageOutFirst s) < queuedCount s := by
  cases he : overAgeClasses s with
  | nil => exact absurd he ho
  | cons q l =>
    have hq : headOverAge s q = true := overAgeClasses_mem.mp (by simp [he])
    have h1 := stepFollowed_queued (ageOutOwed q s)
    have h2 := ageOutHead_queued hq
    simp only [ageOutFirst, he, ageOutOwed, ha, hq, Bool.and_self, if_true] at *
    omega

/-- As many messages can be aged out as are queued: bounds that are not reached do not matter. -/
theorem settleAges_enough (n : Nat) : ∀ (m : Nat) (s : State), queuedCount s ≤ n → queuedCount s ≤ m →
    settleAges n s = settleAges m s := by
  have ended : ∀ (k : Nat) (s : State), (s.owed.ages && !(overAgeClasses s).isEmpty) = false →
      settleAges k s = endAgeCheck s := by
    intro k s h
    cases k <;> simp [settleAges, h]
  induction n with
  | zero =>
    intro m s h _
    by_cases hc : (s.owed.ages && !(overAgeClasses s).isEmpty) = true
    · simp only [Bool.and_eq_true, Bool.not_eq_true', List.isEmpty_eq_false_iff] at hc
      have := ageOutFirst_queued hc.1 hc.2
      omega
    · simp only [Bool.not_eq_true] at hc
      rw [ended _ s hc, ended _ s hc]
  | succ n ih =>
    intro m s hn hm
    by_cases hc : (s.owed.ages && !(overAgeClasses s).isEmpty) = true
    · have hc' := hc
      simp only [Bool.and_eq_true, Bool.not_eq_true', List.isEmpty_eq_false_iff] at hc'
      have := ageOutFirst_queued hc'.1 hc'.2
      cases m with
      | zero => omega
      | succ m =>
        unfold settleAges
        rw [if_pos hc, if_pos hc]
        exact ih m _ (by omega) (by omega)
    · simp only [Bool.not_eq_true] at hc
      rw [ended _ s hc, ended _ s hc]

/-- The age check taken to its end. -/
def agesSettled (s : State) : State := settleAges (queuedCount s) s

/-- Where no head is over age, or no age check is under way, settling the check is ending it. -/
theorem agesSettled_ended {s : State} (h : (s.owed.ages && !(overAgeClasses s).isEmpty) = false) :
    agesSettled s = endAgeCheck s := by
  unfold agesSettled
  cases queuedCount s <;> simp [settleAges, h]

theorem agesSettled_off {s : State} (h : s.owed.ages = false) : agesSettled s = s := settleAges_off _ h

/-- The age check ends when no head is over age. -/
theorem endAgeCheck_over {s : State} (h : (s.owed.ages && (overAgeClasses s).isEmpty) = true) :
    (endAgeCheck s).owed.ages = false := by
  unfold endAgeCheck creditStallCheck
  rw [if_pos h]
  dsimp only
  repeat' split
  all_goals rfl

@[simp] theorem endAgeCheck_attempts (s : State) : (endAgeCheck s).owed.attempts = s.owed.attempts := by
  unfold endAgeCheck creditStallCheck
  dsimp only
  repeat' split
  all_goals rfl

/-- Ending the age check makes nothing due but a report of stalled credits. -/
@[simp] theorem endAgeCheck_owed (s : State) :
    (endAgeCheck s).owed.stalls = s.owed.stalls ∧ (endAgeCheck s).owed.confirm = s.owed.confirm ∧
    (endAgeCheck s).owed.ownerLost = s.owed.ownerLost ∧
    (endAgeCheck s).owed.noticeTimeout = s.owed.noticeTimeout ∧ (endAgeCheck s).owed.partTwo = s.owed.partTwo := by
  unfold endAgeCheck creditStallCheck
  dsimp only
  repeat' split
  all_goals exact ⟨rfl, rfl, rfl, rfl, rfl⟩

/-- The head of the lowest over-age class is aged out first; with none over age the check ends (log entry 6). -/
theorem agesSettled_row {q : Class} {s : State} (hp : ∀ p, p < q → headOverAge s p = false)
    (hq : headOverAge s q = true ∨ ∀ p, headOverAge s p = false) (hi : s.events.inbox = [])
    (hn : s.owed.attempts = 0) : agesSettled s = agesSettled (stepFollowed (ageOutOwed q s)) := by
  by_cases hc : (s.owed.ages && !(overAgeClasses s).isEmpty) = true
  · have hc' := hc
    simp only [Bool.and_eq_true, Bool.not_eq_true', List.isEmpty_eq_false_iff] at hc'
    have hq' : headOverAge s q = true := by
      rcases hq with h | h
      · exact h
      · exact absurd (by simp [overAgeClasses, h]) hc'.2
    have hlt := ageOutFirst_queued hc'.1 hc'.2
    rw [← ageOutFirst_eq hq' hp]
    obtain ⟨k, hk⟩ : ∃ k, queuedCount s = k + 1 := ⟨queuedCount s - 1, by omega⟩
    have : agesSettled s = settleAges k (ageOutFirst s) := by
      rw [agesSettled, hk, settleAges, if_pos hc]
    rw [this]
    exact settleAges_enough _ _ _ (by omega) (Nat.le_refl _)
  · simp only [Bool.not_eq_true] at hc
    have hs : ageOutOwed q s = s := by
      unfold ageOutOwed
      split
      · rename_i h
        simp only [Bool.and_eq_true] at h
        have ho : overAgeClasses s ≠ [] := by
          have := overAgeClasses_mem.mpr h.2
          intro he
          rw [he] at this
          cases this
        simp [h.1, ho] at hc
      · rfl
    have he : stepFollowed s = endAgeCheck s := by
      rw [stepFollowed, takeOccurrences_empty hi, attemptsTaken_off (by simpa using hn)]
    rw [hs, he, agesSettled_ended hc]
    by_cases h : (s.owed.ages && (overAgeClasses s).isEmpty) = true
    · rw [agesSettled_off (endAgeCheck_over h)]
    · have hn' : endAgeCheck s = s := by simp only [endAgeCheck, h, if_false, Bool.false_eq_true]
      rw [hn', agesSettled_ended hc, hn']

/-! ### What each step leaves owed beside attempts -/

@[simp] theorem Owed.timed_stalls (o : Owed) : o.timed.stalls = o.stalls := rfl
@[simp] theorem Owed.timed_confirm (o : Owed) : o.timed.confirm = o.confirm := rfl
@[simp] theorem Owed.timed_ages (o : Owed) : o.timed.ages = o.ages := rfl
@[simp] theorem Owed.timed_creditStall (o : Owed) : o.timed.creditStall = o.creditStall := rfl
@[simp] theorem Owed.timed_ownerLost (o : Owed) : o.timed.ownerLost = o.ownerLost := rfl
@[simp] theorem Owed.timed_noticeTimeout (o : Owed) : o.timed.noticeTimeout = o.noticeTimeout := rfl
@[simp] theorem Owed.timed_partTwo (o : Owed) : o.timed.partTwo = o.partTwo := rfl

@[simp] theorem reportFault_timed (c : Circuit) (f : FaultCause) (s : State) :
    (reportFault c f s).owed.timed = s.owed.timed := by
  simp

@[simp] theorem stallContext_timed (c : Circuit) (s : State) : (stallContext c s).owed.timed = s.owed.timed := by
  unfold stallContext
  dsimp only
  repeat' split
  all_goals simp

theorem stallOwed_timed (c : Circuit) (s : State) :
    (stallOwed c s).owed.timed = { s.owed.timed with stalls := s.owed.stalls.erase c } := by
  unfold stallOwed
  split
  · dsimp only
    split
    · rw [stallContext_timed]
      rfl
    · rfl
  · rename_i h
    rw [List.erase_of_not_mem (by simpa using h)]
    rfl

theorem confirmOwed_timed (s : State) : (confirmOwed s).owed.timed = { s.owed.timed with confirm := false } := by
  unfold confirmOwed
  split
  · dsimp only
    split
    · simp only [confirmWindowEnd_frame]
      rfl
    · rfl
  · rename_i h
    simp only [Bool.not_eq_true] at h
    show s.owed.timed = _
    rw [← h]
    rfl

theorem ageOutOwed_timed (q : Class) (s : State) : (ageOutOwed q s).owed.timed = s.owed.timed := by
  unfold ageOutOwed ageOutHead
  repeat' split
  all_goals simp

theorem creditStallOwed_timed (s : State) :
    (creditStallOwed s).owed.timed = { s.owed.timed with creditStall := none } := by
  unfold creditStallOwed
  split
  · rename_i h
    rw [← h]
    rfl
  · rfl

theorem ownerLostOwed_timed (s : State) : (ownerLostOwed s).owed.timed = { s.owed.timed with ownerLost := false } := by
  unfold ownerLostOwed
  split
  · unfold leaseEnd
    repeat' split
    all_goals rfl
  · rename_i h
    simp only [Bool.not_eq_true] at h
    rw [← h]
    rfl

@[simp] theorem makeOffer_timed (o : NoticeOffer) (s : State) : (makeOffer o s).owed.timed = s.owed.timed := rfl

theorem noticeTimeoutOwed_timed (s : State) :
    (noticeTimeoutOwed s).owed.timed = { s.owed.timed with noticeTimeout := false } := by
  unfold noticeTimeoutOwed
  split
  · dsimp only
    split
    · unfold noticeExpired
      repeat' split
      all_goals first | rfl | (rw [selectNotice_timed]; rfl)
    · rfl
  · rename_i h
    simp only [Bool.not_eq_true] at h
    rw [← h]
    rfl

theorem responseQueued_owed (d : DescNo) (s : State) : (responseQueued d s).owed = s.owed := by
  unfold responseQueued
  split <;> rfl

theorem raiseRefusal_owed (f : AllocFailure) (c : Circuit) (n : Nat) (s : State) :
    (raiseRefusal f c n s).owed = s.owed := by
  simp

theorem tryResponse_timed (s : State) : (tryResponse s).owed.timed = s.owed.timed := by
  unfold tryResponse
  split
  · rfl
  · split
    · rfl
    · split
      · rename_i h
        rw [responseQueued_owed]
        exact (enqueue_timed h :)
      · split
        · rfl
        · exact congrArg Owed.timed (raiseRefusal_owed ..)

theorem responsePartOwed_timed (s : State) :
    (responsePartOwed s).owed.timed = { s.owed.timed with partTwo := false } := by
  unfold responsePartOwed
  split
  · exact tryResponse_timed _
  · rename_i h
    simp only [Bool.not_eq_true] at h
    rw [← h]
    rfl

theorem tryNotice_timed (s : State) : (tryNotice s).owed.timed = s.owed.timed := by
  unfold tryNotice
  split
  · rfl
  · split
    · rfl
    · split
      · rename_i h
        exact (selectNotice_timed _).trans (enqueue_timed h :)
      · split
        · rfl
        · exact congrArg Owed.timed (raiseRefusal_owed ..)

/-- Part 1 makes part 2 due at most. -/
theorem noticePartOwed_timed (s : State) :
    { (noticePartOwed s).owed.timed with partTwo := false } = { s.owed.timed with partTwo := false } := by
  unfold noticePartOwed
  split
  · rfl
  · unfold beginAttempt
    rw [tryNotice_timed]
    rfl

theorem attemptTaken_timed (s : State) : (attemptTaken s).owed.timed = { s.owed.timed with partTwo := false } := by
  rw [attemptTaken, takeOccurrences_timed, responsePartOwed_timed, noticePartOwed_timed]

/-- Attempts leave nothing due but attempts. -/
theorem attemptsTaken_timed {s : State} (h : s.owed.partTwo = false) :
    (attemptsTaken s).owed.timed = s.owed.timed := by
  have one : ∀ t : State, t.owed.partTwo = false → { t.owed.timed with partTwo := false } = t.owed.timed := by
    intro t ht
    rw [← ht]
    rfl
  have all : ∀ n (t : State), t.owed.partTwo = false → (settleAttempts n t).owed.timed = t.owed.timed := by
    intro n
    induction n with
    | zero => exact fun _ _ => rfl
    | succ n ih =>
      intro t ht
      unfold settleAttempts
      split
      · rfl
      · have hp : (attemptTaken t).owed.timed.partTwo = false := by rw [attemptTaken_timed]
        rw [ih _ hp, attemptTaken_timed, one t ht]
  exact all _ s h

@[simp] theorem attemptTaken_inbox (s : State) : (attemptTaken s).events.inbox = [] := by simp [attemptTaken]

theorem attemptsTaken_inbox {s : State} (h : s.events.inbox = []) : (attemptsTaken s).events.inbox = [] := by
  have all : ∀ n (t : State), t.events.inbox = [] → (settleAttempts n t).events.inbox = [] := by
    intro n
    induction n with
    | zero => exact fun _ ht => ht
    | succ n ih =>
      intro t ht
      unfold settleAttempts
      split
      · exact ht
      · exact ih _ (attemptTaken_inbox t)
  exact all _ s h

/-- Attempts in a row, the last leaving none owed, are all that is taken, if the bound allows them (log entry 7). -/
theorem attemptsTaken_run (n : Nat) (run : Nat → State) (hn : n ≤ (run 0).owed.attempts + attemptBound)
    (h : ∀ m, m < n → (run m).owed.attempts ≠ 0 ∧ attemptTaken (run m) = run (m + 1))
    (hz : (run n).owed.attempts = 0) : attemptsTaken (run 0) = run n := by
  have all : ∀ (k n : Nat) (run : Nat → State), n ≤ k →
      (∀ m, m < n → (run m).owed.attempts ≠ 0 ∧ attemptTaken (run m) = run (m + 1)) →
      (run n).owed.attempts = 0 → settleAttempts k (run 0) = run n := by
    intro k
    induction k with
    | zero =>
      intro n run hn _ _
      have : n = 0 := by omega
      subst this
      rfl
    | succ k ih =>
      intro n run hn h hz
      cases n with
      | zero => exact settleAttempts_off _ hz
      | succ n =>
        obtain ⟨h1, h2⟩ := h 0 (by omega)
        rw [settleAttempts, if_neg h1, h2]
        exact ih n (fun m => run (m + 1)) (by omega) (fun m hm => h (m + 1) (by omega)) hz
  exact all _ n run hn h hz

/-- What follows a step makes nothing due but attempts and, at the end of an age check, a report of stalled credits. -/
theorem stepFollowed_timed {s : State} (h : s.owed.partTwo = false) :
    (stepFollowed s).owed.timed = (endAgeCheck (takeOccurrences s)).owed.timed := by
  have hp : (takeOccurrences s).owed.timed.partTwo = false := by rw [takeOccurrences_timed]; exact h
  exact attemptsTaken_timed (by rw [(endAgeCheck_owed _).2.2.2.2]; exact hp)

theorem stepFollowed_inbox {s : State} : (stepFollowed s).events.inbox = [] :=
  attemptsTaken_inbox (by simp)

/-- A step that follows no age check makes nothing due but attempts. -/
theorem stepFollowed_idle {s : State} (h : s.owed.partTwo = false) (ha : s.owed.ages = false) :
    (stepFollowed s).owed.timed = s.owed.timed := by
  rw [stepFollowed_timed h, endAgeCheck_none (by rw [takeOccurrences_ages]; exact ha), takeOccurrences_timed]

/-! ### What a command finds -/

/-- The steps of a tick after the report of stalled credits (log entry 6). -/
def tickAfterCredit (s : State) : State :=
  let owned := takeIfDue s.owed.ownerLost ownerLostOwed s
  takeIfDue owned.owed.noticeTimeout noticeTimeoutOwed owned

/-- The steps of a tick after the age check (log entry 6). -/
def tickAfterAges (s : State) : State := tickAfterCredit (takeIfDue s.owed.creditStall.isSome creditStallOwed s)

/-- The steps of a tick from the confirm window on (log entry 6). -/
def tickAfterStalls (s : State) : State := tickAfterAges (agesSettled (takeIfDue s.owed.confirm confirmOwed s))

theorem settleTick_eq (s : State) : settleTick s = tickAfterStalls (settleStalls s.owed.stalls s) := rfl

theorem takeIfDue_off (f : State → State) {b : Bool} (s : State) (h : b = false) : takeIfDue b f s = s := by
  simp [takeIfDue, h]

theorem takeIfDue_on (f : State → State) {b : Bool} (s : State) (h : b = true) :
    takeIfDue b f s = stepFollowed (f s) := by
  simp [takeIfDue, h]

theorem settleTick_noStall {s : State} (h : s.owed.stalls = []) : settleTick s = tickAfterStalls s := by
  rw [settleTick_eq, h, settleStalls, List.foldl_nil]

theorem settleTick_noConfirm {s : State} (h : s.owed.stalls = []) (hc : s.owed.confirm = false) :
    settleTick s = tickAfterAges (agesSettled s) := by
  rw [settleTick_noStall h, tickAfterStalls, takeIfDue_off _ _ hc]

theorem settleTick_noAges {s : State} (h : s.owed.stalls = []) (hc : s.owed.confirm = false)
    (ha : s.owed.ages = false) : settleTick s = tickAfterAges s := by
  rw [settleTick_noConfirm h hc, agesSettled_off ha]

/-- With nothing but OWNER_LOST and NOTICE_TIMEOUT owed of a tick, those are taken. -/
theorem settleTick_noCredit {s : State} (h : s.owed.stalls = []) (hc : s.owed.confirm = false)
    (ha : s.owed.ages = false) (hn : s.owed.creditStall = none) : settleTick s = tickAfterCredit s := by
  rw [settleTick_noAges h hc ha, tickAfterAges, takeIfDue_off _ s (by rw [hn]; rfl)]

/-- With nothing but NOTICE_TIMEOUT owed of a tick, it is taken. -/
theorem tickAfterCredit_noOwner {s : State} (h : s.owed.ownerLost = false) :
    tickAfterCredit s = takeIfDue s.owed.noticeTimeout noticeTimeoutOwed s := by
  rw [tickAfterCredit, takeIfDue_off _ s h]

/-- With nothing timed owed no step of a tick is taken. -/
theorem settleTick_none {s : State} (ho : s.owed.timed = .none) : settleTick s = s := by
  rw [settleTick_noCredit (congrArg Owed.stalls ho) (congrArg Owed.confirm ho) (congrArg Owed.ages ho)
    (congrArg Owed.creditStall ho), tickAfterCredit_noOwner (congrArg Owed.ownerLost ho)]
  exact takeIfDue_off _ s (congrArg Owed.noticeTimeout ho)

/-- With no occurrence waiting the state a command finds is every step owed taken. -/
theorem settle_eq {s : State} (hi : s.events.inbox = []) : settle s = settleOwed s := by
  unfold settle
  split
  · rename_i ho
    rw [settleOwed, attemptsFirst_off (by rw [ho]; rfl) (by rw [ho]; rfl) hi, settleTick_none (by rw [ho]; rfl)]
  · rfl

/-- With no attempt owed or under way and no occurrence waiting, the steps of a tick are all that is taken. -/
theorem settle_tick {s : State} (ha : s.owed.attempts = 0) (hp : s.owed.partTwo = false) (hi : s.events.inbox = []) :
    settle s = settleTick s := by
  rw [settle_eq hi, settleOwed, attemptsFirst_off ha hp hi]

/-- A step that has fallen due, taken by its row, leaves what follows it to be taken before the next command. -/
theorem settle_row {f : State → State} {s : State} (hp : (f s).owed.partTwo = false) :
    settle (endAgeCheck (takeOccurrences (f s))) = settleTick (stepFollowed (f s)) := by
  have hi : (endAgeCheck (takeOccurrences (f s))).events.inbox = [] := by simp
  have h : (takeOccurrences (f s)).owed.timed.partTwo = false := by rw [takeOccurrences_timed]; exact hp
  have hq : (endAgeCheck (takeOccurrences (f s))).owed.partTwo = false := by
    rw [(endAgeCheck_owed _).2.2.2.2]; exact h
  rw [settle_eq hi, settleOwed, attemptsFirst, responsePartOwed_off hq, takeOccurrences_empty hi]
  rfl

/-- A command acts alike on two running states that settle to the same state. -/
theorem exec_settled {i : Instr} {s t : State} (hi : actsFirst i = false) (hs : s.pins.rstN = true)
    (ht : t.pins.rstN = true) (h : settle s = settle t) : exec i s = exec i t := by
  have hp : ∀ f, perform f s = perform f t := fun f => by simp [perform, hs, ht, h]
  cases i <;> simp only [actsFirst, Bool.true_eq_false] at hi <;>
    simp only [exec, execOctetArrival, execTiLpFall, execTiLpRise, execReadyFall, execReadyRise, hs, ht, if_true] <;>
    exact hp _

/-- A command that takes the attempts owed first acts alike on two running states that come to the same state so. -/
theorem exec_attemptsFirst {i : Instr} {s t : State} (hi : attemptsComeFirst i = true) (hs : s.pins.rstN = true)
    (ht : t.pins.rstN = true) (h : settle s = settle t) (hf : attemptsFirst s = attemptsFirst t) :
    exec i s = exec i t := by
  by_cases ha : actsFirst i = false
  · exact exec_settled ha hs ht h
  · have ho : ∀ f, performOwed f s = performOwed f t := fun f => by simp [performOwed, hs, ht, hf]
    cases i <;> simp only [actsFirst, not_true_eq_false] at ha
    case stall c =>
      have hc : c < Config.circuits := of_decide_eq_true hi
      simp only [exec, execStall, hc, dif_pos, ho]
    case ageOut q =>
      have hq : q < Config.classes := of_decide_eq_true hi
      simp only [exec, execAgeOut, hq, dif_pos, ho]
    case confirmWindowExpiry => exact ho _
    case creditStall => exact ho _
    case ownerLost => exact ho _
    case noticeTimeout => exact ho _
    all_goals cases hi

end Sys2Proof.Machine
end

