-- ==== Sys2Proof/Laws/Ticks.lean ====
section
/-!
SUPPORT. What each part of a tick may change, and what it makes due (R18).
-/

namespace Sys2Proof.Machine

/-- Over age is told by the queues, the descriptors and the tick counter. -/
theorem headOverAge_congr {s t : State} (h1 : t.delivery = s.delivery)
  (h3 : t.pool = s.pool) (h4 : t.tickCounter = s.tickCounter) (q) : headOverAge t q = headOverAge s q := by
  simp [headOverAge, h1, h3, h4]

/-- The credit-stall check at its own block (R99). -/
theorem creditStallCheck_shape (s : State) : ∃ dl cs,
    creditStallCheck s = { s with delivery := dl, owed := { s.owed with creditStall := cs } } ∧
    (∀ t : State, t.delivery = s.delivery → t.owed.creditStall = s.owed.creditStall →
      (creditStallCheck t).delivery = dl ∧ (creditStallCheck t).owed.creditStall = cs) := by
  refine ⟨(creditStallCheck s).delivery, (creditStallCheck s).owed.creditStall, ?_, ?_⟩
  · unfold creditStallCheck
    dsimp only
    repeat' split
    all_goals rfl
  · intro t h1 h2
    have h3 : anyQueued t = anyQueued s := by simp only [anyQueued, h1]
    have h4 : queuedCount t = queuedCount s := by simp only [queuedCount, h1]
    unfold creditStallCheck
    simp only [h1, h3, h4]
    repeat' split
    all_goals simp [h2]

/-- The tick at the slot engine (R33). -/
theorem tickConfirm_shape (s : State) : ∃ sl cf, tickConfirm s = { s with slot := sl, owed := { s.owed with confirm := cf } } ∧
   (∀ n, s.slot.swap = .confirmWait → s.slot.countdown = some (n+1) → sl = { s.slot with countdown := some n } ∧ cf = if n = 0 then true else s.owed.confirm) ∧
   (s.slot.swap ≠ .confirmWait ∨ s.slot.countdown = none → sl = s.slot ∧ cf = s.owed.confirm) := by
  unfold tickConfirm
  split
  · rename_i n h1 h2
    refine ⟨{ s.slot with countdown := some n }, if n = 0 then true else s.owed.confirm, ?_, ?_, ?_⟩
    · split <;> simp [*]
    · intro m h3 h4; rw [h2] at h4; simp at h4; subst h4; simp
    · intro h; rcases h with h | h
      · exact absurd h1 h
      · rw [h2] at h; cases h
  · rename_i hno
    refine ⟨s.slot, s.owed.confirm, rfl, ?_, fun _ => ⟨rfl, rfl⟩⟩
    intro n h1 h2; exact absurd h2 (hno n h1)

/-- The tick at the delivery unit (R97, R99). -/
theorem tickDelivery_shape (s : State) : ∃ dl ag cs, tickDelivery s = { s with delivery := dl, owed := { s.owed with ages := ag, creditStall := cs } } ∧
   ((∃ q, headOverAge s q = true) → dl = s.delivery ∧ ag = true ∧ cs = s.owed.creditStall) ∧
   ((∀ q, headOverAge s q = false) → ag = s.owed.ages ∧ ∀ t : State, t.delivery = s.delivery → t.owed.creditStall = s.owed.creditStall → 
     dl = (creditStallCheck t).delivery ∧ cs = (creditStallCheck t).owed.creditStall) := by
  unfold tickDelivery
  split
  · rename_i h
    rw [overAgeClasses_empty] at h
    obtain ⟨dl, cs, h1, h2⟩ := creditStallCheck_shape s
    refine ⟨dl, s.owed.ages, cs, h1, ?_, ?_⟩
    · rintro ⟨q, hq⟩; rw [h q] at hq; cases hq
    · intro _; exact ⟨rfl, fun t ht hu => ⟨(h2 t ht hu).1.symm, (h2 t ht hu).2.symm⟩⟩
  · rename_i h
    rw [overAgeClasses_empty] at h
    refine ⟨s.delivery, true, s.owed.creditStall, rfl, fun _ => ⟨rfl, rfl, rfl⟩, fun h' => absurd h' h⟩

/-- The tick at the ownership record (R151). -/
theorem tickLease_shape (s : State) : ∃ en ol, tickLease s = { s with engine := en, owed := { s.owed with ownerLost := ol } } ∧
   (∀ id epoch n, s.engine.owner = .owned id epoch (some (n + 1)) →
      en = { s.engine with owner := .owned id epoch (some n) } ∧ ol = if n = 0 then true else s.owed.ownerLost) ∧
   (s.engine.owner = .unowned ∨ (∃ id epoch, s.engine.owner = .owned id epoch none) → en = s.engine ∧ ol = s.owed.ownerLost) := by
  unfold tickLease
  split
  · rename_i id ep n h
    refine ⟨{ s.engine with owner := .owned id ep (some n) }, if n = 0 then true else s.owed.ownerLost, ?_, ?_, ?_⟩
    · split <;> simp [*, setOwner]
    · intro a b c h'; rw [h] at h'; cases h'; exact ⟨rfl, rfl⟩
    · rintro (h' | ⟨a, b, h'⟩) <;> rw [h] at h' <;> cases h'
  all_goals
    refine ⟨s.engine, s.owed.ownerLost, rfl, ?_, fun _ => ⟨rfl, rfl⟩⟩
    intro a b c h'; simp_all

/-- The tick at the notice stack (R189). -/
theorem tickNotice_shape (s : State) : ∃ ev nt, tickNotice s = { s with events := ev, owed := { s.owed with noticeTimeout := nt } } ∧
   ev.inbox = s.events.inbox ∧
   (∀ top below, s.events.stack = top :: below → resendHeld s = false → 1 ≤ top.timer →
      ev = { s.events with stack := { top with timer := top.timer - 1 } :: below } ∧
      nt = if top.timer = 1 then true else s.owed.noticeTimeout) ∧
    (s.events.stack = [] ∨ resendHeld s = true → ev = s.events ∧ nt = s.owed.noticeTimeout) := by
  unfold tickNotice
  split
  · rename_i h
    refine ⟨s.events, s.owed.noticeTimeout, rfl, rfl, ?_, fun _ => ⟨rfl, rfl⟩⟩
    intro t b h'; rw [h] at h'; cases h'
  · rename_i t b h
    split
    · rename_i hc
      refine ⟨s.events, s.owed.noticeTimeout, rfl, rfl, ?_, fun _ => ⟨rfl, rfl⟩⟩
      intro t' b' h' hr hz; rw [h] at h'; cases h'
      simp [hr] at hc; omega
    · rename_i hc
      simp at hc
      refine ⟨{ s.events with stack := { t with timer := t.timer - 1 } :: b }, if t.timer = 1 then true else s.owed.noticeTimeout, ?_, rfl, ?_, ?_⟩
      · split <;> simp [*, setEvents]
      · intro t' b' h' hr hz; rw [h] at h'; cases h'; exact ⟨rfl, rfl⟩
      · rintro (h' | h'); rw [h] at h'; cases h'
        rw [h'] at hc; simp at hc

end Sys2Proof.Machine
end

