-- ==== Sys2Proof/WellFormed.lean ====
section
/-!
DEFINITION. Which commands are well formed: a step that names a circuit or a class names one the part has.
-/

namespace Sys2Proof

/-- STALL names a circuit 0–95 (R42) and AGE_OUT a class 0–3 (R85); every other operand is of its full width. -/
def Instr.wellFormed : Instr → Bool
  | .stall c => c < Config.circuits
  | .ageOut q => q < Config.classes
  | .powerOnReset _ _ _ | .resetPin | .rstNRise _ | .octetArrival _ | .tiLpFall | .tiLpRise | .tick => true
  | .confirmWindowExpiry | .creditStall | .ownerLost | .noticeTimeout | .readyFall | .readyRise => true
  | .add _ | .credit _ | .frameDropped _ | .framingError | .huntOctet _ | .goodOctet _ => true
  | .deliveryChoice | .deliveryComplete | .rejectStart | .rejectSent | .responseAdmitted | .noticeAdmitted => true
  | .requestTake | .identify | .claim | .release | .setLease => true
  | .readPlan | .writePlan | .copyPlan | .armSwap | .cancelSwap | .confirmSwap => true
  | .readCircuit | .writeCircuit | .startCircuit | .stopCircuit | .readCounters => true
  | .readPool | .writePool | .readSched | .writeSched => true
  | .readEvents | .writeEventConfig | .ackEvents | .noticeAck | .readFaults | .clearFaults => true
  | .writeBinding | .readBindings | .loadCanned | .resetTraffic | .resetFull => true

end Sys2Proof
end

