-- ==== Sys2Proof/Tests/Slice0.lean ====
section
/-!
SUPPORT. The model's own tests: well-formedness, a few steps on small states, and for each obligation with hypotheses
states and operands that meet them, clause by clause, at the ends of their ranges.
-/

namespace Sys2Proof.Tests
open Sys2Proof.Machine

-- One theorem at a time: evaluations side by side take more memory than they save time.
set_option Elab.async false

/-! ### Well-formedness -/

theorem test_stall_of_no_circuit_is_refused :
    (Instr.stall 96).wellFormed = false ∧ (Instr.stall 95).wellFormed = true := by decide

theorem test_age_out_of_no_class_is_refused :
    (Instr.ageOut 4).wellFormed = false ∧ (Instr.ageOut 3).wellFormed = true := by decide

/-! ### Helper states -/

/-- A request of controller 1 with tag 7 to node 1. -/
def request (kind : Byte) (params : List Byte) : List Byte := [0x01, 0x10, 0x07, kind] ++ params

/-- `s` with a request in hand. -/
def asking (kind : Byte) (params : List Byte) (s : State) : State :=
  { s with engine := { s.engine with state := .executing, inHand := some (request kind params) } }

/-- The part after reset with TI_LP high, in a state of alignment and at a place of the frame. -/
def alignedAt (state : AlignState) (frame : BitVec 4) (slot : BitVec 6) (bad : Nat) : State :=
  { State.reset with
    pins := { State.reset.pins with tiLp := true }
    align := { Align.reset with state := state, frame := frame, slot := slot, badCount := bad }
    slot := { State.reset.slot with aligned := decide (state = .locked ∨ state = .holdover) } }

/-- `s` in a swap state. -/
def swapping (swap : SwapState) (armed : Option ArmedSwap) (countdown : Option Nat) (s : State) : State :=
  { s with slot := { s.slot with swap := swap, armed := armed, countdown := countdown } }

/-- `s` with one entry of bank A replaced. -/
def planned (p : Fin 1008) (e : PlanEntry) (s : State) : State :=
  { s with slot := { s.slot with bankA := s.slot.bankA.put p e } }

/-- `s` with no entry that drops circuit 0 in bank B. -/
def lacking (s : State) : State := { s with slot := { s.slot with bankB := s.slot.bankB.put 0 ⟨.pass, 0⟩ } }

/-- A one-octet message of circuit 5, class 1. -/
def message : Descriptor := ⟨.queued, 5, 1, false, some 15, 1, [9], some 0xFFFF, .trunk⟩

/-- The part after reset with few free segments and descriptors, and `message` under descriptor 7. -/
def storing (segs : List Segment) (descs : List DescNo) : State :=
  { State.reset with
    circuits := State.reset.circuits.change 5 fun r => { r with active := true, addEnable := true, eligible := true, held := 1 }
    pool := { State.reset.pool with
      freeSegs := segs, freeDescs := descs, descs := (Table.fill 320 none).put 7 (some message) } }

/-- The part of `storing` with a receive context of circuit 5. -/
def receiving (ctx : RxContext) : State :=
  { storing [0, 1, 2, 3, 4, 5, 6, 7] [0] with contexts := State.reset.contexts.put 5 ctx }

/-- The part after reset owing something. -/
def owing (o : Owed) : State := { State.reset with owed := o }

/-- The part of `storing` with the message queued in its class. -/
def queued : State :=
  let s := storing [0] [0]
  { s with
    trib := { s.trib with ready := true }
    delivery := { s.delivery with queues := s.delivery.queues.put 1 [7], credits := 1, deficits := ⟨[1, 0, 0], rfl⟩ } }

/-- The part of `storing` with the message in delivery. -/
def delivering : State :=
  let s := storing [0] [0]
  { s with
    trib := { s.trib with ready := true, tx := .sendingDeliver }
    delivery := { s.delivery with inDelivery := some 7, credits := 32 } }

/-- The part after reset with the parser at a place. -/
def parsing (p : Parser) : State := { State.reset with trib := { State.reset.trib with parser := p } }

/-- The part with an ADD frame for circuit 5 whose check is about to end. -/
def adding (circuit cls mark : Byte) (length depth : Nat) (active add : Bool) : State :=
  let s := storing [0, 1, 2, 3, 4, 5, 6, 7] [0]
  { s with
    circuits := s.circuits.change 5 fun r =>
      { r with active := active, addEnable := add, quota := 64, addDepth := depth }
    addQueues := s.addQueues.put 5 [7]
    trib := { s.trib with parser := ⟨.check, 0x11, [0, 5], length + 4, 0x1234,
      [9, circuit, cls, mark] ++ List.replicate length 0x55, [0x12]⟩ } }

/-- `s` owned by controller 1 at epoch 5. -/
def owned (countdown : Option Nat) (s : State) : State :=
  { s with engine := { s.engine with owner := .owned 1 5 countdown } }

/-- `s` with an entry on the notice stack. -/
def stacked (timer sends : Nat) (s : State) : State :=
  { s with events := { s.events with stack := ⟨0, .ageOut, 3, sends, timer⟩ :: s.events.stack } }

/-- `s` with a notice offer held. -/
def offering (resend : Bool) (s : State) : State :=
  { s with arbiter := { s.arbiter with notice := some ⟨resend, .ageOut, 3, 0, [1, 0x81, 0, 8, 3, 1, 0, 0], .reset, false⟩ } }

/-- `s` with a response offer held. -/
def responding (state : EngineState) (s : State) : State :=
  { s with
    arbiter := { s.arbiter with response := some ⟨[1, 0x80, 0x10, 7, 0x50, 0, 1], false⟩ }
    engine := { s.engine with state := state } }

/-- `s` with a request waiting in the queue, its body stored under descriptor 7. -/
def requested (body : List Byte) (s : State) : State :=
  { s with
    engine := { s.engine with queue := [7] }
    pool := { s.pool with
      descs := (Table.fill 320 none).put 7
        (some { message with state := .request, circuit := 0, length := body.length, chain := [9] })
      store := storeBody [9] body s.pool.store } }

/-- A binding of AGE_OUT in place 0. -/
def bound (b : Binding) (s : State) : State :=
  { s with events := { s.events with bindings := s.events.bindings.put 0 (some b) } }

/-- The state a command leaves. -/
def after (i : Instr) (s : State) : State :=
  match exec i s with
  | .next t => t
  | .fault f => nomatch f
  | .refused _ => s

/-- The part of `storing` with the message queued in its class, its age limit 1, at a value of the tick counter, owing an
age check. -/
def overAgeAt (tick : Word) : State :=
  { queued with
    tickCounter := tick
    delivery := { queued.delivery with ageLimits := queued.delivery.ageLimits.put 1 1 }
    owed := { Owed.none with ages := true } }

/-- A grant that is not an error has its parts. -/
theorem parts {α β γ : Type} {x : Except α (β × γ)} (h : x.isOk = true) : ∃ d t, x = .ok (d, t) := by
  cases x with
  | error e => cases h
  | ok p => exact ⟨p.1, p.2, rfl⟩

/-! ### Witnesses of the hypotheses: machine, resets, alignment -/

theorem test_witness_StepTakesFrontCommand : State.reset.pending = [] := by decide +kernel

theorem test_witness_WhatIsOwedComesFirst :
    (∀ o ∈ [{ Owed.none with partTwo := true }, { Owed.none with stalls := [5, 95] }, { Owed.none with confirm := true },
        { Owed.none with creditStall := some 0 }, { Owed.none with ownerLost := true },
        { Owed.none with noticeTimeout := true }],
      actsFirst .tick = false ∧ (owing o).pins.rstN = true ∧ (owing o).events.inbox = [] ∧ (owing o).owed = o ∧
      (owing o).owed.ages = false ∧ (owing o).owed.attempts = 0) ∧
    ((overAgeAt 1).pins.rstN = true ∧ (overAgeAt 1).events.inbox = [] ∧ (overAgeAt 1).owed.ages = true ∧
      (overAgeAt 1).owed.attempts = 0 ∧
      headOverAge (overAgeAt 1) 0 = false ∧ headOverAge (overAgeAt 1) 1 = true) ∧
    (∀ p, headOverAge (overAgeAt 0) p = false) := by decide +kernel

/-- Every row answers a next state, the one `after` gives. -/
theorem test_witness_WhatIsOwedComesFirst_rows (s : State) :
    exec .responseAdmitted s = .next (after .responseAdmitted s) ∧ exec (.stall 5) s = .next (after (.stall 5) s) ∧
    exec .confirmWindowExpiry s = .next (after .confirmWindowExpiry s) ∧ exec (.ageOut 1) s = .next (after (.ageOut 1) s) ∧
    exec .creditStall s = .next (after .creditStall s) ∧ exec .ownerLost s = .next (after .ownerLost s) ∧
    exec .noticeTimeout s = .next (after .noticeTimeout s) := ⟨rfl, rfl, rfl, rfl, rfl, rfl, rfl⟩

/-- A part that owes one attempt whose notice the pool refuses; POOL_EMPTY flushes class 1, which frees a segment, and the
next attempt is granted. -/
def refusedNotice : State :=
  let s := bound ⟨.poolEmpty, .flushClass 1, 2, .notify, true, true⟩
    { queued with pool := { queued.pool with freeSegs := [] } }
  selectNotice { s with events := { s.events with records := s.events.records.put 8 ⟨true, 255, true, 3, some [0, 5], 0⟩ } }

theorem test_witness_WhatIsOwedComesFirst_attempts :
    (∀ i ∈ [Instr.tick, .stall 95, .ageOut 3, .creditStall], attemptsComeFirst i = true) ∧
    (let s := owing { Owed.none with attempts := 2, ages := true }
     s.pins.rstN = true ∧ s.events.inbox = [] ∧ s.owed.partTwo = false ∧
     (after .responseAdmitted s).owed.attempts = 1 ∧
     (after .responseAdmitted (after .responseAdmitted s)).owed.attempts = 0) ∧
    (Owing { Owed.none with attempts := 1 } refusedNotice ∧
     (after .responseAdmitted refusedNotice).owed.attempts = 1 ∧
     (after .responseAdmitted (after .responseAdmitted refusedNotice)).owed.attempts = 0) := by
  unfold Owing; decide +kernel

theorem test_witness_RstLowHoldsThePart :
    (pinReset State.reset).pins.rstN = false ∧
    (∀ i ∈ [Instr.tick, .stall 5, .noticeAdmitted, .identify, .goodOctet 0xA5], i ≠ .resetPin ∧
      i ∉ [.tiLpFall, .tiLpRise, .readyFall, .readyRise]) := by decide +kernel

theorem test_witness_ResetsSetEveryBlock :
    (pinReset State.reset).pins.rstN = false ∧ State.reset.pins.rstN = true ∧
    (addressOfStraps 63 = 63 ∧ addressOfStraps 62 = 63 ∧ addressOfStraps 0 = 1) := by decide +kernel

theorem test_witness_DeliveryUnitAfterResets :
    (∃ t, exec (.powerOnReset 63 true false) State.reset = .next t) ∧ (∃ t, exec .resetPin State.reset = .next t) ∧
    (∃ t, t = fullReset State.reset) := ⟨⟨_, rfl⟩, ⟨_, rfl⟩, ⟨_, rfl⟩⟩

theorem test_witness_MarksAreJudgedByTheTable :
    goodMark 15 0xDF = true ∧ goodMark 15 0xBF = true ∧ goodMark 0 0xB0 = true ∧ goodMark 0 0xDF = false ∧
    goodMark 14 0xBF = false ∧ goodMark 15 0xB0 = false := by decide +kernel

theorem test_witness_AlignmentIsGained :
    (let s := alignedAt .search 0 0 0
     Quiet s ∧ s.align.state = .search ∧ s.pins.tiLp = true ∧ Quiet State.reset ∧ State.reset.align.state = .search ∧
     State.reset.pins.tiLp = false ∧ ((0xC0 : Byte).toNat / 16 ≠ 0xB ∧ (0xC0 : Byte) ≠ 0xDF) ∧
     ((0xB0 : Byte).toNat / 16 = 0xB ∧ (0xB0 : Byte).toNat % 16 = (0 : BitVec 4).toNat)) ∧
    (let s := alignedAt .verify 15 62 0
     Quiet s ∧ s.align.state = .verify ∧ s.align.slot ≠ 63) ∧
    (let s := alignedAt .verify 15 63 0
     Quiet s ∧ MarkNext .verify 0 s ∧ goodMark 0 0xB0 = true ∧ goodMark 0 0xB1 = false ∧ s.align.verifyCount = 1) ∧
    (let r := alignedAt .verify 14 63 0
     let s : State := { r with align := { r.align with verifyCount := 2 } }
     Quiet s ∧ MarkNext .verify 15 s ∧ goodMark 15 0xDF = true ∧ s.align.verifyCount = 2 ∧ Unbound .alignGained s) := by
  unfold Quiet Unbound MarkNext; decide +kernel

theorem test_witness_MarksHoldAlignment :
    (let s := alignedAt .locked 15 63 0
     Quiet s ∧ MarkNext .locked 0 s ∧ goodMark 0 0xB0 = true ∧ goodMark 0 0xDF = false) ∧
    (let s := alignedAt .holdover 14 63 2
     Quiet s ∧ MarkNext .holdover 15 s ∧ goodMark 15 0xDF = true ∧ goodMark 15 0x00 = false ∧ s.align.badCount + 1 < 4) ∧
    (∀ swap ∈ [SwapState.idle, .armedNext, .armedSignal, .confirmWait, .revertPending], ∀ window ∈ [0, 5000],
      let record : ArmedSwap := ⟨.next, window, .binding⟩
      let s := swapping swap (some record) none (alignedAt .holdover 14 63 3)
      Quiet s ∧ MarkNext .holdover 15 s ∧ goodMark 15 0x00 = false ∧ s.align.badCount = 3 ∧ s.slot.swap = swap ∧
      s.slot.armed = some record ∧ Unbound .alignLost s ∧ Unbound .swapDone s ∧ Unbound .swapReverted s) := by
  unfold Quiet Unbound MarkNext; decide +kernel

theorem test_witness_LinePresenceIsTaken :
    (∀ state ∈ [AlignState.locked, .holdover, .verify, .search],
      Quiet (alignedAt state 3 3 3) ∧ (alignedAt state 3 3 3).align.state = state) ∧
    (∀ state ∈ [AlignState.locked, .holdover],
      ∀ swap ∈ [SwapState.idle, .armedNext, .armedSignal, .confirmWait, .revertPending],
      let s := swapping swap (some ⟨.next, 0, .request⟩) none (alignedAt state 3 3 3)
      Quiet s ∧ s.align.state = state ∧ s.slot.swap = swap ∧ s.slot.armed = some ⟨.next, 0, .request⟩ ∧
      Unbound .alignLost s ∧ Unbound .swapDone s ∧ Unbound .swapReverted s) := by
  unfold Quiet Unbound; decide +kernel

theorem test_witness_TrunkOutRepeatsTrunkIn :
    (pinReset State.reset).pins.rstN = false ∧ (alignedAt .search 0 0 0).align.state = .search ∧
    (alignedAt .verify 0 0 0).align.state = .verify ∧ (alignedAt .locked 0 63 0).align.slot = 63 := by decide +kernel

/-! ### The slot plan -/

theorem test_witness_EntriesHandlePayload :
    (∀ a ∈ [Action.pass, .tap, .take, .insert], ∀ c ∈ [(0 : Circuit), 95],
      let s := planned 1006 ⟨a, c⟩ (alignedAt .holdover 15 61 0)
      Quiet s ∧ PayloadNext 1006 ⟨a, c⟩ s ∧ (s.circuits.get c).active = decide (c = 0)) ∧
    (∀ a ∈ [Action.pass, .tap, .take, .insert],
      let s := planned 0 ⟨a, 0⟩ (alignedAt .locked 0 0 0)
      Quiet s ∧ PayloadNext 0 ⟨a, 0⟩ s ∧ (s.circuits.get 0).active = true) := by
  unfold Quiet PayloadNext; decide +kernel

theorem test_witness_BoundariesTakeTheSwap :
    (∀ swap ∈ [SwapState.idle, .armedNext, .armedSignal, .confirmWait, .revertPending], ∀ latch ∈ [true, false],
      let r := swapping swap (some ⟨.signal, 5000, .request⟩) none (alignedAt .holdover 15 62 0)
      let s : State := { r with align := { r.align with latch := latch } }
      Quiet s ∧ PayloadNext 1007 ⟨.pass, 0⟩ s ∧ s.slot.swap = swap ∧ s.align.latch = latch ∧
      s.slot.armed = some ⟨.signal, 5000, .request⟩ ∧ Unbound .swapDone s ∧ Unbound .swapReverted s) ∧
    (∀ a ∈ [Action.tap, .take, .insert], ∀ c ∈ [(0 : Circuit), 95],
      let s := planned 1007 ⟨a, c⟩ (alignedAt .locked 15 62 0)
      Quiet s ∧ PayloadNext 1007 ⟨a, c⟩ s ∧ (s.circuits.get c).active = decide (c = 0)) := by
  unfold Quiet Unbound PayloadNext; refine ⟨?_, ?_⟩ <;> decide +kernel

theorem test_witness_PlansAreReadAndWritten :
    (∀ p ∈ [([0, 0x03, 0xEF, 1] : List Byte), [1, 0, 0, 32], [2, 0, 0, 1], [0, 0x03, 0xF0, 1], [0, 0, 0, 0],
        [0, 0, 0, 33], [1, 0x03, 0xEF, 2]],
      Quiet (asking 0x10 p .reset) ∧ InHand .readPlan (request 0x10 p) (asking 0x10 p .reset) ∧
      requestParams (request 0x10 p) = p) ∧
    (Bank.ofCode 0 = some .a ∧ Bank.ofCode 1 = some .b ∧ Bank.ofCode 2 = none) ∧
    (∀ p ∈ [([0x03, 0xEF, 1, 3, 0] : List Byte), [0, 0, 2, 0, 95, 1, 95], [0, 0, 1, 4, 0], [0, 0, 2, 0, 0],
        [0x03, 0xF0, 1, 0, 0]],
      Quiet (asking 0x11 p .reset) ∧ InHand .writePlan (request 0x11 p) (asking 0x11 p .reset) ∧
      requestParams (request 0x11 p) = p ∧ (asking 0x11 p .reset).slot.swap = .idle) ∧
    (planEntriesOf [3, 0] = some [⟨.insert, 0⟩] ∧ planEntriesOf [0, 95, 1, 95] = some [⟨.pass, 0⟩, ⟨.tap, 95⟩] ∧
      planEntriesOf [4, 0] = none ∧ planEntriesOf [1, 96] = none ∧ planEntriesOf [0, 0] = some [⟨.pass, 0⟩]) ∧
    (let s := swapping .confirmWait none (some 10) (asking 0x11 [0, 0, 1, 0, 0] .reset)
     Quiet s ∧ InHand .writePlan (request 0x11 [0, 0, 1, 0, 0]) s ∧ s.slot.swap ≠ .idle) := by
  unfold Quiet InHand; decide +kernel

theorem test_witness_CopyPlanCopiesTheActiveBank :
    Quiet (asking 0x12 [] .reset) ∧ InHand .copyPlan (request 0x12 []) (asking 0x12 [] .reset) ∧
    (asking 0x12 [] .reset).slot.swap = .idle ∧
    (let s := swapping .armedNext (some ⟨.next, 0, .request⟩) none (asking 0x12 [] .reset)
     Quiet s ∧ InHand .copyPlan (request 0x12 []) s ∧ s.slot.swap ≠ .idle) := by
  unfold Quiet InHand; decide +kernel

theorem test_witness_SwapRequestsAreAnswered :
    (∀ p ∈ [([0, 0, 0] : List Byte), [1, 0, 10], [0, 0x13, 0x88], [0, 0, 9], [1, 0x13, 0x89], [2, 0, 0]],
      let s := asking 0x13 p .reset
      Quiet s ∧ InHand .armSwap (request 0x13 p) s ∧ requestParams (request 0x13 p) = p ∧ s.slot.swap = .idle ∧
      planLack s.slot.standbyPlan = none ∧ s.slot.aligned = false ∧ Unbound .swapDone s) ∧
    (let s := asking 0x13 [0, 0, 0] (alignedAt .locked 0 0 0)
     Quiet s ∧ InHand .armSwap (request 0x13 [0, 0, 0]) s ∧ s.slot.swap = .idle ∧
     planLack s.slot.standbyPlan = none ∧ s.slot.aligned = true) ∧
    (let s := lacking (asking 0x13 [0, 0, 0] .reset)
     Quiet s ∧ InHand .armSwap (request 0x13 [0, 0, 0]) s ∧ s.slot.swap = .idle ∧
     planLack s.slot.standbyPlan = some .missingDrop) ∧
    (∀ swap ∈ [SwapState.idle, .armedNext, .armedSignal, .confirmWait, .revertPending],
      (let s := swapping swap none none (asking 0x13 [0, 0, 0] .reset)
       Quiet s ∧ InHand .armSwap (request 0x13 [0, 0, 0]) s ∧ s.slot.swap = swap) ∧
      (let s := swapping swap none none (asking 0x14 [] .reset)
       Quiet s ∧ InHand .cancelSwap (request 0x14 []) s ∧ s.slot.swap = swap) ∧
      (let s := swapping swap none none (asking 0x15 [] .reset)
       Quiet s ∧ InHand .confirmSwap (request 0x15 []) s ∧ s.slot.swap = swap)) := by
  unfold Quiet InHand Unbound
  refine ⟨?_, ?_, ?_, ?_⟩ <;> decide +kernel

theorem test_witness_ConfirmWindowExpires :
    (∀ state ∈ [AlignState.locked, .search],
      let r := swapping .confirmWait none (some 0) (alignedAt state 0 0 0)
      let s : State := { r with owed := { Owed.none with confirm := true } }
      Owing { Owed.none with confirm := true } s ∧ s.slot.swap = .confirmWait ∧
      s.slot.aligned = decide (state = .locked) ∧ Unbound .swapDone s ∧ Unbound .swapReverted s) := by
  unfold Owing Unbound; decide +kernel

/-! ### Receive contexts -/

theorem test_witness_HuntJudgesOctets :
    (State.reset.contexts.get 0).state = .hunt ∧ (State.reset.circuits.get 0).dropEnable = true ∧
    ((0x5B : Byte) ≠ 0x5A ∧ (0x5B : Byte) ≠ 0xC3) ∧
    ((receiving (.empty .hunt)).contexts.get 5).state = .hunt ∧
    ((receiving (.empty .hunt)).circuits.get 5).dropEnable = false := by decide +kernel

/-- A context in HEAD with the length octet collected. -/
def headAt (length : Byte) : RxContext := { RxContext.empty .head with header := [length] }

/-- The storage a one-octet message of circuit 5 asks for. -/
def asked : NewMessage := ⟨.assembling, 5, 3, true, some 15, 1, .trunk⟩

theorem test_witness_HeadersAreJudged :
    ((receiving (.empty .head)).contexts.get 5).state = .head ∧ ((receiving (.empty .head)).contexts.get 5).header = [] ∧
    (∀ l ∈ [(0 : Byte), 1, 248, 249], ((receiving (headAt l)).contexts.get 5).state = .head ∧
      ((receiving (headAt l)).contexts.get 5).header = [l]) ∧
    ((0xFE : Byte).toNat = 64 * (3 : Machine.Class).val + 4 * (15 : BitVec 4).toNat + 2) ∧
    ((0x00 : Byte).toNat = 64 * (0 : Machine.Class).val + 4 * (0 : BitVec 4).toNat + 0) ∧
    (∃ d t, allocate asked (receiving (headAt 1)) = .ok (d, t)) ∧
    (∃ d t, allocate { asked with length := 224 } (receiving (headAt 224)) = .ok (d, t)) ∧
    allocFailure (receiving (headAt 248)) 5 8 = some .quota ∧
    allocFailure (storing [0, 1] [0]) 5 3 = some .space ∧ allocFailure (storing [0, 1] []) 5 2 = some .descriptors := by
  refine ⟨?_, ?_, ?_, ?_, ?_, parts ?_, parts ?_, ?_, ?_, ?_⟩ <;> decide +kernel

/-- A context in BODY at an octet of a message under descriptor 7. -/
def bodyAt (n length : Nat) : RxContext := { RxContext.empty .body with desc := some 7, bodyCount := n, length := length }

theorem test_witness_BodyOctetsAreStored :
    (let s := receiving (bodyAt 0 1)
     StoreLaw s ∧ (s.contexts.get 5).state = .body ∧ (s.contexts.get 5).desc = some 7 ∧
     s.pool.descs.get 7 = some message ∧ (s.contexts.get 5).bodyCount < (s.contexts.get 5).length ∧
     message.chain[(s.contexts.get 5).bodyCount / 32]? = some 9) ∧
    (let x : Descriptor := { message with length := 248, chain := [9, 8, 7, 6, 5, 4, 3, 1535] }
     let r := receiving (bodyAt 247 248)
     let s : State := { r with pool := { r.pool with descs := r.pool.descs.put 7 (some x) } }
     StoreLaw s ∧ (s.contexts.get 5).state = .body ∧ (s.contexts.get 5).desc = some 7 ∧
     s.pool.descs.get 7 = some x ∧ (s.contexts.get 5).bodyCount < (s.contexts.get 5).length ∧
     x.chain[(s.contexts.get 5).bodyCount / 32]? = some 1535) := by
  unfold StoreLaw; decide +kernel

/-- A context in CHECK with the high check octet collected. -/
def checkAt : RxContext := { RxContext.empty .check with desc := some 7, length := 1, seq := 15, crc := 0x1234, checkOctets := [0x12] }

theorem test_witness_CheckEndsAMessage :
    (∀ c ∈ [(0 : Circuit), 5, 95],
      let r := receiving checkAt
      let s : State := { r with
        contexts := r.contexts.put c checkAt
        circuits := r.circuits.change c fun x => { x with seqCheck := true, expected := some 14 } }
      (s.contexts.get c).state = .check ∧ (s.contexts.get c).checkOctets = [0x12] ∧ (s.contexts.get c).desc = some 7 ∧
      s.pool.descs.get 7 = some message ∧ (0x12 : Byte).toNat * 256 + (0x34 : Byte).toNat = (s.contexts.get c).crc.toNat ∧
      (0x12 : Byte).toNat * 256 + (0x35 : Byte).toNat ≠ (s.contexts.get c).crc.toNat ∧
      (s.circuits.get c).seqCheck = true ∧ (s.circuits.get c).expected = some 14 ∧ (14 : BitVec 4) ≠ (s.contexts.get c).seq) ∧
    (let s := receiving checkAt
     (s.contexts.get 5).state = .check ∧ (s.circuits.get 5).seqCheck = false) ∧
    (let s := receiving { checkAt with checkOctets := [] }
     (s.contexts.get 5).state = .check ∧ (s.contexts.get 5).checkOctets = []) := by decide +kernel

/-- A context in SKIP with octets to pass over, its stall timer at 250. -/
def skipAt (n : Nat) : RxContext := { RxContext.empty .skip with skipCount := n, timer := 250 }

theorem test_witness_SkipsAndStallsEnd :
    (∀ n ∈ [1, 2, 250], ((receiving (skipAt n)).contexts.get 5).state = .skip ∧
      ((receiving (skipAt n)).contexts.get 5).skipCount = n) ∧ Quiet State.reset ∧
    (∀ ctx ∈ [skipAt 2, { bodyAt 0 1 with timer := 250 }],
      let s : State := { receiving ctx with owed := { Owed.none with stalls := [5] } }
      Owing { Owed.none with stalls := [5] } s ∧ (s.contexts.get 5).state ≠ .stopped ∧ (s.contexts.get 5).state ≠ .hunt ∧
      (s.circuits.get 5).stallLimit ≠ 0 ∧ (s.circuits.get 5).stallLimit ≤ (s.contexts.get 5).timer) := by
  unfold Quiet Owing; decide +kernel

/-- The fault list with entries for circuits from 0 on. -/
def faulty (n : Nat) (overflow : Bool) : State :=
  { State.reset with events := { Events.reset with
      faults := (List.range n).map fun i => ⟨Fin.ofNat 96 i, 1, 0⟩, overflow := overflow } }

theorem test_witness_FaultListTakesAFault :
    (∃ e ∈ (faulty 1 false).events.faults, e.circuit = 0) ∧
    (¬ (∃ e ∈ (faulty 15 false).events.faults, e.circuit = 95) ∧ (faulty 15 false).events.faults.length < 16) ∧
    (∀ o ∈ [true, false], ¬ (∃ e ∈ (faulty 16 o).events.faults, e.circuit = 95) ∧
      16 ≤ (faulty 16 o).events.faults.length ∧ (faulty 16 o).events.overflow = o) := by decide +kernel

/-! ### The pool -/

/-- The storage a message of so many octets in a circuit asks for. -/
def wanting (c : Circuit) (length : Nat) : NewMessage := ⟨.addQueued, c, 0, false, none, length, .tributary⟩

theorem test_witness_StorageIsGrantedAndFreed :
    allocFailure (storing [0, 1, 2, 3, 4, 5, 6, 7] [0]) 5 8 = some .quota ∧
    allocFailure (storing [0, 1] [0]) 5 3 = some .space ∧ allocFailure (storing [0, 1] []) 5 2 = some .descriptors ∧
    allocFailure (storing (List.replicate 33 0) (List.replicate 10 0)) 95 1 = some .space ∧
    allocFailure (storing (List.replicate 34 0) (List.replicate 9 0)) 95 1 = some .descriptors ∧
    (∃ d t, allocate (wanting 95 1) (storing (List.replicate 34 0) (List.replicate 10 0)) = .ok (d, t)) ∧
    (∃ d t, allocate (wanting 5 64) (storing [0, 1] [0]) = .ok (d, t)) ∧
    (∃ d t, allocate (wanting 5 1) (storing (List.replicate 33 0) [0]) = .ok (d, t)) ∧
    (storing [] []).pool.descs.get 7 = some message ∧
    ((storing [] []).arbiter.response = none ∧ (storing [] []).arbiter.notice = none) ∧
    (offering false (storing [] [])).arbiter.notice ≠ none ∧ StoreLaw (storing [0, 1] [0]) ∧
    (∀ g ∈ (storing [0, 1] [0]).pool.freeSegs.take ((64 + 31) / 32), 64 / 32 ≠ g.val) := by
  unfold StoreLaw
  refine ⟨?_, ?_, ?_, ?_, ?_, parts ?_, parts ?_, parts ?_, ?_, ?_, ?_, ?_, ?_⟩ <;> decide +kernel

/-! ### The delivery unit -/

theorem test_witness_DeliveryTakesAMessage :
    (let free (s : State) := s.trib.tx = .idle ∧ s.trib.rejects = [] ∧ s.trib.ready = true ∧ 1 ≤ s.delivery.credits ∧
       s.delivery.inDelivery = none
     Quiet queued ∧ free queued ∧ queued.delivery.queues.get 0 = [] ∧
     queued.delivery.queues.get (Fin.succ (0 : Lane)) = [7] ∧ queued.pool.descs.get 7 = some message ∧
     message.seq = some 15 ∧ message.stamp = some 0xFFFF ∧ SettingsLaw queued ∧
     (let s : State := { queued with delivery := { queued.delivery with queues := queued.delivery.queues.put 0 [7] } }
      Quiet s ∧ free s ∧ s.delivery.queues.get 0 = [7]) ∧
     (Quiet delivering ∧ ¬ free delivering) ∧ (Quiet State.reset ∧ ∀ q, State.reset.delivery.queues.get q = [])) ∧
    Search ⟨[headLength queued (queued.delivery.queues.get 1), headLength queued (queued.delivery.queues.get 2),
      headLength queued (queued.delivery.queues.get 3)], rfl⟩ queued.delivery.quanta queued.delivery.round
      queued.delivery.deficits 0 (queued.delivery.deficits.put 0 (queued.delivery.deficits.get 0 - 1)) :=
  ⟨by unfold Quiet SettingsLaw; decide +kernel, .chosen (by decide +kernel) (by decide +kernel)⟩

theorem test_witness_EverySearchEndsWithAChoice :
    let heads : Table (Option Nat) 3 := ⟨[none, some 248, some 1], rfl⟩
    let quanta : Table Nat 3 := ⟨[32, 2048, 256], rfl⟩
    let deficits : Table Nat 3 := ⟨[0, 2295, 0], rfl⟩
    (∀ i, 32 ≤ quanta.get i ∧ quanta.get i ≤ 2048) ∧ (∀ i n, heads.get i = some n → n ≤ 248) ∧
    (∃ i, heads.get i ≠ none) ∧ (∀ i, deficits.get i ≤ 2295) := by
  refine ⟨by decide, ?_, by decide, by decide⟩
  intro i n h
  match i, h with
  | ⟨0, _⟩, h => cases h
  | ⟨1, _⟩, h => cases h; decide
  | ⟨2, _⟩, h => cases h; decide

theorem test_witness_DeliveryCompletes :
    (Quiet delivering ∧ delivering.trib.tx = .sendingDeliver ∧ delivering.delivery.inDelivery = some 7 ∧
      delivering.pool.descs.get 7 = some message) ∧ (Quiet queued ∧ queued.trib.tx ≠ .sendingDeliver) := by
  unfold Quiet; decide +kernel

theorem test_witness_ReadyFallAbortsADelivery :
    (∀ q ∈ [(0 : Machine.Class), 3],
      let s : State := { delivering with pool := { delivering.pool with
        descs := delivering.pool.descs.put 7 (some { message with cls := q }) } }
      Quiet s ∧ s.trib.ready = true ∧ s.trib.tx = .sendingDeliver ∧ s.delivery.inDelivery = some 7 ∧
      s.pool.descs.get 7 = some { message with cls := q }) ∧
    (Quiet queued ∧ queued.trib.ready = true ∧ queued.trib.tx ≠ .sendingDeliver) ∧ State.reset.trib.ready = false := by
  unfold Quiet; decide +kernel

/-- The part of `queued` with an age limit, at a tick. -/
def aging (limit : Nat) (tick : Word) : State :=
  { queued with
    tickCounter := tick
    owed := { Owed.none with ages := true }
    delivery := { queued.delivery with ageLimits := queued.delivery.ageLimits.put 1 limit, credits := 0 } }

theorem test_witness_DeliveryTimersAreJudged :
    ((∃ q, (aging 1 0).delivery.queues.get q ≠ []) ∧ (aging 1 0).delivery.credits = 0) ∧
    ¬ ((∃ q, queued.delivery.queues.get q ≠ []) ∧ queued.delivery.credits = 0) ∧
    (aging 1 0).delivery.queues.get 0 = [] ∧
    (let s := aging 1 1
     Owing { Owed.none with ages := true } s ∧ s.delivery.queues.get 1 = [7] ∧ s.pool.descs.get 7 = some message ∧
     message.stamp = some 0xFFFF ∧ s.delivery.ageLimits.get 1 ≠ 0 ∧
     s.delivery.ageLimits.get 1 < (s.tickCounter - 0xFFFF).toNat ∧ Unbound .ageOut s ∧
     (∀ c, headOverAge (recorded .ageOut (some [1, 5]) (counted 5 (fun k => { k with agedOut := k.agedOut + 1 })
       (released 7 message { s with delivery := { s.delivery with queues := s.delivery.queues.put 1 [] } }))) c = false) ∧
     (let t : State := { s with delivery := { s.delivery with queues := s.delivery.queues.put 1 [7, 7] } }
      Owing { Owed.none with ages := true } t ∧ t.delivery.queues.get 1 = [7, 7])) ∧
    headOverAge (aging 1 1) 1 = true ∧ headOverAge (aging 1 0) 1 = false ∧
    (let s : State := { queued with owed := { Owed.none with creditStall := some 320 } }
     Owing { Owed.none with creditStall := some 320 } s ∧ Unbound .creditStall s) ∧ Quiet State.reset := by
  unfold Quiet Owing Unbound; decide +kernel

theorem test_witness_DeliveryTimersAreJudged_next_head :
    let old : Descriptor := message
    let r := aging 1 1
    let s : State := { r with
      pool := { r.pool with descs := r.pool.descs.put 8 (some old) }
      delivery := { r.delivery with queues := r.delivery.queues.put 1 [7, 8] } }
    Owing { Owed.none with ages := true } s ∧ s.delivery.queues.get 1 = 7 :: [8] ∧ s.pool.descs.get 7 = some message ∧
    Unbound .ageOut s ∧
    ∃ c, headOverAge (recorded .ageOut (some [1, 5]) (counted 5 (fun k => { k with agedOut := k.agedOut + 1 })
      (released 7 message { s with delivery := { s.delivery with queues := s.delivery.queues.put 1 [8] } }))) c = true := by
  unfold Owing Unbound; decide +kernel

/-! ### The tick -/

theorem test_witness_TickIsTaken :
    (∀ n ∈ [0, 4999],
      let s := owned (some (n + 1)) (swapping .confirmWait none (some (n + 1)) (stacked (n + 1) 1 State.reset))
      Quiet s ∧ s.slot.swap = .confirmWait ∧ s.slot.countdown = some (n + 1) ∧
      s.engine.owner = .owned 1 5 (some (n + 1)) ∧ s.events.stack = [⟨0, .ageOut, 3, 1, n + 1⟩] ∧ resendHeld s = false) ∧
    (Quiet State.reset ∧ State.reset.slot.swap ≠ .confirmWait ∧ State.reset.engine.owner = .unowned ∧
      State.reset.events.stack = [] ∧
      ∀ q, headOverAge { State.reset with tickCounter := State.reset.tickCounter + 1 } q = false) ∧
    (let s : State := { aging 1 0 with owed := .none }
     Quiet s ∧ ∃ q, headOverAge { s with tickCounter := s.tickCounter + 1 } q = true) ∧
    (let s := offering true (stacked 0 1 (owned none State.reset))
     Quiet s ∧ resendHeld s = true ∧ s.engine.owner = .owned 1 5 none) := by
  unfold Quiet; decide +kernel

theorem test_witness_OwedTimersAreTaken :
    (let s : State := { owned (some 0) State.reset with owed := { Owed.none with ownerLost := true } }
     Owing { Owed.none with ownerLost := true } s ∧ s.engine.owner = .owned 1 5 (some 0) ∧ Unbound .ownerLost s) ∧
    (∀ sends ∈ [1, 3, 4, 8],
      let s : State := { stacked 0 sends State.reset with owed := { Owed.none with noticeTimeout := true } }
      Owing { Owed.none with noticeTimeout := true } s ∧ s.events.stack = [⟨0, .ageOut, 3, sends, 0⟩] ∧
      resendHeld s = false ∧ (sends < 1 + s.events.retries ∨ 1 + s.events.retries ≤ sends)) ∧ Quiet State.reset := by
  unfold Quiet Owing Unbound; decide +kernel

/-! ### The tributary link -/

theorem test_witness_ParserTakesOctets :
    (∀ b ∈ [(0 : Byte), 0xA5, 0xFF],
      Instr.goodOctet b ∈ [Instr.goodOctet b, .huntOctet b, .frameDropped b, .add b, .credit b]) ∧
    (∀ p ∈ [⟨.hunt, 0, [], 0, 0, [], []⟩, ⟨.type, 0, [], 0, 0xFFFF, [], []⟩, ⟨.length, 0x11, [], 0, 1, [], []⟩,
        ⟨.length, 0x11, [0], 0, 1, [], []⟩, ⟨.length, 0x11, [1], 0, 1, [], []⟩, ⟨.length, 0x12, [0], 0, 1, [], []⟩,
        ⟨.payload, 0x12, [0, 1], 1, 1, [], []⟩, ⟨.payload, 0x11, [1, 4], 260, 1, List.replicate 259 0, []⟩,
        ⟨.check, 0x11, [1, 4], 260, 0x1234, [], []⟩, (⟨.check, 0x11, [1, 4], 260, 0x1234, [], [0x12]⟩ : Parser)],
      Quiet (parsing p) ∧ (parsing p).trib.parser = p ∧ Unbound .tribError (parsing p)) ∧
    (let accepted (type high b : Byte) :=
       (type = 0x11 ∧ 4 ≤ high.toNat * 256 + b.toNat ∧ high.toNat * 256 + b.toNat ≤ 260) ∨
       (type ≠ 0x11 ∧ high.toNat * 256 + b.toNat = 1)
     accepted 0x11 0 4 ∧ accepted 0x11 1 4 ∧ ¬ accepted 0x11 0 3 ∧ ¬ accepted 0x11 1 5 ∧ accepted 0x12 0 1 ∧
     ¬ accepted 0x12 0 2 ∧ ¬ accepted 0x12 0 0) := by
  unfold Quiet Unbound; decide +kernel

theorem test_witness_CreditsAreAccepted :
    (∀ n ∈ [(0 : Byte), 1, 32, 33],
      let s := parsing ⟨.check, 0x12, [0, 1], 1, 0x1234, [n], [0x12]⟩
      Quiet s ∧ s.trib.parser.state = .check ∧ s.trib.parser.type = 0x12 ∧ s.trib.parser.buffer = [n] ∧
      s.trib.parser.checkOctets = [0x12] ∧ (0x12 : Byte).toNat * 256 + (0x34 : Byte).toNat = s.trib.parser.crc.toNat ∧
      Unbound .tribError s) := by
  unfold Quiet Unbound; decide +kernel

/-- What each clause about an ADD frame asks of the part it finds. -/
def AddFound (circuit cls mark : Byte) (length : Nat) (s : State) : Prop :=
  Quiet s ∧ s.trib.parser.state = .check ∧ s.trib.parser.type = 0x11 ∧
  s.trib.parser.buffer = 9 :: circuit :: cls :: mark :: List.replicate length 0x55 ∧
  s.trib.parser.checkOctets = [0x12] ∧ (0x12 : Byte).toNat * 256 + (0x34 : Byte).toNat = s.trib.parser.crc.toNat ∧
  Unbound .tribError s

theorem test_witness_AddsAreJudged :
    AddFound 5 4 0 1 (adding 5 4 0 1 2 true true) ∧ AddFound 5 3 2 1 (adding 5 3 2 1 2 true true) ∧ AddFound 5 3 1 0 (adding 5 3 1 0 2 true true) ∧
    AddFound 5 0 0 249 (adding 5 0 0 249 2 true true) ∧ AddFound 96 0 0 1 (adding 96 0 0 1 2 true true) ∧ AddFound 0 0 0 1 (adding 0 0 0 1 2 true true) ∧
    AddFound 5 0 0 248 (adding 5 0 0 248 2 false true) ∧ AddFound 5 0 0 248 (adding 5 0 0 248 2 true false) ∧ AddFound 5 0 0 248 (adding 5 0 0 248 1 true true) ∧
    AddFound 5 0 0 248 (adding 5 0 0 248 2 true true) := by
  unfold AddFound Quiet Unbound
  refine ⟨?_, ?_, ?_, ?_, ?_, ?_, ?_, ?_, ?_, ?_⟩ <;> decide +kernel

theorem test_witness_AddsAreJudged_storage :
    (let s := adding 5 0 0 248 2 true true
     (s.circuits.get 5).active = true ∧ (s.circuits.get 5).addEnable = true ∧
     (s.addQueues.get 5).length < (s.circuits.get 5).addDepth) ∧
    ((adding 5 0 0 248 1 true true).circuits.get 5).addDepth ≤ ((adding 5 0 0 248 1 true true).addQueues.get 5).length ∧
    (let r := adding 5 0 0 248 2 true true
     let s : State := { r with pool := { r.pool with freeSegs := [0] } }
     (s.addQueues.get 5).length < (s.circuits.get 5).addDepth ∧ allocFailure s 5 ((248 + 31) / 32) = some .space) ∧
    ∃ d t, enqueue ⟨.addQueued, 5, 0, false, none, 248, .tributary⟩ (List.replicate 248 0x55)
      (adding 5 0 0 248 2 true true) = .ok (d, t) := by
  refine ⟨?_, ?_, ?_, parts ?_⟩ <;> decide +kernel

theorem test_witness_RejectsAreSent :
    (let s : State := { State.reset with trib := { State.reset.trib with rejects := [⟨9, 5, .stopped⟩] } }
     Quiet s ∧ s.trib.tx = .idle ∧ s.trib.rejects = [⟨9, 5, .stopped⟩]) ∧
    (Quiet delivering ∧ delivering.trib.tx ≠ .idle ∧ delivering.trib.tx ≠ .sendingReject) ∧
    (State.reset.trib.rejects = []) ∧
    (let s : State := { State.reset with trib := { State.reset.trib with tx := .sendingReject } }
     Quiet s ∧ s.trib.tx = .sendingReject) := by
  unfold Quiet; decide +kernel

/-! ### The insertion side and the arbiter -/

/-- The part of `storing` with an emitter of circuit 5 at a place of the message. -/
def emitting (state : EmitState) (headers body checks : Nat) : State :=
  let s := storing [0] [0]
  { s with emitters := s.emitters.put 5 ⟨state, some 7, headers, body, checks, 0xFFFF⟩ }

theorem test_witness_EmittersSupplyMessages :
    ((storing [] []).emitters.get 5).state = .idle ∧ (storing [] []).addQueues.get 5 = [] ∧
    (∀ c ∈ [(0 : Circuit), 5, 95],
      let r := storing [] []
      let s : State := { r with addQueues := r.addQueues.put c [7] }
      (s.emitters.get c).state = .idle ∧ s.addQueues.get c = [7] ∧ s.pool.descs.get 7 = some message) ∧
    (∀ e ∈ [(EmitState.head, 0, 0, 0), (.head, 1, 0, 0), (.body, 1, 0, 0), (.check, 1, 1, 0), (.check, 1, 1, 1)],
      let s := emitting e.1 e.2.1 e.2.2.1 e.2.2.2
      (s.emitters.get 5).desc = some 7 ∧ s.pool.descs.get 7 = some message ∧ message.seq = some 15 ∧
      s.emitters.get 5 = ⟨e.1, some 7, e.2.1, e.2.2.1, e.2.2.2, 0xFFFF⟩ ∧
      ¬ (message.origin = .response ∧ s.engine.state = .resetting ∧ s.engine.noted = some 7)) ∧
    (let x : Descriptor := { message with origin := .response, circuit := 0 }
     let r := emitting .check 1 1 1
     let s : State := { r with
       pool := { r.pool with descs := r.pool.descs.put 7 (some x) }
       engine := { r.engine with state := .resetting, noted := some 7 } }
     (s.emitters.get 5).desc = some 7 ∧ s.pool.descs.get 7 = some x ∧ x.seq = some 15 ∧
     (s.emitters.get 5).state = .check ∧ (s.emitters.get 5).checkCount = 1 ∧
     (x.origin = .response ∧ s.engine.state = .resetting ∧ s.engine.noted = some 7)) := by decide +kernel

/-- The part with attempts owed. -/
def attempting (n : Nat) (s : State) : State := { s with owed := { Owed.none with attempts := n } }

/-- `s` with a full add queue of circuit 0. -/
def crowded (n : Nat) (s : State) : State := { s with addQueues := s.addQueues.put 0 (List.replicate n 7) }

theorem test_witness_NoticesAreAdmitted :
    (Owing { Owed.none with attempts := 1 } (attempting 1 State.reset) ∧ State.reset.arbiter.notice = none) ∧
    (∀ n ∈ [7, 8], ∀ resend ∈ [true, false],
      let s := attempting 2 (crowded n (offering resend (stacked 0 1 (storing [0] [0]))))
      Owing { Owed.none with attempts := 1 + 1 } s ∧
      s.arbiter.notice = some ⟨resend, .ageOut, 3, 0, [1, 0x81, 0, 8, 3, 1, 0, 0], .reset, false⟩ ∧
      (s.addQueues.get 0).length = n ∧ s.events.stack = [⟨0, .ageOut, 3, 1, 0⟩] ∧
      (∃ r, enqueue ⟨.addQueued, 0, 0, false, none, 8, .notice⟩ [1, 0x81, 0, 8, 3, 1, 0, 0]
        { s with owed := { Owed.none with attempts := 1, partTwo := s.arbiter.response.isSome } } = .ok r)) ∧
    (let s := attempting 1 (offering false (storing [0] []))
     Owing { Owed.none with attempts := 1 } s ∧ (s.addQueues.get 0).length < 8 ∧
     allocFailure s 0 ((8 + 31) / 32) = some .descriptors) := by
  have ok {x : Except AllocFailure (DescNo × State)} (h : x.isOk = true) : ∃ r, x = .ok r :=
    (parts h).elim fun d h => h.elim fun t h => ⟨(d, t), h⟩
  refine ⟨by unfold Owing; decide +kernel, ?_, by unfold Owing; decide +kernel⟩
  intro n hn resend hr
  refine ⟨?_, rfl, ?_, ?_, ok ?_⟩
  · exact ⟨rfl, rfl, rfl⟩
  all_goals revert resend; revert n; decide +kernel

theorem test_witness_ResponsesAreAdmitted :
    (∀ n ∈ [7, 8], ∀ state ∈ [EngineState.holding, .resetting],
      let r := crowded n (responding state (storing [0] [0]))
      let s : State := { r with owed := { Owed.none with partTwo := true } }
      s.pins.rstN = true ∧ s.owed.partTwo = true ∧
      s.arbiter.response = some ⟨[1, 0x80, 0x10, 7, 0x50, 0, 1], false⟩ ∧ (s.addQueues.get 0).length = n ∧
      s.engine.state = state ∧
      (enqueue ⟨.addQueued, 0, 0, false, none, 7, .response⟩ [1, 0x80, 0x10, 7, 0x50, 0, 1]
        { s with owed := { s.owed with partTwo := false } }).isOk = true) ∧
    (let r := responding .holding (storing [] [0])
     let s : State := { r with owed := { Owed.none with partTwo := true } }
     (s.addQueues.get 0).length < 8 ∧ allocFailure s 0 ((7 + 31) / 32) = some .space) ∧
    (let s := attempting 1 (responding .holding (storing [0] [0]))
     Owing { Owed.none with attempts := 1 } s ∧ s.arbiter.response ≠ none) ∧
    (Owing { Owed.none with attempts := 1 } (attempting 1 State.reset) ∧ State.reset.arbiter.response = none) ∧
    Quiet State.reset := by
  unfold Quiet Owing; decide +kernel

/-! ### The management engine -/

/-- The part with a request of a body waiting, the engine idle. -/
def waiting (body : List Byte) : State := requested body State.reset

theorem test_witness_RequestsAreTaken :
    (Quiet State.reset ∧ State.reset.engine.queue = []) ∧
    (∀ body ∈ [([1, 0x10, 7] : List Byte), [1, 0x10, 7, 0x01], [2, 0x10, 7, 0x01], [1, 0x00, 7, 0x01], [1, 0x1F, 7, 0x01],
        [1, 0xF0, 7, 0x00], [1, 0xF0, 7, 0x04, 0, 50], [1, 0x10, 7, 0x04, 0]],
      let s := waiting body
      Quiet s ∧ s.engine.state = .idle ∧ s.engine.queue = [7] ∧
      ((s.pool.descs.get 7).map (bodyOf s)) = some body ∧ s.engine.cache = none ∧
      (body.getD 0 0 = s.nodeAddress.zeroExtend 8 ↔ body.getD 0 0 = 1)) ∧
    (let r := waiting [1, 0x10, 7, 0x01]
     let s : State := { r with engine := { r.engine with cache := some ⟨1, 7, [1]⟩ } }
     Quiet s ∧ s.engine.state = .idle ∧ s.engine.queue = [7] ∧ s.engine.cache = some ⟨1, 7, [1]⟩ ∧
     (1 : BitVec 4).toNat = (0x10 : Byte).toNat / 16 ∧ (0x10 : Byte).toNat % 16 = 0) ∧
    (RequestKind.ofCode 0x01 = some .identify ∧ RequestKind.identify.allowsLength 0 = true ∧
      RequestKind.identify.modifies [] = false ∧ RequestKind.ofCode 0x00 = none ∧
      RequestKind.ofCode 0x04 = some .setLease ∧ RequestKind.setLease.allowsLength 2 = true ∧
      RequestKind.setLease.allowsLength 1 = false ∧ RequestKind.setLease.modifies [0, 50] = true) ∧
    (let s := owned (some 1) (waiting [1, 0x10, 7, 0x01])
     Quiet s ∧ s.engine.owner = .owned 1 5 (some 1) ∧ (1 : BitVec 4).toNat = (0x10 : Byte).toNat / 16) := by
  unfold Quiet; decide +kernel

theorem test_witness_OwnershipRequestsAreAnswered :
    (Quiet (asking 0x01 [] .reset) ∧ InHand .identify (request 0x01 []) (asking 0x01 [] .reset)) ∧
    (Quiet (asking 0x03 [] .reset) ∧ InHand .release (request 0x03 []) (asking 0x03 [] .reset)) ∧
    (∀ p ∈ [([0, 0] : List Byte), [0, 49], [0, 50], [0xEA, 0x60], [0xEA, 0x61]],
      let s := asking 0x04 p .reset
      let t := owned none s
      Quiet s ∧ InHand .setLease (request 0x04 p) s ∧ requestParams (request 0x04 p) = p ∧ s.engine.owner = .unowned ∧
      Quiet t ∧ InHand .setLease (request 0x04 p) t ∧ t.engine.owner = .owned 1 5 none) := by
  unfold Quiet InHand; decide +kernel

theorem test_witness_ClaimsAreJudged :
    (∀ p ∈ [([0, 4] : List Byte), [0, 5], [0, 6]],
      let s := asking 0x02 p .reset
      let mine := owned (some 50) s
      let other : State := { s with engine := { s.engine with owner := .owned 2 5 none } }
      Quiet s ∧ InHand .claim (request 0x02 p) s ∧ requestParams (request 0x02 p) = p ∧ s.engine.owner = .unowned ∧
      Quiet mine ∧ InHand .claim (request 0x02 p) mine ∧ mine.engine.owner = .owned 1 5 (some 50) ∧
      Quiet other ∧ InHand .claim (request 0x02 p) other ∧ other.engine.owner = .owned 2 5 none ∧
      (2 : BitVec 4) ≠ BitVec.ofNat 4 (((request 0x02 p).getD 1 0).toNat / 16) ∧
      (1 : BitVec 4) = BitVec.ofNat 4 (((request 0x02 p).getD 1 0).toNat / 16) ∧ Unbound .ownerChanged other) := by
  unfold Quiet Unbound InHand; decide +kernel

/-! ### Circuits, pool and delivery settings -/

theorem test_witness_CircuitReadingsAreAnswered :
    (∀ b ∈ [(0 : Byte), 95, 96],
      let s := asking 0x20 [b] .reset
      Quiet s ∧ InHand .readCircuit (request 0x20 [b]) s ∧ requestParams (request 0x20 [b]) = [b]) ∧
    (∀ p ∈ [([0, 0] : List Byte), [95, 1], [0xFF, 0], [0xFF, 1], [96, 0], [0xFE, 0], [0, 2]],
      let s := asking 0x24 p .reset
      Quiet s ∧ InHand .readCounters (request 0x24 p) s ∧ requestParams (request 0x24 p) = p) := by
  unfold Quiet InHand; decide +kernel

theorem test_witness_CircuitsAreWritten :
    (∀ p ∈ [([5, 0, 1, 0, 8, 0, 0, 0, 1, 0] : List Byte), [95, 1, 1, 6, 0, 1, 3, 0xE8, 16, 1], [5, 2, 1, 0, 8, 0, 0, 0, 1, 0],
        [5, 0, 1, 0, 7, 0, 0, 0, 1, 0], [5, 0, 1, 6, 1, 0, 0, 0, 1, 0], [5, 0, 1, 0, 8, 0, 3, 0xE9, 1, 0],
        [5, 0, 1, 0, 8, 0, 0, 0, 0, 0], [5, 0, 1, 0, 8, 0, 0, 0, 17, 0], [96, 0, 0, 0, 8, 0, 0, 0, 1, 0],
        [0, 0, 0, 0, 8, 0, 0, 0, 1, 0], [0, 0, 0, 0, 64, 0, 0, 0, 1, 0], [0, 0, 0, 0, 7, 0, 0, 0, 1, 0]],
      let s := asking 0x21 p .reset
      Quiet s ∧ InHand .writeCircuit (request 0x21 p) s ∧ requestParams (request 0x21 p) = p ∧
      (s.circuits.get 5).active = false ∧ (s.circuits.get 95).active = false ∧ (s.circuits.get 0).held = 0) ∧
    (let s := asking 0x21 [5, 0, 1, 0, 8, 0, 0, 0, 1, 0] (storing [] [])
     Quiet s ∧ InHand .writeCircuit (request 0x21 [5, 0, 1, 0, 8, 0, 0, 0, 1, 0]) s ∧
     (s.circuits.get 5).active = true) := by
  unfold Quiet InHand; decide +kernel

theorem test_witness_CircuitsAreStartedAndStopped :
    (∀ b ∈ [(0 : Byte), 5, 95, 96],
      let s := asking 0x22 [b] .reset
      Quiet s ∧ InHand .startCircuit (request 0x22 [b]) s ∧ requestParams (request 0x22 [b]) = [b] ∧
      (s.circuits.get 0).active = true ∧ (s.circuits.get 95).active = false) ∧
    (∀ p ∈ [([0, 0] : List Byte), [96, 0], [5, 2], [5, 0], [5, 1], [95, 1]],
      let s := asking 0x23 p (emitting .body 1 0 0)
      Quiet s ∧ InHand .stopCircuit (request 0x23 p) s ∧ requestParams (request 0x23 p) = p ∧
      (s.circuits.get 5).active = true ∧ (s.circuits.get 95).active = false) := by
  unfold Quiet InHand; decide +kernel

theorem test_witness_PoolAndSchedRequestsAreAnswered :
    (∀ p ∈ [([0, 96] : List Byte), [95, 1], [95, 0], [96, 0], [95, 2], [0, 97]],
      let s := asking 0x30 p (storing [0] [0])
      Quiet s ∧ InHand .readPool (request 0x30 p) s ∧ requestParams (request 0x30 p) = p) ∧
    (∀ p ∈ [([0, 33, 63] : List Byte), [0, 255, 0], [0, 32, 0], [1, 0, 0], [0, 0, 64]],
      let s := asking 0x31 p (storing (List.replicate 33 0) [0])
      Quiet s ∧ InHand .writePool (request 0x31 p) s ∧ requestParams (request 0x31 p) = p ∧
      s.pool.segReserve < s.pool.freeSegs.length ∧ s.pool.freeSegs.length = 33 ∧ Unbound .poolReserve s) ∧
    (let s := asking 0x32 [] delivering
     Quiet s ∧ InHand .readSched (request 0x32 []) s ∧ s.delivery.inDelivery = some 7 ∧
     s.pool.descs.get 7 = some message) ∧
    (let s := asking 0x32 [] .reset
     Quiet s ∧ InHand .readSched (request 0x32 []) s ∧ s.delivery.inDelivery = none) ∧
    (∀ p ∈ [([0, 32, 8, 0, 1, 0, 0, 0, 0, 1, 3, 0xE8, 0, 0, 3, 0xE8] : List Byte),
        [0, 31, 8, 0, 1, 0, 0, 0, 0, 1, 3, 0xE8, 0, 0, 3, 0xE8], [0, 32, 8, 1, 1, 0, 0, 0, 0, 1, 3, 0xE8, 0, 0, 3, 0xE8],
        [0, 32, 8, 0, 1, 0, 3, 0xE9, 0, 1, 3, 0xE8, 0, 0, 3, 0xE8], [0, 32, 8, 0, 1, 0, 0, 0, 0, 1, 3, 0xE8, 0, 0, 3, 0xE9]],
      let s := asking 0x33 p .reset
      Quiet s ∧ InHand .writeSched (request 0x33 p) s ∧ requestParams (request 0x33 p) = p) := by
  unfold Quiet Unbound InHand; decide +kernel

/-! ### The event unit -/

theorem test_witness_OccurrencesAreTaken :
    (∀ i b, ¬ (boundTo State.reset.events .ageOut = some i ∧ State.reset.events.bindings.get i = some b)) ∧
    (∀ count ∈ [1, 2, 255], ∀ ending ∈ [EndMode.notify, .silent],
      let b : Binding := ⟨.ageOut, .flushClass 3, count, ending, true, true⟩
      let s := bound b State.reset
      boundTo s.events .ageOut = some 0 ∧ s.events.bindings.get 0 = some b ∧ b.armed = true ∧ b.enabled = true ∧
      EventKind.ageOut ≠ .bindingMiss ∧ (0 : Fin 6) ∉ ([] : List (Fin 6)) ∧
      (performAction b.action (recordOccurrence .ageOut none s)).1 = none ∧ b.count - 1 = count - 1) ∧
    (let b : Binding := ⟨.ageOut, .circuitStop 95, 1, .notify, true, true⟩
     let s := bound b State.reset
     boundTo s.events .ageOut = some 0 ∧ s.events.bindings.get 0 = some b ∧
     (performAction b.action (recordOccurrence .ageOut none s)).1 = some .stopped) ∧
    ((receiving (headAt 0)).events.inbox = [] ∧
      (receiveOctet 5 0 (receiving (headAt 0))).events.inbox =
        [⟨.circuitFault, some [0, 1, 5, 1, 0, 0], []⟩]) ∧
    (State.reset.events.inbox = [] ∧ Unbound .swapDone State.reset ∧ Unbound .swapReverted State.reset ∧
      (performRevert State.reset).events.inbox =
        [⟨.swapDone, some [1, 2], []⟩, ⟨.swapReverted, some [1], []⟩] ∧
      (performSwap (swapping .armedNext (some ⟨.next, 0, .request⟩) none State.reset)).events.inbox =
        [⟨.swapDone, some [1, 0], []⟩]) := by
  refine ⟨?_, ?_, ?_, ?_, ?_⟩
  · intro i b h
    have none : boundTo State.reset.events .ageOut = none := by decide +kernel
    rw [none] at h
    cases h.1
  all_goals (try unfold Unbound) <;> decide +kernel

/-- `s` with canned slot 3 filled and circuit 5 with a depth. -/
def cannedAt (depth : Nat) (s : State) : State :=
  { s with
    circuits := s.circuits.change 5 fun r => { r with quota := 64, addDepth := depth }
    events := { s.events with canned := s.events.canned.put 3 (some ⟨[1, 2], 3, true⟩) } }

theorem test_witness_BindingActionsAreTaken :
    (swapping .armedNext (some ⟨.next, 0, .request⟩) none State.reset).slot.swap ≠ .idle ∧
    ((lacking State.reset).slot.swap = .idle ∧ planLack (lacking State.reset).slot.standbyPlan = some .missingDrop) ∧
    (State.reset.slot.swap = .idle ∧ planLack State.reset.slot.standbyPlan = none ∧ State.reset.slot.aligned = false) ∧
    ((alignedAt .locked 0 0 0).slot.swap = .idle ∧ planLack (alignedAt .locked 0 0 0).slot.standbyPlan = none ∧
      (alignedAt .locked 0 0 0).slot.aligned = true) ∧
    ((State.reset.circuits.get 95).active = false ∧ (State.reset.circuits.get 0).active = true) ∧
    State.reset.events.canned.get 0 = none ∧
    (let s := cannedAt 1 (storing [0] [0])
     s.events.canned.get 3 = some ⟨[1, 2], 3, true⟩ ∧ (s.circuits.get 95).active = false ∧
     (s.circuits.get 5).active = true ∧ (s.addQueues.get 5).length < (s.circuits.get 5).addDepth) ∧
    (let s := cannedAt 0 (storing [0] [0])
     (s.circuits.get 5).addDepth ≤ (s.addQueues.get 5).length) ∧
    allocFailure (cannedAt 1 (storing [] [0])) 5 ((2 + 31) / 32) = some .space ∧
    (∃ d t, enqueue ⟨.addQueued, 5, 3, true, none, 2, .canned⟩ [1, 2] (cannedAt 1 (storing [0] [0])) = .ok (d, t)) := by
  refine ⟨?_, ?_, ?_, ?_, ?_, ?_, ?_, ?_, ?_, parts ?_⟩ <;> decide +kernel

/-- `s` with AGE_OUT pending at a level, enabled. -/
def pendingAt (level : Fin 8) (s : State) : State :=
  { s with events := { s.events with
      records := s.events.records.put 8 ⟨true, 255, true, level, some [0, 5], 0⟩ } }

theorem test_witness_NoticesFollowTheSelection :
    (4 ≤ ({ Events.reset with stack := List.replicate 4 ⟨0, .ageOut, 3, 1, 1⟩ } : Events).stack.length) ∧
    (Events.reset.stack.length < 4 ∧ selectedKind Events.reset = none) ∧
    selectedKind (pendingAt 7 State.reset).events = some .ageOut ∧
    (State.reset.arbiter.notice = none ∧ (pendingAt 1 State.reset).arbiter.notice = none ∧
      selectedKind (pendingAt 1 State.reset).events = some .ageOut) ∧
    ((offering false State.reset).arbiter.notice = some ⟨false, .ageOut, 3, 0, [1, 0x81, 0, 8, 3, 1, 0, 0], .reset, false⟩ ∧
      selectedKind (offering false State.reset).events = none ∧
      selectedKind (offering false (pendingAt 3 State.reset)).events = some .ageOut) ∧
    (let s := selectNotice (pendingAt 3 State.reset)
     selectedKind s.events = some .ageOut ∧
     s.arbiter.notice = some ⟨false, .ageOut, 3, 0, noticeBody s .ageOut 0 3, s.events.records.get 8, false⟩) ∧
    ((offering true (stacked 0 1 State.reset)).arbiter.notice =
        some ⟨true, .ageOut, 3, 0, [1, 0x81, 0, 8, 3, 1, 0, 0], .reset, false⟩ ∧
      (offering true (stacked 0 1 State.reset)).events.stack = [⟨0, .ageOut, 3, 1, 0⟩] ∧
      noticeBody State.reset .ageOut 0 3 ≠ [1, 0x81, 0, 8, 3, 1, 0, 0]) := by decide +kernel

theorem test_witness_EventUnitIsReadAndWritten :
    (Quiet (asking 0x40 [] .reset) ∧ InHand .readEvents (request 0x40 []) (asking 0x40 [] .reset)) ∧
    (∀ h ∈ [([7, 0, 10, 7] : List Byte), [0, 0x13, 0x88, 0], [8, 0, 10, 7], [7, 0, 9, 7], [7, 0x13, 0x89, 7], [7, 0, 10, 8]],
      ∀ b ∈ [(0x00 : Byte), 0x87, 0x08],
      let p := h ++ List.replicate 16 b
      let s := asking 0x41 p .reset
      Quiet s ∧ InHand .writeEventConfig (request 0x41 p) s ∧ requestParams (request 0x41 p) = p ∧
      (List.replicate 16 b).length = 16) ∧
    ((0x87 : Byte).toNat % 128 < 8 ∧ ¬ (0x08 : Byte).toNat % 128 < 8) := by
  unfold Quiet InHand; decide +kernel

theorem test_witness_EventsAndNoticesAreAcknowledged :
    (∀ p ∈ [([0, 15, 15] : List Byte), [16]],
      let s := asking 0x42 p .reset
      Quiet s ∧ InHand .ackEvents (request 0x42 p) s ∧ requestParams (request 0x42 p) = p) ∧
    (∀ b ∈ ([0, 15, 15] : List Byte), b.toNat ≤ 15) ∧ (∃ b ∈ ([16] : List Byte), 15 < b.toNat) ∧
    (∀ p ∈ [([0, 0] : List Byte), [0, 1], [1, 0], [0, 2]],
      let s := asking 0x43 p .reset
      let t := stacked 1 1 (stacked 5 1 s)
      Quiet s ∧ InHand .noticeAck (request 0x43 p) s ∧ requestParams (request 0x43 p) = p ∧ s.events.stack = [] ∧
      Quiet t ∧ InHand .noticeAck (request 0x43 p) t ∧
      t.events.stack = [⟨0, .ageOut, 3, 1, 1⟩, ⟨0, .ageOut, 3, 1, 5⟩]) := by
  unfold Quiet InHand; decide +kernel

theorem test_witness_FaultListIsReadAndCleared :
    (let s := asking 0x44 [] (faulty 16 true)
     Quiet s ∧ InHand .readFaults (request 0x44 []) s) ∧
    (let s := asking 0x45 [] (faulty 16 true)
     Quiet s ∧ InHand .clearFaults (request 0x45 []) s) := by
  unfold Quiet InHand; decide +kernel

theorem test_witness_BindingsAreReadAndWritten :
    (∀ p ∈ [([6, 0, 0, 0, 0, 0, 0, 0, 0, 0] : List Byte), [5, 2, 0, 0, 0, 0, 0, 0, 0, 0], [5, 0, 9, 9, 9, 9, 9, 9, 9, 9],
        [0, 1, 14, 1, 0, 0, 255, 1, 1, 1], [5, 1, 0, 4, 3, 95, 1, 0, 0, 0], [5, 1, 0, 5, 3, 0, 1, 0, 0, 0],
        [5, 1, 8, 5, 3, 0, 1, 0, 0, 0], [5, 1, 0, 2, 1, 0, 1, 0, 0, 0], [5, 1, 0, 3, 95, 0, 1, 0, 0, 0],
        [5, 1, 0, 0, 0, 0, 1, 0, 0, 0]],
      let s := asking 0x46 p (bound ⟨.ageOut, .swap, 1, .notify, true, true⟩ State.reset)
      Quiet s ∧ InHand .writeBinding (request 0x46 p) s ∧ requestParams (request 0x46 p) = p ∧
      s.events.bindings.get 0 = some ⟨.ageOut, .swap, 1, .notify, true, true⟩ ∧ s.events.bindings.get 5 = none) ∧
    (Quiet (asking 0x47 [] .reset) ∧ InHand .readBindings (request 0x47 []) (asking 0x47 [] .reset)) ∧
    (∀ p ∈ [([0, 0, 0, 9] : List Byte), [3, 3, 1] ++ List.replicate 32 9, [4, 0, 0, 9], [0, 4, 0, 9], [0, 0, 2, 9]],
      let s := asking 0x48 p .reset
      Quiet s ∧ InHand .loadCanned (request 0x48 p) s ∧ requestParams (request 0x48 p) = p) := by
  unfold Quiet InHand; decide +kernel

/-- What WRITE_BINDING asks of the binding its octets name is met: SWAP on kind 14, and CIRCUIT_STOP, CIRCUIT_START,
SEND_CANNED and FLUSH_CLASS at the ends of their operands' ranges; action 0 names none. -/
theorem test_witness_BindingsAreReadAndWritten_named :
    (EventKind.mgmtOverrun.num.val = (14 : Byte).toNat ∧ EventKind.alignLost.num.val = (0 : Byte).toNat) ∧
    ((1 : Byte).toNat = (1 : Circuit).val ∧ (1 : Circuit) ≠ 0 ∧ (95 : Byte).toNat = (95 : Circuit).val ∧ (95 : Circuit) ≠ 0) ∧
    ((3 : Byte).toNat = (3 : Fin 4).val ∧ (3 : Byte).toNat = (3 : Machine.Class).val) ∧
    ((0 : Byte) ≠ 1 ∧ (0 : Byte) ≠ 2 ∧ (0 : Byte) ≠ 3 ∧ (0 : Byte) ≠ 4 ∧ (0 : Byte) ≠ 5) := by decide +kernel

/-! ### RESET, and the laws -/

theorem test_witness_ResetRequestsAreCarriedOut :
    (∀ b ∈ [(0 : Byte), 1, 2],
      let s := asking 0x50 [b] .reset
      Quiet s ∧ InHand .reset (request 0x50 [b]) s ∧ requestParams (request 0x50 [b]) = [b] ∧ StoreLaw s) ∧
    SettingsLaw (asking 0x50 [0] .reset) ∧
    (Quiet State.reset ∧ State.reset.engine.state ≠ .executing) ∧
    (let s : State := { State.reset with engine := { Engine.reset with state := .executing } }
     Quiet s ∧ s.engine.inHand = none) := by
  unfold Quiet InHand StoreLaw SettingsLaw
  refine ⟨?_, ?_, ?_, ?_⟩ <;> decide +kernel

theorem test_witness_QueuedBodyReadsBack :
    let s := State.reset.withPending [.tick]
    StoreLaw s ∧ PoolLaw s ∧ ∃ d t, enqueue (wanting 0 3) [1, 2, 3] s = .ok (d, t) := by
  refine ⟨by unfold StoreLaw; decide +kernel, emptied_law _ _ _ _ rfl ?_, parts ?_⟩ <;> decide +kernel

theorem test_witness_EveryStepKeepsTheLaws :
    let s := State.reset.withPending [.tick]
    PlanLaw s ∧ PoolLaw s ∧ StackLaw s ∧ StoreLaw s ∧ SettingsLaw s ∧ CapacityLaw s ∧ BindingLaw s ∧
    ∃ t, step s = .next t := by
  have none : ∀ i, (State.reset.withPending [.tick]).events.bindings.get i = none := by decide +kernel
  have binding : BindingLaw (State.reset.withPending [.tick]) :=
    ⟨fun i j x y hx => (by rw [none i] at hx; cases hx), fun i x hx => (by rw [none i] at hx; cases hx)⟩
  refine ⟨⟨?_, fun h => absurd rfl h⟩, emptied_law _ _ _ _ rfl ?_, ⟨?_, .nil, .nil, nofun⟩, ?_, ?_, ?_, binding, ⟨_, rfl⟩⟩
  all_goals (first | (unfold StoreLaw; decide +kernel) | (unfold SettingsLaw; decide +kernel) |
    (unfold CapacityLaw; decide +kernel) | decide +kernel)

/-! ### Steps, on the worked examples of spec/ -/

/-- The bootstrap positions of node addresses 1, 17 and 63 (the table under R25). -/
theorem test_bootstrap_positions :
    (bootstrapPlan 17).get 16 = ⟨.take, 0⟩ ∧ (bootstrapPlan 17).get 520 = ⟨.insert, 0⟩ ∧
    (bootstrapPlan 1).get 0 = ⟨.take, 0⟩ ∧ (bootstrapPlan 1).get 504 = ⟨.insert, 0⟩ ∧
    (bootstrapPlan 63).get 62 = ⟨.take, 0⟩ ∧ (bootstrapPlan 63).get 566 = ⟨.insert, 0⟩ ∧
    (bootstrapPlan 17).get 0 = ⟨.pass, 0⟩ := by decide +kernel

/-- The example of R73: 40 segments free, the level at 32. -/
theorem test_segment_reserve :
    let s := storing (List.replicate 40 0) (List.replicate 10 0)
    (spaceFails s 95 7 = false ∧ spaceFails s 95 8 = true) ∧ (spaceFails s 5 8 = false ∧ spaceFails s 5 40 = false) := by
  decide +kernel

/-- Step 3 of the first example of 03: the second header octet of a 40-octet message is granted two segments. -/
theorem test_header_is_granted :
    let s := receiveOctet 5 0x8C (receiving (headAt 0x28))
    (s.contexts.get 5).state = .body ∧ (s.contexts.get 5).cls = 2 ∧ (s.contexts.get 5).seq = 3 ∧
    (s.contexts.get 5).mark = false ∧ (s.contexts.get 5).bodyCount = 0 ∧ (s.circuits.get 5).held = 3 ∧
    ((s.pool.descs.get 0).map (·.chain)) = some [0, 1] ∧ s.pool.freeSegs = [2, 3, 4, 5, 6, 7] := by decide +kernel

/-- Superframes 1 and 2 of the first example of 07: the opener takes emit sequence 9, and the second header octet says
class 1, sequence 9, mark 0. -/
theorem test_message_is_emitted :
    let s : State := { storing [0] [0] with
      addQueues := State.reset.addQueues.put 5 [7]
      circuits := State.reset.circuits.change 5 fun r => { r with active := true, emitSeq := 9 } }
    let opened := emitterSupply 5 s
    let counted := emitterSupply 5 opened.2
    let described := emitterSupply 5 counted.2
    opened.1 = 0x5A ∧ (opened.2.circuits.get 5).emitSeq = 10 ∧ counted.1 = 1 ∧ described.1 = 0x64 ∧
    (emitterSupply 5 described.2).1 = 0 := by decide +kernel

/-- The examples under R87 and R97: 30 credits and a CREDIT of 5; limit 5 and stamp 100. -/
theorem test_credits_and_ages :
    (let s := acceptCredits 5 { State.reset with delivery := { Delivery.reset with credits := 30 } }
     s.delivery.credits = 32 ∧ s.delivery.discarded = 3) ∧
    ¬ 5 < ageOf 105 100 ∧ 5 < ageOf 106 100 := by decide +kernel

/-- Choices 1 and 4 of the first example of 05. -/
theorem test_search_among_classes :
    (let c := searchRound ⟨[some 300, some 200, some 248], rfl⟩ ⟨[512, 256, 256], rfl⟩ 9 0 ⟨[0, 0, 0], rfl⟩
     c.map (·.lane) = some 0 ∧ c.map (·.deficits.cells) = some [212, 256, 256]) ∧
    (let c := searchRound ⟨[some 300, some 100, none], rfl⟩ ⟨[512, 256, 256], rfl⟩ 9 2 ⟨[724, 312, 8], rfl⟩
     c.map (·.lane) = some 0 ∧ c.map (·.deficits.cells) = some [424, 312, 0]) := by decide +kernel

/-- A success begins a chain of occurrences anew (R194, R195; log entry 9): SWAP_DONE has a canned message sent, which the
pool refuses; POOL_EMPTY has a swap performed, and at its SWAP_DONE the canned message is tried again. -/
theorem test_chain_begins_anew :
    let r := storing [] [0]
    let t := raise .swapDone (some [0, 0]) { r with events := { r.events with
      canned := r.events.canned.put 0 (some ⟨[1], 0, false⟩)
      bindings := (r.events.bindings.put 0 (some ⟨.swapDone, .sendCanned 0 5, 9, .notify, true, true⟩)).put 1
        (some ⟨.poolEmpty, .swap, 1, .notify, true, true⟩) } }
    (takeOccurrences t).events.misses = 2 ∧ (takeOccurrences t).slot.active = .b := by decide +kernel

/-- A re-send offer is formed again when the level of its kind's record has changed (R186). -/
theorem test_resend_is_formed_again :
    let r := stacked 0 1 (pendingAt 3 State.reset)
    let s := makeOffer { resendOffer r ⟨0, .ageOut, 3, 1, 0⟩ with tried := true } r
    selectNotice s = s ∧ ((selectNotice (pendingAt 4 s)).arbiter.notice.map (·.tried)) = some false := by decide +kernel

/-- Three messages of class 1 over age, a response and a notice waiting, and no segment free: the response needs one, the
notice two. -/
def waitingForStorage : State :=
  let r := overAgeAt 1
  let s : State := { r with
    pool := { r.pool with
      freeSegs := []
      descs := (r.pool.descs.put 8 (some { message with chain := [10] })).put 9 (some { message with chain := [11] }) }
    delivery := { r.delivery with queues := r.delivery.queues.put 1 [7, 8, 9] }
    events := { r.events with records := r.events.records.put 3 ⟨true, 7, true, 1, some (List.replicate 30 0), 0⟩ } }
  { responding .holding (selectNotice s) with owed := { Owed.none with ages := true } }

/-- Each free has its own attempt (R77, R135): the first age-out admits the response, and the notice, which needs two
segments, is admitted after the third. A flush of the three has three attempts. -/
theorem test_each_free_has_its_attempt :
    (let s := settle waitingForStorage
     s.arbiter.notice = none ∧ s.arbiter.response = none ∧
     (s.addQueues.get 0).map (fun d => (s.pool.descs.get d).map (·.origin)) = [some .response, some .notice]) ∧
    (flushClass 1 waitingForStorage).owed.attempts = 3 := by decide +kernel

end Sys2Proof.Tests
end

section
/-!
PROOF. The trunk at rest and at reset: the judgement of marks (R1), what RST_N low leaves (R3, R107), the reset values of
every block, and trunk-out repeating trunk-in (R2).
-/

namespace Sys2Proof.Machine

/-! ### Marks -/

/-- The regular mark of a frame, as a number: Bh in the high nibble, the frame in the low one (R1). -/
theorem regularMark_toNat (f : BitVec 4) : ((0xB0 : Byte) + f.zeroExtend 8).toNat = 0xB0 + f.toNat := by
  have hf := f.isLt
  bv_omega

/-- Settles O7: the sum that `goodMark` compares with is split into its two nibbles. -/
theorem marksAreJudgedByTheTable : Obligations.MarksAreJudgedByTheTable := by
  intro f b
  have hf := f.isLt
  have regular : b = 0xB0 + f.zeroExtend 8 ↔ b.toNat / 16 = 0xB ∧ b.toNat % 16 = f.toNat := by
    rw [← BitVec.toNat_inj, regularMark_toNat]
    omega
  have last : f = 15 ↔ f.toNat = 15 := by rw [← BitVec.toNat_inj]; rfl
  have switch : b = Config.switchMark ↔ b.toNat = 0xDF := by rw [← BitVec.toNat_inj]; rfl
  simp only [goodMark, Bool.or_eq_true, Bool.and_eq_true, beq_iff_eq, regular, last, switch]

/-! ### While RST_N is low -/

/-- A command of a part held in reset does nothing (R3, R107). -/
theorem perform_held {s : State} (f : State → State) (h : s.pins.rstN = false) : perform f s = .next s := by
  simp [perform, h]

/-- A step fallen due is not taken by a part held in reset (R3, R107). -/
theorem performOwed_held {s : State} (f : State → State) (h : s.pins.rstN = false) : performOwed f s = .next s := by
  simp [performOwed, h]

/-- A row that is taken by `perform`, by `performOwed` or as a part of an attempt does nothing while RST_N is low: every
row but the three of power and RST_N, OCTET_ARRIVAL and the four that move a pin. -/
theorem exec_held {s : State} (h : s.pins.rstN = false) (i : Instr)
    (hp : ∀ straps linePresent ready, i ≠ .powerOnReset straps linePresent ready) (hr : i ≠ .resetPin)
    (hu : ∀ straps, i ≠ .rstNRise straps) (ho : ∀ b, i ≠ .octetArrival b)
    (hl : i ∉ [.tiLpFall, .tiLpRise, .readyFall, .readyRise]) : exec i s = .next s := by
  cases i with
  | powerOnReset straps linePresent ready => exact absurd rfl (hp straps linePresent ready)
  | resetPin => exact absurd rfl hr
  | rstNRise straps => exact absurd rfl (hu straps)
  | octetArrival b => exact absurd rfl (ho b)
  | tiLpFall | tiLpRise | readyFall | readyRise => simp at hl
  | stall c =>
    simp only [exec, execStall]
    split
    · exact performOwed_held _ h
    · rfl
  | ageOut q =>
    simp only [exec, execAgeOut]
    split
    · exact performOwed_held _ h
    · rfl
  | responseAdmitted => simp [exec, execResponseAdmitted, h]
  | noticeAdmitted => simp [exec, execNoticeAdmitted, h]
  | confirmWindowExpiry | creditStall | ownerLost | noticeTimeout => exact performOwed_held _ h
  | _ => exact perform_held _ h

/-- Settles O4, row by row: `perform` and `performOwed` do nothing on a part held in reset. -/
theorem rstLowHoldsThePart : Obligations.RstLowHoldsThePart := by
  intro s h
  refine ⟨fun b => ?_, ?_, ?_, ?_, ?_, fun i hp hr hu ho hl => exec_held h i hp hr hu ho hl⟩
  · simp [exec, execOctetArrival, h, setToData]
  · simp [exec, execTiLpFall, h, setLinePin]
  · simp [exec, execTiLpRise, h, setLinePin]
  · simp [exec, execReadyFall, h, setReadyPin]
  · simp [exec, execReadyRise, h, setReadyPin]

/-! ### Resets -/

/-- A table filled with one value but for its first place. -/
theorem Table.get_fill_put {α : Type} {n : Nat} [NeZero n] (a b : α) (i : Fin n) :
    ((Table.fill n a).put 0 b).get i = if i = 0 then b else a := by
  rw [Table.get_put, Table.get_fill]

/-- The free lists of the pool at reset (R84). -/
theorem Pool.reset_free : Pool.reset.freeSegs = List.finRange 1536 ∧ Pool.reset.freeDescs = List.finRange 320 := by
  simp only [Pool.reset, Pool.emptied, Config.segments, Config.descriptors, and_self]

/-- The contexts and the emitters at reset: circuit 0 in HUNT, the others STOPPED, and every emitter IDLE (R51, R140). -/
theorem resetWith_circuits (pending : List Instr) (pins : Pins) (b : Byte) (c : Circuit) :
    (((State.resetWith pending pins b).contexts.get c).state = (if c = 0 then RxState.hunt else .stopped) ∧
      ((State.resetWith pending pins b).contexts.get c).desc = none) ∧
    ((State.resetWith pending pins b).emitters.get c).state = .idle ∧
      ((State.resetWith pending pins b).emitters.get c).desc = none := by
  simp only [State.resetWith, Table.get_fill_put, Table.get_fill]
  split <;> exact ⟨⟨rfl, rfl⟩, rfl, rfl⟩

/-- Every block at its reset values, whatever node address is set. -/
theorem resetWith_values_at (pending : List Instr) (pins : Pins) (b : Byte) (address : BitVec 6) :
    ResetValues address pins.tbRdy
      { State.resetWith pending pins b with nodeAddress := address, slot := .reset address } :=
  ⟨rfl, rfl, ⟨rfl, rfl, rfl, rfl, rfl, rfl, rfl⟩, ⟨rfl, rfl, rfl, rfl, rfl, rfl, bootstrapPlan_get address⟩,
    Table.get_fill_put _ _, fun c => (resetWith_circuits pending pins b c).1,
    ⟨Pool.reset_free.1, Pool.reset_free.2, Table.get_fill _, rfl, rfl⟩,
    ⟨Table.get_fill _, Table.get_fill _, Table.get_fill _, rfl, rfl, Table.get_fill _, rfl, rfl, rfl, rfl, rfl, rfl⟩,
    ⟨rfl, rfl, rfl, rfl, rfl⟩, ⟨Table.get_fill _, fun c => (resetWith_circuits pending pins b c).2, rfl, rfl⟩,
    ⟨rfl, rfl, rfl, rfl, rfl, rfl, rfl⟩,
    ⟨Table.get_fill _, rfl, rfl, rfl, rfl, rfl, Table.get_fill _, Table.get_fill _, rfl, rfl, rfl, rfl⟩⟩

/-- Every block after a reset that samples the straps. -/
theorem resetWith_values (pending : List Instr) (pins : Pins) (b : Byte) :
    ResetValues (addressOfStraps pins.straps) pins.tbRdy (.resetWith pending pins b) :=
  resetWith_values_at pending pins b (addressOfStraps pins.straps)

/-- Every block after the reset pin, which holds the node address (log entry 14). -/
theorem pinReset_values (s : State) : ResetValues s.nodeAddress s.pins.tbRdy (pinReset s) :=
  resetWith_values_at s.pending { s.pins with rstN := false } s.toData s.nodeAddress

/-- The node address as a number (R24). -/
theorem addressOfStraps_toNat (straps : BitVec 6) :
    (addressOfStraps straps).toNat = if straps.toNat = 63 then 63 else straps.toNat + 1 := by
  have hs := straps.isLt
  have h63 : straps = 63 ↔ straps.toNat = 63 := by rw [← BitVec.toNat_inj]; rfl
  simp only [addressOfStraps, h63]
  split
  · rfl
  · bv_omega

/-- Settles O5: three of the resets are `State.resetWith` and the reset pin is `pinReset`. -/
theorem resetsSetEveryBlock : Obligations.ResetsSetEveryBlock := by
  refine ⟨fun straps linePresent ready s => ⟨?_, ?_, ?_, ?_, ?_⟩, addressOfStraps_toNat⟩
  · exact ⟨_, rfl, rfl, rfl, resetWith_values s.pending ⟨true, linePresent, ready, straps⟩ 0⟩
  · exact ⟨_, rfl, rfl, rfl, rfl, pinReset_values s⟩
  · intro h
    refine ⟨.resetWith s.pending { s.pins with rstN := true, straps := straps } s.toData, ?_, rfl, rfl, rfl,
      resetWith_values ..⟩
    simp [exec, execRstNRise, h]
  · intro h
    simp [exec, execRstNRise, h]
  · exact ⟨rfl, rfl, resetWith_values s.pending s.pins s.toData⟩

/-! ### An arrival -/

/-- An arrival at a running part: what is owed, the octet, then the occurrences raised (R2). -/
theorem exec_octetArrival {s : State} (b : Byte) (h : s.pins.rstN = true) :
    exec (.octetArrival b) s = .next (takeOccurrences (takeOctet b (settle s))) := by
  simp [exec, execOctetArrival, perform, h]

/-- Where no position is handed on, and at a mark place, the octet sent is the octet that arrived (R2). -/
theorem trunkOctet_repeats {s : State} (b : Byte)
    (h : s.align.state = .search ∨ s.align.state = .verify ∨ s.align.slot = 63) : (trunkOctet b s).1 = b := by
  unfold trunkOctet
  split
  · rfl
  · rfl
  all_goals
    rename_i hs
    simp only [hs, reduceCtorEq, false_or] at h
    simp [alignedOctet, h]

/-- Settles O11: settling what is owed leaves the alignment unit, and taking the occurrences leaves trunk-out. -/
theorem trunkOutRepeatsTrunkIn : Obligations.TrunkOutRepeatsTrunkIn := by
  intro b s h
  cases hr : s.pins.rstN with
  | false => exact ⟨_, by simp only [exec, execOctetArrival, hr]; rfl, rfl⟩
  | true =>
    refine ⟨_, exec_octetArrival b hr, ?_⟩
    have ha : (settle s).align = s.align := by simp
    simp only [hr, Bool.true_eq_false, false_or, ← ha] at h
    simpa [takeOctet] using trunkOctet_repeats b h

end Sys2Proof.Machine
end

section
/-!
PROOF. Frame alignment (R4 to R12, R15, R35): an octet in each alignment state and the line-present indication, with what
the slot engine does when alignment is lost.
-/

namespace Sys2Proof.Machine

/-! ### Occurrences raised in a row -/

/-- A kind with the detail it is raised with. -/
abbrev Raised := EventKind × Option (List Byte)

/-- Occurrences handed to the event unit in their order (R180). -/
def raisedAll (l : List Raised) (s : State) : State :=
  { s with events := { s.events with inbox := s.events.inbox ++ l.map fun x => ⟨x.1, x.2, []⟩ } }

theorem raise_eq_raisedAll (k : EventKind) (detail : Option (List Byte)) (s : State) :
    raise k detail s = raisedAll [(k, detail)] s := rfl

theorem raisedAll_raisedAll (l m : List Raised) (s : State) :
    raisedAll m (raisedAll l s) = raisedAll (l ++ m) s := by
  simp [raisedAll]

theorem raisedAll_nil (s : State) : raisedAll [] s = s := by
  simp [raisedAll]

/-- Occurrences recorded one after the other (R182). -/
def recordedAll (l : List Raised) (s : State) : State := l.foldl (fun t x => recorded x.1 x.2 t) s

/-- Occurrences of unbound kinds raised at a part that has none waiting are recorded in their order (R182). -/
theorem takeOccurrences_raisedAll {l : List Raised} {t : State} (ht : t.events.inbox = [])
    (hu : ∀ x ∈ l, Unbound x.1 t) : takeOccurrences (raisedAll l t) = recordedAll l t :=
  takeOccurrences_raised l ht (by simp [raisedAll, setInbox, ht]) hu

/-- A command of a quiet part that raises occurrences of unbound kinds, and else leaves the event unit. -/
theorem perform_raisedAll {s t : State} {f : State → State} {l : List Raised} (h : Quiet s) (hf : f s = raisedAll l t)
    (ht : t.events = s.events) (hu : ∀ x ∈ l, Unbound x.1 s) : perform f s = .next (recordedAll l t) := by
  rw [perform_quiet f h, hf, takeOccurrences_raisedAll (by rw [ht]; exact h.2.2)]
  simpa only [Unbound, ht] using hu

/-- An arrival at a quiet part that is sent on as it is, raises occurrences of unbound kinds and else leaves the event
unit. -/
theorem octetArrival_raisedAll {s u t : State} {b : Byte} {l : List Raised} (h : Quiet s)
    (hb : trunkOctet b s = (b, u)) (hs : u = raisedAll l t) (ht : t.events = s.events)
    (hu : ∀ x ∈ l, Unbound x.1 s) :
    exec (.octetArrival b) s = .next (recordedAll l { t with toData := b }) := by
  have hp : exec (.octetArrival b) s = perform (takeOctet b) s := by simp [exec, execOctetArrival, h.1]
  rw [hp]
  refine perform_raisedAll h ?_ ht hu
  rw [takeOctet, hb, hs]
  rfl

/-- An arrival at a quiet part that is sent on as it is and leaves the event unit. -/
theorem octetArrival_silent {s u t : State} {b : Byte} (h : Quiet s) (hb : trunkOctet b s = (b, u)) (hs : u = t)
    (ht : t.events = s.events) : exec (.octetArrival b) s = .next { t with toData := b } :=
  octetArrival_raisedAll h hb (hs.trans (raisedAll_nil t).symm) ht (by simp)

/-! ### SEARCH and VERIFY -/

theorem trunkOctet_search {s : State} (b : Byte) (h : s.align.state = .search) :
    trunkOctet b s = (b, searchOctet b s) := by
  simp [trunkOctet, h]

theorem trunkOctet_verify {s : State} (b : Byte) (h : s.align.state = .verify) :
    trunkOctet b s = (b, verifyOctet b s) := by
  simp [trunkOctet, h]

/-- A mark place in VERIFY. -/
theorem trunkOctet_verify_mark {s : State} {f : BitVec 4} (b : Byte) (h : MarkNext .verify f s) :
    trunkOctet b s = (b, verifyMark b s) := by
  obtain ⟨hs, hp, -⟩ := h
  rw [trunkOctet_verify b hs, verifyOctet, if_pos hp]

/-- A mark place in LOCKED or HOLDOVER. -/
theorem trunkOctet_aligned_mark {s : State} {state : AlignState} {f : BitVec 4} (b : Byte)
    (hs : state = .locked ∨ state = .holdover) (h : MarkNext state f s) : trunkOctet b s = (b, alignedMark b s) := by
  obtain ⟨rfl, hp, -⟩ := h
  rcases hs with hs | hs <;> simp [trunkOctet, hs, alignedOctet, hp]

/-- An octet in SEARCH that is not examined, or is no candidate (R4, R12). -/
theorem searchOctet_passes {s : State} {b : Byte} (h : s.pins.tiLp = false ∨ candidateFrame b = none) :
    searchOctet b s = s := by
  unfold searchOctet
  rcases h with h | h
  · simp [h]
  · split <;> simp [h]

/-- A candidate in SEARCH enters VERIFY (R4). -/
theorem searchOctet_candidate {s : State} {b : Byte} {f : BitVec 4} (hl : s.pins.tiLp = true)
    (hf : candidateFrame b = some f) :
    searchOctet b s = { s with align := { s.align with state := .verify, frame := f, slot := 0, verifyCount := 1 } } := by
  simp [searchOctet, hl, hf, setAlign]

/-- The second good mark in VERIFY (R6). -/
theorem verifyMark_second {s : State} {f : BitVec 4} {b : Byte} (h : MarkNext .verify f s) (hg : goodMark f b = true)
    (hc : s.align.verifyCount = 1) :
    verifyMark b s = { s with align := { s.align with frame := f, slot := 0, verifyCount := 2 } } := by
  obtain ⟨-, -, hf⟩ := h
  simp only [verifyMark, ← hf, hg, hc, if_true]
  rfl

/-- A bad mark in VERIFY (R6). -/
theorem verifyMark_bad {s : State} {f : BitVec 4} {b : Byte} (h : MarkNext .verify f s) (hg : goodMark f b = false) :
    verifyMark b s = { s with align := { s.align with
      state := .search, frame := 0, slot := 0, verifyCount := 1, badCount := 0
      badMarks := s.align.badMarks + 1 } } := by
  obtain ⟨-, -, hf⟩ := h
  simp only [verifyMark, ← hf, hg, Bool.false_eq_true, if_false]
  rfl

/-- The third good mark in VERIFY: LOCKED, ALIGN_GAINED raised, the slot engine told (R7, R35). -/
theorem verifyMark_third {s : State} {f : BitVec 4} {b : Byte} (h : MarkNext .verify f s) (hg : goodMark f b = true)
    (hc : s.align.verifyCount = 2) :
    verifyMark b s = raisedAll [(.alignGained, none)] { s with
      align := { s.align with state := .locked, frame := f, slot := 0, badCount := 0 }
      slot := { s.slot with aligned := true } } := by
  obtain ⟨-, -, hf⟩ := h
  have h1 : s.align.verifyCount ≠ 1 := by omega
  simp only [verifyMark, ← hf, hg, h1, if_true, if_false]
  rfl

/-- Settles O8: what each octet does in SEARCH and in VERIFY, from a quiet part. -/
theorem alignmentIsGained : Obligations.AlignmentIsGained := by
  refine ⟨fun b s h hs => ?_, fun b s h => ⟨fun hs hp => ?_, fun f hm hg hc => ?_, fun f hm hg => ?_⟩,
    fun f b s h hm hg hc hu => ?_⟩
  · have ht := trunkOctet_search b hs
    have passes (hp : s.pins.tiLp = false ∨ candidateFrame b = none) :
        exec (.octetArrival b) s = .next { s with toData := b } :=
      octetArrival_silent h ht (searchOctet_passes hp) rfl
    refine ⟨fun hl => passes (.inl hl), fun h1 h2 => passes (.inr (candidateFrame_none b h1 h2)), fun f hl hf => ?_⟩
    exact (octetArrival_silent h ht (searchOctet_candidate hl (candidateFrame_some b f hf)) rfl :)
  · have hv : verifyOctet b s = { s with align := { s.align with slot := s.align.slot + 1 } } := if_neg hp
    exact (octetArrival_silent h (trunkOctet_verify b hs) hv rfl :)
  · exact (octetArrival_silent h (trunkOctet_verify_mark b hm) (verifyMark_second hm hg hc) rfl :)
  · exact (octetArrival_silent h (trunkOctet_verify_mark b hm) (verifyMark_bad hm hg) rfl :)
  · exact (octetArrival_raisedAll h (trunkOctet_verify_mark b hm) (verifyMark_third hm hg hc) rfl (by simpa using hu) :)

/-! ### The slot engine when a swap waits -/

/-- The slot engine after an armed swap is performed (R32). -/
def SlotEngine.swapped (e : SlotEngine) (record : ArmedSwap) : SlotEngine :=
  { e with
    active := e.active.other, armed := none
    swap := if record.window = 0 then .idle else .confirmWait
    countdown := if record.window = 0 then none else some record.window }

/-- The slot engine after a revert is made (R33). -/
def SlotEngine.reverted (e : SlotEngine) : SlotEngine :=
  { e with active := e.active.other, swap := .idle, countdown := none }

/-- What a performed swap raises: SWAP_DONE of the bank then active and the cause (R32). -/
def SlotEngine.swapRaises (e : SlotEngine) (record : ArmedSwap) : List Raised :=
  [(.swapDone, some [e.active.other.code, record.cause.code])]

/-- What a revert raises: SWAP_DONE of cause REVERT, then SWAP_REVERTED (R33). -/
def SlotEngine.revertRaises (e : SlotEngine) : List Raised :=
  [(.swapDone, some [e.active.other.code, 2]), (.swapReverted, some [e.active.other.code])]

/-- An armed swap performed (R32). -/
theorem performSwap_armed {s : State} {record : ArmedSwap} (h : s.slot.armed = some record) :
    performSwap s = raisedAll (s.slot.swapRaises record) { s with slot := s.slot.swapped record } := by
  simp only [performSwap, h]
  rfl

/-- A revert made (R33). -/
theorem performRevert_eq (s : State) :
    performRevert s = raisedAll s.slot.revertRaises { s with slot := s.slot.reverted } := by
  simp only [performRevert, raise_eq_raisedAll, raisedAll_raisedAll]
  rfl

/-- What the slot engine `e` becomes and raises when alignment is lost, but for being unaligned: a swap of mode NEXT is
performed and a pending revert made, and in the other swap states nothing happens (R35). -/
inductive LossOf (e : SlotEngine) : SlotEngine → List Raised → Prop
  | stays : e.swap = .idle ∨ e.swap = .armedSignal ∨ e.swap = .confirmWait → LossOf e e []
  | swaps {record : ArmedSwap} : e.swap = .armedNext → e.armed = some record →
      LossOf e (e.swapped record) (e.swapRaises record)
  | reverts : e.swap = .revertPending → LossOf e e.reverted e.revertRaises

/-- The slot engine told that alignment is lost (R35). -/
theorem slotAlignmentLost_eq {s : State} {slot : SlotEngine} {l : List Raised} (h : LossOf s.slot slot l) :
    slotAlignmentLost s = raisedAll l { s with slot := { slot with aligned := false } } := by
  unfold slotAlignmentLost
  cases h with
  | stays h => rcases h with h | h | h <;> simp only [h, raisedAll_nil]
  | @swaps record h hr =>
    simp only [h]
    exact performSwap_armed (record := record) hr
  | reverts h =>
    simp only [h]
    exact performRevert_eq _

/-! ### LOCKED and HOLDOVER -/

/-- A good mark in LOCKED or HOLDOVER (R8, R9, R15). -/
theorem alignedMark_good {s : State} {state : AlignState} {f : BitVec 4} {b : Byte} (h : MarkNext state f s)
    (hg : goodMark f b = true) :
    alignedMark b s = { s with align := { s.align with
      state := .locked, frame := f, slot := 0, badCount := 0, latch := s.align.latch || b == 0xDF } } := by
  obtain ⟨-, -, hf⟩ := h
  simp only [alignedMark, ← hf, hg, if_true]
  rfl

/-- The state a bad mark in LOCKED or HOLDOVER leaves before it is judged whether alignment is lost (R8, R9). -/
def badMarkTaken (f : BitVec 4) (n : Nat) (s : State) : State :=
  { s with align := { s.align with
      state := .holdover, frame := f, slot := 0, badCount := n, badMarks := s.align.badMarks + 1 } }

/-- A bad mark in LOCKED or HOLDOVER, the bad count then `n` (R8, R9, R10). -/
theorem alignedMark_bad {s : State} {state : AlignState} {f : BitVec 4} {b : Byte} {n : Nat} (h : MarkNext state f s)
    (hg : goodMark f b = false) (hn : s.align.nextBad = n) :
    alignedMark b s = if n < 4 then badMarkTaken f n s else loseAlignment (badMarkTaken f n s) := by
  obtain ⟨-, -, hf⟩ := h
  simp only [alignedMark, ← hf, hg, hn, Bool.false_eq_true, if_false]
  rfl

/-- The bad count after a bad mark (R8, R9). -/
theorem nextBad_eq {a : Align} {state : AlignState} {n : Nat} (hs : a.state = state)
    (h : (state = .locked ∧ n = 1) ∨ (state = .holdover ∧ n = a.badCount + 1)) : a.nextBad = n := by
  subst hs
  rcases h with ⟨hs, rfl⟩ | ⟨hs, rfl⟩ <;> simp [Align.nextBad, hs]

/-- `s` with alignment lost and the slot engine as `slot`, unaligned (R10, R35). -/
def alignmentLost (slot : SlotEngine) (s : State) : State :=
  { s with
    align := { s.align with
      state := .search, frame := 0, slot := 0, verifyCount := 1, badCount := 0, latch := false
      losses := s.align.losses + 1 }
    slot := { slot with aligned := false } }

/-- Alignment lost: ALIGN_LOST with the bad count is raised before what the slot engine raises (R10, R35; log entry 8). -/
theorem loseAlignment_eq {s : State} {slot : SlotEngine} {l : List Raised} (h : LossOf s.slot slot l) :
    loseAlignment s = raisedAll ((.alignLost, some [octet s.align.badCount]) :: l) (alignmentLost slot s) := by
  have hs := slotAlignmentLost_eq (s := raise .alignLost (some [octet s.align.badCount])
    (setAlign { s.align.searching with latch := false, losses := s.align.losses + 1 } s)) h
  exact hs.trans <| raisedAll_raisedAll [(.alignLost, some [octet s.align.badCount])] l (alignmentLost slot s)

/-- The fourth bad mark in succession, in whatever swap state (R10, R35). -/
theorem octetArrival_fourthBad {s : State} {f : BitVec 4} {b : Byte} {slot : SlotEngine} {l : List Raised} (h : Quiet s)
    (hm : MarkNext .holdover f s) (hg : goodMark f b = false) (hc : s.align.badCount = 3) (hl : LossOf s.slot slot l)
    (hu : Unbound .alignLost s) (hus : ∀ x ∈ l, Unbound x.1 s) :
    exec (.octetArrival b) s = .next (recordedAll ((.alignLost, some [4]) :: l)
      { alignmentLost slot (badMarkTaken f 4 s) with toData := b }) := by
  have hn : s.align.nextBad = 4 := nextBad_eq hm.1 (.inr ⟨rfl, by rw [hc]⟩)
  refine octetArrival_raisedAll h (trunkOctet_aligned_mark b (.inr rfl) hm) ?_ rfl (List.forall_mem_cons.mpr ⟨hu, hus⟩)
  rw [alignedMark_bad hm hg hn, if_neg (Nat.lt_irrefl 4)]
  exact loseAlignment_eq (s := badMarkTaken f 4 s) hl

/-- Settles O9: a mark that keeps alignment raises nothing, and the fourth bad one loses it in each swap state. -/
theorem marksHoldAlignment : Obligations.MarksHoldAlignment := by
  refine ⟨fun state f b s h hs hm => ⟨fun hg => ?_, fun n hg hn h4 => ?_⟩, fun f b s h hm hg hc hu => ⟨fun hs => ?_, ?_, ?_⟩⟩
  · exact (octetArrival_silent h (trunkOctet_aligned_mark b hs hm) (alignedMark_good hm hg) rfl :)
  · have ha := alignedMark_bad hm hg (nextBad_eq hm.1 hn)
    rw [if_pos h4] at ha
    exact (octetArrival_silent h (trunkOctet_aligned_mark b hs hm) ha rfl :)
  · exact octetArrival_fourthBad h hm hg hc (.stays hs) hu (by simp)
  · intro record hs hr hd
    exact octetArrival_fourthBad h hm hg hc (.swaps hs hr) hu (by simpa [SlotEngine.swapRaises] using hd)
  · intro hs hd hv
    exact octetArrival_fourthBad h hm hg hc (.reverts hs) hu (by simpa [SlotEngine.revertRaises] using ⟨hd, hv⟩)

/-! ### Line presence -/

/-- TI_LP falls at a quiet part (R11). -/
theorem exec_tiLpFall {s : State} (h : Quiet s) :
    exec .tiLpFall s = perform (fun t => takeLineFall (setLinePin false t)) s := by
  simp [exec, execTiLpFall, h.1]

/-- TI_LP falls where that raises nothing (R11). -/
theorem tiLpFall_silent {s t : State} (h : Quiet s) (hs : takeLineFall (setLinePin false s) = t)
    (ht : t.events = s.events) : exec .tiLpFall s = .next t := by
  rw [exec_tiLpFall h]
  exact perform_raisedAll (l := []) h (hs.trans (raisedAll_nil t).symm) ht (by simp)

/-- TI_LP falls while alignment holds, in whatever swap state (R10, R11, R35). -/
theorem tiLpFall_aligned {s : State} {slot : SlotEngine} {l : List Raised} (h : Quiet s)
    (hs : s.align.state = .locked ∨ s.align.state = .holdover) (hl : LossOf s.slot slot l) (hu : Unbound .alignLost s)
    (hus : ∀ x ∈ l, Unbound x.1 s) :
    exec .tiLpFall s = .next (recordedAll ((.alignLost, some [octet s.align.badCount]) :: l)
      (alignmentLost slot (setLinePin false s))) := by
  have hf : takeLineFall (setLinePin false s) = loseAlignment (setLinePin false s) := by
    rcases hs with hs | hs <;> simp [takeLineFall, hs]
  rw [exec_tiLpFall h]
  exact perform_raisedAll h (hf.trans (loseAlignment_eq (s := setLinePin false s) hl)) rfl
    (List.forall_mem_cons.mpr ⟨hu, hus⟩)

/-- Settles O10: a fall by alignment state and swap state, and a rise. -/
theorem linePresenceIsTaken : Obligations.LinePresenceIsTaken := by
  intro s h
  refine ⟨fun hs hu => ⟨fun hi => ?_, ?_, ?_⟩, fun hs => ?_, fun hs => ?_, ?_⟩
  · exact tiLpFall_aligned h hs (.stays hi) hu (by simp)
  · intro record hn hr hd
    exact tiLpFall_aligned h hs (.swaps hn hr) hu (by simpa [SlotEngine.swapRaises] using hd)
  · intro hn hd hv
    exact tiLpFall_aligned h hs (.reverts hn) hu (by simpa [SlotEngine.revertRaises] using ⟨hd, hv⟩)
  · refine tiLpFall_silent h ?_ rfl
    simp only [takeLineFall, setLinePin_frame, hs]
    rfl
  · refine tiLpFall_silent h ?_ rfl
    simp only [takeLineFall, setLinePin_frame, hs]
    rfl
  · have hp : exec .tiLpRise s = perform (setLinePin true) s := by simp [exec, execTiLpRise, h.1]
    rw [hp]
    exact perform_silent h h.2.2

end Sys2Proof.Machine
end

section
/-!
PROOF. Payload octets at the slot engine (R13, R21, R22), and the superframe boundary after the octet of position 1007 in
each swap state (R14, R32, R33, R36).
-/

namespace Sys2Proof.Machine

/-! ### What the entry of a position does -/

/-- `s` with the payload octet of the next slot under way. -/
def slotAdvanced (s : State) : State := { s with align := { s.align with slot := s.align.slot + 1 } }

theorem slotAction_pass (c : Circuit) (b : Byte) (s : State) : slotAction ⟨.pass, c⟩ b s = (b, s) := rfl

/-- TAP and TAKE send the octet and the idle octet, and give the octet to the circuit unless it is STOPPED (R21, R22). -/
theorem slotAction_drop (c : Circuit) (b : Byte) (s : State) :
    slotAction ⟨.tap, c⟩ b s = (b, dropOctet c b s) ∧ slotAction ⟨.take, c⟩ b s = (0xC3, dropOctet c b s) := ⟨rfl, rfl⟩

theorem dropOctet_active {c : Circuit} {s : State} (b : Byte) (h : (s.circuits.get c).active = true) :
    dropOctet c b s = receiveOctet c b s := if_pos h

theorem dropOctet_stopped {c : Circuit} {s : State} (b : Byte) (h : (s.circuits.get c).active = false) :
    dropOctet c b s = s := by
  simp [dropOctet, h]

theorem slotAction_insert_active {c : Circuit} {s : State} (b : Byte) (h : (s.circuits.get c).active = true) :
    slotAction ⟨.insert, c⟩ b s = emitterSupply c s := by
  simp [slotAction, h]

theorem slotAction_insert_stopped {c : Circuit} {s : State} (b : Byte) (h : (s.circuits.get c).active = false) :
    slotAction ⟨.insert, c⟩ b s = (0xC3, s) := by
  simp [slotAction, h]

/-! ### Before position 1007 -/

/-- A payload octet before position 1007 at a quiet part, by what its entry does (R13, R21). -/
theorem octetArrival_payload {s u : State} {b x : Byte} {p : Nat} {e : PlanEntry} (h : Quiet s) (hp : p < 1007)
    (hn : PayloadNext p e s) (ha : slotAction e b (slotAdvanced s) = (x, u)) :
    exec (.octetArrival b) s = .next (takeOccurrences { u with toData := x }) := by
  have ht := takeOctet_payload b hn hp
  rw [exec_octetArrival b h.1, settle_none h.2.1, ht]
  change Host.Outcome.next (takeOccurrences { (slotAction e b (slotAdvanced s)).2 with
    toData := (slotAction e b (slotAdvanced s)).1 }) = _
  rw [ha]

/-- A payload octet before position 1007 whose entry touches nothing but trunk-out (R22). -/
theorem octetArrival_payload_silent {s : State} {b x : Byte} {p : Nat} {e : PlanEntry} (h : Quiet s) (hp : p < 1007)
    (hn : PayloadNext p e s) (ha : slotAction e b (slotAdvanced s) = (x, slotAdvanced s)) :
    exec (.octetArrival b) s = .next { slotAdvanced s with toData := x } := by
  rw [octetArrival_payload h hp hn ha]
  exact congrArg _ (takeOccurrences_empty h.2.2)

/-- Settles O12: the entry's action, for a STOPPED and for an ACTIVE circuit. -/
theorem entriesHandlePayload : Obligations.EntriesHandlePayload := by
  intro b p c s h hp here
  have drop := slotAction_drop c b here
  refine ⟨fun hn => ?_, fun hc => ?_, fun hc => ?_⟩
  · exact octetArrival_payload_silent h hp hn (slotAction_pass c b _)
  · rw [dropOctet_stopped (s := here) b hc] at drop
    exact ⟨fun hn => octetArrival_payload_silent h hp hn drop.1, fun hn => octetArrival_payload_silent h hp hn drop.2,
      fun hn => octetArrival_payload_silent h hp hn (slotAction_insert_stopped b hc)⟩
  · rw [dropOctet_active (s := here) b hc] at drop
    exact ⟨fun hn => octetArrival_payload h hp hn drop.1, fun hn => octetArrival_payload h hp hn drop.2,
      fun hn => octetArrival_payload h hp hn (slotAction_insert_active b hc)⟩

/-! ### The boundary in each swap state -/

/-- What the slot engine `e` becomes and raises at a boundary, with or without a switch: an armed swap of mode NEXT is
performed, one of mode SIGNAL with a switch, and a pending revert is made (R32, R33, R36). -/
inductive BoundaryOf (e : SlotEngine) (withSwitch : Bool) : SlotEngine → List Raised → Prop
  | stays : e.swap = .idle ∨ e.swap = .confirmWait ∨ (e.swap = .armedSignal ∧ withSwitch = false) →
      BoundaryOf e withSwitch e []
  | swaps {record : ArmedSwap} : e.swap = .armedNext ∨ (e.swap = .armedSignal ∧ withSwitch = true) →
      e.armed = some record → BoundaryOf e withSwitch (e.swapped record) (e.swapRaises record)
  | reverts : e.swap = .revertPending → BoundaryOf e withSwitch e.reverted e.revertRaises

/-- The slot engine at a boundary (R36). -/
theorem slotBoundary_eq {s : State} {withSwitch : Bool} {slot : SlotEngine} {l : List Raised}
    (h : BoundaryOf s.slot withSwitch slot l) : slotBoundary withSwitch s = raisedAll l { s with slot := slot } := by
  unfold slotBoundary
  cases h with
  | stays h => rcases h with h | h | ⟨h, hw⟩ <;> simp [raisedAll_nil, *]
  | swaps h hr => rcases h with h | ⟨h, hw⟩ <;> simp [performSwap_armed hr, *]
  | reverts h => simp only [h, performRevert_eq]

/-! ### After position 1007 -/

/-- The boundary announced with the latch, which is cleared, unless a FULL reset has taken alignment away (R14, R157). -/
def boundaryAnnounced (t : State) : State :=
  if t.align.state = .search then t else slotBoundary t.align.latch { t with align := { t.align with latch := false } }

/-- The position after 1007 is the mark place (R13). -/
theorem slotAdvanced_1007 {s : State} {e : PlanEntry} (hn : PayloadNext 1007 e s) :
    slotAdvanced s = { s with align := { s.align with slot := 63 } } := by
  obtain ⟨-, h63, hp, -⟩ := hn
  have hslot : s.align.slot + 1 = 63 := by
    have hf := s.align.frame.isLt
    bv_omega
  rw [slotAdvanced, hslot]

/-- The octet of position 1007 at a quiet part: handled by the entry, the boundary announced, then the occurrences raised
taken (R14, R36; log entry 27). -/
theorem octetArrival_1007 {s u : State} {b x : Byte} {e : PlanEntry} (h : Quiet s) (hn : PayloadNext 1007 e s)
    (ha : slotAction e b { s with align := { s.align with slot := 63 } } = (x, u)) :
    exec (.octetArrival b) s = .next (takeOccurrences { boundaryAnnounced u with toData := x }) := by
  rw [← slotAdvanced_1007 hn] at ha
  have hb : boundaryAfter 1007 (slotAction e b (slotAdvanced s)).2 = boundaryAnnounced (slotAction e b (slotAdvanced s)).2 :=
    boundaryAfter_1007 (s := slotAdvanced s) hn.1
  have ht : trunkOctet b s = (x, boundaryAnnounced u) := by
    rw [trunkOctet_payload b hn]
    change ((slotAction e b (slotAdvanced s)).1, boundaryAfter 1007 (slotAction e b (slotAdvanced s)).2) = _
    rw [hb, ha]
  rw [exec_octetArrival b h.1, settle_none h.2.1, takeOctet, ht]
  rfl

/-- The octet of position 1007 passed on, in whatever swap state (R14, R36). -/
theorem octetArrival_1007_pass {s : State} {b : Byte} {c : Circuit} {slot : SlotEngine} {l : List Raised} (h : Quiet s)
    (hn : PayloadNext 1007 ⟨.pass, c⟩ s) (hl : BoundaryOf s.slot s.align.latch slot l) (hu : ∀ x ∈ l, Unbound x.1 s) :
    exec (.octetArrival b) s = .next (recordedAll l
      { s with toData := b, align := { s.align with slot := 63, latch := false }, slot := slot }) := by
  have hs : s.align.state ≠ .search := by rcases hn.1 with hs | hs <;> simp [hs]
  rw [octetArrival_1007 h hn (slotAction_pass c b _), boundaryAnnounced, if_neg hs]
  rw [slotBoundary_eq (s := { s with align := { s.align with slot := 63, latch := false } }) hl]
  exact congrArg _ (takeOccurrences_raisedAll (t := { s with
    toData := b, align := { s.align with slot := 63, latch := false }, slot := slot }) h.2.2 hu)

/-- Settles O13: the boundary by swap state, after each entry of position 1007. -/
theorem boundariesTakeTheSwap : Obligations.BoundariesTakeTheSwap := by
  refine ⟨fun b c s h hn => ⟨?_, fun hs => ?_, ?_⟩, fun b c s h => ?_, fun withSwitch s => ⟨fun hs => ?_, ?_, fun hs => ?_⟩⟩
  · intro record hs hr hd
    exact octetArrival_1007_pass h hn (.swaps hs hr) (by simpa [SlotEngine.swapRaises] using hd)
  · exact octetArrival_1007_pass h hn (.stays hs) (by simp)
  · intro hs hd hv
    exact octetArrival_1007_pass h hn (.reverts hs) (by simpa [SlotEngine.revertRaises] using ⟨hd, hv⟩)
  · intro here announced
    have drop := slotAction_drop c b here
    refine ⟨fun hc => ?_, fun hc => ?_⟩
    · rw [dropOctet_stopped (s := here) b hc] at drop
      refine ⟨fun hn => octetArrival_1007 h hn drop.1, ?_⟩
      rintro (hn | hn)
      · exact octetArrival_1007 h hn drop.2
      · exact octetArrival_1007 h hn (slotAction_insert_stopped (s := here) b hc)
    · rw [dropOctet_active (s := here) b hc] at drop
      exact ⟨fun hn => octetArrival_1007 h hn drop.1, fun hn => octetArrival_1007 h hn drop.2,
        fun hn => octetArrival_1007 h hn (slotAction_insert_active (s := here) b hc)⟩
  · rw [slotBoundary_eq (.stays hs), raisedAll_nil]
  · intro record hs hr
    exact slotBoundary_eq (.swaps hs hr)
  · exact slotBoundary_eq (.reverts hs)

end Sys2Proof.Machine
end

section
/-!
PROOF. The tick (R17, R18): what each mechanism that counts in ticks becomes, and what falls due.
-/

namespace Sys2Proof.Machine

/-! ### The receive contexts -/

/-- The stall timer runs outside STOPPED and HUNT (R63). -/
theorem timed_iff (x : RxState) : x.timed = true ↔ x ≠ .stopped ∧ x ≠ .hunt := by
  cases x <;> decide

/-- The tick at one context (R63). -/
theorem tickContext_eq (ctx : RxContext) :
    tickContext ctx =
      if ctx.state = .stopped ∨ ctx.state = .hunt then ctx else { ctx with timer := min (ctx.timer + 1) 1000 } := by
  by_cases h : ctx.state = .stopped ∨ ctx.state = .hunt
  · have ht : ctx.state.timed = false := by rcases h with h | h <;> rw [h] <;> rfl
    simp [tickContext, ht, h]
  · have ht : ctx.state.timed = true := (timed_iff _).mpr (not_or.mp h)
    simp [tickContext, ht, h]

/-- Whether a context stalls at the tick that raises its timer (R63). -/
theorem stalled_tickContext (r : CircuitRecord) (ctx : RxContext) :
    stalled r (tickContext ctx) = decide (ctx.state ≠ .stopped ∧ ctx.state ≠ .hunt ∧ r.stallLimit ≠ 0 ∧
      r.stallLimit ≤ min (ctx.timer + 1) 1000) := by
  by_cases ht : ctx.state.timed = true
  · obtain ⟨h1, h2⟩ := (timed_iff _).mp ht
    simp only [stalled, tickContext, ht, if_true, Bool.true_and, bne, Bool.decide_and, h1, h2, ne_eq, not_false_eq_true,
      decide_true, decide_not]
    rfl
  · have h : ¬ (ctx.state ≠ .stopped ∧ ctx.state ≠ .hunt) := fun h => ht ((timed_iff _).mpr h)
    simp only [stalled, tickContext, ht, if_false, Bool.false_and, Bool.false_eq_true]
    exact (decide_eq_false fun h' => h ⟨h'.1, h'.2.1⟩).symm

/-- The circuits whose context stalls at a tick (R63). -/
theorem stalledCircuits_ticked (s : State) :
    stalledCircuits { s with contexts := s.contexts.map tickContext } = (List.finRange 96).filter fun c =>
      decide ((s.contexts.get c).state ≠ .stopped ∧ (s.contexts.get c).state ≠ .hunt ∧
        (s.circuits.get c).stallLimit ≠ 0 ∧ (s.circuits.get c).stallLimit ≤ min ((s.contexts.get c).timer + 1) 1000) := by
  simp only [stalledCircuits, Table.get_map, stalled_tickContext]

/-! ### The tick as a whole -/

/-- The state the mechanisms after the receive contexts find at a tick of a part that owes nothing, with what those before
them have made of their own blocks and made due. -/
def ticked (slot : SlotEngine) (delivery : Delivery) (engine : Engine) (owed : Owed) (s : State) : State :=
  { s with
    tickCounter := s.tickCounter + 1, contexts := s.contexts.map tickContext, slot := slot, delivery := delivery
    engine := engine
    owed := { owed with stalls := stalledCircuits { s with contexts := s.contexts.map tickContext } } }

/-- Settles O31: the five mechanisms change fields apart from each other, so each finds its own as the tick found it. -/
theorem tickIsTaken : Obligations.TickIsTaken := by
  intro s now h hnow
  obtain ⟨hr, ho, hi⟩ := h
  obtain ⟨sl, cf, hconfirm, hcount, hstill⟩ := tickConfirm_shape (ticked s.slot s.delivery s.engine .none s)
  obtain ⟨dl, ag, cs, hdelivery, hover, hunder⟩ :=
    tickDelivery_shape (ticked sl s.delivery s.engine { Owed.none with confirm := cf } s)
  obtain ⟨en, ol, hlease, howned, hfree⟩ := tickLease_shape
    (ticked sl dl s.engine { Owed.none with confirm := cf, ages := ag, creditStall := cs } s)
  obtain ⟨ev, nt, hnotice, -, htop, hempty⟩ := tickNotice_shape
    (ticked sl dl en { Owed.none with confirm := cf, ages := ag, creditStall := cs, ownerLost := ol } s)
  have htake : takeTick s = { ticked sl dl en
      { Owed.none with confirm := cf, ages := ag, creditStall := cs, ownerLost := ol, noticeTimeout := nt } s with
      events := ev } := by
    have hc : tickContexts { s with tickCounter := s.tickCounter + 1 } = ticked s.slot s.delivery s.engine .none s := by
      simp only [tickContexts, ho]
      rfl
    rw [takeTick, hc, hconfirm]
    exact (congrArg (fun t => tickNotice (tickLease t)) hdelivery).trans
      ((congrArg tickNotice hlease).trans hnotice)
  have hage (q : Class) : headOverAge (ticked sl s.delivery s.engine { Owed.none with confirm := cf } s) q =
      headOverAge now q := by rw [hnow]; exact headOverAge_congr rfl rfl rfl q
  have hcd : now.owed.creditStall = none := by rw [hnow]; exact congrArg Owed.creditStall ho
  refine ⟨takeTick s, perform_silent ⟨hr, ho, hi⟩ (by simpa using hi), ?_⟩
  rw [htake]
  refine ⟨rfl, fun c => ?_, stalledCircuits_ticked s, fun n hw hc => ?_, hstill, fun hq => ?_, fun hq => ?_,
    fun id epoch n hw => ?_, hfree, fun top below hst hh h1 => ?_, hempty, rfl, rfl⟩
  · exact (Table.get_map ..).trans (tickContext_eq _)
  · obtain ⟨h1, h2⟩ := hcount n hw hc
    exact ⟨h1, by simp [ticked, h2, Owed.none]⟩
  · exact hover (by simpa only [hage] using hq)
  · obtain ⟨h1, h2⟩ := hunder (by simpa only [hage] using hq)
    obtain ⟨h3, h4⟩ := h2 now (by rw [hnow]; rfl) hcd
    exact ⟨h3, h1, h4⟩
  · obtain ⟨h1, h2⟩ := howned id epoch n hw
    exact ⟨h1, by simp [ticked, h2, Owed.none]⟩
  · obtain ⟨h2, h3⟩ := htop top below hst hh h1
    exact ⟨h2, by simp [ticked, h3, Owed.none]⟩

end Sys2Proof.Machine
end

section
/-!
PROOF. The timers of the delivery unit: ages, the credit-stall check of a tick, and the rows AGE_OUT and CREDIT_STALL
(R17, R97, R99).
-/

namespace Sys2Proof.Machine

/-! ### The credit-stall check -/

/-- The condition of a credit stall (R99). -/
theorem creditStalled_iff (s : State) : (anyQueued s && s.delivery.credits == 0) = true ↔
    (∃ q, s.delivery.queues.get q ≠ []) ∧ s.delivery.credits = 0 := by
  rw [Bool.and_eq_true, anyQueued_iff, beq_iff_eq]

/-- The number of queued messages, class by class (R99). -/
theorem queuedCount_eq (s : State) : queuedCount s =
    (s.delivery.queues.get 0).length + (s.delivery.queues.get 1).length +
      (s.delivery.queues.get 2).length + (s.delivery.queues.get 3).length := by
  simp [queuedCount, Table.cells_four, Nat.add_assoc]

/-- The check of a tick where queued messages want a credit (R99). -/
theorem creditStallCheck_stalled {s : State} (h : (∃ q, s.delivery.queues.get q ≠ []) ∧ s.delivery.credits = 0) :
    creditStallCheck s = { s with
      delivery := { s.delivery with stallTimer := min (s.delivery.stallTimer + 1) 1000 }
      owed := { s.owed with creditStall :=
        if s.delivery.stallLimit ≠ 0 ∧ s.delivery.stallLimit ≤ min (s.delivery.stallTimer + 1) 1000 ∧
            s.delivery.stallReported = false then some (queuedCount s)
        else s.owed.creditStall } } := by
  have due : (s.delivery.stallLimit != 0 && s.delivery.stallLimit ≤ min (s.delivery.stallTimer + 1) Config.timerLimit &&
      !s.delivery.stallReported) = true ↔ s.delivery.stallLimit ≠ 0 ∧
        s.delivery.stallLimit ≤ min (s.delivery.stallTimer + 1) 1000 ∧ s.delivery.stallReported = false := by
    rw [Bool.and_eq_true, Bool.and_eq_true, bne_iff_ne, decide_eq_true_iff, Bool.not_eq_true', and_assoc]
  rw [creditStallCheck, if_pos ((creditStalled_iff s).mpr h)]
  simp only [due]
  split <;> rfl

/-- The check of a tick with nothing queued or a credit held (R99). -/
theorem creditStallCheck_clear {s : State} (h : ¬ ((∃ q, s.delivery.queues.get q ≠ []) ∧ s.delivery.credits = 0)) :
    creditStallCheck s = { s with delivery := { s.delivery with stallTimer := 0 } } := by
  rw [creditStallCheck, if_neg (fun hc => h ((creditStalled_iff s).mp hc))]

/-! ### Ages -/

/-- An age in plain arithmetic (R17). -/
theorem ageOf_eq (tick stamp : Word) : ageOf tick stamp = (tick.toNat + 65536 - stamp.toNat) % 65536 := by
  have hs := stamp.isLt
  rw [ageOf, BitVec.toNat_sub]
  congr 1
  omega

/-- The head of a class queue is over age when its age exceeds a limit that is not 0 (R97). -/
theorem headOverAge_iff {s : State} {q : Class} {d : DescNo} {rest : List DescNo} {x : Descriptor} {stamp : Word}
    (hq : s.delivery.queues.get q = d :: rest) (hx : s.pool.descs.get d = some x) (hs : x.stamp = some stamp) :
    headOverAge s q = true ↔
      s.delivery.ageLimits.get q ≠ 0 ∧ s.delivery.ageLimits.get q < ageOf s.tickCounter stamp := by
  simp [headOverAge, hq, hx, hs]

/-! ### The rows -/

theorem exec_ageOut (q : Class) (s : State) : exec (.ageOut q.val) s = performOwed (ageOutOwed q) s :=
  dif_pos q.isLt

/-- A row of a step that a quiet part does not owe changes nothing (log entry 4). -/
theorem performOwed_quiet {s : State} {f : State → State} (h : Quiet s) (hf : f s = s) : performOwed f s = .next s := by
  obtain ⟨hr, ho, hi⟩ := h
  rw [performOwed_eq f hr (by rw [ho]; rfl) (by rw [ho]; rfl) hi, hf, takeOccurrences_empty hi,
    endAgeCheck_none (by rw [ho]; rfl)]

/-- A row of a step owed that raises one occurrence of an unbound kind. -/
theorem performOwed_raise {s t : State} {f : State → State} {k : EventKind} {detail : Option (List Byte)} {o : Owed}
    (h : Owing o s) (ha : o.attempts = 0) (hp : o.partTwo = false) (hf : f s = raise k detail t)
    (ht : t.events = s.events) (hu : Unbound k s) :
    performOwed f s = .next (endAgeCheck (recorded k detail t)) := by
  obtain ⟨hr, rfl, hi⟩ := h
  rw [performOwed_eq f hr ha hp hi, takeOccurrences_raise hf (by rw [ht]; exact hi)]
  simpa only [Unbound, ht] using hu

/-- The head of a class queue aged out (R97). -/
theorem ageOutHead_eq {s : State} {q : Class} {d : DescNo} {rest : List DescNo} {x : Descriptor}
    (hq : s.delivery.queues.get q = d :: rest) (hx : s.pool.descs.get d = some x) :
    ageOutHead q s = raise .ageOut (some [octet q.val, octet x.circuit.val])
      (counted x.circuit (fun k => { k with agedOut := k.agedOut + 1 }) (released d x
        { s with delivery := { s.delivery with queues := s.delivery.queues.put q rest } })) := by
  have hf : free d (setClassQueue q rest s) = released d x (setClassQueue q rest s) := free_eq_released hx
  simp only [ageOutHead, hq, hx, hf]
  rfl

/-- What a free leaves of the event unit and of the steps of a tick (R78). -/
theorem counted_released_frame {s : State} (c : Circuit) (f : CircuitCounters → CircuitCounters) {d : DescNo}
    (x : Descriptor) :
    (counted c f (released d x s)).events = s.events ∧ (counted c f (released d x s)).owed.ages = s.owed.ages := by
  simp only [counted, released, informed]
  split <;> exact ⟨rfl, rfl⟩

/-- AGE_OUT of an over-age head: the head aged out and its occurrence recorded, then the end of the age check (R97). -/
theorem exec_ageOut_owed {s : State} {q : Class} {d : DescNo} {rest : List DescNo} {x : Descriptor}
    (h : Owing { Owed.none with ages := true } s) (hq : s.delivery.queues.get q = d :: rest)
    (hx : s.pool.descs.get d = some x) (ho : headOverAge s q = true) (hu : Unbound .ageOut s) :
    exec (.ageOut q.val) s = .next (endAgeCheck (recorded .ageOut (some [octet q.val, octet x.circuit.val])
      (counted x.circuit (fun k => { k with agedOut := k.agedOut + 1 }) (released d x
        { s with delivery := { s.delivery with queues := s.delivery.queues.put q rest } })))) := by
  have ha : s.owed.ages = true := by rw [h.2.1]
  have hf : ageOutOwed q s = ageOutHead q s := if_pos (by rw [ha, ho]; rfl)
  rw [exec_ageOut]
  exact performOwed_raise h rfl rfl (hf.trans (ageOutHead_eq hq hx)) (counted_released_frame ..).1 hu

/-- With a head over age the age check goes on (R97). -/
theorem endAgeCheck_goes_on {t : State} (h : ∃ c, headOverAge t c = true) : endAgeCheck t = t := by
  have he : ¬ (overAgeClasses t).isEmpty = true := by
    rw [overAgeClasses_empty]
    obtain ⟨c, hc⟩ := h
    exact fun hn => by simp [hn c] at hc
  simp [endAgeCheck, he]

/-- With no head over age the age check under way ends, and the credit-stall check follows (R97, R99). -/
theorem endAgeCheck_ends {t : State} (ha : t.owed.ages = true) (h : ∀ c, headOverAge t c = false) :
    endAgeCheck t = creditStallCheck { t with owed := { t.owed with ages := false } } := by
  rw [endAgeCheck, if_pos (by rw [ha, (overAgeClasses_empty t).mpr h]; rfl)]

/-- Settles O30: the check of a tick by its condition, the judgement of a head, and the two rows owed and not owed. -/
theorem deliveryTimersAreJudged : Obligations.DeliveryTimersAreJudged := by
  refine ⟨fun s => ⟨fun h => ?_, creditStallCheck_clear⟩, fun q s => ⟨fun hq => ?_, fun d rest x stamp hq hx hs => ?_⟩,
    fun q d rest x stamp n s => ⟨fun h hq hx hs hl ha hu => ?_, fun h hu => ?_, fun h => ⟨?_, ?_⟩⟩⟩
  · rw [creditStallCheck_stalled h, queuedCount_eq]
  · simp [headOverAge, hq]
  · rw [headOverAge_iff hq hx hs, ageOf_eq]
  · intro t
    have ht := exec_ageOut_owed h hq hx ((headOverAge_iff hq hx hs).mpr ⟨hl, ha⟩) hu
    have hages : t.owed.ages = true := by
      rw [(recorded_owed ..).2.2.1, (counted_released_frame ..).2, h.2.1]
    exact ⟨fun hc => ht.trans (congrArg _ (endAgeCheck_goes_on hc)),
      fun hc => ht.trans (congrArg _ (endAgeCheck_ends hages hc))⟩
  · have hf : creditStallOwed s = raise .creditStall (some [octet (n / 256), octet n]) { s with
        owed := .none, delivery := { s.delivery with stallReported := true } } := by
      simp only [creditStallOwed, h.2.1]
      rfl
    refine (performOwed_raise h rfl rfl hf rfl hu).trans ?_
    rw [endAgeCheck_none (by rw [(recorded_owed ..).2.2.1]; rfl)]
  · rw [exec_ageOut]
    exact performOwed_quiet h (by simp [ageOutOwed, h.2.1, Owed.none])
  · exact performOwed_quiet h (creditStallOwed_off (by rw [h.2.1]; rfl))

end Sys2Proof.Machine
end

section
/-!
PROOF. What is owed comes first (R18, R135; log entries 6 and 7): each row of a step owed leaves a state that a later
command settles as it settles the state the row found.
-/

namespace Sys2Proof.Machine

/-- A command that is none of the rows of what is owed, and none of the three of power and RST_N, does on `s` what it does
on `t`. -/
def FoundAlike (s t : State) : Prop := ∀ i, actsFirst i = false → exec i s = exec i t

/-- What is owed beside attempts, item by item. -/
theorem Owed.timed_fields {a o : Owed} (h : a.timed = o) :
    a.stalls = o.stalls ∧ a.confirm = o.confirm ∧ a.ages = o.ages ∧ a.creditStall = o.creditStall ∧
    a.ownerLost = o.ownerLost ∧ a.noticeTimeout = o.noticeTimeout ∧ a.partTwo = o.partTwo := by
  subst h
  exact ⟨rfl, rfl, rfl, rfl, rfl, rfl, rfl⟩

/-! ### Attempts -/

theorem takeOccurrences_partTwo (s : State) : (takeOccurrences s).owed.partTwo = s.owed.partTwo := by
  have h : (takeOccurrences s).owed.timed.partTwo = s.owed.timed.partTwo := by rw [takeOccurrences_timed]
  exact h

theorem responsePartOwed_partTwo (s : State) : (responsePartOwed s).owed.partTwo = false :=
  congrArg Owed.partTwo (responsePartOwed_timed s)

theorem attemptTaken_partTwo (s : State) : (attemptTaken s).owed.partTwo = false :=
  congrArg Owed.partTwo (attemptTaken_timed s)

/-- RESPONSE_ADMITTED at a running part. -/
theorem exec_responseAdmitted {s : State} (h : s.pins.rstN = true) :
    exec .responseAdmitted s = .next (responseStep s) := by
  simp [exec, execResponseAdmitted, h]

/-- RESPONSE_ADMITTED with an attempt begun is its second part, and else the whole of the next attempt (R135). -/
theorem responseStep_eq (s : State) : responseStep s =
    if s.owed.partTwo then takeOccurrences (responsePartOwed s) else attemptTaken s := by
  unfold responseStep attemptTaken
  split <;> rfl

/-- A part with no attempt under way and no occurrence waiting takes the attempts owed, and nothing else, first. -/
theorem attemptsFirst_eq {s : State} (hp : s.owed.partTwo = false) (hi : s.events.inbox = []) :
    attemptsFirst s = attemptsTaken s := by
  rw [attemptsFirst, responsePartOwed_off hp, takeOccurrences_empty hi]

/-- Two parts with no occurrence waiting that come to the same state by the attempts settle to the same state. -/
theorem settle_congr {s t : State} (hs : s.events.inbox = []) (ht : t.events.inbox = [])
    (h : attemptsFirst s = attemptsFirst t) : settle s = settle t :=
  calc settle s = settleTick (attemptsFirst s) := settle_eq hs
    _ = settleTick (attemptsFirst t) := congrArg settleTick h
    _ = settle t := (settle_eq ht).symm

/-- The second part of an attempt begun is what settling takes first. -/
theorem settle_responseStep {s : State} (hi : s.events.inbox = []) (hp : s.owed.partTwo = true) :
    settle s = settle (responseStep s) := by
  have ht : responseStep s = takeOccurrences (responsePartOwed s) := by rw [responseStep_eq, if_pos hp]
  have hp' : (responseStep s).owed.partTwo = false := by rw [ht, takeOccurrences_partTwo, responsePartOwed_partTwo]
  have hi' : (responseStep s).events.inbox = [] := by rw [ht, takeOccurrences_inbox]
  refine settle_congr hi hi' (Eq.trans ?_ (attemptsFirst_eq hp' hi').symm)
  rw [ht, attemptsFirst]

/-- Attempts taken in a row by RESPONSE_ADMITTED, the last leaving none owed, are the attempts a command finds taken, if
the bound allows them (R135; log entry 7). -/
theorem attemptsFirst_run {n : Nat} {run : Nat → State} (hr : (run 0).pins.rstN = true)
    (hi : (run 0).events.inbox = []) (hp : (run 0).owed.partTwo = false) (hn : n ≤ (run 0).owed.attempts + 1024)
    (hrun : ∀ m, m < n → (run m).owed.attempts ≠ 0 ∧ exec .responseAdmitted (run m) = .next (run (m + 1)))
    (hz : (run n).owed.attempts = 0) :
    attemptsFirst (run 0) = run n ∧ (run n).pins.rstN = true ∧ (run n).events.inbox = [] ∧
      (run n).owed.partTwo = false := by
  have one {s t : State} (hs : s.pins.rstN = true) (hsp : s.owed.partTwo = false)
      (h : exec .responseAdmitted s = .next t) : attemptTaken s = t := by
    rw [exec_responseAdmitted hs, responseStep_eq, if_neg (by simp [hsp])] at h
    exact Host.Outcome.next.inj h
  have kept (m : Nat) (hm : m ≤ n) :
      (run m).pins.rstN = true ∧ (run m).events.inbox = [] ∧ (run m).owed.partTwo = false := by
    induction m with
    | zero => exact ⟨hr, hi, hp⟩
    | succ m ih =>
      obtain ⟨hmr, -, hmp⟩ := ih (by omega)
      rw [← one hmr hmp (hrun m hm).2]
      exact ⟨by simpa using hmr, attemptTaken_inbox _, attemptTaken_partTwo _⟩
  refine ⟨?_, kept n (Nat.le_refl n)⟩
  rw [attemptsFirst_eq hp hi]
  refine attemptsTaken_run n run hn (fun m hm => ⟨(hrun m hm).1, ?_⟩) hz
  obtain ⟨hmr, -, hmp⟩ := kept m (by omega)
  exact one hmr hmp (hrun m hm).2

/-! ### The rows of the steps of a tick -/

/-- The part runs, no occurrence waits, no attempt is owed and none is under way: a step of a tick is the first thing it
can owe. -/
structure TickOnly (s : State) : Prop where
  rstN : s.pins.rstN = true
  inbox : s.events.inbox = []
  partTwo : s.owed.partTwo = false
  attempts : s.owed.attempts = 0

/-- What follows a step leaves the stalls and the confirm window owed as the step leaves them. -/
theorem stepFollowed_keeps {s : State} {o : Owed} (ho : s.owed.timed = o) (hp : o.partTwo = false) :
    (stepFollowed s).owed.stalls = o.stalls ∧ (stepFollowed s).owed.confirm = o.confirm := by
  obtain ⟨-, -, -, -, -, -, hsp⟩ := Owed.timed_fields ho
  obtain ⟨hs1, hc1, -⟩ := Owed.timed_fields (stepFollowed_timed (hsp.trans hp))
  obtain ⟨hs2, hc2, -⟩ := Owed.timed_fields ((takeOccurrences_timed s).trans ho)
  simp only [Owed.timed_stalls, Owed.timed_confirm, endAgeCheck_owed] at hs1 hc1
  exact ⟨hs1.trans hs2, hc1.trans hc2⟩

/-- A row of a step of a tick that settling takes first leaves a later command the same to find. -/
theorem foundAlike_performOwed {s t : State} {f : State → State} (h : TickOnly s) (hpins : (f s).pins = s.pins)
    (hp : (f s).owed.partTwo = false) (hf : settleTick s = settleTick (stepFollowed (f s)))
    (ht : performOwed f s = .next t) : FoundAlike s t := by
  rw [performOwed_eq f h.rstN h.attempts h.partTwo h.inbox] at ht
  cases ht
  refine fun i hi => exec_settled hi h.rstN (by simpa [hpins] using h.rstN) ?_
  rw [settle_tick h.attempts h.partTwo h.inbox, settle_row hp, hf]

/-- STALL of the first circuit that is owed one. -/
theorem foundAlike_stall {s t : State} {c : Circuit} {rest : List Circuit} (h : TickOnly s)
    (hs : s.owed.stalls = c :: rest) (ht : exec (.stall c.val) s = .next t) : FoundAlike s t := by
  have he : exec (.stall c.val) s = performOwed (stallOwed c) s := dif_pos c.isLt
  have ho := stallOwed_timed c s
  obtain ⟨-, -, -, -, -, -, hp⟩ := Owed.timed_fields ho
  obtain ⟨hs', -⟩ := stepFollowed_keeps ho h.partTwo
  have hr : s.owed.stalls.erase c = rest := by rw [hs, List.erase_cons_head]
  have before : settleTick s = tickAfterStalls (settleStalls rest (stepFollowed (stallOwed c s))) := by
    rw [settleTick_eq, hs]
    rfl
  have after := settleTick_eq (stepFollowed (stallOwed c s))
  rw [hs'.trans hr] at after
  exact foundAlike_performOwed h (by simp) (hp.trans h.partTwo) (before.trans after.symm) (he ▸ ht)

/-- CONFIRM_WINDOW_EXPIRY, with no stall owed. -/
theorem foundAlike_confirm {s t : State} (h : TickOnly s) (hs : s.owed.stalls = []) (hc : s.owed.confirm = true)
    (ht : exec .confirmWindowExpiry s = .next t) : FoundAlike s t := by
  have ho := confirmOwed_timed s
  obtain ⟨-, -, -, -, -, -, hp⟩ := Owed.timed_fields ho
  obtain ⟨hs', hc'⟩ := stepFollowed_keeps ho h.partTwo
  have before := settleTick_noStall hs
  rw [tickAfterStalls, takeIfDue_on _ _ hc] at before
  have after := settleTick_noConfirm (hs'.trans hs) hc'
  exact foundAlike_performOwed h (by simp) (hp.trans h.partTwo) (before.trans after.symm) ht

/-- AGE_OUT of the lowest class over age, or of any where the check ends, with no stall and no confirm window owed. -/
theorem foundAlike_ageOut {s t : State} {q : Class} (h : TickOnly s) (hs : s.owed.stalls = [])
    (hc : s.owed.confirm = false) (hl : ∀ p, p < q → headOverAge s p = false)
    (hq : headOverAge s q = true ∨ ∀ p, headOverAge s p = false) (ht : exec (.ageOut q.val) s = .next t) :
    FoundAlike s t := by
  have ho := ageOutOwed_timed q s
  obtain ⟨-, -, -, -, -, -, hp⟩ := Owed.timed_fields ho
  obtain ⟨hs', hc'⟩ := stepFollowed_keeps ho h.partTwo
  have before := settleTick_noConfirm hs hc
  rw [agesSettled_row hl hq h.inbox h.attempts] at before
  have after := settleTick_noConfirm (hs'.trans hs) (hc'.trans hc)
  exact foundAlike_performOwed h (by simp) (hp.trans h.partTwo) (before.trans after.symm) (exec_ageOut q s ▸ ht)

/-- CREDIT_STALL, with nothing owed before it. -/
theorem foundAlike_creditStall {s t : State} {n : Nat} (h : TickOnly s) (hs : s.owed.stalls = [])
    (hc : s.owed.confirm = false) (ha : s.owed.ages = false) (hn : s.owed.creditStall = some n)
    (ht : exec .creditStall s = .next t) : FoundAlike s t := by
  have ho := creditStallOwed_timed s
  obtain ⟨-, -, ha', -, -, -, hp⟩ := Owed.timed_fields ho
  obtain ⟨hs', hc', hages, hn', -⟩ := Owed.timed_fields
    ((stepFollowed_idle (hp.trans h.partTwo) (ha'.trans ha)).trans ho)
  have before := settleTick_noAges hs hc ha
  rw [tickAfterAges, takeIfDue_on _ _ (by rw [hn]; rfl)] at before
  have after := settleTick_noCredit (hs'.trans hs) (hc'.trans hc) (hages.trans ha) hn'
  exact foundAlike_performOwed h (by simp) (hp.trans h.partTwo) (before.trans after.symm) ht

/-- OWNER_LOST, with nothing owed before it. -/
theorem foundAlike_ownerLost {s t : State} (h : TickOnly s) (hs : s.owed.stalls = []) (hc : s.owed.confirm = false)
    (ha : s.owed.ages = false) (hn : s.owed.creditStall = none) (hl : s.owed.ownerLost = true)
    (ht : exec .ownerLost s = .next t) : FoundAlike s t := by
  have ho := ownerLostOwed_timed s
  obtain ⟨-, -, ha', -, -, -, hp⟩ := Owed.timed_fields ho
  obtain ⟨hs', hc', hages, hn', hl', -⟩ := Owed.timed_fields
    ((stepFollowed_idle (hp.trans h.partTwo) (ha'.trans ha)).trans ho)
  have before := settleTick_noCredit hs hc ha hn
  rw [tickAfterCredit, takeIfDue_on _ _ hl] at before
  have after := settleTick_noCredit (hs'.trans hs) (hc'.trans hc) (hages.trans ha) (hn'.trans hn)
  rw [tickAfterCredit_noOwner hl'] at after
  exact foundAlike_performOwed h (by simp) (hp.trans h.partTwo) (before.trans after.symm) ht

/-- NOTICE_TIMEOUT, with nothing owed before it: the last of the steps of a tick. -/
theorem foundAlike_noticeTimeout {s t : State} (h : TickOnly s) (hs : s.owed.stalls = []) (hc : s.owed.confirm = false)
    (ha : s.owed.ages = false) (hn : s.owed.creditStall = none) (hl : s.owed.ownerLost = false)
    (hd : s.owed.noticeTimeout = true) (ht : exec .noticeTimeout s = .next t) : FoundAlike s t := by
  have ho := noticeTimeoutOwed_timed s
  obtain ⟨-, -, ha', -, -, -, hp⟩ := Owed.timed_fields ho
  have hu := (stepFollowed_idle (hp.trans h.partTwo) (ha'.trans ha)).trans ho
  have hnone : ({ s.owed.timed with noticeTimeout := false } : Owed) = .none := by
    simp [Owed.timed, Owed.none, hs, hc, ha, hn, hl, h.partTwo]
  have before := settleTick_noCredit hs hc ha hn
  rw [tickAfterCredit_noOwner hl, takeIfDue_on _ _ hd] at before
  exact foundAlike_performOwed h (by simp) (hp.trans h.partTwo) (before.trans (settleTick_none (hu.trans hnone)).symm) ht

/-- RESPONSE_ADMITTED where an attempt has begun. -/
theorem foundAlike_responseAdmitted {s t : State} (hr : s.pins.rstN = true) (hi : s.events.inbox = [])
    (hp : s.owed.partTwo = true) (ht : exec .responseAdmitted s = .next t) : FoundAlike s t := by
  rw [exec_responseAdmitted hr] at ht
  cases ht
  exact fun i ha => exec_settled ha hr (by simpa using hr) (settle_responseStep hi hp)

/-- Settles O2: every row named leaves a part that settles as before, and so does the run of attempts. -/
theorem whatIsOwedComesFirst : Obligations.WhatIsOwedComesFirst := by
  refine ⟨?_, fun i n run hi hr hb hp hn hrun hz => ?_⟩
  · intro i s t hi hr hb first
    refine ⟨fun hp hx => foundAlike_responseAdmitted hr hb hp hx i hi, fun hp ha => ?_⟩
    have h : TickOnly s := ⟨hr, hb, hp, ha⟩
    exact ⟨fun c rest hs hx => foundAlike_stall h hs hx i hi,
      fun hs hc hx => foundAlike_confirm h hs hc hx i hi,
      fun q hs hc _ hl hq hx => foundAlike_ageOut h hs hc hl hq hx i hi,
      fun n hs hc ha hn hx => foundAlike_creditStall h hs hc ha hn hx i hi,
      fun hs hc ha hn => ⟨fun ho hx => foundAlike_ownerLost h hs hc ha hn ho hx i hi,
        fun ho ht hx => foundAlike_noticeTimeout h hs hc ha hn ho ht hx i hi⟩⟩
  · obtain ⟨hf, hr', hb', hp'⟩ := attemptsFirst_run hr hb hp hn hrun hz
    have hsame : attemptsFirst (run 0) = attemptsFirst (run n) := hf.trans (attemptsFirst_off hz hp' hb').symm
    exact exec_attemptsFirst hi hr hr' (settle_congr hb hb' hsame) hsame

end Sys2Proof.Machine
end

section
/-!
PROOF. The law of the plan (R26, R29): the active bank drops and inserts circuit 0, and the standby bank does so
whenever a swap or a revert may make it active. It speaks of the slot engine alone, so each operation keeps it that
leaves the slot engine; the others exchange the banks, leave or enter IDLE, or write the standby bank in IDLE.
-/

namespace Sys2Proof.Machine

/-! ### Validation -/

/-- A test that some place of a table passes. -/
theorem Table.any_cells_iff {α : Type} {n : Nat} (t : Table α n) (f : α → Bool) :
    t.cells.any f = true ↔ ∃ i, f (t.get i) = true := by
  simp only [List.any_eq_true, List.mem_iff_getElem]
  constructor
  · rintro ⟨_, ⟨i, hi, rfl⟩, hf⟩
    exact ⟨⟨i, t.size ▸ hi⟩, hf⟩
  · rintro ⟨i, hf⟩
    exact ⟨_, ⟨i, t.size.symm ▸ i.isLt, rfl⟩, hf⟩

/-- A plan drops circuit 0 (R26). -/
def Plan.Drops (plan : Plan) : Prop :=
  ∃ p : Fin 1008, ((plan.get p).action = .tap ∨ (plan.get p).action = .take) ∧ (plan.get p).circuit = 0

/-- A plan inserts circuit 0 (R26). -/
def Plan.Inserts (plan : Plan) : Prop := ∃ p : Fin 1008, (plan.get p).action = .insert ∧ (plan.get p).circuit = 0

theorem any_dropsManagement_iff (plan : Plan) : plan.cells.any PlanEntry.dropsManagement = true ↔ Plan.Drops plan := by
  rw [Table.any_cells_iff]
  simp [PlanEntry.dropsManagement, Plan.Drops]

theorem any_insertsManagement_iff (plan : Plan) :
    plan.cells.any PlanEntry.insertsManagement = true ↔ Plan.Inserts plan := by
  rw [Table.any_cells_iff]
  simp [PlanEntry.insertsManagement, Plan.Inserts]

/-- The drop is looked for first, then the insert (R26). -/
theorem planLack_cases (plan : Plan) :
    (¬ Plan.Drops plan ∧ planLack plan = some .missingDrop) ∨
    (Plan.Drops plan ∧ ¬ Plan.Inserts plan ∧ planLack plan = some .missingInsert) ∨
    (Plan.Drops plan ∧ Plan.Inserts plan ∧ planLack plan = none) := by
  unfold planLack
  rw [← any_dropsManagement_iff, ← any_insertsManagement_iff]
  cases plan.cells.any PlanEntry.dropsManagement <;> cases plan.cells.any PlanEntry.insertsManagement <;> simp

theorem planLack_none_iff (plan : Plan) : planLack plan = none ↔ Plan.Drops plan ∧ Plan.Inserts plan := by
  rcases planLack_cases plan with ⟨hd, h⟩ | ⟨hd, hi, h⟩ | ⟨hd, hi, h⟩ <;> simp [*]

/-- The bootstrap plan takes circuit 0 at N − 1 and inserts it at 503 + N (R25), so it lacks nothing (R26). -/
theorem planLack_bootstrapPlan (address : BitVec 6) : planLack (bootstrapPlan address) = none := by
  have hn : address.toNat < 64 := address.isLt
  refine (planLack_none_iff _).mpr ⟨⟨⟨address.toNat - 1, by omega⟩, ?_⟩, ⟨503 + address.toNat, by omega⟩, ?_⟩
  · rw [bootstrapPlan_get, bootstrapEntry, if_pos rfl]
    exact ⟨.inr rfl, rfl⟩
  · rw [bootstrapPlan_get, bootstrapEntry, if_neg (by simp only; omega), if_pos rfl]
    exact ⟨rfl, rfl⟩

/-! ### The slot engine -/

theorem Bank.other_other (bank : Bank) : bank.other.other = bank := by cases bank <;> rfl

/-- The law of the plan at the slot engine. -/
def SlotEngine.Lawful (e : SlotEngine) : Prop :=
  planLack e.activePlan = none ∧ (e.swap ≠ .idle → planLack e.standbyPlan = none)

theorem planLaw_iff (s : State) : PlanLaw s ↔ s.slot.Lawful := Iff.rfl

/-- What leaves the slot engine keeps the law. -/
theorem PlanLaw.of_slot_eq {s t : State} (hs : PlanLaw s) (h : t.slot = s.slot) : PlanLaw t := by
  rwa [planLaw_iff, h]

namespace SlotEngine.Lawful

variable {e : SlotEngine}

/-- Only the banks, the selector and whether the swap state is IDLE matter. -/
theorem congr {f : SlotEngine} (h : e.Lawful) (ha : f.bankA = e.bankA) (hb : f.bankB = e.bankB)
    (hs : f.active = e.active) (hw : f.swap ≠ .idle → e.swap ≠ .idle) : f.Lawful := by
  obtain ⟨hactive, hstandby⟩ := h
  have plans (bank : Bank) : f.plan bank = e.plan bank := by cases bank <;> assumption
  refine ⟨?_, fun hf => ?_⟩
  · rw [activePlan, plans, hs]
    exact hactive
  · rw [standbyPlan, plans, hs]
    exact hstandby (hw hf)

/-- The banks exchanged where both are valid, whatever swap state follows (R32, R33). -/
theorem exchange (h : e.Lawful) (hw : e.swap ≠ .idle) (w : SwapState) (r : Option ArmedSwap) (n : Option Nat) :
    ({ e with active := e.active.other, swap := w, armed := r, countdown := n } : SlotEngine).Lawful := by
  obtain ⟨hactive, hstandby⟩ := h
  refine ⟨hstandby hw, fun _ => ?_⟩
  change planLack (e.plan e.active.other.other) = none
  rw [Bank.other_other]
  exact hactive

/-- A swap state entered with a standby bank that lacks nothing (R26, R30). -/
theorem armed (h : e.Lawful) (hl : planLack e.standbyPlan = none) (w : SwapState) (r : Option ArmedSwap) :
    ({ e with swap := w, armed := r } : SlotEngine).Lawful := ⟨h.1, fun _ => hl⟩

/-- Any standby bank will do in IDLE (R26, R27). -/
theorem setStandby (h : e.Lawful) (hw : e.swap = .idle) (p : Plan) : (e.setPlan e.active.other p).Lawful := by
  refine ⟨?_, fun hn => absurd (by simpa using hw) hn⟩
  have : (e.setPlan e.active.other p).activePlan = e.activePlan := by
    simp only [activePlan, setPlan_fields]
    unfold setPlan plan
    cases e.active <;> rfl
  rw [this]
  exact h.1

theorem reset (address : BitVec 6) : (SlotEngine.reset address).Lawful :=
  ⟨planLack_bootstrapPlan address, fun h => absurd rfl h⟩

theorem clearArmedSwap (h : e.Lawful) : (clearArmedSwap e).Lawful := by
  refine h.congr (by simp) (by simp) (by simp) fun hw => ?_
  unfold Machine.clearArmedSwap at hw
  split at hw <;> simp_all

end SlotEngine.Lawful

/-! ### The operations of the slot engine -/

theorem performSwap_keeps_planLaw {s : State} (hw : s.slot.swap ≠ .idle) (hs : PlanLaw s) :
    PlanLaw (performSwap s) := by
  unfold performSwap
  split
  · exact hs
  · exact SlotEngine.Lawful.exchange hs hw _ _ _

theorem performRevert_keeps_planLaw {s : State} (hw : s.slot.swap ≠ .idle) (hs : PlanLaw s) :
    PlanLaw (performRevert s) := SlotEngine.Lawful.exchange hs hw _ _ _

theorem armSwapRecord_keeps_planLaw {s : State} (record : ArmedSwap) (hl : planLack s.slot.standbyPlan = none)
    (hs : PlanLaw s) : PlanLaw (armSwapRecord record s) := by
  have next : PlanLaw { s with slot := { s.slot with swap := .armedNext, armed := some record } } :=
    SlotEngine.Lawful.armed hs hl _ _
  unfold armSwapRecord
  split
  · exact SlotEngine.Lawful.armed hs hl _ _
  · dsimp only
    split
    · exact next
    · exact performSwap_keeps_planLaw (by simp) next

theorem boundSwap_keeps_planLaw {s : State} (hs : PlanLaw s) : PlanLaw (boundSwap s).2 := by
  unfold boundSwap
  split
  · exact hs
  · split
    · exact hs
    · rename_i hl
      exact armSwapRecord_keeps_planLaw _ (by simpa using hl) hs

theorem confirmWindowEnd_keeps_planLaw {s : State} (hw : s.slot.swap ≠ .idle) (hs : PlanLaw s) :
    PlanLaw (confirmWindowEnd s) := by
  have pending : PlanLaw { s with slot := { s.slot with swap := .revertPending, countdown := none } } :=
    SlotEngine.Lawful.congr hs rfl rfl rfl fun _ => hw
  unfold confirmWindowEnd
  dsimp only
  split
  · exact pending
  · exact performRevert_keeps_planLaw (by simp) pending

theorem endSwap_keeps_planLaw {s : State} (hs : PlanLaw s) : PlanLaw (endSwap s) :=
  SlotEngine.Lawful.congr hs rfl rfl rfl fun hw => absurd rfl hw

/-! ### The requests of the slot engine -/

theorem writePlanRun_keeps_planLaw {s : State} (params : List Byte) (hs : PlanLaw s) :
    PlanLaw (writePlanRun params s).state := by
  unfold writePlanRun
  dsimp only
  split
  · exact hs
  · split
    · split
      · rename_i hw
        exact SlotEngine.Lawful.setStandby hs hw _
      · exact hs
    · exact hs

theorem copyPlanRun_keeps_planLaw {s : State} (params : List Byte) (hs : PlanLaw s) :
    PlanLaw (copyPlanRun params s).state := by
  unfold copyPlanRun
  split
  · rename_i hw
    exact SlotEngine.Lawful.setStandby hs hw _
  · exact hs

theorem armSwapRun_keeps_planLaw {s : State} (params : List Byte) (hs : PlanLaw s) :
    PlanLaw (armSwapRun params s).state := by
  unfold armSwapRun
  dsimp only
  split
  · exact hs
  · split
    · split
      · split
        · exact hs
        · rename_i hl
          exact armSwapRecord_keeps_planLaw _ hl hs
      · exact hs
    · exact hs

/-- CANCEL_SWAP of an armed swap withdraws it, in any other state it is refused (R37). -/
theorem cancelSwapRun_eq (params : List Byte) (s : State) :
    cancelSwapRun params s =
      if s.slot.swap = .armedNext ∨ s.slot.swap = .armedSignal then ⟨.ok, swapResults (endSwap s), endSwap s⟩
      else ⟨.state, swapResults s, s⟩ := by
  unfold cancelSwapRun
  cases s.slot.swap <;> rfl

theorem cancelSwapRun_keeps_planLaw {s : State} (params : List Byte) (hs : PlanLaw s) :
    PlanLaw (cancelSwapRun params s).state := by
  rw [cancelSwapRun_eq]
  split
  · exact endSwap_keeps_planLaw hs
  · exact hs

theorem confirmSwapRun_keeps_planLaw {s : State} (params : List Byte) (hs : PlanLaw s) :
    PlanLaw (confirmSwapRun params s).state := by
  unfold confirmSwapRun
  split
  · exact endSwap_keeps_planLaw hs
  · exact hs

/-! ### Every step -/

/-- Every operation keeps the law: the slot engine's own by the lemmas above, all others because they leave the slot
engine. -/
theorem planLaw_kept : Kept PlanLaw where
  plain _ _ _ _ _ _ _ _ hs := hs
  trib _ _ _ hs := hs
  delivery _ _ _ _ _ _ hs := hs
  engine _ _ _ _ hs := hs
  events _ _ _ _ _ _ _ hs := hs
  response _ _ hs := hs
  record _ _ _ _ hs := hs
  desc _ _ _ _ hs := hs
  store _ _ _ _ hs := hs
  allocate _ _ _ _ ha hs := hs.of_slot_eq (by simp [allocate_frame ha])
  enqueue _ _ _ _ _ _ he hs := hs.of_slot_eq (by simp [enqueue_frame he])
  free _ _ hs := hs.of_slot_eq (by simp)
  addQueue _ _ _ _ hs := hs
  fault _ _ _ hs := hs.of_slot_eq (by simp)
  aligned _ _ hs := SlotEngine.Lawful.congr hs rfl rfl rfl id
  swap _ hw hs := performSwap_keeps_planLaw hw hs
  revert _ hw hs := performRevert_keeps_planLaw hw hs
  boundSwap _ hs := boundSwap_keeps_planLaw hs
  countdown _ _ hs := SlotEngine.Lawful.congr hs rfl rfl rfl id
  windowEnd _ hw hs := confirmWindowEnd_keeps_planLaw hw hs
  select _ hs := hs.of_slot_eq (by simp)
  tried _ _ _ hs := hs
  entered _ _ _ hs := hs.of_slot_eq (by simp)
  noticeTick _ hs := hs.of_slot_eq (by simp)
  expired _ hs := hs.of_slot_eq (by simp)
  succeeded _ _ _ _ hs := hs.of_slot_eq (by simp)
  setLease _ _ hs := hs.of_slot_eq (by simp)
  writePlan _ params hs := writePlanRun_keeps_planLaw params hs
  copyPlan _ params hs := copyPlanRun_keeps_planLaw params hs
  armSwap _ params hs := armSwapRun_keeps_planLaw params hs
  cancelSwap _ params hs := cancelSwapRun_keeps_planLaw params hs
  confirmSwap _ params hs := confirmSwapRun_keeps_planLaw params hs
  writeCircuit _ _ hs := hs.of_slot_eq (by simp)
  writePool _ _ hs := hs.of_slot_eq (by simp)
  writeSched _ _ hs := hs.of_slot_eq (by simp)
  writeEventConfig _ _ hs := hs.of_slot_eq (by simp)
  noticeAck _ _ hs := hs.of_slot_eq (by simp)
  clearFaults _ _ hs := hs.of_slot_eq (by simp)
  writeBinding _ _ hs := hs.of_slot_eq (by simp)
  reset _ pins _ _ := SlotEngine.Lawful.reset (addressOfStraps pins.straps)
  pinReset s _ := SlotEngine.Lawful.reset s.nodeAddress
  clearTraffic _ hs := SlotEngine.Lawful.clearArmedSwap hs

/-- Settles O57: every operation keeps the law, so every step does. -/
theorem everyStepKeepsThePlanLaw : Obligations.EveryStepKeepsThePlanLaw :=
  fun _ _ hs he => planLaw_kept.step (fun _ _ hu => hu) hs he

end Sys2Proof.Machine
end

section
/-!
PROOF. The laws at a power-on reset (R26, R66, R67, R80, R87, R184, R193).
-/

namespace Sys2Proof.Machine

theorem storeLaw_reset : StoreLaw .reset := rfl

theorem planLaw_reset : PlanLaw .reset := SlotEngine.Lawful.reset _

/-- The circuit records at reset: that of circuit 0, and the one of all the others (R43). -/
theorem reset_circuits (c : Circuit) :
    State.reset.circuits.get c = if c = 0 then .resetManagement else .resetTraffic := Table.get_fill_put _ _ c

theorem settingsLaw_reset : SettingsLaw .reset := by
  refine ⟨fun c => ?_, by decide, by decide, fun l => ?_, fun q => ?_, by decide, by decide, by decide, by decide,
    by decide⟩
  · rw [reset_circuits]
    split <;> decide
  · simp [State.reset, State.resetWith, Delivery.reset, Config.defaultQuantum]
  · simp [State.reset, State.resetWith, Delivery.reset]

theorem poolLaw_reset : PoolLaw .reset := by
  refine emptied_law _ _ _ _ rfl fun c => ?_
  rw [reset_circuits]
  split <;> rfl

theorem capacityLaw_reset : CapacityLaw .reset := by
  refine ⟨by decide, by decide, by decide, fun c => ?_, by decide, List.nodup_nil⟩
  simp [State.reset, State.resetWith]

theorem stackLaw_reset : StackLaw .reset := by
  refine ⟨by decide, List.Pairwise.nil, List.nodup_nil, fun o ho => ?_⟩
  cases ho

theorem bindings_reset (i : Fin Config.bindings) : State.reset.events.bindings.get i = none := Table.get_fill _ i

theorem bindingLaw_reset : BindingLaw .reset := by
  simp [BindingLaw, bindings_reset]

/-- Settles O56, law by law. -/
theorem lawsHoldAtReset : Obligations.LawsHoldAtReset :=
  ⟨storeLaw_reset, settingsLaw_reset, planLaw_reset, poolLaw_reset, capacityLaw_reset, stackLaw_reset, bindingLaw_reset⟩

end Sys2Proof.Machine
end

section
/-!
PROOF. The plan requests (R20, R26 to R30, R34 to R37, R164, R166): what each execution returns, case by case, and the
answer it is given.
-/

namespace Sys2Proof.Machine

/-! ### An execution answered -/

/-- A request in hand at a quiet part, whose execution raises nothing, is answered with what it returns (R153). -/
theorem perform_answered {k : RequestKind} {request params results : List Byte} {s t : State} {status : Status}
    {run : List Byte → State → Executed} (hq : Quiet s) (h : InHand k request s) (hp : requestParams request = params)
    (hr : run params s = ⟨status, results, t⟩) (ht : t.events = s.events) :
    perform (execute k run) s = .next (answered request status results true t) := by
  subst hp
  have hi : (run (requestParams request) s).state.events.inbox = [] := by
    rw [hr]
    exact ht ▸ hq.2.2
  rw [perform_request hq h hi, hr]

/-- A request in hand at a quiet part, whose execution raises one occurrence of an unbound kind. -/
theorem perform_answered_raise {k : RequestKind} {request params results : List Byte} {s t : State} {status : Status}
    {run : List Byte → State → Executed} {x : Raised} (hq : Quiet s) (h : InHand k request s)
    (hp : requestParams request = params) (hr : run params s = ⟨status, results, raisedAll [x] t⟩)
    (ht : t.events = s.events) (hu : Unbound x.1 s) :
    perform (execute k run) s = .next (recorded x.1 x.2 (answered request status results true t)) := by
  subst hp
  have hf : execute k run s = raisedAll [x] (answered request status results true t) := by
    rw [execute_inHand run h, hr]
    rfl
  exact perform_raisedAll (t := answered request status results true t) hq hf ht (by simpa using hu)

/-! ### Entries in octets -/

theorem Action.ofCode_iff (a : Byte) (x : Action) : Action.ofCode a = some x ↔ a = x.code := by
  constructor
  · unfold Action.ofCode
    intro h
    repeat' split at h
    all_goals cases h
    all_goals assumption
  · rintro rfl
    cases x <;> rfl

theorem circuitOf_iff (b : Byte) (c : Circuit) : circuitOf b = some c ↔ c.val = b.toNat := by
  refine ⟨fun h => ?_, circuitOf_some b c⟩
  unfold circuitOf at h
  split at h <;> cases h
  rfl

/-- An action octet and a circuit octet carry an entry (R20, R203). -/
def Carries (a c : Byte) (e : PlanEntry) : Prop :=
  c.toNat ≤ 95 ∧ ((a = 0 ∧ e.action = .pass ∧ e.circuit = 0) ∨
    (e.circuit.val = c.toNat ∧
      ((a = 1 ∧ e.action = .tap) ∨ (a = 2 ∧ e.action = .take) ∨ (a = 3 ∧ e.action = .insert))))

/-- A PASS entry is held with circuit 0, any other with the circuit its octet names (R20). -/
theorem carries_iff (a c : Byte) (e : PlanEntry) : Carries a c e ↔
    ∃ circuit, Action.ofCode a = some e.action ∧ circuitOf c = some circuit ∧
      e.circuit = if e.action = .pass then 0 else circuit := by
  have named : c.toNat ≤ 95 ↔ ∃ circuit : Circuit, circuit.val = c.toNat :=
    ⟨fun h => ⟨⟨c.toNat, Nat.lt_succ_of_le h⟩, rfl⟩, fun ⟨circuit, h⟩ => h ▸ Nat.le_of_lt_succ circuit.isLt⟩
  obtain ⟨action, circuit⟩ := e
  simp only [Carries, named, Action.ofCode_iff, circuitOf_iff]
  cases action with
  | pass => simp [Action.code, and_comm, and_assoc]
  | tap | take | insert =>
    simp only [Action.code, reduceCtorEq, and_false, false_and, and_true, or_false, false_or, if_false]
    constructor
    · rintro ⟨-, h, rfl⟩
      exact ⟨circuit, rfl, h, rfl⟩
    · rintro ⟨_, rfl, h, rfl⟩
      exact ⟨⟨_, h⟩, h, rfl⟩

/-- The first two octets carry the first entry, the octets after them the others. -/
theorem planEntriesOf_cons_iff (a c : Byte) (rest : List Byte) (entries : List PlanEntry) :
    planEntriesOf (a :: c :: rest) = some entries ↔
      ∃ e more, entries = e :: more ∧ Carries a c e ∧ planEntriesOf rest = some more := by
  constructor
  · intro h
    rw [planEntriesOf] at h
    split at h
    · rename_i action circuit more ha hc hm
      cases h
      exact ⟨_, more, rfl, (carries_iff ..).mpr ⟨circuit, ha, hc, rfl⟩, hm⟩
    · cases h
  · rintro ⟨⟨action, circuit⟩, more, rfl, he, hm⟩
    obtain ⟨named, ha, hc, hn⟩ := (carries_iff ..).mp he
    simp only at ha hn
    simp only [planEntriesOf, ha, hc, hm, hn]

/-- The entries a list of octets carries, place by place (R20, R27). -/
theorem planEntriesOf_iff : ∀ (octets : List Byte) (entries : List PlanEntry), planEntriesOf octets = some entries ↔
    octets.length = 2 * entries.length ∧ ∀ j, j < entries.length →
      Carries (octets.getD (2 * j) 0) (octets.getD (2 * j + 1) 0) (entries.getD j ⟨.pass, 0⟩)
  | [], entries => by
    cases entries with
    | nil => simp [planEntriesOf]
    | cons => simp [planEntriesOf]
  | [_], entries => by
    have : 1 ≠ 2 * entries.length := by omega
    simp [planEntriesOf, this]
  | a :: c :: rest, entries => by
    rw [planEntriesOf_cons_iff]
    cases entries with
    | nil => simp
    | cons e more =>
      simp only [List.cons.injEq, List.length_cons, Nat.forall_lt_succ_left']
      constructor
      · rintro ⟨_, _, ⟨rfl, rfl⟩, he, hm⟩
        obtain ⟨hl, hj⟩ := (planEntriesOf_iff rest _).mp hm
        exact ⟨by omega, he, hj⟩
      · rintro ⟨hl, he, hj⟩
        exact ⟨e, more, ⟨rfl, rfl⟩, he, (planEntriesOf_iff rest more).mpr ⟨by omega, hj⟩⟩

/-! ### READ_PLAN and WRITE_PLAN -/

/-- READ_PLAN of a bank and positions in range (R164). -/
theorem readPlanRun_read {letter high low n : Byte} {bank : Bank} (s : State) (hb : Bank.ofCode letter = some bank)
    (hr : goodRange (high.toNat * 256 + low.toNat) n.toNat = true) :
    readPlanRun [letter, high, low, n] s = ⟨.ok, [letter, high, low, n] ++
      ((s.slot.plan bank).cells.drop (high.toNat * 256 + low.toNat) |>.take n.toNat).flatMap fun e =>
        [e.action.code, octet e.circuit.val], s⟩ := by
  have hb' : Bank.ofCode (at0 [letter, high, low, n] 0) = some bank := hb
  have hf : number2At [letter, high, low, n] 1 = high.toNat * 256 + low.toNat := rfl
  have hn : (at0 [letter, high, low, n] 3).toNat = n.toNat := rfl
  simp only [readPlanRun, hb', hf, hn, hr, if_true, accepted, Bank.code_ofCode hb, octets2_of_two, octet_toNat]
  rfl

/-- READ_PLAN of a letter that names no bank, or of positions out of range (R164). -/
theorem readPlanRun_range {letter high low n : Byte} (s : State)
    (h : Bank.ofCode letter = none ∨ goodRange (high.toNat * 256 + low.toNat) n.toNat = false) :
    readPlanRun [letter, high, low, n] s = ⟨.range, [], s⟩ := by
  have hf : number2At [letter, high, low, n] 1 = high.toNat * 256 + low.toNat := rfl
  have hn : (at0 [letter, high, low, n] 3).toNat = n.toNat := rfl
  have hl : at0 [letter, high, low, n] 0 = letter := rfl
  simp only [readPlanRun, hf, hn, hl]
  rcases h with h | h
  · simp only [h]
    rfl
  · simp only [h]
    split <;> rfl

/-- WRITE_PLAN of entries in range, as many as its count says (R27). -/
theorem writePlanRun_counted {high low n : Byte} {octets : List Byte} {entries : List PlanEntry} (s : State)
    (he : planEntriesOf octets = some entries) (hr : goodRange (high.toNat * 256 + low.toNat) n.toNat = true)
    (hl : entries.length = n.toNat) :
    writePlanRun (high :: low :: n :: octets) s =
      if s.slot.swap = .idle then
        ⟨.ok, [high, low, n],
          setStandby (writeEntries s.slot.standbyPlan (high.toNat * 256 + low.toNat) entries) s⟩
      else ⟨.state, [], s⟩ := by
  have he' : planEntriesOf ((high :: low :: n :: octets).drop 3) = some entries := he
  have hf : number2At (high :: low :: n :: octets) 0 = high.toNat * 256 + low.toNat := rfl
  have hn : (at0 (high :: low :: n :: octets) 2).toNat = n.toNat := rfl
  simp only [writePlanRun, he', hf, hn, hr, hl, beq_self_eq_true, Bool.and_true, if_true, accepted, octets2_of_two,
    octet_toNat]
  rfl

/-- WRITE_PLAN of octets that carry no entries, of positions out of range, or of a count that is not theirs (R27). -/
theorem writePlanRun_range {high low n : Byte} {octets : List Byte} (s : State)
    (h : ∀ entries, planEntriesOf octets = some entries →
      goodRange (high.toNat * 256 + low.toNat) n.toNat = true → entries.length ≠ n.toNat) :
    writePlanRun (high :: low :: n :: octets) s = ⟨.range, [], s⟩ := by
  have hd : (high :: low :: n :: octets).drop 3 = octets := rfl
  have hf : number2At (high :: low :: n :: octets) 0 = high.toNat * 256 + low.toNat := rfl
  have hn : (at0 (high :: low :: n :: octets) 2).toNat = n.toNat := rfl
  simp only [writePlanRun, hd, hf, hn]
  split
  · rfl
  · rename_i entries he
    rw [if_neg]
    · rfl
    · simpa using h entries he

/-- The slot engine with its standby bank written: nothing else of it is changed. -/
theorem setPlan_standbyPlan (e : SlotEngine) (p : Plan) :
    e.setPlan e.active.other p = e.setPlan e.active.other (e.setPlan e.active.other p).standbyPlan := by
  rw [standbyPlan_setPlan]

/-- Settles O14: the octets place by place, and each request by its range and its swap state. -/
theorem plansAreReadAndWritten : Obligations.PlansAreReadAndWritten := by
  refine ⟨planEntriesOf_iff, ?_, ?_⟩
  · intro letter high low n request s hq h hp first inRange
    have hr : goodRange first n.toNat = true ↔ inRange := goodRange_iff ..
    refine ⟨fun bank hb hin => ?_, fun hout => ?_⟩
    · exact perform_answered hq h hp (readPlanRun_read s hb (hr.mpr hin)) rfl
    · refine perform_answered hq h hp (readPlanRun_range s (hout.imp_right fun hin => ?_)) rfl
      exact Bool.eq_false_iff.mpr (mt hr.mp hin)
  · intro high low n octets request s hq h hp first inRange
    have hr : goodRange first n.toNat = true ↔ inRange := goodRange_iff ..
    refine ⟨fun entries he hin hl => ?_, fun hout => ?_⟩
    · have run := writePlanRun_counted s he (hr.mpr hin) hl
      refine ⟨fun hw => ?_, fun hw => ?_⟩
      · rw [if_pos hw] at run
        refine ⟨_, perform_answered hq h hp run rfl, rfl, setPlan_standbyPlan _ _, fun p => ?_⟩
        change planEntry (s.slot.setPlan s.slot.active.other _).standbyPlan p = _
        rw [standbyPlan_setPlan, ← hl]
        exact planEntry_writeEntries entries _ first (hl ▸ hin.2.2.2) p
      · rw [if_neg hw] at run
        exact perform_answered hq h hp run rfl
    · refine perform_answered hq h hp (writePlanRun_range s fun entries he hin => ?_) rfl
      rcases hout with hout | hout | ⟨others, ho, hl⟩
      · rw [he] at hout
        cases hout
      · exact absurd (hr.mp hin) hout
      · rw [he] at ho
        cases ho
        exact hl

/-! ### COPY_PLAN -/

/-- The banks after a copy of the active one (R28). -/
theorem setPlan_activePlan_banks (e : SlotEngine) :
    (e.setPlan e.active.other e.activePlan).bankA = (e.setPlan e.active.other e.activePlan).bankB := by
  unfold SlotEngine.activePlan SlotEngine.setPlan SlotEngine.plan
  cases e.active <;> rfl

/-- Settles O15, by whether the swap state is IDLE. -/
theorem copyPlanCopiesTheActiveBank : Obligations.CopyPlanCopiesTheActiveBank := by
  intro request s hq h
  have run (params : List Byte) : copyPlanRun params s =
      if s.slot.swap = .idle then ⟨.ok, [], setStandby s.slot.activePlan s⟩ else ⟨.state, [], s⟩ := rfl
  refine ⟨fun hw => ?_, fun hw => ?_⟩
  · have copied := (run (requestParams request)).trans (if_pos hw)
    refine ⟨_, perform_answered hq h rfl copied rfl, rfl, rfl, fun p => ?_, setPlan_activePlan_banks s.slot⟩
    change (s.slot.setPlan s.slot.active.other s.slot.activePlan).standbyPlan.get p = _
    rw [standbyPlan_setPlan]
  · exact perform_answered hq h rfl ((run (requestParams request)).trans (if_neg hw)) rfl

/-! ### The swap requests -/

/-- A window of 0, or of 10 to 5000 (R30). -/
theorem goodWindow_iff (w : Nat) : goodWindow w = true ↔ w = 0 ∨ (10 ≤ w ∧ w ≤ 5000) := by
  simp [goodWindow]

/-- ARM_SWAP of a mode and a window in range: STATE, then INVALID_PLAN, else armed (R30). -/
theorem armSwapRun_inRange {mode high low : Byte} {m : SwapMode} (s : State) (hm : SwapMode.ofCode mode = some m)
    (hw : goodWindow (high.toNat * 256 + low.toNat) = true) :
    (s.slot.swap ≠ .idle → armSwapRun [mode, high, low] s = ⟨.state, swapResults s, s⟩) ∧
    (∀ lack, s.slot.swap = .idle → planLack s.slot.standbyPlan = some lack →
      armSwapRun [mode, high, low] s = ⟨.invalidPlan, [lack.code], s⟩) ∧
    (∀ t, s.slot.swap = .idle → planLack s.slot.standbyPlan = none →
      armSwapRecord ⟨m, high.toNat * 256 + low.toNat, .request⟩ s = t →
      armSwapRun [mode, high, low] s = ⟨.ok, swapResults t, t⟩) := by
  have hm' : SwapMode.ofCode (at0 [mode, high, low] 0) = some m := hm
  have hf : number2At [mode, high, low] 1 = high.toNat * 256 + low.toNat := rfl
  simp only [armSwapRun, hm', hf, hw, if_true]
  refine ⟨fun hs => if_neg hs, fun lack hs hl => ?_, fun t hs hl ht => ?_⟩
  · rw [if_pos hs, hl]
  · rw [if_pos hs, hl]
    simp only [ht, accepted]

/-- ARM_SWAP of a mode or a window out of range (R30). -/
theorem armSwapRun_range {mode high low : Byte} (s : State)
    (h : SwapMode.ofCode mode = none ∨ goodWindow (high.toNat * 256 + low.toNat) = false) :
    armSwapRun [mode, high, low] s = ⟨.range, [], s⟩ := by
  have hl : at0 [mode, high, low] 0 = mode := rfl
  have hf : number2At [mode, high, low] 1 = high.toNat * 256 + low.toNat := rfl
  simp only [armSwapRun, hl, hf]
  rcases h with h | h
  · simp only [h]
    rfl
  · simp only [h]
    split <;> rfl

/-- A swap of mode NEXT armed while alignment is held waits (R30). -/
theorem armSwapRecord_waits {s : State} {record : ArmedSwap} (hm : record.mode = .next) (ha : s.slot.aligned = true) :
    armSwapRecord record s = { s with slot := { s.slot with swap := .armedNext, armed := some record } } := by
  simp [armSwapRecord, hm, ha]

/-- A swap of mode NEXT armed while unaligned is performed at once (R35). -/
theorem armSwapRecord_performed {s : State} {record : ArmedSwap} (hm : record.mode = .next)
    (ha : s.slot.aligned = false) :
    armSwapRecord record s = raisedAll (s.slot.swapRaises record) { s with slot := s.slot.swapped record } := by
  simp only [armSwapRecord, hm]
  rw [if_neg (by simp [ha])]
  exact performSwap_armed (record := record) rfl

/-- A mode octet in range names a mode (R30). -/
theorem SwapMode.ofCode_some {mode : Byte} (h : mode.toNat ≤ 1) : ∃ m, SwapMode.ofCode mode = some m := by
  rw [← Option.ne_none_iff_exists', ne_eq, SwapMode.ofCode_none]
  exact fun hn => hn h

/-- Settles O16: what a plan lacks, ARM_SWAP refused and accepted, then the other two by swap state. -/
theorem swapRequestsAreAnswered : Obligations.SwapRequestsAreAnswered := by
  refine ⟨fun plan => ?_, ?_, fun request s hq => ?_⟩
  · change (_ ↔ ¬ Plan.Drops plan) ∧ (_ ↔ Plan.Drops plan ∧ ¬ Plan.Inserts plan) ∧
      (_ ↔ Plan.Drops plan ∧ Plan.Inserts plan)
    rcases planLack_cases plan with ⟨hd, hl⟩ | ⟨hd, hi, hl⟩ | ⟨hd, hi, hl⟩ <;> simp [*]
  · intro mode high low request s hq h hp w inRange
    have run (hin : inRange) {m : SwapMode} (hm : SwapMode.ofCode mode = some m) :=
      armSwapRun_inRange s hm ((goodWindow_iff w).mpr hin.2)
    refine ⟨fun hout => ?_, fun hin hw => ?_, fun lack hin hw hl => ?_, fun hin hw hl => ⟨?_, ?_, ?_⟩⟩
    · refine perform_answered hq h hp (armSwapRun_range s ?_) rfl
      rw [SwapMode.ofCode_none, Bool.eq_false_iff, ne_eq, goodWindow_iff]
      exact Decidable.not_and_iff_not_or_not.mp hout
    · obtain ⟨m, hm⟩ := SwapMode.ofCode_some hin.1
      exact perform_answered hq h hp ((run hin hm).1 hw) rfl
    · obtain ⟨m, hm⟩ := SwapMode.ofCode_some hin.1
      exact perform_answered hq h hp ((run hin hm).2.1 lack hw hl) rfl
    · rintro rfl
      obtain ⟨-, -, arms⟩ := run hin (m := .signal) rfl
      exact perform_answered hq h hp (arms _ hw hl rfl) rfl
    · rintro rfl ha
      obtain ⟨-, -, arms⟩ := run hin (m := .next) rfl
      exact perform_answered hq h hp (arms _ hw hl (armSwapRecord_waits rfl ha)) rfl
    · rintro rfl ha hu
      obtain ⟨-, -, arms⟩ := run hin (m := .next) rfl
      have performed := arms _ hw hl (armSwapRecord_performed rfl ha)
      exact ⟨_, perform_answered_raise (t := { s with slot := s.slot.swapped ⟨.next, w, .request⟩ }) hq h hp performed
        rfl hu, by simp [answered, SlotEngine.swapped], by simp [answered]; rfl⟩
  · refine ⟨fun h => ?_, fun h => ?_⟩
    · have run := cancelSwapRun_eq (requestParams request) s
      refine ⟨fun hw => ?_, fun hw => ?_⟩
      · exact perform_answered hq h rfl (run.trans (if_pos hw)) rfl
      · refine perform_answered hq h rfl (run.trans (if_neg ?_)) rfl
        rcases hw with hw | hw | hw <;> simp [hw]
    · have run (params : List Byte) : confirmSwapRun params s =
          if s.slot.swap = .confirmWait then ⟨.ok, swapResults (endSwap s), endSwap s⟩
          else ⟨.state, swapResults s, s⟩ := rfl
      exact ⟨fun hw => perform_answered hq h rfl ((run (requestParams request)).trans (if_pos hw)) rfl,
        fun hw => perform_answered hq h rfl ((run (requestParams request)).trans (if_neg hw)) rfl⟩

/-! ### The end of the confirm window -/

/-- The confirm window at its end while alignment is held: the revert waits (R33). -/
theorem confirmWindowEnd_waits {s : State} (ha : s.slot.aligned = true) :
    confirmWindowEnd s = { s with slot := { s.slot with swap := .revertPending, countdown := none } } := by
  simp [confirmWindowEnd, ha]

/-- The confirm window at its end while unaligned: the revert at once (R33). -/
theorem confirmWindowEnd_reverts {s : State} (ha : s.slot.aligned = false) :
    confirmWindowEnd s = raisedAll s.slot.revertRaises { s with slot := s.slot.reverted } := by
  rw [confirmWindowEnd, if_neg (by simp [ha])]
  exact performRevert_eq _

/-- A row of a step owed that raises occurrences of unbound kinds, with no age check under way. -/
theorem performOwed_raisedAll {s t : State} {f : State → State} {o : Owed} {l : List Raised} (h : Owing o s)
    (ho : o.attempts = 0 ∧ o.partTwo = false) (hf : f s = raisedAll l t) (ht : t.events = s.events)
    (ha : t.owed.ages = false) (hu : ∀ x ∈ l, Unbound x.1 s) : performOwed f s = .next (recordedAll l t) := by
  obtain ⟨hr, rfl, hi⟩ := h
  have ages (l : List Raised) (t : State) : (recordedAll l t).owed.ages = t.owed.ages := by
    induction l generalizing t with
    | nil => rfl
    | cons x l ih => exact (ih _).trans (by simp)
  rw [performOwed_eq f hr ho.1 ho.2 hi, hf, takeOccurrences_raisedAll (by rw [ht, hi])
    (by simpa only [Unbound, ht] using hu), endAgeCheck_none ((ages l t).trans ha)]

/-- Settles O17, by whether alignment is held. -/
theorem confirmWindowExpires : Obligations.ConfirmWindowExpires := by
  intro s h hw
  have hf : confirmOwed s = confirmWindowEnd { s with owed := .none } := by
    obtain ⟨-, ho, -⟩ := h
    simp only [confirmOwed, ho, if_true, hw]
    rfl
  refine ⟨fun ha => ?_, fun ha hd hr => ?_⟩
  · exact performOwed_raisedAll (l := []) h ⟨rfl, rfl⟩
      ((hf.trans (confirmWindowEnd_waits ha)).trans (raisedAll_nil _).symm) rfl rfl (by simp)
  · exact performOwed_raisedAll h ⟨rfl, rfl⟩ (hf.trans (confirmWindowEnd_reverts ha)) rfl rfl
      (by simpa [SlotEngine.revertRaises] using ⟨hd, hr⟩)

end Sys2Proof.Machine
end

section
/-!
PROOF. The actions of a binding (R38, R47, R48, R101, R138, R195).
-/

namespace Sys2Proof.Machine

/-- A binding's swap of a valid standby bank arms a swap of mode NEXT with no window (R38). -/
theorem boundSwap_arms {s : State} (hw : s.slot.swap = .idle) (hl : planLack s.slot.standbyPlan = none) :
    boundSwap s = (none, armSwapRecord ⟨.next, 0, .binding⟩ s) := by
  simp [boundSwap, hw, hl]

/-- An add queue of a circuit other than 0 has room up to the circuit's add depth (R125). -/
theorem hasRoom_iff {s : State} {c : Circuit} (hc : c ≠ 0) :
    hasRoom s c = true ↔ (s.addQueues.get c).length < (s.circuits.get c).addDepth := by
  simp [hasRoom, queueDepth, hc]

/-- The message a canned slot is sent as (R138). -/
def Canned.message (x : Canned) (c : Circuit) : NewMessage :=
  ⟨.addQueued, c, x.cls, x.mark, none, x.body.length, .canned⟩

/-- A canned slot sent to a circuit that is ACTIVE and has room: the admission decides (R138). -/
theorem boundSend_admission {s : State} {i : Fin Config.cannedSlots} {c : Circuit} {x : Canned} (hc : c ≠ 0)
    (hx : s.events.canned.get i = some x) (ha : (s.circuits.get c).active = true)
    (hr : (s.addQueues.get c).length < (s.circuits.get c).addDepth) :
    (∀ f, enqueue (x.message c) x.body s = .error f →
      boundSend i c s = (some .noGrant, raiseRefusal f c x.body.length s)) ∧
    (∀ d t, enqueue (x.message c) x.body s = .ok (d, t) → boundSend i c s = (none, t)) := by
  have room := (hasRoom_iff hc).mpr hr
  refine ⟨fun f he => ?_, fun d t he => ?_⟩ <;>
    simp only [Canned.message] at he <;>
    simp only [boundSend, hx, ha, room, he, Bool.not_true, Bool.false_eq_true, if_false]

/-- Settles O49, action by action. -/
theorem bindingActionsAreTaken : Obligations.BindingActionsAreTaken := by
  intro s
  refine ⟨fun hw => if_pos hw, fun lack hw hl => ?_, fun hw hl => ⟨fun ha => ?_, fun ha => ?_⟩, fun c => ?_,
    fun i c hi => ?_, fun i c slot hc hx => ⟨fun ha => ?_, fun ha hf => ?_, fun ha hr => ⟨fun f hf => ?_,
      fun d t he => ?_⟩⟩, fun q => rfl⟩
  · simp [performAction, boundSwap, hw, hl]
  · rw [performAction, boundSwap_arms hw hl, armSwapRecord_waits rfl ha]
  · rw [performAction, boundSwap_arms hw hl, armSwapRecord_performed rfl ha]
    rfl
  · simp +contextual [performAction, boundStop, boundStart]
  · simp [performAction, boundSend, hi]
  · simp [performAction, boundSend, hx, ha]
  · have full : hasRoom s c = false := Bool.eq_false_iff.mpr fun h => Nat.not_lt.mpr hf ((hasRoom_iff hc).mp h)
    simp [performAction, boundSend, hx, ha, full]
  · exact (boundSend_admission hc hx ha hr).1 f (enqueue_error (m := slot.message c) hf)
  · exact (boundSend_admission hc hx ha hr).2 d t he

end Sys2Proof.Machine
end

section
/-!
PROOF. The RESET request (R155, R156, R179): the clearing of a TRAFFIC reset and the response it leaves queued, the
start of a FULL reset, and the rows whose request is not in hand (log entries 4 and 23).
-/

namespace Sys2Proof.Machine

/-! ### A row whose request is not in hand -/

/-- A command of a quiet part that leaves the event unit raises nothing. -/
theorem perform_eq {s t : State} {f : State → State} (h : Quiet s) (hf : f s = t) (ht : t.events = s.events) :
    perform f s = .next t := by
  subst hf
  exact perform_silent h (ht ▸ h.2.2)

/-- A row of RESET, with no request in hand (log entry 4). -/
theorem executeReset_idle {s : State} (full : Bool) (run : List Byte → State → State)
    (h : s.engine.state ≠ .executing ∨ s.engine.inHand = none) : executeReset full run s = s := by
  unfold executeReset
  split
  · rename_i hs hi
    rcases h with h | h
    · exact absurd hs h
    · rw [hi] at h
      cases h
  · rfl

/-- With no request in hand there is none of any kind. -/
theorem not_inHand {s : State} (h : s.engine.state ≠ .executing ∨ s.engine.inHand = none) (k : RequestKind)
    (request : List Byte) : ¬ InHand k request s := by
  rintro ⟨hs, hi, -⟩
  rcases h with h | h
  · exact h hs
  · rw [hi] at h
    cases h

/-- A row of RESET, with a RESET request in hand that names a mode: the row's own mode is carried out, the other is left
(R179; log entry 23). -/
theorem executeReset_mode {request : List Byte} {mode : Byte} {s : State} {m : Bool} (full : Bool)
    (run : List Byte → State → State) (h : InHand .reset request s) (hp : requestParams request = [mode])
    (hm : flagOf mode = some m) : executeReset full run s = if m = full then run request s else s := by
  obtain ⟨hs, hi, hk⟩ := h
  have hm' : flagOf (at0 (requestParams request) 0) = some m := by rw [hp]; exact hm
  simp only [executeReset, hs, hi, hk, hm', if_true]

/-- A row of RESET, with a RESET request in hand whose mode is neither (R179). -/
theorem executeReset_range {request : List Byte} {mode : Byte} {s : State} (full : Bool)
    (run : List Byte → State → State) (h : InHand .reset request s) (hp : requestParams request = [mode])
    (hm : flagOf mode = none) : executeReset full run s = answered request .range [] true s := by
  obtain ⟨hs, hi, hk⟩ := h
  have hm' : flagOf (at0 (requestParams request) 0) = none := by rw [hp]; exact hm
  simp only [executeReset, hs, hi, hk, hm', if_true, refuseReset, respond_eq_answered]

/-! ### The first grant on the emptied pool -/

/-- The numbers below `n` in ascending order: 0, then the others. -/
theorem finRange_eq_cons (n : Nat) [NeZero n] : List.finRange n = 0 :: (List.finRange n).tail := by
  obtain ⟨m, rfl⟩ := Nat.exists_eq_succ_of_ne_zero (NeZero.ne n)
  rw [List.finRange_succ]
  rfl

/-- The free lists of an emptied pool begin with segment 0 and descriptor 0 (R84). -/
theorem Pool.emptied_free (store : Memory) (segReserve descReserve : Nat) :
    (Pool.emptied store segReserve descReserve).freeSegs = 0 :: (List.finRange 1536).tail ∧
    (Pool.emptied store segReserve descReserve).freeDescs = 0 :: (List.finRange 320).tail := by
  simp only [Pool.emptied, Config.segments, Config.descriptors]
  exact ⟨finRange_eq_cons 1536, finRange_eq_cons 320⟩

/-- Every test of a request of circuit 0 for one segment of an emptied pool passes (R72 to R75, R84). -/
theorem allocFailure_emptied {s : State} {store : Memory} {segReserve descReserve : Nat}
    (hp : s.pool = .emptied store segReserve descReserve)
    (hq : (s.circuits.get 0).held + 1 ≤ (s.circuits.get 0).quota) : allocFailure s 0 1 = none := by
  have quota : quotaFails s 0 1 = false := by simpa [quotaFails] using hq
  have space : spaceFails s 0 1 = false := by simp [spaceFails, eligible, hp, Pool.emptied]
  have descs : descriptorsFail s 0 = false := by simp [descriptorsFail, eligible, hp, Pool.emptied]
  simp [allocFailure, quota, space, descs]

/-- A message of circuit 0 of one segment, granted by the emptied pool: it takes segment 0 and descriptor 0, and the
reserve level is not passed (R71, R82, R84). -/
theorem allocate_emptied {s : State} {m : NewMessage} {store : Memory} {segReserve descReserve : Nat}
    (hp : s.pool = .emptied store segReserve descReserve) (hc : m.circuit = 0) (hn : segmentsFor m.length = 1)
    (hq : (s.circuits.get 0).held + 1 ≤ (s.circuits.get 0).quota) (hl : segReserve ≤ 255) :
    allocate m s = .ok (0, takeStorage m 0 s) := by
  obtain ⟨segs, descs⟩ := Pool.emptied_free store segReserve descReserve
  rw [← hp] at segs descs
  have granted : allocFailure s m.circuit (segmentsFor m.length) = none := by rw [hc, hn, allocFailure_emptied hp hq]
  have above : ¬ (takeStorage m 0 s).pool.freeSegs.length ≤ (takeStorage m 0 s).pool.segReserve := by
    have hr : (takeStorage m 0 s).pool.segReserve = segReserve := by simp [hp, Pool.emptied]
    have hf : (takeStorage m 0 s).pool.freeSegs = (List.finRange 1536).tail := by simp [takeStorage, hn, segs]
    rw [hf, hr, List.length_tail, List.length_finRange]
    omega
  simp only [allocate, granted, descs, judgeReserve, crossesReserve, above, decide_false, Bool.and_false,
    Bool.false_eq_true, if_false]

/-- The part with descriptor 0 and segment 0 of an emptied pool granted to a message of circuit 0 (R71, R84). -/
theorem takeStorage_emptied {s : State} {m : NewMessage} {store : Memory} {segReserve descReserve : Nat}
    (hp : s.pool = .emptied store segReserve descReserve) (hc : m.circuit = 0) (hn : segmentsFor m.length = 1) :
    takeStorage m 0 s = { s with
      circuits := s.circuits.change 0 fun r => { r with held := r.held + 1 }
      pool := ⟨(List.finRange 1536).tail, (List.finRange 320).tail, (Table.fill _ none).put 0 (some (m.descriptor [0])),
        store, segReserve, descReserve⟩ } := by
  obtain ⟨segs, descs⟩ := Pool.emptied_free store segReserve descReserve
  have fields : (Pool.emptied store segReserve descReserve).descs = .fill _ none ∧
      (Pool.emptied store segReserve descReserve).store = store ∧
      (Pool.emptied store segReserve descReserve).segReserve = segReserve ∧
      (Pool.emptied store segReserve descReserve).descReserve = descReserve := ⟨rfl, rfl, rfl, rfl⟩
  simp only [takeStorage, changeRecord, hc, hn, hp, segs, descs, fields, List.drop_succ_cons, List.drop_zero,
    List.take_succ_cons, List.take_zero, List.tail_cons]

/-- A message of circuit 0 of one segment, admitted to the emptied pool (R70, R71, R84). -/
theorem enqueue_emptied {s : State} {m : NewMessage} {body : List Byte} {store : Memory} {segReserve descReserve : Nat}
    (hp : s.pool = .emptied store segReserve descReserve) (hc : m.circuit = 0) (hn : segmentsFor m.length = 1)
    (hq : (s.circuits.get 0).held + 1 ≤ (s.circuits.get 0).quota) (hl : segReserve ≤ 255) :
    enqueue m body s = .ok (0, { s with
      circuits := s.circuits.change 0 fun r => { r with held := r.held + 1 }
      pool := ⟨(List.finRange 1536).tail, (List.finRange 320).tail, (Table.fill _ none).put 0 (some (m.descriptor [0])),
        storeBody [0] body store, segReserve, descReserve⟩
      addQueues := s.addQueues.put 0 (s.addQueues.get 0 ++ [0]) }) := by
  have segs : s.pool.freeSegs = 0 :: (List.finRange 1536).tail := by rw [hp]; exact (Pool.emptied_free ..).1
  simp only [enqueue, allocate_emptied hp hc hn hq hl, takeStorage_emptied hp hc hn, hc, hn, segs, List.take_succ_cons,
    List.take_zero, setAddQueue, setStore]

/-- A body stored in a chain that holds it is read back (R57, R68). -/
theorem readBody_storeBody {chain : List Segment} (hn : chain.Nodup) {m : Memory} (hm : m.wf = true) {body : List Byte}
    (hl : body.length ≤ chain.length * Config.segmentSize) :
    readBody (storeBody chain body m) chain body.length = body := by
  apply List.ext_getElem (by simp [readBody])
  intro i _ hi
  have := bodyOctet_storeFrom chain hn body m hm 0 i (by omega)
  simp only [Nat.zero_le, Nat.zero_add, hi, and_self, if_true, Nat.sub_zero] at this
  simpa [readBody, storeBody, hi] using this

/-! ### The TRAFFIC reset -/

/-- The response of a TRAFFIC reset (R155, R203). -/
def trafficResponse (request : List Byte) (s : State) : List Byte :=
  [s.nodeAddress.zeroExtend 8, 0x80, at0 request 1, at0 request 2, at0 request 3, 0, 0]

theorem trafficResponse_length (request : List Byte) (s : State) : (trafficResponse request s).length = 7 := rfl

/-- The descriptor of that response, once it stands in the circuit 0 add queue (R155). -/
def trafficDescriptor (request : List Byte) (s : State) : Descriptor :=
  (offerMessage .response (trafficResponse request s)).descriptor [0]

/-- The part cleared, with the response counted, recorded and given segment 0 and descriptor 0 (R155). -/
def trafficCleared (request : List Byte) (s : State) : State :=
  { s with
    circuits := (s.circuits.map clearTrafficOf).change 0 fun r => { r with held := r.held + 1 }
    contexts := s.contexts.map clearContext
    pool := ⟨(List.finRange 1536).tail, (List.finRange 320).tail,
      (Table.fill _ none).put 0 (some (trafficDescriptor request s)),
      storeBody [0] (trafficResponse request s) s.pool.store, s.pool.segReserve, s.pool.descReserve⟩
    delivery := clearDelivery s.delivery
    trib := { s.trib with parser := .hunting, rejects := [], tx := .idle, frame := [] }
    addQueues := (Table.fill 96 []).put 0 [0]
    emitters := .fill 96 ⟨.idle, none, 0, 0, 0, 0xFFFF⟩
    slot := clearArmedSwap s.slot
    engine := { s.engine with
      state := .idle, queue := [], inHand := none
      cache := some ⟨requestId request, requestTag request, trafficResponse request s⟩
      counters := { s.engine.counters with executed := s.engine.counters.executed + 1 } } }

/-- The response is granted its storage, and the requesters that wait are informed (R84, R155). -/
theorem trafficReset_eq {request : List Byte} {s : State} (hs : SettingsLaw s) :
    trafficReset request s = informed (trafficCleared request s) := by
  obtain ⟨hcircuits, hreserve, -⟩ := hs
  have hbody : resetBody request 0 s = trafficResponse request s := rfl
  have quota : ((s.circuits.map clearTrafficOf).get 0).held + 1 ≤ ((s.circuits.map clearTrafficOf).get 0).quota := by
    have := (hcircuits 0).1
    simp only [Table.get_map, clearTrafficOf]
    omega
  have admitted := enqueue_emptied (s := cacheResponse request (trafficResponse request s)
      (countResponse .ok (clearTraffic s))) (m := offerMessage .response (trafficResponse request s))
    (body := trafficResponse request s) rfl rfl (congrArg segmentsFor (trafficResponse_length request s)) quota hreserve
  rw [trafficReset, hbody]
  simp only [queueResetResponse, admitted]
  rw [informRequesters_eq]
  rfl

/-- What the clearing leaves of the slot engine: an armed swap is discarded (R39). -/
theorem clearArmedSwap_eq (e : SlotEngine) : clearArmedSwap e =
    if e.swap = .armedNext ∨ e.swap = .armedSignal then { e with swap := .idle, armed := none } else e := by
  unfold clearArmedSwap
  cases e.swap <;> rfl

/-- The response queued by a TRAFFIC reset reads back (R68, R155). -/
theorem bodyOf_trafficCleared {request : List Byte} {s : State} (h : StoreLaw s) :
    bodyOf (trafficCleared request s) (trafficDescriptor request s) = trafficResponse request s :=
  readBody_storeBody (List.pairwise_singleton _ 0) h (body := trafficResponse request s)
    (show 7 ≤ 1 * Config.segmentSize by decide)

theorem informed_events (s : State) : (informed s).events = s.events := by
  unfold informed
  split <;> rfl

/-- RESET_TRAFFIC of a request of its mode raises nothing (R155). -/
theorem resetTraffic_carriedOut {request : List Byte} {s : State} (hq : Quiet s) (h : InHand .reset request s)
    (hp : requestParams request = [0]) (hs : SettingsLaw s) :
    exec .resetTraffic s = .next (informed (trafficCleared request s)) := by
  refine perform_eq hq ?_ (informed_events _)
  rw [executeReset_mode false trafficReset h hp rfl, if_pos rfl, trafficReset_eq hs]

/-- What informing the requesters does to a part that owes nothing (R77, R135). -/
theorem informed_eq {s : State} (ho : s.owed = .none) : informed s = { s with
    owed := if s.arbiter.response = none ∧ s.arbiter.notice = none then .none
      else { Owed.none with attempts := 1 } } := by
  unfold informed
  rw [ho]
  split
  · rw [← ho]
  · rfl

/-- The pool after the clearing: all is free but what the response holds (R84, R155). -/
theorem trafficCleared_pool (request : List Byte) (s : State) :
    (trafficCleared request s).pool.freeSegs = (List.finRange 1536).tail ∧
    (trafficCleared request s).pool.freeDescs = (List.finRange 320).tail ∧
    (trafficCleared request s).pool.segReserve = s.pool.segReserve ∧
    (trafficCleared request s).pool.descReserve = s.pool.descReserve ∧
    (∀ d, d ≠ 0 → (trafficCleared request s).pool.descs.get d = none) ∧
    (trafficCleared request s).pool.descs.get 0 = some (trafficDescriptor request s) := by
  simp only [trafficCleared, Table.get_put_same, true_and, and_true]
  intro d hd
  rw [Table.get_put_other _ _ _ _ hd, Table.get_fill]

/-- The circuit records after the clearing: no sequence, and no storage held but circuit 0's response (R139, R155). -/
theorem trafficCleared_circuits (request : List Byte) (s : State) (c : Circuit) :
    (trafficCleared request s).circuits.get c =
      { s.circuits.get c with expected := none, emitSeq := 0, held := if c = 0 then 1 else 0 } := by
  simp only [trafficCleared, Table.get_change, Table.get_map, clearTrafficOf]
  split <;> rfl

/-! ### The FULL reset -/

/-- The FULL reset begun is the request answered, with the engine RESETTING (R156). -/
theorem fullResetBegun_eq (request : List Byte) (s : State) :
    fullResetBegun request s = { answered request .ok [1] true s with
      engine := { (answered request .ok [1] true s).engine with state := .resetting } } := by
  rw [← respond_eq_answered]
  rfl

/-! ### The statement -/

/-- Settles O55: the reset of mode TRAFFIC field by field, then the rows by mode, then the rows of no request. -/
theorem resetRequestsAreCarriedOut : Obligations.ResetRequestsAreCarriedOut := by
  refine ⟨fun request s hq h hp hs => ?_, fun mode request s hq h hp => ?_, fun s hq h i hi => ?_⟩
  · have ht := resetTraffic_carriedOut hq h hp hs
    rw [informed_eq (s := trafficCleared request s) hq.2.1] at ht
    obtain ⟨segs, descs, segReserve, descReserve, others, first⟩ := trafficCleared_pool request s
    exact ⟨_, ht, rfl, trafficCleared_circuits request s, fun c => Table.get_map ..,
      ⟨segs, descs, segReserve, descReserve, others, trafficDescriptor request s, first, rfl, rfl, rfl, rfl, rfl,
        bodyOf_trafficCleared⟩, rfl, rfl, clearArmedSwap_eq s.slot⟩
  · intro begun
    have range (full : Bool) (run : List Byte → State → State) (hm : 1 < mode.toNat) :
        perform (executeReset full run) s = .next (answered request .range [] true s) := by
      have none : flagOf mode = .none := by
        rw [← Option.not_isSome_iff_eq_none, flagOf_isSome]
        omega
      exact perform_eq hq (executeReset_range full run h hp none) rfl
    refine ⟨?_, fun hm => ⟨range true _ hm, range false _ hm⟩, ?_, ?_⟩
    · rintro rfl
      have hf := executeReset_mode true fullResetBegun h hp rfl
      rw [if_pos rfl, fullResetBegun_eq] at hf
      exact perform_eq hq hf rfl
    · rintro rfl
      exact perform_eq hq (executeReset_mode true fullResetBegun h hp rfl) rfl
    · rintro rfl
      exact perform_eq hq (executeReset_mode false trafficReset h hp rfl) rfl
  · cases i
    case identify | claim | release | setLease | readPlan | writePlan | copyPlan | armSwap | cancelSwap | confirmSwap
        | readCircuit | writeCircuit | startCircuit | stopCircuit | readCounters | readPool | writePool | readSched
        | writeSched | readEvents | writeEventConfig | ackEvents | noticeAck | readFaults | clearFaults | writeBinding
        | readBindings | loadCanned => exact perform_eq hq (execute_idle _ (not_inHand h _)) rfl
    case resetTraffic | resetFull => exact perform_eq hq (executeReset_idle _ _ h) rfl
    all_goals simp at hi

end Sys2Proof.Machine
end

section
/-!
PROOF. The fault list (R64, R197): what a receive fault of a circuit listed and of one not listed does to it, with room
for an entry, at the first overflow and after it.
-/

namespace Sys2Proof.Machine

theorem faultListed_iff (l : List FaultEntry) (c : Circuit) :
    l.any (·.circuit == c) = true ↔ ∃ e ∈ l, e.circuit = c := by
  simp

/-- The fault of a circuit already listed adds its cause to that entry (R197). -/
theorem reportFault_listed {c : Circuit} {s : State} (cause : FaultCause) (h : ∃ e ∈ s.events.faults, e.circuit = c) :
    reportFault c cause s = { s with events := { s.events with faults := s.events.faults.map fun e =>
      if e.circuit = c then { e with causes := e.causes ||| cause.code } else e } } :=
  if_pos ((faultListed_iff _ c).mpr h)

/-- The fault of a circuit not listed makes an entry where there is room, and raises CIRCUIT_FAULT (R197). -/
theorem reportFault_entered {c : Circuit} {s : State} (cause : FaultCause)
    (h : ¬ ∃ e ∈ s.events.faults, e.circuit = c) (hl : s.events.faults.length < 16) :
    reportFault c cause s =
      raise .circuitFault
        (some (faultSnapshot { s.events with faults := s.events.faults ++ [⟨c, cause.code, s.tickCounter⟩] }))
        { s with events := { s.events with faults := s.events.faults ++ [⟨c, cause.code, s.tickCounter⟩] } } :=
  (if_neg (mt (faultListed_iff _ c).mp h)).trans (if_pos hl)

/-- With the list full the fault of a circuit not listed overflows it: the first time CIRCUIT_FAULT is raised, after that
nothing changes (R197). -/
theorem reportFault_full {c : Circuit} {s : State} (cause : FaultCause)
    (h : ¬ ∃ e ∈ s.events.faults, e.circuit = c) (hl : 16 ≤ s.events.faults.length) :
    reportFault c cause s = if s.events.overflow then s else
      raise .circuitFault (some (faultSnapshot { s.events with overflow := true }))
        { s with events := { s.events with overflow := true } } :=
  (if_neg (mt (faultListed_iff _ c).mp h)).trans (if_neg (Nat.not_lt.mpr hl))

/-- Settles O23, by whether the circuit is listed, the list has room and it has overflowed. -/
theorem faultListTakesAFault : Obligations.FaultListTakesAFault := by
  intro c cause s listed snapshot
  refine ⟨reportFault_listed cause, fun h hl => reportFault_entered cause h hl, fun h hl ho => ?_, fun h hl ho => ?_⟩
  · rw [reportFault_full cause h hl, ho]
    rfl
  · rw [reportFault_full cause h hl, if_pos ho]

end Sys2Proof.Machine
end

section
/-!
PROOF. The laws of the store, the settings, the bounds and the bindings, kept by every step (R42, R66, R81, R87, R102,
R119, R124, R142, R148, R174, R193, R197). Each speaks of a few fields alone: what leaves these keeps it, and the few
operations that write them are the cases to prove.
-/

namespace Sys2Proof.Machine

/-! ### WRITE_EVENT_CONFIG -/

/-- The settings of the kinds touch the records alone (R174). -/
theorem writeSettings_fields (e : Events) (settings : List Byte) :
    (writeSettings e settings).bindings = e.bindings ∧ (writeSettings e settings).faults = e.faults ∧
    (writeSettings e settings).timeout = e.timeout ∧ (writeSettings e settings).retries = e.retries := by
  unfold writeSettings
  induction EventKind.all.zip settings generalizing e with
  | nil => exact ⟨rfl, rfl, rfl, rfl⟩
  | cons x l ih => exact ih _

/-- What WRITE_EVENT_CONFIG leaves of the event unit: bindings and fault list, and its settings unless they are replaced
by others in range (R174). -/
theorem writeEventConfigRun_events (params : List Byte) (s : State) :
    (writeEventConfigRun params s).state.events.bindings = s.events.bindings ∧
    (writeEventConfigRun params s).state.events.faults = s.events.faults ∧
    (((writeEventConfigRun params s).state.events.timeout = s.events.timeout ∧
        (writeEventConfigRun params s).state.events.retries = s.events.retries) ∨
      (10 ≤ (writeEventConfigRun params s).state.events.timeout ∧
        (writeEventConfigRun params s).state.events.timeout ≤ 5000 ∧
        (writeEventConfigRun params s).state.events.retries ≤ 7)) := by
  unfold writeEventConfigRun
  dsimp only
  split
  · exact ⟨rfl, rfl, .inl ⟨rfl, rfl⟩⟩
  · split
    · rename_i hr
      simp only [goodTimeout, Bool.and_eq_true, decide_eq_true_eq] at hr
      obtain ⟨⟨⟨low, high⟩, retries⟩, -⟩ := hr
      simp only [accepted, selectNotice_frame, setEvents_events, writeSettings_fields, true_and]
      exact .inr ⟨low, high, retries⟩
    · exact ⟨rfl, rfl, .inl ⟨rfl, rfl⟩⟩

/-! ### The store -/

/-- What leaves the octets of the segments keeps their canonical form. -/
theorem StoreLaw.of_store_eq {s t : State} (hs : StoreLaw s) (h : t.pool.store = s.pool.store) : StoreLaw t := by
  rwa [StoreLaw, h]

theorem enqueue_keeps_storeLaw {m : NewMessage} {body : List Byte} {d : DescNo} {s t : State}
    (he : enqueue m body s = .ok (d, t)) (hs : StoreLaw s) : StoreLaw t := by
  obtain ⟨u, ha, rfl⟩ := enqueue_ok he
  exact storeBody_wf _ body _ (hs.of_store_eq (by simp [allocate_frame ha]))

theorem storeLaw_empty {s : State} (h : s.pool.store = []) : StoreLaw s := by
  rw [StoreLaw, h]
  rfl

theorem storeLaw_kept : Kept StoreLaw where
  plain _ _ _ _ _ _ _ _ hs := hs
  trib _ _ _ hs := hs
  delivery _ _ _ _ _ _ hs := hs
  engine _ _ _ _ hs := hs
  events _ _ _ _ _ _ _ hs := hs
  response _ _ hs := hs
  record _ _ _ _ hs := hs
  desc _ _ _ _ hs := hs
  store _ chain i b hs := storeOctet_wf chain i b _ hs
  allocate _ _ _ _ ha hs := hs.of_store_eq (by simp [allocate_frame ha])
  enqueue _ _ _ _ _ _ he hs := enqueue_keeps_storeLaw he hs
  free _ _ hs := hs.of_store_eq (by simp)
  addQueue _ _ _ _ hs := hs
  fault _ _ _ hs := hs.of_store_eq (by simp)
  aligned _ _ hs := hs
  swap _ _ hs := hs.of_store_eq (by simp)
  revert _ _ hs := hs.of_store_eq (by simp)
  boundSwap _ hs := hs.of_store_eq (by simp)
  countdown _ _ hs := hs
  windowEnd _ _ hs := hs.of_store_eq (by simp)
  select _ hs := hs.of_store_eq (by simp)
  tried _ _ _ hs := hs
  entered _ _ _ hs := hs.of_store_eq (by simp)
  noticeTick _ hs := hs.of_store_eq (by simp)
  expired _ hs := hs.of_store_eq (by simp)
  succeeded _ _ _ _ hs := hs.of_store_eq (by simp)
  setLease _ _ hs := hs.of_store_eq (by simp)
  writePlan _ _ hs := hs.of_store_eq (by simp)
  copyPlan _ _ hs := hs.of_store_eq (by simp)
  armSwap _ _ hs := hs.of_store_eq (by simp)
  cancelSwap _ _ hs := hs.of_store_eq (by simp)
  confirmSwap _ _ hs := hs.of_store_eq (by simp)
  writeCircuit _ _ hs := hs.of_store_eq (by simp)
  writePool _ _ hs := hs.of_store_eq (by simp)
  writeSched _ _ hs := hs.of_store_eq (by simp)
  writeEventConfig _ _ hs := hs.of_store_eq (by simp)
  noticeAck _ _ hs := hs.of_store_eq (by simp)
  clearFaults _ _ hs := hs.of_store_eq (by simp)
  writeBinding _ _ hs := hs.of_store_eq (by simp)
  reset _ _ _ _ := storeLaw_empty rfl
  pinReset _ _ := storeLaw_empty rfl
  clearTraffic _ hs := hs.of_store_eq (by simp)

/-! ### The bindings -/

/-- What leaves the bindings keeps them apart. -/
theorem BindingLaw.of_bindings_eq {s t : State} (hs : BindingLaw s) (h : t.events.bindings = s.events.bindings) :
    BindingLaw t := by
  rwa [BindingLaw, h]

/-- A binding written keeps the law if its kind is none that another one names, and not BINDING_MISS. -/
theorem BindingLaw.put {s t : State} {i : Fin Config.bindings} {b : Option Binding} (hs : BindingLaw s)
    (ht : t.events.bindings = s.events.bindings.put i b)
    (hb : ∀ x, b = some x → x.kind ≠ .bindingMiss ∧
      ∀ j y, j ≠ i → s.events.bindings.get j = some y → x.kind ≠ y.kind) : BindingLaw t := by
  obtain ⟨apart, noMiss⟩ := hs
  simp only [BindingLaw, ht, Table.get_put]
  refine ⟨fun j k x y hx hy he => ?_, fun j x hx => ?_⟩
  · split at hx <;> split at hy <;> rename_i hj hk
    · rw [hj, hk]
    · exact absurd he ((hb x hx).2 k y hk hy)
    · exact absurd he.symm ((hb y hy).2 j x hj hx)
    · exact apart j k x y hx hy he
  · split at hx
    · exact (hb x hx).1
    · exact noMiss j x hx

theorem Binding.afterSuccess_kind (b : Binding) : b.afterSuccess.kind = b.kind := by
  unfold Binding.afterSuccess
  dsimp only
  split
  · split <;> rfl
  · rfl

theorem bindingSucceeded_bindings (i : Fin Config.bindings) (b : Binding) (s : State) :
    (bindingSucceeded i b s).events.bindings = s.events.bindings.put i (some b.afterSuccess) := by
  unfold bindingSucceeded
  dsimp only
  split <;> rfl

/-- A binding that has acted names the kind it named (R194). -/
theorem bindingSucceeded_keeps_bindingLaw {s : State} {i : Fin Config.bindings} {b : Binding}
    (hb : s.events.bindings.get i = some b) (hs : BindingLaw s) : BindingLaw (bindingSucceeded i b s) := by
  refine hs.put (bindingSucceeded_bindings i b s) ?_
  rintro x ⟨⟩
  rw [Binding.afterSuccess_kind]
  exact ⟨hs.2 i b hb, fun j y hj hy he => hj (hs.1 j i y b hy hb he.symm)⟩

/-- The parameters of WRITE_BINDING describe a binding of a kind 0 to 14 (R177). -/
theorem bindingOf_kind {params : List Byte} {b : Binding} (h : bindingOf params = some b) : b.kind ≠ .bindingMiss := by
  unfold bindingOf at h
  split at h
  · rename_i kind _ _ _ _ hk _ _ _ _
    split at h
    · cases h
    · cases h
      rintro rfl
      obtain ⟨hn, hl⟩ := (boundKindOf_iff _ _).mp hk
      rw [← hn] at hl
      exact absurd hl (by decide)
  · cases h

theorem boundElsewhere_false {e : Events} {i : Fin Config.bindings} {k : EventKind}
    (h : boundElsewhere e i k = false) (j : Fin Config.bindings) (y : Binding) (hj : j ≠ i)
    (hy : e.bindings.get j = some y) : k ≠ y.kind := by
  rintro rfl
  have := List.any_eq_false.mp h j (List.mem_finRange j)
  simp [hj, hy] at this

theorem writeBindingRun_keeps_bindingLaw {s : State} (params : List Byte) (hs : BindingLaw s) :
    BindingLaw (writeBindingRun params s).state := by
  unfold writeBindingRun
  split
  · exact hs.put rfl (by rintro x ⟨⟩)
  · split
    · exact hs
    · rename_i b hb
      split
      · exact hs
      · rename_i he
        refine hs.put rfl ?_
        rintro x ⟨⟩
        exact ⟨bindingOf_kind hb, boundElsewhere_false (by simpa using he)⟩
  · exact hs

theorem bindingLaw_unused {s : State} (h : s.events.bindings = .fill _ none) : BindingLaw s := by
  simp [BindingLaw, h]

theorem bindingLaw_kept : Kept BindingLaw where
  plain _ _ _ _ _ _ _ _ hs := hs
  trib _ _ _ hs := hs
  delivery _ _ _ _ _ _ hs := hs
  engine _ _ _ _ hs := hs
  events _ _ _ hb _ _ _ hs := hs.of_bindings_eq hb
  response _ _ hs := hs
  record _ _ _ _ hs := hs
  desc _ _ _ _ hs := hs
  store _ _ _ _ hs := hs
  allocate _ _ _ _ ha hs := hs.of_bindings_eq (by simp [allocate_frame ha])
  enqueue _ _ _ _ _ _ he hs := hs.of_bindings_eq (by simp [enqueue_frame he])
  free _ _ hs := hs.of_bindings_eq (by simp)
  addQueue _ _ _ _ hs := hs
  fault _ _ _ hs := hs.of_bindings_eq (by simp)
  aligned _ _ hs := hs
  swap _ _ hs := hs.of_bindings_eq (by simp)
  revert _ _ hs := hs.of_bindings_eq (by simp)
  boundSwap _ hs := hs.of_bindings_eq (by simp)
  countdown _ _ hs := hs
  windowEnd _ _ hs := hs.of_bindings_eq (by simp)
  select _ hs := hs.of_bindings_eq (by simp)
  tried _ _ _ hs := hs
  entered _ _ _ hs := hs.of_bindings_eq (by simp)
  noticeTick _ hs := hs.of_bindings_eq (by simp)
  expired _ hs := hs.of_bindings_eq (by simp)
  succeeded _ _ _ hb hs := bindingSucceeded_keeps_bindingLaw hb hs
  setLease _ _ hs := hs.of_bindings_eq (by simp)
  writePlan _ _ hs := hs.of_bindings_eq (by simp)
  copyPlan _ _ hs := hs.of_bindings_eq (by simp)
  armSwap _ _ hs := hs.of_bindings_eq (by simp)
  cancelSwap _ _ hs := hs.of_bindings_eq (by simp)
  confirmSwap _ _ hs := hs.of_bindings_eq (by simp)
  writeCircuit _ _ hs := hs.of_bindings_eq (by simp)
  writePool _ _ hs := hs.of_bindings_eq (by simp)
  writeSched _ _ hs := hs.of_bindings_eq (by simp)
  writeEventConfig _ _ hs := hs.of_bindings_eq (writeEventConfigRun_events _ _).1
  noticeAck _ _ hs := hs.of_bindings_eq (by simp)
  clearFaults _ _ hs := hs
  writeBinding _ params hs := writeBindingRun_keeps_bindingLaw params hs
  reset _ _ _ _ := bindingLaw_unused rfl
  pinReset _ _ := bindingLaw_unused rfl
  clearTraffic _ hs := hs

/-! ### Circuit records -/

/-- Two records with the same quota, stall limit and add depth. -/
def SameRanges (r r' : CircuitRecord) : Prop :=
  r'.quota = r.quota ∧ r'.stallLimit = r.stallLimit ∧ r'.addDepth = r.addDepth

@[simp] theorem SameRanges.refl (r : CircuitRecord) : SameRanges r r := ⟨rfl, rfl, rfl⟩

theorem KeepsSettings.sameRanges {f : CircuitRecord → CircuitRecord} (hf : KeepsSettings f) (r : CircuitRecord) :
    SameRanges r (f r) := by
  obtain ⟨quota, -, stallLimit, addDepth⟩ := hf r
  exact ⟨quota, stallLimit, addDepth⟩

theorem change_sameRanges (t : Table CircuitRecord Config.circuits) (c : Circuit) {f : CircuitRecord → CircuitRecord}
    (hf : ∀ r, SameRanges r (f r)) (j : Circuit) : SameRanges (t.get j) ((t.change c f).get j) := by
  rw [Table.get_change]
  split
  · exact hf _
  · exact .refl _

theorem change_held_sameRanges (t : Table CircuitRecord Config.circuits) (c : Circuit) (held : CircuitRecord → Nat)
    (j : Circuit) : SameRanges (t.get j) ((t.change c fun r => { r with held := held r }).get j) :=
  change_sameRanges t c (f := fun r => { r with held := held r }) (fun _ => ⟨rfl, rfl, rfl⟩) j

/-- A grant raises a held count, and leaves the ranges of every record (R71). -/
theorem allocate_sameRanges {m : NewMessage} {d : DescNo} {s t : State} (ha : allocate m s = .ok (d, t)) (j : Circuit) :
    SameRanges (s.circuits.get j) (t.circuits.get j) := by
  obtain ⟨-, -, rfl⟩ := allocate_ok ha
  simp only [judgeReserve_frame]
  exact change_held_sameRanges _ m.circuit _ j

theorem enqueue_sameRanges {m : NewMessage} {body : List Byte} {d : DescNo} {s t : State}
    (he : enqueue m body s = .ok (d, t)) (j : Circuit) : SameRanges (s.circuits.get j) (t.circuits.get j) := by
  obtain ⟨u, ha, rfl⟩ := enqueue_ok he
  exact allocate_sameRanges ha j

/-- A free lowers a held count, and leaves the ranges of every record (R78). -/
theorem free_sameRanges (d : DescNo) (s : State) (j : Circuit) :
    SameRanges (s.circuits.get j) ((free d s).circuits.get j) := by
  rcases free_cases d s with ⟨-, h⟩ | ⟨x, -, h, -⟩
  · rw [h]
    exact .refl _
  · rw [h]
    exact change_held_sameRanges _ _ _ j

/-- The clearing leaves the ranges of every record (R43, R155). -/
theorem clearTraffic_sameRanges (s : State) (j : Circuit) :
    SameRanges (s.circuits.get j) ((clearTraffic s).circuits.get j) := by
  rw [show (clearTraffic s).circuits = s.circuits.map clearTrafficOf from rfl, Table.get_map]
  exact ⟨rfl, rfl, rfl⟩

/-- The seven values of a WRITE_CIRCUIT put in a record are in their ranges (R42). -/
theorem settingsOf_ranges {params : List Byte} {r new : CircuitRecord} (h : settingsOf params r = some new) :
    8 ≤ new.quota ∧ new.quota ≤ 1536 ∧ new.stallLimit ≤ 1000 ∧ 1 ≤ new.addDepth ∧ new.addDepth ≤ 16 := by
  unfold settingsOf at h
  split at h
  · split at h
    · rename_i hr
      cases h
      simpa [goodQuota, goodStallLimit, goodAddDepth, and_assoc] using hr
    · cases h
  · cases h

/-- The two values a WRITE_CIRCUIT puts in the record of circuit 0 are in their ranges (R42, R44). -/
theorem managementSettingsOf_ranges {params : List Byte} {r new : CircuitRecord}
    (h : managementSettingsOf params r = some new) :
    8 ≤ new.quota ∧ new.quota ≤ 1536 ∧ new.stallLimit ≤ 1000 ∧ new.addDepth = r.addDepth := by
  unfold managementSettingsOf at h
  split at h
  · rename_i hr
    cases h
    simpa [goodQuota, goodStallLimit, and_assoc] using hr
  · cases h

/-- What WRITE_CIRCUIT writes: nothing, or a record with every value in range, and an add depth that holds the add
queue (R42, R44). -/
theorem writeCircuitRun_cases (params : List Byte) (s : State) : (writeCircuitRun params s).state = s ∨
    ∃ c new, (writeCircuitRun params s).state = writeRecord c new s ∧
      (8 ≤ new.quota ∧ new.quota ≤ 1536 ∧ new.stallLimit ≤ 1000) ∧
      (new.addDepth = (s.circuits.get c).addDepth ∨ (1 ≤ new.addDepth ∧ new.addDepth ≤ 16)) ∧
      (c ≠ 0 → (s.addQueues.get c).length ≤ new.addDepth) := by
  unfold writeCircuitRun
  split
  · exact .inl rfl
  · rename_i c _
    dsimp only
    split
    · exact .inl rfl
    · split
      · exact .inl rfl
      · rename_i new hnew
        split
        · exact .inl rfl
        · split
          · exact .inl rfl
          · rename_i hroom
            have room : c ≠ 0 → (s.addQueues.get c).length ≤ new.addDepth :=
              fun hc => Nat.le_of_not_lt fun hl => hroom ⟨hc, hl⟩
            refine .inr ⟨c, new, rfl, ?_⟩
            split at hnew
            · obtain ⟨low, high, stall, depth⟩ := managementSettingsOf_ranges hnew
              exact ⟨⟨low, high, stall⟩, .inl depth, room⟩
            · obtain ⟨low, high, stall, depth⟩ := settingsOf_ranges hnew
              exact ⟨⟨low, high, stall⟩, .inr depth, room⟩

theorem writeRecord_get (c : Circuit) (r : CircuitRecord) (s : State) (j : Circuit) :
    (writeRecord c r s).circuits.get j = if j = c then r else s.circuits.get j := by
  rw [← Table.get_change (f := fun _ => r)]
  unfold writeRecord
  dsimp only
  split <;> simp

/-! ### The settings -/

/-- Two states with the same settings. -/
structure SameSettings (s t : State) : Prop where
  records (c : Circuit) : SameRanges (s.circuits.get c) (t.circuits.get c)
  segReserve : t.pool.segReserve = s.pool.segReserve
  descReserve : t.pool.descReserve = s.pool.descReserve
  quanta : t.delivery.quanta = s.delivery.quanta
  ageLimits : t.delivery.ageLimits = s.delivery.ageLimits
  stallLimit : t.delivery.stallLimit = s.delivery.stallLimit
  lease : t.engine.lease = s.engine.lease
  timeout : t.events.timeout = s.events.timeout
  retries : t.events.retries = s.events.retries

/-- What leaves every setting keeps them in their ranges. -/
theorem SettingsLaw.of_same {s t : State} (hs : SettingsLaw s) (h : SameSettings s t) : SettingsLaw t := by
  unfold SettingsLaw
  rw [h.segReserve, h.descReserve, h.quanta, h.ageLimits, h.stallLimit, h.lease, h.timeout, h.retries]
  refine ⟨fun c => ?_, hs.2⟩
  obtain ⟨quota, stallLimit, addDepth⟩ := h.records c
  rw [quota, stallLimit, addDepth]
  exact hs.1 c

/-- What leaves the fields the settings stand in keeps them in their ranges. -/
theorem SettingsLaw.of_eq {s t : State} (hs : SettingsLaw s)
    (h : t.circuits = s.circuits ∧ t.pool.segReserve = s.pool.segReserve ∧ t.pool.descReserve = s.pool.descReserve ∧
      t.delivery.quanta = s.delivery.quanta ∧ t.delivery.ageLimits = s.delivery.ageLimits ∧
      t.delivery.stallLimit = s.delivery.stallLimit ∧ t.engine.lease = s.engine.lease ∧
      t.events.timeout = s.events.timeout ∧ t.events.retries = s.events.retries) : SettingsLaw t := by
  obtain ⟨hc, segReserve, descReserve, quanta, ageLimits, stallLimit, lease, timeout, retries⟩ := h
  exact hs.of_same ⟨fun _ => hc ▸ .refl _, segReserve, descReserve, quanta, ageLimits, stallLimit, lease, timeout,
    retries⟩

/-- WRITE_POOL leaves the reserve levels or writes others in range (R81). -/
theorem writePoolRun_reserves (params : List Byte) (s : State) :
    ((writePoolRun params s).state.pool.segReserve = s.pool.segReserve ∧
      (writePoolRun params s).state.pool.descReserve = s.pool.descReserve) ∨
    ((writePoolRun params s).state.pool.segReserve ≤ 255 ∧ (writePoolRun params s).state.pool.descReserve ≤ 63) := by
  unfold writePoolRun
  dsimp only
  split
  · rename_i hr
    simp only [accepted, writeLevels, informRequesters_frame, judgeReserve_frame]
    exact .inr (by simpa using hr)
  · exact .inl ⟨rfl, rfl⟩

theorem writePoolRun_keeps_settingsLaw {s : State} (params : List Byte) (hs : SettingsLaw s) :
    SettingsLaw (writePoolRun params s).state := by
  rcases writePoolRun_reserves params s with ⟨hseg, hdesc⟩ | h
  · exact hs.of_eq (by simp [hseg, hdesc])
  · obtain ⟨records, -, -, others⟩ := hs
    obtain ⟨hseg, hdesc⟩ := h
    simp only [SettingsLaw, writePoolRun_frame]
    exact ⟨records, hseg, hdesc, others⟩

/-- A test that every place of a table passes. -/
theorem Table.all_cells_iff {α : Type} {n : Nat} (t : Table α n) (f : α → Bool) :
    t.cells.all f = true ↔ ∀ i, f (t.get i) = true := by
  simp only [List.all_eq_true, List.mem_iff_getElem]
  refine ⟨fun h i => h _ ⟨i, t.size.symm ▸ i.isLt, rfl⟩, ?_⟩
  rintro h _ ⟨i, hi, rfl⟩
  exact h ⟨i, t.size ▸ hi⟩

theorem writeSchedRun_keeps_settingsLaw {s : State} (params : List Byte) (hs : SettingsLaw s) :
    SettingsLaw (writeSchedRun params s).state := by
  unfold writeSchedRun
  dsimp only
  split
  · rename_i hr
    obtain ⟨records, segReserve, descReserve, -, -, -, others⟩ := hs
    simp only [Bool.and_eq_true, Table.all_cells_iff, decide_eq_true_eq, goodQuantum] at hr
    obtain ⟨⟨quanta, ageLimits⟩, stallLimit⟩ := hr
    exact ⟨records, segReserve, descReserve, quanta, ageLimits, stallLimit, others⟩
  · exact hs

/-- SET_LEASE leaves the lease setting or writes another in range (R151). -/
theorem setLeaseRun_lease (params : List Byte) (s : State) :
    (setLeaseRun params s).state.engine.lease = s.engine.lease ∨
    goodLease (setLeaseRun params s).state.engine.lease = true := by
  unfold setLeaseRun writeLease
  dsimp only
  split
  · rename_i hr
    right
    dsimp only [accepted]
    split <;> exact hr
  · exact .inl rfl

theorem setLeaseRun_keeps_settingsLaw {s : State} (params : List Byte) (hs : SettingsLaw s) :
    SettingsLaw (setLeaseRun params s).state := by
  rcases setLeaseRun_lease params s with h | h
  · exact hs.of_eq (by simp [h])
  · obtain ⟨records, segReserve, descReserve, quanta, ageLimits, stallLimit, -, others⟩ := hs
    simp only [SettingsLaw, setLeaseRun_frame]
    exact ⟨records, segReserve, descReserve, quanta, ageLimits, stallLimit, by simpa [goodLease] using h, others⟩

theorem writeEventConfigRun_keeps_settingsLaw {s : State} (params : List Byte) (hs : SettingsLaw s) :
    SettingsLaw (writeEventConfigRun params s).state := by
  obtain ⟨-, -, ⟨timeout, retries⟩ | inRange⟩ := writeEventConfigRun_events params s
  · exact hs.of_eq (by simp [timeout, retries])
  · obtain ⟨records, segReserve, descReserve, quanta, ageLimits, stallLimit, lease, -⟩ := hs
    simp only [SettingsLaw, writeEventConfigRun_frame]
    exact ⟨records, segReserve, descReserve, quanta, ageLimits, stallLimit, lease, inRange⟩

theorem writeCircuitRun_keeps_settingsLaw {s : State} (params : List Byte) (hs : SettingsLaw s) :
    SettingsLaw (writeCircuitRun params s).state := by
  rcases writeCircuitRun_cases params s with h | ⟨c, new, h, ⟨low, high, stall⟩, depth, -⟩
  · rwa [h]
  · obtain ⟨records, others⟩ := hs
    simp only [SettingsLaw, h, writeRecord_frame, writeRecord_get]
    refine ⟨fun j => ?_, others⟩
    split
    · refine ⟨low, high, stall, ?_⟩
      rcases depth with depth | depth
      · rw [depth]
        exact (records c).2.2.2
      · exact depth
    · exact records j

theorem settingsLaw_kept : Kept SettingsLaw where
  plain _ _ _ _ _ _ _ _ hs := hs
  trib _ _ _ hs := hs
  delivery _ _ quanta ageLimits stallLimit _ hs :=
    hs.of_eq ⟨rfl, rfl, rfl, quanta, ageLimits, stallLimit, rfl, rfl, rfl⟩
  engine _ _ lease _ hs := hs.of_eq ⟨rfl, rfl, rfl, rfl, rfl, rfl, lease, rfl, rfl⟩
  events _ _ _ _ _ timeout retries hs := hs.of_eq ⟨rfl, rfl, rfl, rfl, rfl, rfl, rfl, timeout, retries⟩
  response _ _ hs := hs
  record s c f hf hs := hs.of_same ⟨change_sameRanges s.circuits c hf.sameRanges, rfl, rfl, rfl, rfl, rfl, rfl, rfl, rfl⟩
  desc _ _ _ _ hs := hs
  store _ _ _ _ hs := hs
  allocate _ _ _ _ ha hs := hs.of_same (by constructor <;> simp [allocate_frame ha, allocate_sameRanges ha])
  enqueue _ _ _ _ _ _ he hs := hs.of_same (by constructor <;> simp [enqueue_frame he, enqueue_sameRanges he])
  free _ _ hs := hs.of_same (by constructor <;> simp [free_sameRanges])
  addQueue _ _ _ _ hs := hs
  fault _ _ _ hs := hs.of_eq (by simp)
  aligned _ _ hs := hs
  swap _ _ hs := hs.of_eq (by simp)
  revert _ _ hs := hs.of_eq (by simp)
  boundSwap _ hs := hs.of_eq (by simp)
  countdown _ _ hs := hs
  windowEnd _ _ hs := hs.of_eq (by simp)
  select _ hs := hs.of_eq (by simp)
  tried _ _ _ hs := hs
  entered _ _ _ hs := hs.of_eq (by simp)
  noticeTick _ hs := hs.of_eq (by simp)
  expired _ hs := hs.of_eq (by simp)
  succeeded _ _ _ _ hs := hs.of_eq (by simp)
  setLease _ params hs := setLeaseRun_keeps_settingsLaw params hs
  writePlan _ _ hs := hs.of_eq (by simp)
  copyPlan _ _ hs := hs.of_eq (by simp)
  armSwap _ _ hs := hs.of_eq (by simp)
  cancelSwap _ _ hs := hs.of_eq (by simp)
  confirmSwap _ _ hs := hs.of_eq (by simp)
  writeCircuit _ params hs := writeCircuitRun_keeps_settingsLaw params hs
  writePool _ params hs := writePoolRun_keeps_settingsLaw params hs
  writeSched _ params hs := writeSchedRun_keeps_settingsLaw params hs
  writeEventConfig _ params hs := writeEventConfigRun_keeps_settingsLaw params hs
  noticeAck _ _ hs := hs.of_eq (by simp)
  clearFaults _ _ hs := hs
  writeBinding _ _ hs := hs.of_eq (by simp)
  reset _ _ _ _ := settingsLaw_reset
  pinReset _ _ := settingsLaw_reset
  clearTraffic _ hs := hs.of_same (by constructor <;> simp [clearTraffic_sameRanges])

/-! ### The bounds -/

/-- `t` fills the bounded lists and the credits no more than `s` does, or within their bounds. -/
structure NoFuller (s t : State) : Prop where
  credits : t.delivery.credits ≤ s.delivery.credits ∨ t.delivery.credits ≤ 32
  rejects : t.trib.rejects.length ≤ s.trib.rejects.length ∨ t.trib.rejects.length ≤ 8
  requests : t.engine.queue.length ≤ s.engine.queue.length ∨ t.engine.queue.length ≤ 4
  addQueues (c : Circuit) : (t.addQueues.get c).length ≤ (s.addQueues.get c).length
  depths (c : Circuit) : queueDepth t c = queueDepth s c
  faults : t.events.faults = s.events.faults

theorem CapacityLaw.of_noFuller {s t : State} (hs : CapacityLaw s) (h : NoFuller s t) : CapacityLaw t := by
  obtain ⟨credits, rejects, requests, addQueues, faults⟩ := hs
  refine ⟨?_, ?_, ?_, fun c => ?_, h.faults.symm ▸ faults⟩
  · exact h.credits.elim (fun hle => Nat.le_trans hle credits) id
  · exact h.rejects.elim (fun hle => Nat.le_trans hle rejects) id
  · exact h.requests.elim (fun hle => Nat.le_trans hle requests) id
  · rw [h.depths c]
    exact Nat.le_trans (h.addQueues c) (addQueues c)

/-- The depth of an add queue is told by the add depth of the record (R125). -/
theorem queueDepth_eq_of_sameRanges {s t : State} {c : Circuit} (h : SameRanges (s.circuits.get c) (t.circuits.get c)) :
    queueDepth t c = queueDepth s c := by
  rw [queueDepth, queueDepth, h.2.2]

/-- What leaves the lists, the credits and the records keeps the bounds. -/
theorem CapacityLaw.of_eq {s t : State} (hs : CapacityLaw s)
    (h : t.delivery.credits = s.delivery.credits ∧ t.trib.rejects = s.trib.rejects ∧
      t.engine.queue = s.engine.queue ∧ t.addQueues = s.addQueues ∧
      (∀ c, SameRanges (s.circuits.get c) (t.circuits.get c)) ∧ t.events.faults = s.events.faults) :
    CapacityLaw t := by
  obtain ⟨credits, rejects, requests, addQueues, records, faults⟩ := h
  exact hs.of_noFuller ⟨.inl (Nat.le_of_eq credits), .inl (rejects ▸ Nat.le_refl _), .inl (requests ▸ Nat.le_refl _),
    fun _ => addQueues ▸ Nat.le_refl _, fun c => queueDepth_eq_of_sameRanges (records c), faults⟩

/-- A fault reported keeps the list within 16 entries and names no circuit twice: one that adds an entry is of a circuit
not listed, with room (R197). -/
theorem reportFault_faults {s : State} (c : Circuit) (cause : FaultCause)
    (h : s.events.faults.length ≤ 16 ∧ (s.events.faults.map (·.circuit)).Nodup) :
    (reportFault c cause s).events.faults.length ≤ 16 ∧
    ((reportFault c cause s).events.faults.map (·.circuit)).Nodup := by
  by_cases listed : ∃ e ∈ s.events.faults, e.circuit = c
  · rw [reportFault_listed cause listed, List.length_map, List.map_map]
    have : (s.events.faults.map ((·.circuit) ∘ fun e =>
        if e.circuit = c then { e with causes := e.causes ||| cause.code } else e)) = s.events.faults.map (·.circuit) := by
      refine List.map_congr_left fun e _ => ?_
      dsimp only [Function.comp]
      split <;> rfl
    rwa [this]
  · rcases Nat.lt_or_ge s.events.faults.length 16 with room | full
    · rw [reportFault_entered cause listed room]
      refine ⟨?_, ?_⟩
      · simp only [raise_frame, List.length_append, List.length_cons, List.length_nil]
        exact room
      · simp only [raise_frame, List.map_append, List.map_cons, List.map_nil]
        refine List.nodup_append.mpr ⟨h.2, List.pairwise_singleton _ _, ?_⟩
        rintro _ hc _ hd rfl
        obtain ⟨e, he, rfl⟩ := List.mem_map.mp hc
        exact listed ⟨e, he, List.mem_singleton.mp hd⟩
    · rw [reportFault_full cause listed full]
      split
      · exact h
      · exact h

/-- An admission puts one message in a queue with room (R124, R125). -/
theorem enqueue_addQueues {m : NewMessage} {body : List Byte} {d : DescNo} {s t : State}
    (he : enqueue m body s = .ok (d, t)) :
    t.addQueues = s.addQueues.put m.circuit (s.addQueues.get m.circuit ++ [d]) := by
  obtain ⟨u, ha, rfl⟩ := enqueue_ok he
  simp [allocate_frame ha]

theorem enqueue_keeps_capacityLaw {m : NewMessage} {body : List Byte} {d : DescNo} {s t : State}
    (hr : hasRoom s m.circuit = true) (he : enqueue m body s = .ok (d, t)) (hs : CapacityLaw s) : CapacityLaw t := by
  obtain ⟨credits, rejects, requests, addQueues, faults⟩ := hs
  have depth (c : Circuit) : queueDepth t c = queueDepth s c := queueDepth_eq_of_sameRanges (enqueue_sameRanges he c)
  simp only [CapacityLaw, enqueue_frame he, enqueue_addQueues he, depth, Table.get_put]
  refine ⟨credits, rejects, requests, fun c => ?_, faults⟩
  split
  · rename_i hc
    rw [hc, List.length_append]
    exact of_decide_eq_true hr
  · exact addQueues c

theorem writeCircuitRun_keeps_capacityLaw {s : State} (params : List Byte) (hs : CapacityLaw s) :
    CapacityLaw (writeCircuitRun params s).state := by
  rcases writeCircuitRun_cases params s with h | ⟨c, new, h, -, -, room⟩
  · rwa [h]
  · obtain ⟨credits, rejects, requests, addQueues, faults⟩ := hs
    rw [h]
    simp only [CapacityLaw, queueDepth, writeRecord_frame, writeRecord_get]
    refine ⟨credits, rejects, requests, fun j => ?_, faults⟩
    have old := addQueues j
    rw [queueDepth] at old
    by_cases hj : j = 0
    · rwa [if_pos hj] at old ⊢
    · rw [if_neg hj] at old ⊢
      split
      · rename_i hc
        subst hc
        exact room hj
      · exact old

theorem capacityLaw_kept : Kept CapacityLaw where
  plain _ _ _ _ _ _ _ _ hs := hs
  trib _ _ rejects hs := hs.of_noFuller ⟨.inl (Nat.le_refl _), rejects, .inl (Nat.le_refl _), fun _ => Nat.le_refl _,
    fun _ => rfl, rfl⟩
  delivery _ _ _ _ _ credits hs := hs.of_noFuller ⟨credits, .inl (Nat.le_refl _), .inl (Nat.le_refl _),
    fun _ => Nat.le_refl _, fun _ => rfl, rfl⟩
  engine _ _ _ requests hs := hs.of_noFuller ⟨.inl (Nat.le_refl _), .inl (Nat.le_refl _), requests,
    fun _ => Nat.le_refl _, fun _ => rfl, rfl⟩
  events _ _ _ _ faults _ _ hs := hs.of_eq ⟨rfl, rfl, rfl, rfl, fun _ => .refl _, faults⟩
  response _ _ hs := hs
  record s c f hf hs := hs.of_eq ⟨rfl, rfl, rfl, rfl, change_sameRanges s.circuits c hf.sameRanges, rfl⟩
  desc _ _ _ _ hs := hs
  store _ _ _ _ hs := hs
  allocate _ _ _ _ ha hs := hs.of_eq (by simp [allocate_frame ha, allocate_sameRanges ha])
  enqueue _ _ _ _ _ hr he hs := enqueue_keeps_capacityLaw hr he hs
  free _ _ hs := hs.of_eq (by simp [free_sameRanges])
  addQueue s c q hq hs := hs.of_noFuller ⟨.inl (Nat.le_refl _), .inl (Nat.le_refl _), .inl (Nat.le_refl _),
    fun j => by simp only [setAddQueue_addQueues, Table.get_put]; split <;> simp [*], fun _ => rfl, rfl⟩
  fault s c cause hs := by
    obtain ⟨credits, rejects, requests, addQueues, faults⟩ := hs
    simp only [CapacityLaw, queueDepth, reportFault_frame]
    exact ⟨credits, rejects, requests, addQueues, reportFault_faults c cause faults⟩
  aligned _ _ hs := hs
  swap _ _ hs := hs.of_eq (by simp)
  revert _ _ hs := hs.of_eq (by simp)
  boundSwap _ hs := hs.of_eq (by simp)
  countdown _ _ hs := hs
  windowEnd _ _ hs := hs.of_eq (by simp)
  select _ hs := hs.of_eq (by simp)
  tried _ _ _ hs := hs
  entered _ _ _ hs := hs.of_eq (by simp)
  noticeTick _ hs := hs.of_eq (by simp)
  expired _ hs := hs.of_eq (by simp)
  succeeded _ _ _ _ hs := hs.of_eq (by simp)
  setLease _ _ hs := hs.of_eq (by simp)
  writePlan _ _ hs := hs.of_eq (by simp)
  copyPlan _ _ hs := hs.of_eq (by simp)
  armSwap _ _ hs := hs.of_eq (by simp)
  cancelSwap _ _ hs := hs.of_eq (by simp)
  confirmSwap _ _ hs := hs.of_eq (by simp)
  writeCircuit _ params hs := writeCircuitRun_keeps_capacityLaw params hs
  writePool _ _ hs := hs.of_eq (by simp)
  writeSched _ _ hs := hs.of_eq (by simp)
  writeEventConfig _ params hs := hs.of_eq (by simp [(writeEventConfigRun_events params _).2.1])
  noticeAck _ _ hs := hs.of_eq (by simp)
  clearFaults s params hs := by
    obtain ⟨credits, rejects, requests, addQueues, -⟩ := hs
    exact ⟨credits, rejects, requests, addQueues, Nat.zero_le _, List.nodup_nil⟩
  writeBinding _ _ hs := hs.of_eq (by simp)
  reset _ _ _ _ := capacityLaw_reset
  pinReset _ _ := capacityLaw_reset
  clearTraffic s hs := hs.of_noFuller ⟨.inr (Nat.zero_le _), .inr (Nat.zero_le _), .inr (Nat.zero_le _),
    fun _ => by simp [clearTraffic], fun c => queueDepth_eq_of_sameRanges (clearTraffic_sameRanges s c), by simp⟩

/-! ### Every step -/

/-- Settles O60: every operation keeps each law, so every step does. -/
theorem everyStepKeepsTheBoundsAndSettings : Obligations.EveryStepKeepsTheBoundsAndSettings :=
  ⟨fun _ _ hs he => storeLaw_kept.step (fun _ _ hu => hu) hs he,
    fun _ _ hs he => settingsLaw_kept.step (fun _ _ hu => hu) hs he,
    fun _ _ hs he => capacityLaw_kept.step (fun _ _ hu => hu) hs he,
    fun _ _ hs he => bindingLaw_kept.step (fun _ _ hu => hu) hs he⟩

end Sys2Proof.Machine
end

section
/-!
PROOF. The receive context (R52 to R63): an octet in each of its states, from the opener to the hand-off, and the stall.
-/

namespace Sys2Proof.Machine

/-! ### The context written -/

/-- A place written twice holds what was written last. -/
theorem Table.put_put {α : Type} {n : Nat} (t : Table α n) (i : Fin n) (a b : α) : (t.put i a).put i b = t.put i b := by
  refine Table.ext_get fun j => ?_
  by_cases hj : j = i <;> simp [Table.get_put, hj]

/-- A context written after steps that leave the contexts. -/
theorem setContext_of_contexts_eq {s t : State} (c : Circuit) (ctx : RxContext) (h : t.contexts = s.contexts) :
    setContext c ctx t = { t with contexts := s.contexts.put c ctx } := by
  rw [setContext, h]

/-! An octet goes by the state of the context (R41). -/

section

variable {c : Circuit} {s : State} (b : Byte)

theorem receiveOctet_hunt (h : (s.contexts.get c).state = .hunt) : receiveOctet c b s = receiveHunt c b s := by
  rw [receiveOctet, h]
theorem receiveOctet_head (h : (s.contexts.get c).state = .head) : receiveOctet c b s = receiveHead c b s := by
  rw [receiveOctet, h]
theorem receiveOctet_body (h : (s.contexts.get c).state = .body) : receiveOctet c b s = receiveBody c b s := by
  rw [receiveOctet, h]
theorem receiveOctet_check (h : (s.contexts.get c).state = .check) : receiveOctet c b s = receiveCheck c b s := by
  rw [receiveOctet, h]
theorem receiveOctet_skip (h : (s.contexts.get c).state = .skip) : receiveOctet c b s = receiveSkip c s := by
  rw [receiveOctet, h]

end

/-! ### HUNT -/

theorem receiveHunt_disabled {c : Circuit} {s : State} (b : Byte) (h : (s.circuits.get c).dropEnable = false) :
    receiveHunt c b s = s := by
  simp [receiveHunt, h]

theorem receiveHunt_enabled {c : Circuit} {s : State} (b : Byte) (h : (s.circuits.get c).dropEnable = true) :
    receiveHunt c b s = if b = 0x5A then setContext c (.empty .head) s else if b = 0xC3 then s
      else count c (fun k => { k with strays := k.strays + 1 }) s := by
  simp [receiveHunt, h]

/-- Settles O18, by drop enable and the value of the octet. -/
theorem huntJudgesOctets : Obligations.HuntJudgesOctets := by
  intro c b s hs
  rw [receiveOctet_hunt b hs]
  refine ⟨fun hd => ?_, receiveHunt_disabled b⟩
  simp only [receiveHunt_enabled b hd]
  refine ⟨fun opener => if_pos opener, ?_, fun opener idle => ?_⟩
  · rintro rfl
    rfl
  · rw [if_neg opener, if_neg idle]
    rfl

/-! ### HEAD -/

theorem receiveHead_first {c : Circuit} {s : State} (b : Byte) (h : (s.contexts.get c).header = []) :
    receiveHead c b s = { s with contexts := s.contexts.put c { s.contexts.get c with
      header := [b], crc := crcOctet (s.contexts.get c).crc b, timer := 0 } } := by
  simp only [receiveHead, h]
  rfl

theorem receiveHead_second {c : Circuit} {s : State} {first : Byte} (b : Byte)
    (h : (s.contexts.get c).header = [first]) :
    receiveHead c b s = if goodHeader first b then headerGood c first b (crcOctet (s.contexts.get c).crc b) s
      else headerBad c s := by
  simp only [receiveHead, h]

theorem headerBad_eq (c : Circuit) (s : State) : headerBad c s =
    { reportFault c .header (count c (fun k => { k with headerErrors := k.headerErrors + 1 }) s) with
      contexts := s.contexts.put c (.empty .hunt) } :=
  setContext_of_contexts_eq c _ (by simp)

/-- The request a header makes (R55, R202). -/
theorem headerMessage_eq {L b : Byte} {cls : Class} {seq : BitVec 4} {mark : Bool} (c : Circuit)
    (h : b.toNat = 64 * cls.val + 4 * seq.toNat + (if mark then 2 else 0)) :
    headerMessage c L b = ⟨.assembling, c, cls, mark, some seq, L.toNat, .trunk⟩ := by
  obtain ⟨hcls, hseq, hmark⟩ := header_fields h
  rw [headerMessage, hcls, hseq, hmark]

/-- A good header whose request is granted (R55). -/
theorem headerGood_granted {c : Circuit} {L b : Byte} {crc : Word} {d : DescNo} {s t : State}
    (ha : allocate (headerMessage c L b) s = .ok (d, t)) :
    headerGood c L b crc s = { t with
      contexts := s.contexts.put c (bodyContext (headerMessage c L b) d [L, b] crc) } := by
  simp only [headerGood, ha]
  exact setContext_of_contexts_eq c _ (by simp [allocate_frame ha])

/-- What a skip counts: want of quota apart, want of segments and want of descriptors together (R56). -/
theorem countSkip_eq (c : Circuit) (f : AllocFailure) (s : State) : countSkip c f s =
    reportFault c (if f = .quota then .skipQuota else .skipSpace) (count c (fun k =>
      if f = .quota then { k with skipsQuota := k.skipsQuota + 1 } else { k with skipsSpace := k.skipsSpace + 1 }) s) := by
  cases f <;> rfl

/-- A good header whose request is refused (R56). -/
theorem headerGood_refused {c : Circuit} {L b : Byte} {crc : Word} {f : AllocFailure} {s : State}
    (ha : allocate (headerMessage c L b) s = .error f) :
    headerGood c L b crc s = { countSkip c f (raiseRefusal f c L.toNat s) with
      contexts := s.contexts.put c (skipContext (headerMessage c L b) [L, b] crc) } := by
  simp only [headerGood, ha]
  exact setContext_of_contexts_eq c _ (by simp)

/-- Settles O19: the first octet of a header, then the second by the header they make and the answer of the pool. -/
theorem headersAreJudged : Obligations.HeadersAreJudged := by
  intro c b s hs ctx crc
  rw [receiveOctet_head b hs]
  refine ⟨receiveHead_first b, fun L hL bad => ?_, fun L cls seq mark hL low high hb => ?_⟩
  · have bad' : ¬ goodHeader L b = true := by
      rw [goodHeader_iff]
      omega
    rw [receiveHead_second b hL, if_neg bad', headerBad_eq]
    rfl
  · intro m
    have good : goodHeader L b = true := by
      rw [goodHeader_iff]
      refine ⟨low, high, ?_⟩
      split at hb <;> omega
    have asked : headerMessage c L b = m := headerMessage_eq c hb
    rw [receiveHead_second b hL, if_pos good]
    refine ⟨fun d t ha => ?_, fun f ha => ?_⟩
    · rw [headerGood_granted (asked ▸ ha), asked]
      rfl
    · rw [headerGood_refused (asked ▸ ha), asked, countSkip_eq]
      rfl

/-! ### BODY -/

theorem bodyAddress_of_getElem {chain : List Segment} {i : Nat} {g : Segment} (h : chain[i / 32]? = some g) :
    bodyAddress chain i = some (32 * g.val + i % 32) := by
  rw [bodyAddress, h, Nat.mul_comm]
  rfl

/-- An octet of a body in BODY: stored in the chain of its descriptor, the last one ending the body (R57). -/
theorem receiveBody_eq {c : Circuit} {s : State} {d : DescNo} {x : Descriptor} (b : Byte)
    (hd : (s.contexts.get c).desc = some d) (hx : s.pool.descs.get d = some x)
    (hl : (s.contexts.get c).bodyCount < (s.contexts.get c).length) :
    receiveBody c b s = { s with
      contexts := s.contexts.put c { s.contexts.get c with
        bodyCount := (s.contexts.get c).bodyCount + 1, crc := crcOctet (s.contexts.get c).crc b
        timer := 0, checkOctets := []
        state := if (s.contexts.get c).bodyCount + 1 = (s.contexts.get c).length then .check else .body }
      pool := { s.pool with store := storeOctet x.chain (s.contexts.get c).bodyCount b s.pool.store } } := by
  have last : (s.contexts.get c).length ≤ (s.contexts.get c).bodyCount + 1 ↔
      (s.contexts.get c).bodyCount + 1 = (s.contexts.get c).length := by omega
  simp only [receiveBody, hd, hx, last]
  rfl

/-- Settles O20: the octet is stored at the address its place has, which alone reads another value. -/
theorem bodyOctetsAreStored : Obligations.BodyOctetsAreStored := by
  intro c b d x g s law hs hd hx inBody hg ctx address
  have stored : storeOctet x.chain ctx.bodyCount b s.pool.store = s.pool.store.write address b := by
    rw [storeOctet, bodyAddress_of_getElem hg]
  refine ⟨s.pool.store.write address b, ?_, ?_, fun a ha => ?_⟩
  · rw [receiveOctet_body b hs, ← stored]
    exact receiveBody_eq b hd hx inBody
  · rw [Memory.read_write _ law, if_pos rfl]
  · rw [Memory.read_write _ law, if_neg ha]

/-! ### CHECK -/

theorem receiveCheck_first {c : Circuit} {s : State} (b : Byte) (h : (s.contexts.get c).checkOctets = []) :
    receiveCheck c b s =
      { s with contexts := s.contexts.put c { s.contexts.get c with checkOctets := [b], timer := 0 } } := by
  simp only [receiveCheck, h]
  rfl

theorem receiveCheck_second {c : Circuit} {s : State} {high : Byte} {d : DescNo} (b : Byte)
    (h : (s.contexts.get c).checkOctets = [high]) (hd : (s.contexts.get c).desc = some d) :
    receiveCheck c b s = if high.toNat * 256 + b.toNat = (s.contexts.get c).crc.toNat
      then checkMatch c (s.contexts.get c) d s else checkMismatch c d s := by
  simp only [receiveCheck, h, hd, checkOctets_iff]

theorem checkMismatch_eq (c : Circuit) (d : DescNo) (s : State) : checkMismatch c d s =
    { free d (reportFault c .check (count c (fun k => { k with checkErrors := k.checkErrors + 1 }) s)) with
      contexts := s.contexts.put c (.empty .hunt) } :=
  setContext_of_contexts_eq c _ (by simp)

theorem changeDesc_eq {d : DescNo} {x : Descriptor} {s : State} (f : Descriptor → Descriptor)
    (hx : s.pool.descs.get d = some x) :
    changeDesc d f s = { s with pool := { s.pool with descs := s.pool.descs.put d (some (f x)) } } := by
  rw [changeDesc, hx]
  rfl

/-- A sequence is a gap when the check is on and another one was expected (R59). -/
def SequenceGap (r : CircuitRecord) (seq : BitVec 4) : Prop :=
  r.seqCheck = true ∧ ∃ e, r.expected = some e ∧ e ≠ seq

theorem sequenceGap_iff (r : CircuitRecord) (seq : BitVec 4) :
    (r.seqCheck && r.expected.any (· != seq)) = true ↔ SequenceGap r seq := by
  simp [SequenceGap, Option.any_eq_true]

/-- A gap is counted and reported (R59). -/
theorem judgeSequence_gap {c : Circuit} {seq : BitVec 4} {s : State} (h : SequenceGap (s.circuits.get c) seq) :
    judgeSequence c seq s = changeRecord c (fun r => { r with expected := some (seq + 1) })
      (reportFault c .seqGap (count c (fun k => { k with seqGaps := k.seqGaps + 1 }) s)) := by
  simp only [judgeSequence, (sequenceGap_iff _ _).mpr h, if_true]

theorem judgeSequence_expected {c : Circuit} {seq : BitVec 4} {s : State}
    (h : ¬ SequenceGap (s.circuits.get c) seq) :
    judgeSequence c seq s = changeRecord c (fun r => { r with expected := some (seq + 1) }) s := by
  simp only [judgeSequence, mt (sequenceGap_iff _ _).mp h, if_false, Bool.false_eq_true]

/-- The state in which a message is handed on has its context, lists and descriptor as the check octet found them, the
descriptor stamped. -/
structure Stamped (d : DescNo) (x : Descriptor) (s t : State) : Prop where
  contexts : t.contexts = s.contexts
  requests : t.engine.queue = s.engine.queue
  queues : t.delivery.queues = s.delivery.queues
  descs : t.pool.descs = s.pool.descs.put d (some { x with stamp := some s.tickCounter })

/-- `t` with the message of descriptor `d` handed on and its context hunting, in the terms of the statement (R60, R61,
R142). -/
def handedOn (c : Circuit) (cls : Class) (d : DescNo) (x : Descriptor) (s t : State) : State :=
  if c = 0 then
    if s.engine.queue.length < 4 then { t with
      engine := { t.engine with queue := s.engine.queue ++ [d] }
      pool := { t.pool with descs := s.pool.descs.put d (some { x with stamp := some s.tickCounter, state := .request }) }
      contexts := s.contexts.put c (.empty .hunt) }
    else raise .mgmtOverrun none { free d { t with engine := { t.engine with
      counters := { t.engine.counters with overruns := t.engine.counters.overruns + 1 } } } with
        contexts := s.contexts.put c (.empty .hunt) }
  else { t with
    delivery := { t.delivery with queues := s.delivery.queues.put cls (s.delivery.queues.get cls ++ [d]) }
    pool := { t.pool with descs := s.pool.descs.put d (some { x with stamp := some s.tickCounter, state := .queued }) }
    contexts := s.contexts.put c (.empty .hunt) }

theorem handOn_eq_handedOn {c : Circuit} {d : DescNo} {x : Descriptor} {s t : State} (cls : Class)
    (h : Stamped d x s t) : setContext c (.empty .hunt) (handOn c cls d t) = handedOn c cls d x s t := by
  obtain ⟨contexts, requests, queues, descs⟩ := h
  have hx : t.pool.descs.get d = some { x with stamp := some s.tickCounter } := by rw [descs, Table.get_put_same]
  unfold handOn handedOn
  rw [requests, queues]
  split
  · split
    · rw [changeDesc_eq (x := { x with stamp := some s.tickCounter }) _ (by exact hx)]
      refine (setContext_of_contexts_eq c _ (by exact contexts)).trans ?_
      simp only [descs, Table.put_put]
    · exact congrArg (raise .mgmtOverrun none) (setContext_of_contexts_eq c _ (by simpa using contexts))
  · rw [changeDesc_eq (x := { x with stamp := some s.tickCounter }) _ (by exact hx)]
    refine (setContext_of_contexts_eq c _ (by exact contexts)).trans ?_
    simp only [setClassQueue, descs, queues, Table.put_put]

/-- Settles O21: the first check octet, then the second by the match and the sequence. -/
theorem checkEndsAMessage : Obligations.CheckEndsAMessage := by
  refine ⟨fun c b s hs hk => ?_, fun c high b d x s hs hk hd hx => ?_⟩
  · rw [receiveOctet_check b hs]
    exact receiveCheck_first b hk
  · intro ctx hunting raised stamped counted gap judged handed
    have second := (receiveOctet_check b hs).trans (receiveCheck_second b hk hd)
    have record : (counted.circuits.get c).seqCheck = (s.circuits.get c).seqCheck ∧
        (counted.circuits.get c).expected = (s.circuits.get c).expected := by
      simp [counted, raised, stamped]
    have hgap : SequenceGap (counted.circuits.get c) ctx.seq ↔ gap := by
      rw [SequenceGap, record.1, record.2]
    have matched : checkMatch c ctx d s = setContext c (.empty .hunt) (handOn c ctx.cls d (judgeSequence c ctx.seq counted)) := by
      simp only [checkMatch, changeDesc_eq _ hx]
      rfl
    refine ⟨fun good hg => ?_, fun good hg => ?_, fun bad => ?_⟩
    · rw [second, if_pos good]
      refine matched.trans ?_
      rw [judgeSequence_gap (hgap.mpr hg)]
      exact handOn_eq_handedOn ctx.cls (by constructor <;> simp [counted, raised, stamped])
    · rw [second, if_pos good]
      refine matched.trans ?_
      rw [judgeSequence_expected (mt hgap.mp hg)]
      exact handOn_eq_handedOn ctx.cls ⟨rfl, rfl, rfl, rfl⟩
    · rw [second, if_neg bad, checkMismatch_eq]
      rfl

/-! ### SKIP and the stall -/

theorem receiveSkip_last {c : Circuit} {s : State} (h : (s.contexts.get c).skipCount = 1) :
    receiveSkip c s = { s with contexts := s.contexts.put c (.empty .hunt) } := by
  simp only [receiveSkip, h]
  rfl

theorem receiveSkip_more {c : Circuit} {s : State} (h : 2 ≤ (s.contexts.get c).skipCount) :
    receiveSkip c s = { s with contexts := s.contexts.put c { s.contexts.get c with
      skipCount := (s.contexts.get c).skipCount - 1, timer := 0 } } :=
  if_neg (by omega)

theorem exec_stall (c : Circuit) (s : State) : exec (.stall c.val) s = performOwed (stallOwed c) s := dif_pos c.isLt

/-- A context has stalled when its timer runs and has reached a limit that is not 0 (R63). -/
theorem stalled_iff (r : CircuitRecord) (ctx : RxContext) : stalled r ctx = true ↔
    (ctx.state ≠ .stopped ∧ ctx.state ≠ .hunt) ∧ r.stallLimit ≠ 0 ∧ r.stallLimit ≤ ctx.timer := by
  simp [stalled, timed_iff, and_assoc]

/-- The one stall owed, taken (R63; log entry 6). -/
theorem stallOwed_only {c : Circuit} {s : State} (ho : s.owed = { Owed.none with stalls := [c] })
    (hs : stalled (s.circuits.get c) (s.contexts.get c) = true) :
    stallOwed c s = stallContext c { s with owed := .none } := by
  have erased : [c].erase c = [] := List.erase_cons_head ..
  simp only [stallOwed, ho, List.contains_cons, List.contains_nil, beq_self_eq_true, Bool.true_or, if_true, hs, erased]
  rfl

/-- A stall writes the context last, over the contexts it found (R63). -/
theorem stallContext_eq (c : Circuit) (s : State) : stallContext c s =
    let counted := count c (fun k => { k with stalls := k.stalls + 1 }) (match (s.contexts.get c).desc with
      | some d => free d s
      | none => s)
    { (if (s.contexts.get c).state = .skip then counted else reportFault c .stall counted) with
      contexts := s.contexts.put c (.empty .hunt) } := by
  refine setContext_of_contexts_eq c _ ?_
  split <;> split <;> simp

/-- Settles O22: an octet in SKIP, the row with no stall owed, and the row that takes the one owed. -/
theorem skipsAndStallsEnd : Obligations.SkipsAndStallsEnd := by
  intro c s ctx hunting
  refine ⟨fun b hs => ?_, fun hq => ?_, fun h stopped hunt limit reached => ?_⟩
  · rw [receiveOctet_skip b hs]
    exact ⟨receiveSkip_last, receiveSkip_more⟩
  · rw [exec_stall]
    refine performOwed_quiet hq (stallOwed_off ?_)
    rw [hq.2.1]
    exact List.not_mem_nil
  · obtain ⟨hr, ho, hi⟩ := h
    have ages : (takeOccurrences (stallOwed c s)).owed.ages = false := by
      rw [takeOccurrences_ages, ← Owed.timed_ages, stallOwed_timed, ho]
      rfl
    rw [exec_stall, performOwed_eq _ hr (by rw [ho]; rfl) (by rw [ho]; rfl) hi, endAgeCheck_none ages,
      stallOwed_only ho ((stalled_iff _ _).mpr ⟨⟨stopped, hunt⟩, limit, reached⟩), stallContext_eq]
    rfl

end Sys2Proof.Machine
end

section
/-!
PROOF. A body queued reads back, and every other body reads as before (R57, R68, R71): the chain it is given was free, so
it meets no chain in use.
-/

namespace Sys2Proof.Machine

/-! ### Free segments and descriptors -/

/-- No segment is twice on the free list (R66). -/
theorem PoolLaw.freeSegs_nodup {s : State} (h : PoolLaw s) : s.pool.freeSegs.Nodup :=
  List.nodup_iff_count.mpr fun g => by
    have := h.1 g
    omega

/-- A free segment is in no chain (R66). -/
theorem PoolLaw.not_free_of_chained {s : State} (h : PoolLaw s) {e : DescNo} {y : Descriptor}
    (hy : s.pool.descs.get e = some y) {g : Segment} (hg : g ∈ y.chain) : g ∉ s.pool.freeSegs := by
  have counts := h.1 g
  have used := chained_of_mem hy hg
  rw [← List.count_eq_zero]
  omega

/-- A descriptor on the free list is FREE (R67). -/
theorem PoolLaw.free_of_mem {s : State} (h : PoolLaw s) {d : DescNo} (hd : d ∈ s.pool.freeDescs) :
    s.pool.descs.get d = none := by
  have counts := h.2.1 d
  have listed := List.one_le_count_iff.mpr hd
  split at counts
  · assumption
  · omega

/-! ### What an admission writes -/

/-- The segments a body is given fill its chain when there is space for them (R55, R71). -/
theorem chain_length_of_not_spaceFails {s : State} {c : Circuit} {n : Nat} (h : spaceFails s c n = false) :
    (s.pool.freeSegs.take n).length = n := by
  rw [spaceFails, Bool.or_eq_false_iff] at h
  have space : ¬ s.pool.freeSegs.length < n := of_decide_eq_false h.1
  rw [List.length_take]
  omega

theorem spaceFails_of_allocFailure_none {s : State} {c : Circuit} {n : Nat} (h : allocFailure s c n = none) :
    spaceFails s c n = false := by
  unfold allocFailure at h
  repeat' split at h
  all_goals simp_all

/-- What an admission writes in the pool: the head descriptor with a chain of free segments, and the body in that chain
(R70, R71). -/
theorem enqueue_pool {m : NewMessage} {body : List Byte} {d : DescNo} {s t : State} (he : enqueue m body s = .ok (d, t)) :
    d ∈ s.pool.freeDescs ∧ ∃ chain, chain = s.pool.freeSegs.take (segmentsFor m.length) ∧
      chain.length = segmentsFor m.length ∧
      t.pool.descs = s.pool.descs.put d (some (m.descriptor chain)) ∧
      t.pool.store = storeBody chain body s.pool.store := by
  obtain ⟨u, ha, rfl⟩ := enqueue_ok he
  obtain ⟨passed, ⟨rest, hd⟩, rfl⟩ := allocate_ok ha
  refine ⟨by simp [hd], _, rfl, chain_length_of_not_spaceFails (spaceFails_of_allocFailure_none passed), ?_, ?_⟩
  · simp [takeStorage]
  · simp

/-! ### Bodies -/

/-- A body is read from its chain alone. -/
theorem readBody_storeBody_other {chain other : List Segment} {m : Memory} (hm : m.wf = true) (body : List Byte)
    (length : Nat) (h : ∀ g ∈ other, g ∉ chain) :
    readBody (storeBody chain body m) other length = readBody m other length := by
  refine List.map_congr_left fun i _ => ?_
  unfold bodyOctet
  split
  · rename_i a ha
    obtain ⟨g, hg, hag⟩ := bodyAddress_mem ha
    refine storeFrom_other chain body a (fun g' hg' hag' => ?_) 0 m hm
    exact h g hg (Fin.ext (hag.symm.trans hag') ▸ hg')
  · rfl

theorem length_le_segmentsFor (n : Nat) : n ≤ segmentsFor n * Config.segmentSize := by
  simp only [segmentsFor, Config.segmentSize]
  omega

/-- Settles O25: the chain was free, so it has no repeat and meets no other chain. -/
theorem queuedBodyReadsBack : Obligations.QueuedBodyReadsBack := by
  intro m body d s t hs hp hl he
  obtain ⟨hd, chain, hchain, length, descs, store⟩ := enqueue_pool he
  have free (g : Segment) (hg : g ∈ chain) : g ∈ s.pool.freeSegs := List.mem_of_mem_take (hchain ▸ hg)
  have unused := hp.free_of_mem hd
  refine ⟨unused, enqueue_addQueues he, ⟨m.descriptor chain, ?_, rfl, hl, ?_⟩, fun e y hy => ⟨?_, ?_⟩⟩
  · rw [descs, Table.get_put_same]
  · have nodup : chain.Nodup := hchain ▸ hp.freeSegs_nodup.take
    have holds : body.length ≤ chain.length * Config.segmentSize := by
      rw [length, hl]
      exact length_le_segmentsFor _
    have read := readBody_storeBody nodup hs holds
    rw [← hl, ← store] at read
    exact read
  · have apart : e ≠ d := by
      rintro rfl
      rw [unused] at hy
      cases hy
    rw [descs, Table.get_put_other _ _ _ _ apart, hy]
  · rw [bodyOf, store]
    exact readBody_storeBody_other hs body _ fun g hg hc => hp.not_free_of_chained hy hg (free g hc)

end Sys2Proof.Machine
end

section
/-!
PROOF. The requests of circuits (R44 to R49, R77, R100, R132, R167 to R170): what each execution returns, and the answer it
is given.
-/

namespace Sys2Proof.Machine

/-! ### READ_CIRCUIT and READ_COUNTERS -/

/-- A request in hand at a quiet part, whose execution leaves the occurrences waiting, is answered with what it returns
(R153). -/
theorem perform_answered_inbox {k : RequestKind} {request params results : List Byte} {s t : State} {status : Status}
    {run : List Byte → State → Executed} (hq : Quiet s) (h : InHand k request s) (hp : requestParams request = params)
    (hr : run params s = ⟨status, results, t⟩) (ht : t.events.inbox = s.events.inbox) :
    perform (execute k run) s = .next (answered request status results true t) := by
  subst hp
  rw [perform_request hq h (by rw [hr]; exact ht.trans hq.2.2), hr]

theorem readCircuitRun_circuit {b : Byte} {c : Circuit} (s : State) (hc : c.val = b.toNat) :
    readCircuitRun [b] s = ⟨.ok, circuitResults c s, s⟩ := by
  have named : circuitOf (at0 [b] 0) = some c := circuitOf_some b c hc
  rw [readCircuitRun, named]
  rfl

theorem readCircuitRun_range {b : Byte} (s : State) (hb : 95 < b.toNat) : readCircuitRun [b] s = ⟨.range, [], s⟩ := by
  have unnamed : circuitOf (at0 [b] 0) = none := circuitOf_none b hb
  rw [readCircuitRun, unnamed]
  rfl

/-- READ_COUNTERS of a circuit, cleared in the reading or not (R170). -/
theorem readCountersRun_circuit {b clear : Byte} {c : Circuit} {f : Bool} (s : State) (hc : c.val = b.toNat)
    (hf : flagOf clear = some f) :
    readCountersRun [b, clear] s = ⟨.ok, [b, flagOctet f] ++ counterOctets (s.circuits.get c).counters.list,
      if f then count c (fun _ => .zero) s else s⟩ := by
  have named : circuitOf (at0 [b, clear] 0) = some c := circuitOf_some b c hc
  have flag : flagOf (at0 [b, clear] 1) = some f := hf
  have selector : at0 [b, clear] 0 ≠ globalSelector := by
    rintro rfl
    exact absurd c.isLt (by rw [hc]; decide)
  simp only [readCountersRun, flag, named, if_neg selector]
  rfl

/-- READ_COUNTERS of the part, cleared in the reading or not (R170). -/
theorem readCountersRun_global {clear : Byte} {f : Bool} (s : State) (hf : flagOf clear = some f) :
    readCountersRun [0xFF, clear] s = ⟨.ok, [0xFF, flagOctet f] ++ counterOctets (globalCounters s),
      if f then clearGlobalCounters s else s⟩ := by
  have flag : flagOf (at0 [0xFF, clear] 1) = some f := hf
  simp only [readCountersRun, flag]
  rfl

/-- READ_COUNTERS of a selector or an option out of range (R170). -/
theorem readCountersRun_range {b clear : Byte} (s : State) (h : (95 < b.toNat ∧ b ≠ 0xFF) ∨ 1 < clear.toNat) :
    readCountersRun [b, clear] s = ⟨.range, [], s⟩ := by
  cases hf : flagOf clear with
  | none =>
    have flag : flagOf (at0 [b, clear] 1) = none := hf
    simp only [readCountersRun, flag]
    rfl
  | some f =>
    obtain ⟨hb, hn⟩ : 95 < b.toNat ∧ b ≠ 0xFF := h.resolve_right (Nat.not_lt.mpr ((flagOf_iff _ _).mp hf).1)
    have flag : flagOf (at0 [b, clear] 1) = some f := hf
    have unnamed : circuitOf (at0 [b, clear] 0) = none := circuitOf_none b hb
    have selector : at0 [b, clear] 0 ≠ globalSelector := hn
    simp only [readCountersRun, flag, unnamed, if_neg selector]
    rfl

/-- The counters of a circuit in octets, one by one (R46). -/
theorem counterOctets_circuit (k : CircuitCounters) : counterOctets k.list =
    octets4 k.received ++ octets4 k.octetsReceived ++ octets4 k.headerErrors ++ octets4 k.checkErrors ++
      octets4 k.stalls ++ octets4 k.skipsSpace ++ octets4 k.skipsQuota ++ octets4 k.seqGaps ++ octets4 k.strays ++
      octets4 k.delivered ++ octets4 k.agedOut ++ octets4 k.flushed ++ octets4 k.addRejects ++ octets4 k.emitted ++
      octets4 k.octetsEmitted := by
  simp [counterOctets, CircuitCounters.list]

/-- The counters of the part in octets: those of the alignment and delivery units, of the link, of the engine and of the
event unit (R122, R158, R170). -/
theorem counterOctets_global (s : State) : counterOctets (globalCounters s) =
    octets4 s.align.badMarks ++ octets4 s.align.losses ++ octets4 s.delivery.retries ++ octets4 s.delivery.discarded ++
      (octets4 s.trib.counters.huntOctets ++ octets4 s.trib.counters.framingErrors ++
        octets4 s.trib.counters.typeErrors ++ octets4 s.trib.counters.lengthErrors ++
        octets4 s.trib.counters.checkErrors ++ octets4 s.trib.counters.valueErrors ++
        octets4 s.trib.counters.addAccepted ++ octets4 s.trib.counters.creditAccepted ++
        octets4 s.trib.counters.rejectsSent ++ octets4 s.trib.counters.rejectsUnsent ++
        octets4 s.trib.counters.rejectsOutOfRange) ++
      (octets4 s.engine.counters.malformed ++ octets4 s.engine.counters.foreign ++ octets4 s.engine.counters.overruns ++
        octets4 s.engine.counters.duplicates ++ octets4 s.engine.counters.executed ++
        octets4 s.engine.counters.refused) ++
      octets4 s.events.misses ++ octets4 s.events.abandoned := by
  simp [counterOctets, globalCounters, LinkCounters.list, EngineCounters.list]

/-- The results of READ_CIRCUIT, item by item (R167, R203). -/
theorem circuitResults_eq {b : Byte} {c : Circuit} (s : State) (hc : c.val = b.toNat) : circuitResults c s =
    [b, flagOctet (s.circuits.get c).active, flagOctet (s.circuits.get c).dropEnable,
        flagOctet (s.circuits.get c).addEnable] ++
      octets2 (s.circuits.get c).quota ++ [flagOctet (s.circuits.get c).eligible] ++
      octets2 (s.circuits.get c).stallLimit ++
      [octet (s.circuits.get c).addDepth, flagOctet (s.circuits.get c).seqCheck] ++ octets2 (s.circuits.get c).held ++
      [expectedOctet (s.circuits.get c).expected, (s.circuits.get c).emitSeq.zeroExtend 8] ++
      counterOctets (s.circuits.get c).counters.list ++
      [(s.contexts.get c).state.code, octet (s.addQueues.get c).length, (s.emitters.get c).state.code] := by
  simp [circuitResults, settingsOctets, circuitOctet_val b c hc]

/-- Settles O44, by the circuit an octet names, the global selector and the option. -/
theorem circuitReadingsAreAnswered : Obligations.CircuitReadingsAreAnswered := by
  intro request s hq two four flag ofRecord l g global
  have hglobal : counterOctets (globalCounters s) = global := counterOctets_global s
  have hrecord (k : CircuitCounters) : counterOctets k.list = ofRecord k := counterOctets_circuit k
  refine ⟨fun b h hp => ⟨fun c hc => ?_, fun hb => ?_⟩, fun b clear h hp => ⟨fun c hc => ⟨?_, ?_⟩, ?_, fun hr => ?_⟩⟩
  · intro r
    have read := perform_answered hq h hp (readCircuitRun_circuit s hc) rfl
    rw [circuitResults_eq s hc, hrecord] at read
    exact read
  · exact perform_answered hq h hp (readCircuitRun_range s hb) rfl
  · rintro rfl
    rw [← hrecord]
    exact perform_answered hq h hp (readCountersRun_circuit (f := false) s hc rfl) rfl
  · rintro rfl
    rw [← hrecord]
    exact perform_answered hq h hp (readCountersRun_circuit (f := true) s hc rfl) rfl
  · rintro rfl
    rw [← hglobal]
    refine ⟨?_, ?_⟩
    · rintro rfl
      exact perform_answered hq h hp (readCountersRun_global (f := false) s rfl) rfl
    · rintro rfl
      exact perform_answered_inbox hq h hp (readCountersRun_global (f := true) s rfl) rfl
  · exact perform_answered hq h hp (readCountersRun_range s hr) rfl

/-! ### WRITE_CIRCUIT -/

/-- The octet of the flag a good octet gives. -/
theorem flagOctet_flag {x : Byte} (h : x.toNat ≤ 1) : flagOctet (x == 1) = x := by
  revert x
  decide +kernel

section

variable {b drop add qHigh qLow eligible sHigh sLow depth check : Byte}

/-- The seven values a WRITE_CIRCUIT supplies are in their ranges (R42). -/
def SuppliesInRange (drop add qHigh qLow eligible sHigh sLow depth check : Byte) : Prop :=
  (8 ≤ qHigh.toNat * 256 + qLow.toNat ∧ qHigh.toNat * 256 + qLow.toNat ≤ 1536 ∧
    sHigh.toNat * 256 + sLow.toNat ≤ 1000) ∧
  (drop.toNat ≤ 1 ∧ add.toNat ≤ 1 ∧ eligible.toNat ≤ 1 ∧ check.toNat ≤ 1 ∧ 1 ≤ depth.toNat ∧ depth.toNat ≤ 16)

theorem settingsOf_eq (r : CircuitRecord) :
    (SuppliesInRange drop add qHigh qLow eligible sHigh sLow depth check →
      settingsOf [b, drop, add, qHigh, qLow, eligible, sHigh, sLow, depth, check] r = some { r with
        dropEnable := drop == 1, addEnable := add == 1, quota := qHigh.toNat * 256 + qLow.toNat
        eligible := eligible == 1, stallLimit := sHigh.toNat * 256 + sLow.toNat, addDepth := depth.toNat
        seqCheck := check == 1 }) ∧
    (¬ SuppliesInRange drop add qHigh qLow eligible sHigh sLow depth check →
      settingsOf [b, drop, add, qHigh, qLow, eligible, sHigh, sLow, depth, check] r = none) := by
  refine ⟨fun h => ?_, fun h => ?_⟩
  · obtain ⟨⟨low, high, stall⟩, hdrop, hadd, heligible, hcheck, depthLow, depthHigh⟩ := h
    simp [settingsOf, at0, number2At, number2, flagOf_val, goodQuota, goodStallLimit, goodAddDepth, *]
  · rw [Option.eq_none_iff_forall_ne_some]
    intro new hn
    apply h
    unfold settingsOf at hn
    split at hn
    · rename_i hdrop hadd heligible hcheck
      split at hn
      · rename_i hr
        simp only [goodQuota, goodStallLimit, goodAddDepth, Bool.and_eq_true, decide_eq_true_eq] at hr
        obtain ⟨⟨⟨low, high⟩, stall⟩, depths⟩ := hr
        exact ⟨⟨low, high, stall⟩, ((flagOf_iff _ _).mp hdrop).1, ((flagOf_iff _ _).mp hadd).1,
          ((flagOf_iff _ _).mp heligible).1, ((flagOf_iff _ _).mp hcheck).1, depths⟩
      · cases hn
    · cases hn

/-- The values written are returned as they were supplied (R168). -/
theorem settingsOctets_supplied (r : CircuitRecord) (hdrop : drop.toNat ≤ 1) (hadd : add.toNat ≤ 1)
    (heligible : eligible.toNat ≤ 1) (hcheck : check.toNat ≤ 1) :
    settingsOctets { r with
        dropEnable := drop == 1, addEnable := add == 1, quota := qHigh.toNat * 256 + qLow.toNat
        eligible := eligible == 1, stallLimit := sHigh.toNat * 256 + sLow.toNat, addDepth := depth.toNat
        seqCheck := check == 1 } = [drop, add, qHigh, qLow, eligible, sHigh, sLow, depth, check] := by
  simp only [settingsOctets, octets2_of_two, octet_toNat, flagOctet_flag hdrop, flagOctet_flag hadd,
    flagOctet_flag heligible, flagOctet_flag hcheck]
  rfl

/-- Circuit 0 returns the two values supplied among those its record holds (R44, R168). -/
theorem settingsOctets_management (r : CircuitRecord) :
    settingsOctets { r with
        quota := qHigh.toNat * 256 + qLow.toNat, stallLimit := sHigh.toNat * 256 + sLow.toNat } =
      [flagOctet r.dropEnable, flagOctet r.addEnable, qHigh, qLow, flagOctet r.eligible, sHigh, sLow,
        octet r.addDepth, flagOctet r.seqCheck] := by
  simp only [settingsOctets, octets2_of_two]
  rfl

end

theorem writeCircuitRun_unnamed {params : List Byte} (s : State) (hb : 95 < (at0 params 0).toNat) :
    writeCircuitRun params s = ⟨.range, [], s⟩ := by
  rw [writeCircuitRun, circuitOf_none _ hb]
  rfl

/-- WRITE_CIRCUIT of a circuit 1 to 95: STATE while it is ACTIVE, RANGE for values out of range or that the part holds
more than, else written (R44). -/
theorem writeCircuitRun_traffic {params : List Byte} {c : Circuit} (s : State) (hc : c.val = (at0 params 0).toNat)
    (h0 : c ≠ 0) :
    ((s.circuits.get c).active = true → writeCircuitRun params s = ⟨.state, [], s⟩) ∧
    ((s.circuits.get c).active = false → settingsOf params (s.circuits.get c) = none →
      writeCircuitRun params s = ⟨.range, [], s⟩) ∧
    (∀ new, (s.circuits.get c).active = false → settingsOf params (s.circuits.get c) = some new →
      writeCircuitRun params s =
        if new.quota < (s.circuits.get c).held ∨ new.addDepth < (s.addQueues.get c).length then ⟨.range, [], s⟩
        else ⟨.ok, circuitOctet c :: settingsOctets new, { s with circuits := s.circuits.put c new }⟩) := by
  simp only [writeCircuitRun, circuitOf_some _ c hc, h0, ne_eq, not_false_eq_true, true_and, if_false]
  refine ⟨fun ha => if_pos ha, fun ha hn => ?_, fun new ha hn => ?_⟩
  · rw [if_neg (by simp [ha]), hn]
    rfl
  · rw [if_neg (by simp [ha]), hn]
    by_cases held : new.quota < (s.circuits.get c).held
    · simp only [held, true_or, if_true]
      rfl
    · simp only [held, false_or, if_false, accepted, refusedWith, writeRecord, h0, false_and]
      rfl

/-- WRITE_CIRCUIT of circuit 0: the quota and the stall limit alone, whatever its state (R44, R77). -/
theorem writeCircuitRun_management {params : List Byte} (s : State) (hc : at0 params 0 = 0) :
    writeCircuitRun params s =
      if (8 ≤ number2At params 3 ∧ number2At params 3 ≤ 1536 ∧ number2At params 6 ≤ 1000) ∧
          (s.circuits.get 0).held ≤ number2At params 3 then
        ⟨.ok, 0 :: settingsOctets { s.circuits.get 0 with
            quota := number2At params 3, stallLimit := number2At params 6 },
          writeRecord 0 { s.circuits.get 0 with quota := number2At params 3, stallLimit := number2At params 6 } s⟩
      else ⟨.range, [], s⟩ := by
  have named : circuitOf (0 : Byte) = some 0 := rfl
  have inRange : (goodQuota (number2At params 3) && goodStallLimit (number2At params 6)) = true ↔
      8 ≤ number2At params 3 ∧ number2At params 3 ≤ 1536 ∧ number2At params 6 ≤ 1000 := by
    simp [goodQuota, goodStallLimit, and_assoc]
  simp only [writeCircuitRun, hc, named, managementSettingsOf, inRange, ne_eq, not_true_eq_false, false_and, if_false,
    if_true]
  by_cases hr : 8 ≤ number2At params 3 ∧ number2At params 3 ≤ 1536 ∧ number2At params 6 ≤ 1000
  · by_cases hh : (s.circuits.get 0).held ≤ number2At params 3
    · simp only [hr, hh, Nat.not_lt.mpr hh, and_self, if_true, if_false]
      rfl
    · simp only [hr, hh, Nat.lt_of_not_le hh, and_false, and_self, if_true, if_false]
      rfl
  · simp only [hr, false_and, if_false]
    rfl

/-- A record written to circuit 0 informs the waiting requesters when its quota changes (R77). -/
theorem writeRecord_management (r : CircuitRecord) (s : State) : writeRecord 0 r s =
    if r.quota = (s.circuits.get 0).quota then { s with circuits := s.circuits.put 0 r }
    else informed { s with circuits := s.circuits.put 0 r } := by
  simp only [writeRecord, true_and, ne_eq, informRequesters_eq]
  split <;> simp_all [changeRecord, Table.change]

/-- Settles O45: the circuit named, then the tests in their order. -/
theorem circuitsAreWritten : Obligations.CircuitsAreWritten := by
  intro b drop add qHigh qLow eligible sHigh sLow depth check request s hq h hp quota stall settings switches flag
  refine ⟨fun hb => ?_, fun c hc h0 => ?_, ?_⟩
  · exact perform_answered hq h hp (writeCircuitRun_unnamed s hb) rfl
  · intro r good
    obtain ⟨isActive, outOfRange, inRange⟩ := writeCircuitRun_traffic (params := [b, drop, add, qHigh, qLow, eligible,
      sHigh, sLow, depth, check]) s hc h0
    refine ⟨fun ha => perform_answered hq h hp (isActive ha) rfl, fun ha hbad => ?_, fun ha hgood => ?_⟩
    · refine perform_answered hq h hp ?_ rfl
      by_cases supplied : settings ∧ switches
      · refine (inRange _ ha ((settingsOf_eq r).1 supplied)).trans (if_pos ?_)
        refine Classical.byContradiction fun hn => ?_
        rw [not_or, Nat.not_lt, Nat.not_lt] at hn
        exact hbad ⟨supplied.1, supplied.2, hn⟩
      · exact outOfRange ha ((settingsOf_eq r).2 supplied)
    · obtain ⟨hsettings, hswitches, held, queue⟩ := hgood
      have run := (inRange _ ha ((settingsOf_eq r).1 ⟨hsettings, hswitches⟩)).trans
        (if_neg (not_or.mpr ⟨Nat.not_lt.mpr held, Nat.not_lt.mpr queue⟩))
      obtain ⟨hdrop, hadd, heligible, hcheck, -⟩ := hswitches
      rw [settingsOctets_supplied r hdrop hadd heligible hcheck, circuitOctet_val b c hc] at run
      rw [hp]
      exact perform_answered hq h hp run rfl
  · rintro rfl r good
    have run := writeCircuitRun_management (params := [0, drop, add, qHigh, qLow, eligible, sHigh, sLow, depth, check])
      s rfl
    refine ⟨fun hbad => perform_answered hq h hp (run.trans (if_neg hbad)) rfl, fun hgood => ?_⟩
    refine perform_answered hq h hp ?_ ?_
    · refine (run.trans (if_pos hgood)).trans ?_
      rw [writeRecord_management]
      exact congrArg (Executed.mk .ok · _) (congrArg (0 :: ·) (settingsOctets_management r))
    · dsimp only
      split
      · rfl
      · exact informed_events _

/-! ### START_CIRCUIT and STOP_CIRCUIT -/

theorem startCircuitRun_unnamed {b : Byte} (s : State) (hb : 95 < b.toNat) :
    startCircuitRun [b] s = ⟨.range, [], s⟩ := by
  have unnamed : circuitOf (at0 [b] 0) = none := circuitOf_none b hb
  rw [startCircuitRun, unnamed]
  rfl

theorem startCircuitRun_circuit {b : Byte} {c : Circuit} (s : State) (hc : c.val = b.toNat) :
    startCircuitRun [b] s = if (s.circuits.get c).active then ⟨.state, [], s⟩ else ⟨.ok, [], startCircuit c s⟩ := by
  have named : circuitOf (at0 [b] 0) = some c := circuitOf_some b c hc
  rw [startCircuitRun, named]
  rfl

theorem trafficCircuitOf_none {b : Byte} (h : b.toNat = 0 ∨ 95 < b.toNat) : trafficCircuitOf b = none := by
  rw [Option.eq_none_iff_forall_ne_some]
  intro c hc
  obtain ⟨hb, h0⟩ := (trafficCircuitOf_iff b c).mp hc
  rcases h with h | h
  · exact h0 (Fin.ext (hb.symm.trans h))
  · have : c.val < 96 := c.isLt
    omega

theorem stopCircuitRun_range {b mode : Byte} (s : State) (h : b.toNat = 0 ∨ 95 < b.toNat ∨ 1 < mode.toNat) :
    stopCircuitRun [b, mode] s = ⟨.range, [], s⟩ := by
  have hb : at0 [b, mode] 0 = b := rfl
  have hm : at0 [b, mode] 1 = mode := rfl
  rw [stopCircuitRun, hb, hm]
  split
  · rename_i c f hc hf
    have flag := ((flagOf_iff _ _).mp hf).1
    rw [trafficCircuitOf_none (by omega)] at hc
    cases hc
  · rfl

theorem stopCircuitRun_circuit {b mode : Byte} {c : Circuit} {f : Bool} (s : State) (hc : c.val = b.toNat) (h0 : c ≠ 0)
    (hf : flagOf mode = some f) :
    stopCircuitRun [b, mode] s = if (s.circuits.get c).active
      then ⟨.ok, octets2 (stopFlushedCount c f s), stopCircuit c f s⟩ else ⟨.state, [], s⟩ := by
  have named : trafficCircuitOf (at0 [b, mode] 0) = some c := (trafficCircuitOf_iff b c).mpr ⟨hc.symm, h0⟩
  have flag : flagOf (at0 [b, mode] 1) = some f := hf
  rw [stopCircuitRun, named, flag]
  rfl

/-- Whether a descriptor holds a message of a circuit. -/
def isOf (s : State) (c : Circuit) (d : DescNo) : Bool :=
  match s.pool.descs.get d with
  | some x => x.circuit == c
  | none => false

theorem isOf_eq (s : State) (c : Circuit) (d : DescNo) : (s.pool.descs.get d).any (·.circuit == c) = isOf s c d := by
  unfold isOf
  cases s.pool.descs.get d <;> rfl

/-- What a STOP with FLUSH takes out, queue by queue (R49, R100). -/
theorem stopFlushed_eq (c : Circuit) (s : State) : stopFlushed c s =
    (s.delivery.queues.get 0 ++ s.delivery.queues.get 1 ++ s.delivery.queues.get 2 ++ s.delivery.queues.get 3).filter
      (isOf s c) ++ s.addQueues.get c := by
  simp [stopFlushed, ofCircuit, classQueued, Table.cells_four, isOf_eq]

theorem notOfCircuit_eq (c : Circuit) (s : State) : notOfCircuit s c = fun q => q.filter fun d => !isOf s c d := by
  funext q
  simp only [notOfCircuit, isOf_eq]

/-- The message in assembly released, if there is one (R48). -/
def unassembledOf (c : Circuit) (s : State) : State :=
  match (s.contexts.get c).desc.bind fun d => (s.pool.descs.get d).map fun x => (d, x) with
  | some (d, x) => released d x s
  | none => s

theorem stopContext_eq (c : Circuit) (s : State) :
    stopContext c s = { unassembledOf c s with contexts := s.contexts.put c (.empty .stopped) } := by
  unfold stopContext unassembledOf
  cases hd : (s.contexts.get c).desc with
  | none => rfl
  | some d =>
    cases hx : s.pool.descs.get d with
    | none => simp [free, hx, setContext]
    | some x =>
      dsimp only
      rw [setContext_of_contexts_eq (s := s) c _ (by simp), free_eq_released hx]
      simp [hx]

theorem unassembledOf_emitters (c : Circuit) (s : State) : (unassembledOf c s).emitters = s.emitters := by
  unfold unassembledOf
  split
  · simp only [released, informed]
    split <;> rfl
  · rfl

/-- The message an emitter has in emission flushed, if there is one (R48, R132). -/
def unemittedOf (e : Emitter) (s : State) : State :=
  match e.desc with
  | some d => flushedOf d s
  | none => s

theorem unemittedOf_emitters (e : Emitter) (s : State) : (unemittedOf e s).emitters = s.emitters := by
  unfold unemittedOf
  split
  · simp only [flushedOf_frame]
  · rfl

theorem stopEmitter_eq (c : Circuit) (s : State) : stopEmitter c s =
    { unemittedOf (s.emitters.get c) s with emitters := s.emitters.put c .idle } := by
  simp only [stopEmitter, flush_eq]
  change setEmitter c .idle (unemittedOf (s.emitters.get c) s) = _
  rw [setEmitter, unemittedOf_emitters]

/-- A circuit with its record and its context STOPPED (R48). -/
def silencedOf (c : Circuit) (s : State) : State :=
  { unassembledOf c { s with circuits := s.circuits.change c fun r => { r with active := false } } with
    contexts := s.contexts.put c (.empty .stopped) }

/-- A circuit stopped with KEEP: its record, then its context, then its emitter (R48). -/
def stoppedOf (c : Circuit) (s : State) : State :=
  { unemittedOf (s.emitters.get c) (silencedOf c s) with emitters := s.emitters.put c .idle }

theorem stopCircuit_keep (c : Circuit) (s : State) : stopCircuit c false s = stoppedOf c s := by
  change stopEmitter c (stopContext c _) = _
  rw [stopContext_eq, stopEmitter_eq]
  change { unemittedOf ((silencedOf c s).emitters.get c) (silencedOf c s) with
    emitters := (silencedOf c s).emitters.put c .idle } = _
  rw [show (silencedOf c s).emitters = s.emitters from unassembledOf_emitters ..]
  rfl

/-- A circuit stopped with FLUSH: its messages leave the queues and are flushed in their order (R49, R100). -/
theorem stopCircuit_flush (c : Circuit) (s : State) : stopCircuit c true s =
    (stopFlushed c s).foldl (fun t d => flushedOf d t) { stoppedOf c s with
      addQueues := s.addQueues.put c []
      delivery := { s.delivery with queues := s.delivery.queues.map (notOfCircuit s c) } } := by
  have frame : (stoppedOf c s).addQueues = s.addQueues ∧ (stoppedOf c s).delivery = s.delivery := by
    rw [← stopCircuit_keep]
    simp [stopCircuit]
  rw [← flushAll_eq, ← frame.1, ← frame.2, ← stopCircuit_keep]
  rfl

/-- Settles O46, each request by the circuit named, its state and the mode. -/
theorem circuitsAreStartedAndStopped : Obligations.CircuitsAreStartedAndStopped := by
  refine ⟨fun b request s hq h hp => ⟨fun hb => ?_, fun c hc => ⟨fun ha => ?_, fun ha => ?_⟩⟩,
    fun b mode request s hq h hp => ?_⟩
  · exact perform_answered hq h hp (startCircuitRun_unnamed s hb) rfl
  · exact perform_answered hq h hp ((startCircuitRun_circuit s hc).trans (if_pos ha)) rfl
  · exact perform_answered hq h hp ((startCircuitRun_circuit s hc).trans (if_neg (by simp [ha]))) rfl
  · intro gone two
    refine ⟨fun hr => perform_answered hq h hp (stopCircuitRun_range s hr) rfl, fun c hc h0 hm => ?_⟩
    intro mine queued marked unassembled silent unemitted stopped emitting
    have hemitting : (if (s.emitters.get c).desc.isSome then 1 else 0) = emitting := by
      cases hd : (s.emitters.get c).desc <;> simp [emitting, hd]
    refine ⟨fun ha => ?_, ?_, ?_⟩
    · have run := stopCircuitRun_circuit s hc h0 (flagOf_val mode hm)
      exact perform_answered hq h hp (run.trans (if_neg (by simp [ha]))) rfl
    · rintro ha rfl
      have run := (stopCircuitRun_circuit (mode := 0) (f := false) s hc h0 rfl).trans (if_pos ha)
      have kept := perform_answered hq h hp run (by simp)
      rw [stopFlushedCount, hemitting, stopCircuit_keep] at kept
      exact kept
    · rintro ha rfl
      have run := (stopCircuitRun_circuit (mode := 1) (f := true) s hc h0 rfl).trans (if_pos ha)
      have flushed := perform_answered hq h hp run (by simp)
      rw [stopFlushedCount, hemitting, stopCircuit_flush, notOfCircuit_eq, stopFlushed_eq] at flushed
      exact flushed

end Sys2Proof.Machine
end

section
/-!
PROOF. The law of the pool, kept by every step (R66, R67, R80): a grant moves the heads of the free segments into a new
chain and the head descriptor off its list, a free moves both back, and each held count follows its circuit's chains.
-/

namespace Sys2Proof.Machine

/-! ### What the law speaks of -/

/-- A descriptor is on the free list, once, exactly when it is FREE (R67). -/
theorem PoolLaw.count_freeDescs {s : State} (h : PoolLaw s) (d : DescNo) :
    s.pool.freeDescs.count d = if s.pool.descs.get d = none then 1 else 0 := h.2.1 d

/-- The held count is the length of the circuit's chains (R80). -/
theorem PoolLaw.held_eq {s : State} (h : PoolLaw s) (c : Circuit) :
    (s.circuits.get c).held = chainTotal c s.pool.descs := h.2.2.1 c

/-- The held count is within the quota (R80). -/
theorem PoolLaw.held_le_quota {s : State} (h : PoolLaw s) (c : Circuit) :
    (s.circuits.get c).held ≤ (s.circuits.get c).quota := h.2.2.2 c

/-- What leaves the free lists, the descriptors and the circuit records keeps the law. -/
theorem PoolLaw.of_eq {s t : State} (hs : PoolLaw s)
    (h : t.circuits = s.circuits ∧ t.pool.freeSegs = s.pool.freeSegs ∧ t.pool.freeDescs = s.pool.freeDescs ∧
      t.pool.descs = s.pool.descs) : PoolLaw t := by
  obtain ⟨circuits, segs, descs, table⟩ := h
  rwa [PoolLaw, circuits, segs, descs, table]

/-- What leaves the pool and every held count keeps the law, if no quota falls below its held count (R44, R80). -/
theorem PoolLaw.of_pool_eq {s t : State} (hs : PoolLaw s) (hp : t.pool = s.pool)
    (held : ∀ c, (t.circuits.get c).held = (s.circuits.get c).held)
    (quota : ∀ c, (s.circuits.get c).held ≤ (t.circuits.get c).quota) : PoolLaw t := by
  obtain ⟨segs, descs, totals, -⟩ := hs
  simp only [PoolLaw, hp, held]
  exact ⟨segs, descs, totals, quota⟩

/-- A circuit record changed but for its quota and its held count. -/
theorem changeRecord_keeps_poolLaw {s : State} (c : Circuit) {f : CircuitRecord → CircuitRecord}
    (hf : KeepsSettings f) (hs : PoolLaw s) : PoolLaw (changeRecord c f s) := by
  have same (j : Circuit) : ((s.circuits.change c f).get j).quota = (s.circuits.get j).quota ∧
      ((s.circuits.change c f).get j).held = (s.circuits.get j).held := by
    rw [Table.get_change]
    split
    · obtain ⟨quota, held, -⟩ := hf (s.circuits.get j)
      exact ⟨quota, held⟩
    · exact ⟨rfl, rfl⟩
  exact hs.of_pool_eq rfl (fun j => (same j).2) fun j => (same j).1 ▸ hs.held_le_quota j

/-! ### One descriptor replaced -/

/-- The law at one segment, one descriptor and one circuit, after descriptor `d` has come to hold `x` and the free lists
and the held counts have followed (R66, R67, R80). -/
theorem PoolLaw.of_put {s t : State} {d : DescNo} {x : Option Descriptor} (hs : PoolLaw s)
    (table : t.pool.descs = s.pool.descs.put d x)
    (segs : ∀ g, t.pool.freeSegs.count g + (chainOf x).count g =
      s.pool.freeSegs.count g + (chainOf (s.pool.descs.get d)).count g)
    (descs : ∀ e, t.pool.freeDescs.count e = if (if e = d then x else s.pool.descs.get e) = none then 1 else 0)
    (held : ∀ c, (t.circuits.get c).held + chainLengthOf c (s.pool.descs.get d) =
      (s.circuits.get c).held + chainLengthOf c x)
    (quota : ∀ c, (t.circuits.get c).held ≤ (t.circuits.get c).quota) : PoolLaw t := by
  obtain ⟨counts, -, totals, -⟩ := hs
  refine ⟨fun g => ?_, fun e => ?_, fun c => ?_, quota⟩
  · have chains := chained_put s.pool.descs d x g
    have before := counts g
    have moved := segs g
    rw [table]
    omega
  · rw [table, Table.get_put]
    exact descs e
  · have chains := chainTotal_put s.pool.descs d x c
    have before := totals c
    have moved := held c
    rw [table]
    omega

/-- A descriptor changed but for its circuit and its chain. -/
theorem changeDesc_keeps_poolLaw {s : State} (d : DescNo) {f : Descriptor → Descriptor} (hf : KeepsStorage f)
    (hs : PoolLaw s) : PoolLaw (changeDesc d f s) := by
  have chain : chainOf ((s.pool.descs.get d).map f) = chainOf (s.pool.descs.get d) := by
    cases s.pool.descs.get d <;> simp [chainOf, (hf _).2]
  have length (c : Circuit) : chainLengthOf c ((s.pool.descs.get d).map f) = chainLengthOf c (s.pool.descs.get d) := by
    cases s.pool.descs.get d <;> simp [chainLengthOf, (hf _).1, (hf _).2]
  refine hs.of_put (d := d) (x := (s.pool.descs.get d).map f) rfl (fun g => ?_) (fun e => ?_) (fun c => ?_) ?_
  · rw [chain]
    simp
  · have listed := hs.count_freeDescs e
    split
    · subst e
      simpa using listed
    · simpa using listed
  · rw [length]
    simp
  · simpa using hs.held_le_quota

/-! ### A grant and a free -/

theorem quota_of_allocFailure_none {s : State} {c : Circuit} {n : Nat} (h : allocFailure s c n = none) :
    (s.circuits.get c).held + n ≤ (s.circuits.get c).quota := by
  unfold allocFailure at h
  split at h
  · cases h
  · rename_i hq
    simpa [quotaFails] using hq

/-- What a grant does to the lists, the descriptors and the held counts (R71). -/
theorem allocate_pool {m : NewMessage} {d : DescNo} {s t : State} (ha : allocate m s = .ok (d, t)) :
    ∃ chain rest, s.pool.freeSegs = chain ++ t.pool.freeSegs ∧ chain.length = segmentsFor m.length ∧
      s.pool.freeDescs = d :: rest ∧ t.pool.freeDescs = rest ∧
      t.pool.descs = s.pool.descs.put d (some (m.descriptor chain)) ∧
      t.circuits = s.circuits.change m.circuit (fun r => { r with held := r.held + segmentsFor m.length }) ∧
      (s.circuits.get m.circuit).held + segmentsFor m.length ≤ (s.circuits.get m.circuit).quota := by
  obtain ⟨passed, ⟨rest, hd⟩, rfl⟩ := allocate_ok ha
  refine ⟨s.pool.freeSegs.take (segmentsFor m.length), rest, ?_,
    chain_length_of_not_spaceFails (spaceFails_of_allocFailure_none passed), hd, ?_, ?_, ?_,
    quota_of_allocFailure_none passed⟩
  · simp [takeStorage]
  · simp [takeStorage, hd]
  · simp [takeStorage]
  · simp [takeStorage]

theorem allocate_keeps_poolLaw {m : NewMessage} {d : DescNo} {s t : State} (ha : allocate m s = .ok (d, t))
    (hs : PoolLaw s) : PoolLaw t := by
  obtain ⟨chain, rest, segs, length, before, after, table, circuits, room⟩ := allocate_pool ha
  have unused : s.pool.descs.get d = none := hs.free_of_mem (by simp [before])
  refine hs.of_put table (fun g => ?_) (fun e => ?_) (fun c => ?_) fun c => ?_
  · rw [segs, unused, List.count_append]
    simp [chainOf, NewMessage.descriptor]
    omega
  · have listed := hs.count_freeDescs e
    rw [before, List.count_cons] at listed
    rw [after]
    by_cases he : e = d
    · subst he
      simpa [unused] using listed
    · simpa [he, Ne.symm he] using listed
  · rw [circuits, Table.get_change, unused]
    by_cases hc : c = m.circuit
    · simp [hc, chainLengthOf, NewMessage.descriptor, length]
    · simp [hc, Ne.symm hc, chainLengthOf, NewMessage.descriptor]
  · rw [circuits, Table.get_change]
    split
    · subst c
      exact room
    · exact hs.held_le_quota c

/-- An admission is a grant and a body written (R70, R71). -/
theorem enqueue_keeps_poolLaw {m : NewMessage} {body : List Byte} {d : DescNo} {s t : State}
    (he : enqueue m body s = .ok (d, t)) (hs : PoolLaw s) : PoolLaw t := by
  obtain ⟨u, ha, rfl⟩ := enqueue_ok he
  exact (allocate_keeps_poolLaw ha hs).of_eq (by simp)

theorem free_keeps_poolLaw {s : State} (d : DescNo) (hs : PoolLaw s) : PoolLaw (free d s) := by
  rcases free_cases d s with ⟨-, h⟩ | ⟨x, hx, circuits, pool⟩
  · rwa [h]
  · have used := hs.held_eq x.circuit
    have within := chainTotal_put s.pool.descs d none x.circuit
    simp only [hx, chainLengthOf, if_true] at within
    refine hs.of_put (d := d) (x := none) (by rw [pool]) (fun g => ?_) (fun e => ?_) (fun c => ?_) fun c => ?_
    · simp [pool, hx, chainOf]
    · have listed := hs.count_freeDescs e
      by_cases he : e = d
      · subst he
        simpa [pool, hx] using listed
      · simpa [pool, he, Ne.symm he] using listed
    · rw [circuits, Table.get_change, hx]
      by_cases hc : c = x.circuit
      · subst hc
        simp only [chainLengthOf, if_true]
        omega
      · simp [hc, Ne.symm hc, chainLengthOf]
    · have quota := hs.held_le_quota c
      rw [circuits, Table.get_change]
      split
      · dsimp only
        omega
      · exact quota

/-! ### WRITE_CIRCUIT -/

theorem settingsOf_held {params : List Byte} {r new : CircuitRecord} (h : settingsOf params r = some new) :
    new.held = r.held := by
  unfold settingsOf at h
  split at h
  · split at h
    · cases h
      rfl
    · cases h
  · cases h

theorem managementSettingsOf_held {params : List Byte} {r new : CircuitRecord}
    (h : managementSettingsOf params r = some new) : new.held = r.held := by
  unfold managementSettingsOf at h
  split at h
  · cases h
    rfl
  · cases h

/-- What WRITE_CIRCUIT writes leaves the held count and covers it by the quota (R44, R80). -/
theorem writeCircuitRun_held (params : List Byte) (s : State) : (writeCircuitRun params s).state = s ∨
    ∃ c new, (writeCircuitRun params s).state = writeRecord c new s ∧ new.held = (s.circuits.get c).held ∧
      (s.circuits.get c).held ≤ new.quota := by
  unfold writeCircuitRun
  split
  · exact .inl rfl
  · rename_i c _
    dsimp only
    split
    · exact .inl rfl
    · split
      · exact .inl rfl
      · rename_i new hnew
        have held : new.held = (s.circuits.get c).held := by
          split at hnew
          · exact managementSettingsOf_held hnew
          · exact settingsOf_held hnew
        split
        · exact .inl rfl
        · rename_i covered
          split
          · exact .inl rfl
          · exact .inr ⟨c, new, rfl, held, Nat.le_of_not_lt covered⟩

theorem writeCircuitRun_keeps_poolLaw {s : State} (params : List Byte) (hs : PoolLaw s) :
    PoolLaw (writeCircuitRun params s).state := by
  rcases writeCircuitRun_held params s with h | ⟨c, new, h, held, covered⟩
  · rwa [h]
  · rw [h]
    refine hs.of_pool_eq (by simp) (fun j => ?_) fun j => ?_
    · rw [writeRecord_get]
      split
      · subst j
        exact held
      · rfl
    · rw [writeRecord_get]
      split
      · subst j
        exact covered
      · exact hs.held_le_quota j

/-! ### The resets -/

/-- The reset values hold nothing in the pool (R43, R84). -/
theorem resetWith_poolLaw (pending : List Instr) (pins : Pins) (b : Byte) :
    PoolLaw (.resetWith pending pins b) := poolLaw_reset.of_eq ⟨rfl, rfl, rfl, rfl⟩

/-- The clearing of a TRAFFIC reset holds nothing in the pool (R84, R155). -/
theorem clearTraffic_poolLaw (s : State) : PoolLaw (clearTraffic s) :=
  emptied_law _ _ _ _ rfl fun c => by
    rw [show (clearTraffic s).circuits = s.circuits.map clearTrafficOf from rfl, Table.get_map]
    rfl

/-! ### Every step -/

/-- Every operation keeps the law: those of storage, of a record's settings and the resets by the lemmas above, all
others because they leave the free lists, the descriptors and the circuit records. -/
theorem poolLaw_kept : Kept PoolLaw where
  plain _ _ _ _ _ _ _ _ hs := hs
  trib _ _ _ hs := hs
  delivery _ _ _ _ _ _ hs := hs
  engine _ _ _ _ hs := hs
  events _ _ _ _ _ _ _ hs := hs
  response _ _ hs := hs
  record _ c _ hf hs := changeRecord_keeps_poolLaw c hf hs
  desc _ d _ hf hs := changeDesc_keeps_poolLaw d hf hs
  store _ _ _ _ hs := hs
  allocate _ _ _ _ ha hs := allocate_keeps_poolLaw ha hs
  enqueue _ _ _ _ _ _ he hs := enqueue_keeps_poolLaw he hs
  free _ d hs := free_keeps_poolLaw d hs
  addQueue _ _ _ _ hs := hs
  fault _ _ _ hs := hs.of_eq (by simp)
  aligned _ _ hs := hs
  swap _ _ hs := hs.of_eq (by simp)
  revert _ _ hs := hs.of_eq (by simp)
  boundSwap _ hs := hs.of_eq (by simp)
  countdown _ _ hs := hs
  windowEnd _ _ hs := hs.of_eq (by simp)
  select _ hs := hs.of_eq (by simp)
  tried _ _ _ hs := hs
  entered _ _ _ hs := hs.of_eq (by simp)
  noticeTick _ hs := hs.of_eq (by simp)
  expired _ hs := hs.of_eq (by simp)
  succeeded _ _ _ _ hs := hs.of_eq (by simp)
  setLease _ _ hs := hs.of_eq (by simp)
  writePlan _ _ hs := hs.of_eq (by simp)
  copyPlan _ _ hs := hs.of_eq (by simp)
  armSwap _ _ hs := hs.of_eq (by simp)
  cancelSwap _ _ hs := hs.of_eq (by simp)
  confirmSwap _ _ hs := hs.of_eq (by simp)
  writeCircuit _ params hs := writeCircuitRun_keeps_poolLaw params hs
  writePool _ _ hs := hs.of_eq (by simp)
  writeSched _ _ hs := hs.of_eq (by simp)
  writeEventConfig _ _ hs := hs.of_eq (by simp)
  noticeAck _ _ hs := hs.of_eq (by simp)
  clearFaults _ _ hs := hs.of_eq (by simp)
  writeBinding _ _ hs := hs.of_eq (by simp)
  reset s pins b _ := resetWith_poolLaw s.pending pins b
  pinReset _ _ := poolLaw_reset.of_eq ⟨rfl, rfl, rfl, rfl⟩
  clearTraffic s _ := clearTraffic_poolLaw s

/-- Settles O58: every operation keeps the law, so every step does. -/
theorem everyStepKeepsThePoolLaw : Obligations.EveryStepKeepsThePoolLaw :=
  fun _ _ hs he => poolLaw_kept.step (fun _ _ hu => hu) hs he

end Sys2Proof.Machine
end

section
/-!
PROOF. Storage granted and freed (R70 to R78, R82): the three tests of a request in their order, a grant, a free, a message
queued, and what a refusal raises.
-/

namespace Sys2Proof.Machine

/-! ### The three tests -/

theorem eligible_iff (s : State) (c : Circuit) : eligible s c = true ↔ c = 0 ∨ (s.circuits.get c).eligible = true := by
  simp [eligible]

theorem quotaFails_iff (s : State) (c : Circuit) (n : Nat) :
    quotaFails s c n = true ↔ (s.circuits.get c).quota < (s.circuits.get c).held + n := by
  simp [quotaFails]

theorem spaceFails_iff (s : State) (c : Circuit) (n : Nat) : spaceFails s c n = true ↔
    s.pool.freeSegs.length < n ∨ (¬ (c = 0 ∨ (s.circuits.get c).eligible = true) ∧
      s.pool.freeSegs.length - n ≤ s.pool.segReserve) := by
  simp only [spaceFails, ← eligible_iff, Bool.or_eq_true, Bool.and_eq_true, Bool.not_eq_true', decide_eq_true_eq,
    Bool.not_eq_true]

theorem descriptorsFail_iff (s : State) (c : Circuit) : descriptorsFail s c = true ↔
    s.pool.freeDescs.length = 0 ∨ (¬ (c = 0 ∨ (s.circuits.get c).eligible = true) ∧
      s.pool.freeDescs.length - 1 ≤ s.pool.descReserve) := by
  simp only [descriptorsFail, ← eligible_iff, Bool.or_eq_true, Bool.and_eq_true, Bool.not_eq_true', decide_eq_true_eq,
    Bool.not_eq_true, beq_iff_eq]

/-- No test fails exactly when the three pass (R71). -/
theorem allocFailure_none_iff (s : State) (c : Circuit) (n : Nat) : allocFailure s c n = none ↔
    quotaFails s c n = false ∧ spaceFails s c n = false ∧ descriptorsFail s c = false := by
  unfold allocFailure
  cases quotaFails s c n <;> cases spaceFails s c n <;> cases descriptorsFail s c <;> simp

/-- A request passes every test only with a descriptor free (R74). -/
theorem freeDescs_of_allocFailure_none {s : State} {c : Circuit} {n : Nat} (h : allocFailure s c n = none) :
    ∃ d rest, s.pool.freeDescs = d :: rest := by
  obtain ⟨-, -, descs⟩ := (allocFailure_none_iff s c n).mp h
  refine List.exists_cons_of_ne_nil fun empty => ?_
  simp [descriptorsFail, empty] at descs

theorem allocate_refused {m : NewMessage} {s : State} {f : AllocFailure}
    (h : allocFailure s m.circuit (segmentsFor m.length) = some f) : allocate m s = .error f := by
  simp only [allocate, h]

/-- A request that passes every test is granted (R71). -/
theorem allocate_granted {m : NewMessage} {s : State} (h : allocFailure s m.circuit (segmentsFor m.length) = none) :
    ∃ d t, allocate m s = .ok (d, t) := by
  obtain ⟨d, rest, hd⟩ := freeDescs_of_allocFailure_none h
  simp only [allocate, h, hd]
  exact ⟨_, _, rfl⟩

/-- A request is refused with the failure the tests give, and with no other (R71). -/
theorem allocate_error_iff (m : NewMessage) (s : State) (f : AllocFailure) :
    allocFailure s m.circuit (segmentsFor m.length) = some f ↔ allocate m s = .error f := by
  refine ⟨allocate_refused, fun he => ?_⟩
  cases h : allocFailure s m.circuit (segmentsFor m.length) with
  | none =>
    obtain ⟨d, t, granted⟩ := allocate_granted h
    rw [granted] at he
    cases he
  | some g =>
    rw [allocate_refused h] at he
    cases he
    rfl

/-! ### A grant -/

/-- The reserve level judged after a change of the pool: POOL_RESERVE where the free count was above the level before and
is at or below the level now (R82). -/
theorem judgeReserve_eq (countBefore levelBefore : Nat) (s : State) : judgeReserve countBefore levelBefore s =
    if levelBefore < countBefore ∧ s.pool.freeSegs.length ≤ s.pool.segReserve then
      raise .poolReserve (some (octets2 s.pool.freeSegs.length)) s
    else s := by
  simp only [judgeReserve, crossesReserve, Bool.and_eq_true, decide_eq_true_eq]

/-- The part with its storage granted: the head descriptor with the head segments as its chain, the held count raised
(R71). -/
def grantedTo (m : NewMessage) (d : DescNo) (s : State) : State :=
  { s with
    circuits := s.circuits.change m.circuit fun r => { r with held := r.held + (m.length + 31) / 32 }
    pool := { s.pool with
      freeSegs := s.pool.freeSegs.drop ((m.length + 31) / 32)
      freeDescs := s.pool.freeDescs.tail
      descs := s.pool.descs.put d (some ⟨m.state, m.circuit, m.cls, m.mark, m.seq, m.length,
        s.pool.freeSegs.take ((m.length + 31) / 32), none, m.origin⟩) } }

theorem takeStorage_eq (m : NewMessage) (d : DescNo) (s : State) : takeStorage m d s = grantedTo m d s := rfl

/-- A grant takes the head descriptor and judges the reserve crossing (R71, R82). -/
theorem allocate_eq {m : NewMessage} {d : DescNo} {s t : State} (ha : allocate m s = .ok (d, t)) :
    s.pool.freeDescs.head? = some d ∧
    t = if s.pool.segReserve < s.pool.freeSegs.length ∧
          s.pool.freeSegs.length - (m.length + 31) / 32 ≤ s.pool.segReserve then
        raise .poolReserve (some (octets2 (s.pool.freeSegs.length - (m.length + 31) / 32))) (grantedTo m d s)
      else grantedTo m d s := by
  obtain ⟨-, ⟨rest, hd⟩, rfl⟩ := allocate_ok ha
  have count : (grantedTo m d s).pool.freeSegs.length = s.pool.freeSegs.length - (m.length + 31) / 32 :=
    List.length_drop
  refine ⟨by rw [hd]; rfl, ?_⟩
  rw [judgeReserve_eq, takeStorage_eq, count]
  rfl

/-! ### A message queued -/

theorem enqueue_refused {m : NewMessage} {body : List Byte} {s : State} {f : AllocFailure}
    (h : allocate m s = .error f) : enqueue m body s = .error f := by
  simp only [enqueue, h]

/-- A message queued: its storage granted, its body stored in its chain, its descriptor at the tail of its add queue
(R70, R71). -/
theorem enqueue_granted {m : NewMessage} {body : List Byte} {d : DescNo} {s t : State} (h : allocate m s = .ok (d, t)) :
    enqueue m body s = .ok (d, { t with
      addQueues := s.addQueues.put m.circuit (s.addQueues.get m.circuit ++ [d])
      pool := { t.pool with
        store := storeBody (s.pool.freeSegs.take (segmentsFor m.length)) body s.pool.store } }) := by
  have frame : t.addQueues = s.addQueues ∧ t.pool.store = s.pool.store := by simp [allocate_frame h]
  simp only [enqueue, h, setAddQueue, setStore, frame]

/-- Settles O24: the tests in their order, a grant and a free, a message queued, and a refusal by its failure. -/
theorem storageIsGrantedAndFreed : Obligations.StorageIsGrantedAndFreed := by
  refine ⟨fun m s => ?_, ⟨fun m d t s ha => allocate_eq ha, fun d x s hx => free_eq_released hx⟩, fun m body s => ?_,
    fun c length s => ⟨rfl, rfl, rfl⟩⟩
  · intro n eligible quota space descriptors
    have hquota : quotaFails s m.circuit n = true ↔ quota := quotaFails_iff s m.circuit n
    have hspace : spaceFails s m.circuit n = true ↔ space := spaceFails_iff s m.circuit n
    have hdescs : descriptorsFail s m.circuit = true ↔ descriptors := descriptorsFail_iff s m.circuit
    refine ⟨allocate_error_iff m s, fun hq => allocate_refused ?_, fun hq hs => allocate_refused ?_,
      fun hq hs hd => allocate_refused ?_, fun hq hs hd => allocate_granted ?_⟩
    all_goals change allocFailure s m.circuit n = _
    all_goals simp only [allocFailure, if_true, if_false, *]
  · refine ⟨fun f => enqueue_refused, fun d t ha => ⟨_, enqueue_granted ha, fun hs a apart => ?_⟩⟩
    exact storeFrom_other _ body a apart 0 s.pool.store hs

end Sys2Proof.Machine
end

section
/-!
PROOF. The circuit 0 arbiter (R76, R134 to R137, R154, R156, R188, R190; log entry 7): what each part of an attempt does
with its offer, and how NOTICE_ADMITTED and RESPONSE_ADMITTED share an attempt.
-/

namespace Sys2Proof.Machine

/-- The circuit 0 queue has room for eight messages (R125). -/
theorem hasRoom_management (s : State) : hasRoom s 0 = true ↔ (s.addQueues.get 0).length < 8 := by
  simp [hasRoom, queueDepth]

section

variable {s : State}

/-! ### Part 1 -/

theorem tryNotice_none (h : s.arbiter.notice = none) : tryNotice s = s := by
  simp [tryNotice, h]

/-- With no room in the circuit 0 queue the pool is not asked (R137). -/
theorem tryNotice_full (h : 8 ≤ (s.addQueues.get 0).length) : tryNotice s = s := by
  have full : ¬ hasRoom s 0 = true := by rw [hasRoom_management]; omega
  unfold tryNotice
  split
  · rfl
  · simp [full]

/-- The notice offered enters the queue (R137). -/
theorem tryNotice_granted {o : NoticeOffer} {d : DescNo} {t : State} (ho : s.arbiter.notice = some o)
    (hr : (s.addQueues.get 0).length < 8) (he : enqueue (offerMessage .notice o.body) o.body s = .ok (d, t)) :
    tryNotice s = noticeEntered o (setNoticeOffer none t) := by
  simp only [tryNotice, ho, (hasRoom_management s).mpr hr, he, Bool.not_true, Bool.false_eq_true, if_false]

/-- The notice refused stays on offer, and raises what R76 gives the first time. -/
theorem tryNotice_refused {o : NoticeOffer} {f : AllocFailure} (ho : s.arbiter.notice = some o)
    (hr : (s.addQueues.get 0).length < 8) (hf : allocFailure s 0 (segmentsFor o.body.length) = some f) :
    tryNotice s = { (if o.tried then s else raiseRefusal f 0 o.body.length s) with
      arbiter := { s.arbiter with notice := some { o with tried := true } } } := by
  have refused := enqueue_error (m := offerMessage .notice o.body) (body := o.body) hf
  have kept : (if o.tried then s else raiseRefusal f 0 o.body.length s).arbiter = s.arbiter := by split <;> simp
  simp only [tryNotice, ho, (hasRoom_management s).mpr hr, refused, Bool.not_true, Bool.false_eq_true, if_false,
    setNoticeOffer, kept]

/-- A new notice in the queue is pushed on the stack (R137, R188). -/
theorem noticeEntered_new {o : NoticeOffer} (h : o.resend = false) (t : State) :
    noticeEntered o (setNoticeOffer none t) = selectNotice { t with
      arbiter := { t.arbiter with notice := none }
      events := { t.events with
        stack := ⟨o.sequence, o.kind, o.level, 1, t.events.timeout⟩ :: t.events.stack
        sequence := t.events.sequence + 1 } } := by
  rw [noticeEntered, if_neg (by simp [h])]
  rfl

/-- A re-send in the queue is counted in the top entry (R137, R190). -/
theorem noticeEntered_resend {o : NoticeOffer} (h : o.resend = true) {t : State} {top : StackEntry}
    {below : List StackEntry} (ht : t.events.stack = top :: below) :
    noticeEntered o (setNoticeOffer none t) = selectNotice { t with
      arbiter := { t.arbiter with notice := none }
      events := { t.events with
        stack := { top with sends := top.sends + 1, timer := t.events.timeout } :: below } } := by
  have stack : (setNoticeOffer none t).events.stack = top :: below := ht
  rw [noticeEntered, if_pos h, countResend, stack]
  rfl

/-! ### Part 2 -/

/-- With no room in the circuit 0 queue the pool is not asked (R136). -/
theorem tryResponse_full (h : 8 ≤ (s.addQueues.get 0).length) : tryResponse s = s := by
  have full : ¬ hasRoom s 0 = true := by rw [hasRoom_management]; omega
  unfold tryResponse
  split
  · rfl
  · simp [full]

/-- The response offered enters the queue, and the engine is told (R136). -/
theorem tryResponse_granted {o : ResponseOffer} {d : DescNo} {t : State} (ho : s.arbiter.response = some o)
    (hr : (s.addQueues.get 0).length < 8) (he : enqueue (offerMessage .response o.body) o.body s = .ok (d, t)) :
    tryResponse s = responseQueued d (setResponseOffer none t) := by
  simp only [tryResponse, ho, (hasRoom_management s).mpr hr, he, Bool.not_true, Bool.false_eq_true, if_false]

/-- The response refused stays on offer, and raises what R76 gives the first time. -/
theorem tryResponse_refused {o : ResponseOffer} {f : AllocFailure} (ho : s.arbiter.response = some o)
    (hr : (s.addQueues.get 0).length < 8) (hf : allocFailure s 0 (segmentsFor o.body.length) = some f) :
    tryResponse s = { (if o.tried then s else raiseRefusal f 0 o.body.length s) with
      arbiter := { s.arbiter with response := some { o with tried := true } } } := by
  have refused := enqueue_error (m := offerMessage .response o.body) (body := o.body) hf
  have kept : (if o.tried then s else raiseRefusal f 0 o.body.length s).arbiter = s.arbiter := by split <;> simp
  simp only [tryResponse, ho, (hasRoom_management s).mpr hr, refused, Bool.not_true, Bool.false_eq_true, if_false,
    setResponseOffer, kept]

/-- The engine leaves HOLDING, or notes the descriptor of the FULL response (R136, R154, R156). -/
theorem responseQueued_eq {t : State} (d : DescNo) (h : t.engine.state = .holding ∨ t.engine.state = .resetting) :
    responseQueued d (setResponseOffer none t) = { t with
      arbiter := { t.arbiter with response := none }
      engine := if t.engine.state = .holding then { t.engine with state := .idle }
        else { t.engine with noted := some d } } := by
  rcases h with h | h
  · simp [responseQueued, setResponseOffer, h]
  · simp [responseQueued, setResponseOffer, h]

/-! ### NOTICE_ADMITTED -/

/-- NOTICE_ADMITTED at a running part. -/
theorem exec_noticeAdmitted (h : s.pins.rstN = true) : exec .noticeAdmitted s = .next (noticeStep s) := by
  simp [exec, execNoticeAdmitted, h]

/-- The next attempt begun, with `n` owed after it, and its second part owed if a response offer is held (R135). -/
def attemptBegun (n : Nat) (s : State) : State :=
  { s with owed := { Owed.none with attempts := n, partTwo := s.arbiter.response.isSome } }

/-- Part 1 at a part that owes nothing but attempts. -/
theorem noticePartOwed_owing {n : Nat} (h : Owing { Owed.none with attempts := n + 1 } s) :
    noticePartOwed s = tryNotice (attemptBegun n s) := by
  obtain ⟨-, ho, -⟩ := h
  have due : s.owed.attempts ≠ 0 := by simp [ho]
  rw [noticePartOwed, if_neg due, beginAttempt, ho]
  rfl

/-- Part 1 leaves part 2 owed where a response offer is held (R135). -/
theorem tryNotice_attemptBegun_partTwo (n : Nat) (s : State) :
    (tryNotice (attemptBegun n s)).owed.partTwo = s.arbiter.response.isSome :=
  congrArg Owed.partTwo (tryNotice_timed (attemptBegun n s))

/-- What waits before an attempt at a part that owes nothing but attempts: nothing. -/
theorem Owing.takes_nothing_first {n : Nat} (h : Owing { Owed.none with attempts := n } s) :
    takeOccurrences (responsePartOwed s) = s := by
  obtain ⟨-, ho, hi⟩ := h
  rw [responsePartOwed_off (by rw [ho]; rfl), takeOccurrences_empty hi]

/-- NOTICE_ADMITTED at a part that owes nothing but attempts: part 1 of the next, and its occurrences unless part 2 is to
follow (R135; log entry 7). -/
theorem exec_noticeAdmitted_owing {n : Nat} (h : Owing { Owed.none with attempts := n + 1 } s) :
    exec .noticeAdmitted s = .next
      (if s.arbiter.response = none then takeOccurrences (tryNotice (attemptBegun n s))
      else tryNotice (attemptBegun n s)) := by
  rw [exec_noticeAdmitted h.1, noticeStep, h.takes_nothing_first, noticePartOwed_owing h]
  simp only [tryNotice_attemptBegun_partTwo]
  cases s.arbiter.response <;> rfl

end

/-- Settles O38: part 1 with no offer, with no room, granted and refused. -/
theorem noticesAreAdmitted : Obligations.NoticesAreAdmitted := by
  intro n s h asked ended
  have step : exec .noticeAdmitted s = .next (ended (tryNotice asked)) := exec_noticeAdmitted_owing h
  have unchanged : ended asked = asked := by
    dsimp only [ended]
    split
    · exact takeOccurrences_empty h.2.2
    · rfl
  refine ⟨fun hn => ?_, fun o ho => ?_⟩
  · rw [step, tryNotice_none (s := asked) hn, unchanged]
  intro m
  refine ⟨fun full => ?_, fun room => ⟨fun d t he => ⟨fun new => ?_, ?_⟩, fun f hf => ?_⟩⟩
  · rw [step, tryNotice_full (s := asked) full, unchanged]
  · rw [step, tryNotice_granted (s := asked) ho room he, noticeEntered_new new]
  · intro top below resend hs
    have stack : t.events.stack = top :: below := by
      simp only [enqueue_frame he]
      exact hs
    rw [step, tryNotice_granted (s := asked) ho room he, noticeEntered_resend resend stack]
  · rw [step, tryNotice_refused (s := asked) ho room hf]

/-! ### RESPONSE_ADMITTED -/

/-- RESPONSE_ADMITTED with part 2 of an attempt owed (R135, R136). -/
theorem exec_responseAdmitted_partTwo {s : State} (hr : s.pins.rstN = true) (hp : s.owed.partTwo = true) :
    exec .responseAdmitted s =
      .next (takeOccurrences (tryResponse { s with owed := { s.owed with partTwo := false } })) := by
  rw [exec_responseAdmitted hr, responseStep_eq, if_pos hp, responsePartOwed, if_pos hp]
  rfl

/-- RESPONSE_ADMITTED on an attempt not yet begun: part 1, then part 2 (R135; log entry 7). -/
theorem exec_responseAdmitted_owing {n : Nat} {s : State} (h : Owing { Owed.none with attempts := n + 1 } s) :
    exec .responseAdmitted s =
      .next (takeOccurrences (responsePartOwed (tryNotice (attemptBegun n s)))) := by
  have off : ¬ s.owed.partTwo = true := by simp [h.2.1, Owed.none]
  rw [exec_responseAdmitted h.1, responseStep_eq, if_neg off, attemptTaken, noticePartOwed_owing h]

/-- Settles O39: part 2 with no room, granted and refused, then the rows' sharing of an attempt. -/
theorem responsesAreAdmitted : Obligations.ResponsesAreAdmitted := by
  refine ⟨fun o s hr hp ho => ?_, fun s => ⟨fun n t h hn ht => ?_, fun n h hn => ?_, fun hq => ?_⟩⟩
  · intro asked m
    have step : exec .responseAdmitted s = .next (takeOccurrences (tryResponse asked)) :=
      exec_responseAdmitted_partTwo hr hp
    refine ⟨fun full => ?_, fun room => ⟨fun d t he hs => ?_, fun f hf => ?_⟩⟩
    · rw [step, tryResponse_full (s := asked) full]
    · have engine : s.engine = t.engine := by simp [enqueue_frame he, asked]
      rw [step, tryResponse_granted (s := asked) ho room he]
      rw [engine] at hs ⊢
      rw [responseQueued_eq d hs]
    · rw [step, tryResponse_refused (s := asked) ho room hf]
  · rw [exec_noticeAdmitted_owing h, if_neg hn] at ht
    cases ht
    have owed : (tryNotice (attemptBegun n s)).owed.partTwo = true := by
      rw [tryNotice_attemptBegun_partTwo, Option.isSome_iff_ne_none]
      exact hn
    have running : (tryNotice (attemptBegun n s)).pins.rstN = true := by
      simp only [tryNotice_frame]
      exact h.1
    refine ⟨owed, ?_⟩
    rw [exec_responseAdmitted_owing h, exec_responseAdmitted running, responseStep_eq, if_pos owed]
  · have none : (tryNotice (attemptBegun n s)).owed.partTwo = false := by
      rw [tryNotice_attemptBegun_partTwo, hn]
      rfl
    rw [exec_responseAdmitted_owing h, exec_noticeAdmitted_owing h, if_pos hn, responsePartOwed_off none]
  · obtain ⟨hr, ho, hi⟩ := hq
    have first : takeOccurrences (responsePartOwed s) = s := Owing.takes_nothing_first (n := 0) ⟨hr, ho, hi⟩
    have idle : noticePartOwed s = s := if_pos (by rw [ho]; rfl)
    have off : s.owed.partTwo = false := by rw [ho]; rfl
    refine ⟨?_, ?_⟩
    · rw [exec_noticeAdmitted hr, noticeStep, first, idle]
      simp [off, takeOccurrences_empty hi]
    · rw [exec_responseAdmitted hr, responseStep_eq, if_neg (by simp [off]), attemptTaken, idle, first]

end Sys2Proof.Machine
end

section
/-!
PROOF. The requests of the pool and of the delivery unit (R77, R81 to R83, R102, R103, R171, R172): what each execution
returns, and the answer it is given.
-/

namespace Sys2Proof.Machine

/-! ### READ_POOL -/

/-- The places of a table, in the order of their numbers. -/
theorem Table.cells_eq_map {α : Type} {n : Nat} (t : Table α n) : t.cells = (List.finRange n).map t.get := by
  apply List.ext_getElem (by simp [t.size])
  intro i _ _
  simp [Table.get]

theorem readPoolRun_inRange {first n : Byte} (s : State) (hf : first.toNat ≤ 95) (hn : first.toNat + n.toNat ≤ 96) :
    readPoolRun [first, n] s = ⟨.ok, poolResults first.toNat n.toNat s, s⟩ :=
  if_pos (by
    simp only [Bool.and_eq_true, decide_eq_true_eq]
    exact ⟨Nat.lt_succ_of_le hf, hn⟩)

theorem readPoolRun_range {first n : Byte} (s : State) (h : 95 < first.toNat ∨ 96 < first.toNat + n.toNat) :
    readPoolRun [first, n] s = ⟨.range, [], s⟩ :=
  if_neg (by
    simp only [Bool.and_eq_true, decide_eq_true_eq]
    intro (⟨hf, hn⟩ : first.toNat < 96 ∧ first.toNat + n.toNat ≤ 96)
    omega)

/-- The results of READ_POOL, item by item (R83, R171, R203). -/
theorem poolResults_eq (first n : Byte) (s : State) : poolResults first.toNat n.toNat s =
    octets2 s.pool.freeSegs.length ++ octets2 s.pool.freeDescs.length ++ octets2 s.pool.segReserve ++
      [octet s.pool.descReserve, first, n] ++
      ((List.finRange 96).drop first.toNat |>.take n.toNat).flatMap fun c => octets2 (s.circuits.get c).held := by
  rw [poolResults, octet_toNat, octet_toNat, Table.cells_eq_map, ← List.map_drop, ← List.map_take, List.flatMap_map]

/-! ### WRITE_POOL -/

/-- The part with the reserve levels replaced (R81). -/
def withLevels (segReserve descReserve : Nat) (s : State) : State :=
  { s with pool := { s.pool with segReserve := segReserve, descReserve := descReserve } }

/-- Informing the requesters and handing over an occurrence touch fields apart. -/
theorem informed_raise (k : EventKind) (detail : Option (List Byte)) (s : State) :
    informed (raise k detail s) = raise k detail (informed s) := by
  unfold informed
  simp only [raise_frame]
  split <;> rfl

/-- Both levels written: POOL_RESERVE where the free count was above the level before and is at or below the new one, and
the requesters informed (R77, R81, R82). -/
theorem writeLevels_eq (segReserve descReserve : Nat) (s : State) : writeLevels segReserve descReserve s =
    if s.pool.segReserve < s.pool.freeSegs.length ∧ s.pool.freeSegs.length ≤ segReserve then
      raise .poolReserve (some (octets2 s.pool.freeSegs.length)) (informed (withLevels segReserve descReserve s))
    else informed (withLevels segReserve descReserve s) := by
  rw [writeLevels, informRequesters_eq, judgeReserve_eq]
  dsimp only
  split
  · exact informed_raise ..
  · rfl

section

variable {high low descs : Byte} {s : State}

/-- WRITE_POOL with both levels in range returns them as they were supplied (R81, R171). -/
theorem writePoolRun_inRange (hl : high.toNat * 256 + low.toNat ≤ 255) (hd : descs.toNat ≤ 63) :
    writePoolRun [high, low, descs] s =
      ⟨.ok, [high, low, descs], writeLevels (high.toNat * 256 + low.toNat) descs.toNat s⟩ := by
  have level : number2At [high, low, descs] 0 = high.toNat * 256 + low.toNat := rfl
  have reserve : at0 [high, low, descs] 2 = descs := rfl
  simp only [writePoolRun, level, reserve, hl, hd, decide_true, Bool.and_self, if_true, accepted, octets2_of_two,
    octet_toNat, List.cons_append, List.nil_append]

theorem writePoolRun_crossing (hl : high.toNat * 256 + low.toNat ≤ 255) (hd : descs.toNat ≤ 63)
    (h : s.pool.segReserve < s.pool.freeSegs.length ∧ s.pool.freeSegs.length ≤ high.toNat * 256 + low.toNat) :
    writePoolRun [high, low, descs] s = ⟨.ok, [high, low, descs],
      raisedAll [(.poolReserve, some (octets2 s.pool.freeSegs.length))]
        (informed (withLevels (high.toNat * 256 + low.toNat) descs.toNat s))⟩ := by
  rw [writePoolRun_inRange hl hd, writeLevels_eq, if_pos h, raise_eq_raisedAll]

theorem writePoolRun_noCrossing (hl : high.toNat * 256 + low.toNat ≤ 255) (hd : descs.toNat ≤ 63)
    (h : ¬ (s.pool.segReserve < s.pool.freeSegs.length ∧ s.pool.freeSegs.length ≤ high.toNat * 256 + low.toNat)) :
    writePoolRun [high, low, descs] s = ⟨.ok, [high, low, descs],
      informed (withLevels (high.toNat * 256 + low.toNat) descs.toNat s)⟩ := by
  rw [writePoolRun_inRange hl hd, writeLevels_eq, if_neg h]

theorem writePoolRun_range (h : 255 < high.toNat * 256 + low.toNat ∨ 63 < descs.toNat) :
    writePoolRun [high, low, descs] s = ⟨.range, [], s⟩ :=
  if_neg (by
    simp only [Bool.and_eq_true, decide_eq_true_eq]
    intro (⟨hl, hd⟩ : high.toNat * 256 + low.toNat ≤ 255 ∧ descs.toNat ≤ 63)
    omega)

end

/-! ### READ_SCHED -/

/-- What READ_SCHED says of the message in delivery: zeros where there is none (R172; log entry 17). -/
theorem inDeliveryOctets_eq {s : State} {message : List Byte}
    (h : (s.delivery.inDelivery = none ∧ message = [0, 0, 0]) ∨
      (∃ d x, s.delivery.inDelivery = some d ∧ s.pool.descs.get d = some x ∧
        message = [1, BitVec.ofNat 8 x.cls.val, BitVec.ofNat 8 x.circuit.val])) : inDeliveryOctets s = message := by
  rcases h with ⟨hd, rfl⟩ | ⟨d, x, hd, hx, rfl⟩
  · simp [inDeliveryOctets, hd]
  · simp only [inDeliveryOctets, hd, Option.bind_some, hx]
    rfl

/-- The results of READ_SCHED, item by item (R103, R203). -/
theorem schedResults_eq (s : State) : schedResults s =
    octets2 (s.delivery.quanta.get 0) ++ octets2 (s.delivery.quanta.get 1) ++ octets2 (s.delivery.quanta.get 2) ++
      octets2 (s.delivery.ageLimits.get 0) ++ octets2 (s.delivery.ageLimits.get 1) ++
      octets2 (s.delivery.ageLimits.get 2) ++ octets2 (s.delivery.ageLimits.get 3) ++ octets2 s.delivery.stallLimit ++
      octets2 (s.delivery.deficits.get 0) ++ octets2 (s.delivery.deficits.get 1) ++
      octets2 (s.delivery.deficits.get 2) ++ [octet (s.delivery.round.val + 1), octet s.delivery.credits] ++
      octets2 (s.delivery.queues.get 0).length ++ octets2 (s.delivery.queues.get 1).length ++
      octets2 (s.delivery.queues.get 2).length ++ octets2 (s.delivery.queues.get 3).length ++ inDeliveryOctets s ++
      octets2 s.delivery.stallTimer ++ [flagOctet s.delivery.stallReported, flagOctet s.trib.ready] := by
  simp only [schedResults, Table.cells_three, Table.cells_four, List.flatMap_cons, List.flatMap_nil, List.append_nil,
    List.append_assoc]

/-! ### WRITE_SCHED -/

/-- A quantum in range (R102). -/
def QuantumInRange (n : Nat) : Prop := 32 ≤ n ∧ n ≤ 2048

/-- Every setting a WRITE_SCHED supplies is in its range (R102). -/
def SchedInRange (params : List Byte) : Prop :=
  QuantumInRange (number2At params 0) ∧ QuantumInRange (number2At params 2) ∧ QuantumInRange (number2At params 4) ∧
  number2At params 6 ≤ 1000 ∧ number2At params 8 ≤ 1000 ∧ number2At params 10 ≤ 1000 ∧ number2At params 12 ≤ 1000 ∧
  number2At params 14 ≤ 1000

/-- WRITE_SCHED writes every setting, or is refused (R102). -/
theorem writeSchedRun_eq (params : List Byte) (s : State) :
    (SchedInRange params → writeSchedRun params s = ⟨.ok, [], { s with delivery := { s.delivery with
      quanta := quantaOf params, ageLimits := ageLimitsOf params, stallLimit := number2At params 14 } }⟩) ∧
    (¬ SchedInRange params → writeSchedRun params s = ⟨.range, [], s⟩) := by
  have inRange : ((quantaOf params).cells.all goodQuantum && (ageLimitsOf params).cells.all (· ≤ 1000) &&
      number2At params 14 ≤ 1000) = true ↔ SchedInRange params := by
    simp [SchedInRange, QuantumInRange, quantaOf, ageLimitsOf, goodQuantum, and_assoc]
  exact ⟨fun h => if_pos (inRange.mpr h), fun h => if_neg (mt inRange.mp h)⟩

/-- Settles O47: each request by its ranges, WRITE_POOL by the reserve crossing too. -/
theorem poolAndSchedRequestsAreAnswered : Obligations.PoolAndSchedRequestsAreAnswered := by
  refine ⟨fun request s hq => ?_, fun request s hq => ?_⟩
  · intro two p free
    refine ⟨fun first n h hp => ⟨fun hf hn => ?_, fun hr => ?_⟩, fun high low descs h hp => ?_⟩
    · have read := perform_answered hq h hp (readPoolRun_inRange s hf hn) rfl
      rw [poolResults_eq] at read
      exact read
    · exact perform_answered hq h hp (readPoolRun_range s hr) rfl
    · intro level written
      refine ⟨fun hl hd => ⟨fun crossed hu => ?_, fun apart => ?_⟩, fun hr => ?_⟩
      · have answer := perform_answered_raise hq h hp (writePoolRun_crossing hl hd crossed) (informed_events _) hu
        exact answer
      · exact perform_answered hq h hp (writePoolRun_noCrossing hl hd apart) (informed_events _)
      · exact perform_answered hq h hp (writePoolRun_range hr) rfl
  · intro two flag e
    refine ⟨fun message h hm => ?_, ?_⟩
    · have run : readSchedRun (requestParams request) s = ⟨.ok, schedResults s, s⟩ := rfl
      have read := perform_answered hq h rfl run rfl
      rw [schedResults_eq, inDeliveryOctets_eq hm] at read
      exact read
    · intro q1h q1l q2h q2l q3h q3l a0h a0l a1h a1l a2h a2l a3h a3l sh sl h hp n quantum good
      obtain ⟨written, refused⟩ := writeSchedRun_eq [q1h, q1l, q2h, q2l, q3h, q3l, a0h, a0l, a1h, a1l, a2h, a2l, a3h, a3l,
        sh, sl] s
      exact ⟨fun hg => perform_answered hq h hp (written hg) rfl, fun hg => perform_answered hq h hp (refused hg) rfl⟩

end Sys2Proof.Machine
end

section
/-!
PROOF. The delivery unit: what the resets set in it (R105), the search among classes 1 to 3 and the choice of the next
message (R88 to R91, R121), a delivery complete (R92), and READY falling and rising (R93 to R95, R108).
-/

namespace Sys2Proof.Machine

/-! ### Resets -/

/-- Settles O6: after each of the three resets every block stands at its reset values, those of the delivery unit and of
the descriptors among them. -/
theorem deliveryUnitAfterResets : Obligations.DeliveryUnitAfterResets := by
  intro straps linePresent ready s t h
  have values : ∃ address level, ResetValues address level t := by
    rcases h with h | h | rfl
    · cases h
      exact ⟨_, _, resetWith_values ..⟩
    · cases h
      exact ⟨_, _, pinReset_values s⟩
    · exact ⟨_, _, resetWith_values ..⟩
  obtain ⟨_, _, -, -, -, -, -, -, pool, delivery, -⟩ := values
  obtain ⟨-, -, descs, -⟩ := pool
  obtain ⟨queues, quanta, deficits, round, credits, ageLimits, stallLimit, stallTimer, stallReported, inDelivery, retries,
    discarded⟩ := delivery
  exact ⟨queues, inDelivery, deficits, round, credits, quanta, ageLimits, stallLimit, stallTimer, stallReported, retries,
    discarded, descs⟩

/-! ### The search among classes 1 to 3 -/

/-- Where every quantum is at least 32, a search of R90 is what the visits given to it answer. -/
theorem Search.answer {heads : Table (Option Nat) 3} {quanta deficits deficits' : Table Nat 3} {l l' : Lane}
    (search : Search heads quanta l deficits l' deficits') (hq : ∀ i, 32 ≤ quanta.get i) :
    searchRound heads quanta (searchVisits heads) l deficits = some ⟨l', deficits'⟩ := by
  obtain ⟨n, hn⟩ := search.head
  have held : heads.get l' ≠ none := fun empty => nomatch hn.symm.trans empty
  obtain ⟨ch, answer⟩ := searchRound_answers hq ⟨l', held⟩ l deficits
  obtain ⟨hl, hd⟩ := search.deterministic (searchRound_sound _ _ _ _ answer)
  rw [answer, ← hl, ← hd]

/-- Settles O27: the visits given are enough, their answer is a search, and a search has one end. -/
theorem everySearchEndsWithAChoice : Obligations.EverySearchEndsWithAChoice := by
  intro heads quanta deficits l hq hn hm hd
  obtain ⟨ch, answer⟩ := searchRound_answers (fun i => (hq i).1) hm l deficits
  have search := searchRound_sound _ _ _ _ answer
  obtain ⟨n, head⟩ := search.head
  exact ⟨ch.lane, ch.deficits, n, search, head, search.deficits (fun i => (hq i).2) hn hd,
    fun _ _ other => search.deterministic other⟩

section

variable {s : State}

/-! ### Rows that act under a condition -/

section

variable {p : State → Prop} [DecidablePred p] {f : State → State}

/-- A row of a quiet part whose condition holds and whose effect leaves the event unit. -/
theorem perform_guarded (h : Quiet s) (hp : p s) (hf : (f s).events = s.events) :
    perform (fun t => if p t then f t else t) s = .next (f s) := perform_eq h (if_pos hp) hf

/-- A row of a quiet part whose condition does not hold changes nothing (log entry 4). -/
theorem perform_unmet (h : Quiet s) (hp : ¬ p s) : perform (fun t => if p t then f t else t) s = .next s :=
  perform_eq h (if_neg hp) rfl

end

/-- DELIVERY_CHOICE as its row takes it (R88). -/
theorem exec_deliveryChoice (s : State) : exec .deliveryChoice s =
    perform (fun t => if choicePossible t then chooseDelivery t else t) s := rfl

/-- DELIVERY_COMPLETE as its row takes it (R92). -/
theorem exec_deliveryComplete (s : State) : exec .deliveryComplete s =
    perform (fun t => if t.trib.tx = .sendingDeliver then completeDelivery t else t) s := rfl

/-! ### The choice -/

/-- The conditions of a choice (R88, R118). -/
theorem choicePossible_iff (s : State) : choicePossible s = true ↔
    (s.trib.tx = .idle ∧ s.trib.rejects = [] ∧ s.trib.ready = true ∧ 1 ≤ s.delivery.credits ∧
      s.delivery.inDelivery = none) ∧ ∃ q, s.delivery.queues.get q ≠ [] := by
  simp only [choicePossible, Bool.and_eq_true, anyQueued_iff, beq_iff_eq, List.isEmpty_iff, decide_eq_true_eq,
    Option.isNone_iff_eq_none]
  exact ⟨fun ⟨⟨⟨⟨⟨tx, rejects⟩, ready⟩, credit⟩, queued⟩, free⟩ => ⟨⟨tx, rejects, ready, credit, free⟩, queued⟩,
    fun ⟨⟨tx, rejects, ready, credit, free⟩, queued⟩ => ⟨⟨⟨⟨⟨tx, rejects⟩, ready⟩, credit⟩, queued⟩, free⟩⟩

/-- The head of class queue 0 is chosen where there is one (R89). -/
theorem chooseDelivery_first (h : s.delivery.queues.get 0 ≠ []) : chooseDelivery s = startDelivery 0 s := by
  simp [chooseDelivery, h]

/-- With class queue 0 empty the search chooses the class and leaves its deficits and the pointer (R90). -/
theorem chooseDelivery_searched {l : Lane} {deficits : Table Nat 3} (h : s.delivery.queues.get 0 = [])
    (hq : ∀ i, 32 ≤ s.delivery.quanta.get i)
    (search : Search (laneHeads s) s.delivery.quanta s.delivery.round s.delivery.deficits l deficits) :
    chooseDelivery s =
      startDelivery l.succ { s with delivery := { s.delivery with deficits := deficits, round := l } } := by
  simp [chooseDelivery, h, search.answer hq]

/-! ### A delivery complete -/

/-- A free leaves the delivery unit and the tributary interface (R78). -/
theorem released_delivery_trib (d : DescNo) (x : Descriptor) (s : State) :
    (released d x s).delivery = s.delivery ∧ (released d x s).trib = s.trib := by
  simp only [released, informed]
  split <;> exact ⟨rfl, rfl⟩

/-- The message in delivery counted as delivered and freed, the transmitter idle (R92, R121). -/
theorem completeDelivery_eq {d : DescNo} {x : Descriptor} (hd : s.delivery.inDelivery = some d)
    (hx : s.pool.descs.get d = some x) :
    completeDelivery s =
      { released d x (counted x.circuit (fun k => { k with delivered := k.delivered + 1 }) s) with
        delivery := { s.delivery with inDelivery := none }
        trib := { s.trib with tx := .idle, frame := [] } } := by
  have freed := free_eq_released (s := counted x.circuit (fun k => { k with delivered := k.delivered + 1 }) s) hx
  obtain ⟨delivery, trib⟩ :=
    released_delivery_trib d x (counted x.circuit (fun k => { k with delivered := k.delivered + 1 }) s)
  simp only [completeDelivery, hd, hx]
  refine (congrArg (fun t => idleTransmitter (endDelivery t)) freed).trans ?_
  simp only [idleTransmitter, endDelivery, delivery, trib]
  rfl

/-! ### READY -/

/-- The deficit a returned message restores: none for class 0, else that of its class (R95). -/
theorem restoreDeficit_eq (q : Class) (length : Nat) (s : State) : restoreDeficit q length s =
    { s with delivery := { s.delivery with
        deficits := if q = 0 then s.delivery.deficits
          else s.delivery.deficits.change (Fin.ofNat 3 (q.val - 1)) (· + length) } } := by
  match q with
  | 0 => rfl
  | 1 => rfl
  | 2 => rfl
  | 3 => rfl

/-- The message in delivery returned to the head of its class queue (R95). -/
theorem abortDelivery_eq {d : DescNo} {x : Descriptor} (hd : s.delivery.inDelivery = some d)
    (hx : s.pool.descs.get d = some x) :
    abortDelivery s = { s with
      pool := { s.pool with descs := s.pool.descs.put d (some { x with state := .queued }) }
      delivery := { s.delivery with
        queues := s.delivery.queues.put x.cls (d :: s.delivery.queues.get x.cls)
        deficits := if x.cls = 0 then s.delivery.deficits
          else s.delivery.deficits.change (Fin.ofNat 3 (x.cls.val - 1)) (· + x.length)
        retries := s.delivery.retries + 1
        inDelivery := none } } := by
  simp only [abortDelivery, hd, hx, restoreDeficit_eq, changeDesc, Option.map_some]
  rfl

/-- With no DELIVER frame on the line a fall of READY voids the credits alone (R93, R121). -/
theorem readyFallen_other (h : s.trib.tx ≠ .sendingDeliver) :
    readyFallen s = { s with delivery := { s.delivery with credits := 0 } } := if_neg h

/-- A DELIVER frame on the line is cut off, and its message returned, with the credits void (R93, R95, R121). -/
theorem readyFallen_delivering {d : DescNo} {x : Descriptor} (h : s.trib.tx = .sendingDeliver)
    (hd : s.delivery.inDelivery = some d) (hx : s.pool.descs.get d = some x) :
    readyFallen s = { s with
      trib := { s.trib with tx := .idle, frame := [] }
      pool := { s.pool with descs := s.pool.descs.put d (some { x with state := .queued }) }
      delivery := { s.delivery with
        credits := 0
        queues := s.delivery.queues.put x.cls (d :: s.delivery.queues.get x.cls)
        deficits := if x.cls = 0 then s.delivery.deficits
          else s.delivery.deficits.change (Fin.ofNat 3 (x.cls.val - 1)) (· + x.length)
        retries := s.delivery.retries + 1
        inDelivery := none } } := by
  have aborted := abortDelivery_eq (s := { s with delivery := { s.delivery with credits := 0 } }) hd hx
  exact (if_pos h).trans (congrArg idleTransmitter aborted)

/-- A fall of READY with READY high (R93, R108). -/
theorem exec_readyFall_high (h : Quiet s) (high : s.trib.ready = true) : exec .readyFall s =
    .next (readyFallen { setReadyPin false s with trib := { s.trib with ready := false } }) :=
  (if_pos h.1).trans (perform_eq h (if_pos high) (by simp [setReadyPin]))

/-- A fall reported with READY low already moves the pin alone (log entry 26). -/
theorem exec_readyFall_low (h : Quiet s) (low : s.trib.ready = false) :
    exec .readyFall s = .next (setReadyPin false s) :=
  (if_pos h.1).trans (perform_eq h (if_neg (ne_true_of_eq_false low)) rfl)

/-- A rise of READY (R94, R108). -/
theorem exec_readyRise (h : Quiet s) : exec .readyRise s = .next (takeReadyRise (setReadyPin true s)) :=
  (if_pos h.1).trans (perform_eq h rfl rfl)

end

/-! ### The choice, the completion and READY, row by row -/

/-- Settles O26: where the conditions hold the choice is class queue 0's or the search's, and the head chosen starts. -/
theorem deliveryTakesAMessage : Obligations.DeliveryTakesAMessage := by
  intro s h free heads
  refine ⟨fun d rest x seq stamp hf hx hseq hstamp => ⟨fun h0 => ?_, fun l deficits h0 hl settings search => ?_⟩,
    fun hn => ?_⟩
  · have queued : s.delivery.queues.get 0 ≠ [] := by simp [h0]
    rw [exec_deliveryChoice, perform_guarded h ((choicePossible_iff s).mpr ⟨hf, 0, queued⟩) (by simp),
      chooseDelivery_first queued, startDelivery_eq h0 hx hseq hstamp]
  · have queued : s.delivery.queues.get l.succ ≠ [] := by simp [hl]
    obtain ⟨-, -, -, quanta, -⟩ := settings
    rw [exec_deliveryChoice, perform_guarded h ((choicePossible_iff s).mpr ⟨hf, l.succ, queued⟩) (by simp),
      chooseDelivery_searched h0 (fun i => (quanta i).1) search]
    exact congrArg _ (startDelivery_eq hl hx hseq hstamp)
  · rw [exec_deliveryChoice]
    refine perform_unmet h fun hc => ?_
    obtain ⟨hf, q, hq⟩ := (choicePossible_iff s).mp hc
    rcases hn with hn | hn
    · exact hn hf
    · exact hq (hn q)

/-- Settles O28: the completion raises nothing, and the row looks at the transmitter alone. -/
theorem deliveryCompletes : Obligations.DeliveryCompletes := by
  intro d x s h
  rw [exec_deliveryComplete]
  refine ⟨fun sending hd hx => ?_, fun other => perform_unmet h other⟩
  rw [perform_guarded h sending (by simp), completeDelivery_eq hd hx]

/-- Settles O29, by whether READY is high and whether a DELIVER frame is on the line. -/
theorem readyFallAbortsADelivery : Obligations.ReadyFallAbortsADelivery := by
  intro d x s h
  refine ⟨fun high sending hd hx => ?_, fun high other => ?_, exec_readyFall_low h, exec_readyRise h⟩
  · exact (exec_readyFall_high h high).trans (congrArg Host.Outcome.next (readyFallen_delivering sending hd hx))
  · exact (exec_readyFall_high h high).trans (congrArg Host.Outcome.next (readyFallen_other other))

end Sys2Proof.Machine
end

section
/-!
PROOF. The tributary link: an octet at the parser in each of its states and a framing error (R109 to R112), a CREDIT
accepted (R117), an ADD judged and admitted or refused (R113 to R115, R119), and a REJECT sent (R118, R120).
-/

namespace Sys2Proof.Machine

section

variable {b high : Byte} {s : State}

/-! ### A frame dropped -/

/-- The part after a frame is dropped, before its TRIB_ERROR is taken: the parser in HUNT, the error counted (R112). -/
def frameDropped (k : LinkError) (s : State) : State := countLinkError k (setParser .hunting s)

/-- A command of a quiet part that drops the frame in collection, having left the event unit, records TRIB_ERROR with the
kind of the error (R112). -/
theorem perform_dropFrame {k : LinkError} {f : State → State} {t : State} (h : Quiet s) (hf : f s = dropFrame k t)
    (ht : t.events = s.events) (hu : Unbound .tribError s) :
    perform f s = .next (recorded .tribError (some [k.code]) (frameDropped k t)) := by
  have events : (frameDropped k t).events = s.events := by simp [frameDropped, setParser, ht]
  refine perform_raise h hf ?_ ?_
  · rw [events, h.2.2]
  · rw [Unbound, events]
    exact hu

/-! ### The five rows of a good octet -/

/-- Each of the five rows of a good octet runs the parser on it (log entry 11). -/
theorem exec_goodOctet {row : Instr} (hr : row ∈ [.goodOctet b, .huntOctet b, .frameDropped b, .add b, .credit b])
    (s : State) : exec row s = perform (parseOctet b) s := by
  simp only [List.mem_cons, List.not_mem_nil, or_false] at hr
  rcases hr with rfl | rfl | rfl | rfl | rfl <;> rfl

/-! ### One octet in each state of the parser -/

/-- In HUNT the start octet begins a frame (R109). -/
theorem parseOctet_hunt_start (hp : s.trib.parser.state = .hunt) (hb : b = 0xA5) :
    parseOctet b s = setParser { Parser.hunting with state := .type } s := by
  simp only [parseOctet, hp]
  exact if_pos hb

/-- In HUNT any other octet is counted (R109). -/
theorem parseOctet_hunt_other (hp : s.trib.parser.state = .hunt) (hb : b ≠ 0xA5) :
    parseOctet b s = countLink (fun c => { c with huntOctets := c.huntOctets + 1 }) s := by
  simp only [parseOctet, hp]
  exact if_neg hb

/-- The type of an ADD or of a CREDIT is taken (R109). -/
theorem parseOctet_type_good (hp : s.trib.parser.state = .type) (hb : b = 0x11 ∨ b = 0x12) :
    parseOctet b s = setParser { s.trib.parser with
      state := .length, type := b, lenOctets := [], crc := crcOctet s.trib.parser.crc b } s := by
  simp only [parseOctet, hp]
  exact if_pos hb

/-- Any other type drops the frame (R109). -/
theorem parseOctet_type_error (hp : s.trib.parser.state = .type) (hb : ¬ (b = 0x11 ∨ b = 0x12)) :
    parseOctet b s = dropFrame .type s := by
  simp only [parseOctet, hp]
  exact if_neg hb

/-- The first length octet is kept (R109). -/
theorem parseOctet_length_first (hp : s.trib.parser.state = .length) (hl : s.trib.parser.lenOctets = []) :
    parseOctet b s = setParser { s.trib.parser with lenOctets := [b], crc := crcOctet s.trib.parser.crc b } s := by
  simp only [parseOctet, hp, parseLength, hl]

/-- The payload lengths accepted: 4 to 260 for an ADD, 1 for a CREDIT (R109). -/
theorem acceptsPayload_iff (type : Byte) (n : Nat) :
    acceptsPayload type n = true ↔ (type = 0x11 ∧ 4 ≤ n ∧ n ≤ 260) ∨ (type ≠ 0x11 ∧ n = 1) := by
  unfold acceptsPayload
  split <;> simp_all

/-- The second length octet gives a length the type accepts (R109). -/
theorem parseOctet_length_good (hp : s.trib.parser.state = .length) (hl : s.trib.parser.lenOctets = [high])
    (hn : acceptsPayload s.trib.parser.type (number2 high b) = true) :
    parseOctet b s = setParser { s.trib.parser with
      state := .payload, lenOctets := [high, b], length := number2 high b
      crc := crcOctet s.trib.parser.crc b, buffer := [] } s := by
  simp only [parseOctet, hp, parseLength, hl]
  exact if_pos hn

/-- The second length octet gives a length the type does not accept (R109). -/
theorem parseOctet_length_error (hp : s.trib.parser.state = .length) (hl : s.trib.parser.lenOctets = [high])
    (hn : acceptsPayload s.trib.parser.type (number2 high b) ≠ true) : parseOctet b s = dropFrame .length s := by
  simp only [parseOctet, hp, parseLength, hl]
  exact if_neg hn

/-- A payload octet is stored, and the last one leads to CHECK (R110). -/
theorem parseOctet_payload (hp : s.trib.parser.state = .payload)
    (hl : s.trib.parser.buffer.length < s.trib.parser.length) :
    parseOctet b s = setParser { s.trib.parser with
      buffer := s.trib.parser.buffer ++ [b], crc := crcOctet s.trib.parser.crc b, checkOctets := []
      state := if s.trib.parser.buffer.length + 1 = s.trib.parser.length then .check else .payload } s := by
  have whole : s.trib.parser.length ≤ (s.trib.parser.buffer ++ [b]).length ↔
      s.trib.parser.buffer.length + 1 = s.trib.parser.length := by
    rw [List.length_append, List.length_singleton]
    omega
  simp only [parseOctet, hp, parsePayload, whole]

/-- The first check octet is kept (R110). -/
theorem parseOctet_check_first (hp : s.trib.parser.state = .check) (hc : s.trib.parser.checkOctets = []) :
    parseOctet b s = setParser { s.trib.parser with checkOctets := [b] } s := by
  simp only [parseOctet, hp, parseCheck, hc]

/-- A check that does not match drops the frame (R110). -/
theorem parseOctet_check_error (hp : s.trib.parser.state = .check) (hc : s.trib.parser.checkOctets = [high])
    (hm : high.toNat * 256 + b.toNat ≠ s.trib.parser.crc.toNat) : parseOctet b s = dropFrame .check s := by
  simp only [parseOctet, hp, parseCheck, hc]
  exact if_neg (mt (checkOctets_iff high b _).mp hm)

/-- A check that matches has the frame accepted (R110). -/
theorem parseOctet_check_good (hp : s.trib.parser.state = .check) (hc : s.trib.parser.checkOctets = [high])
    (hm : high.toNat * 256 + b.toNat = s.trib.parser.crc.toNat) : parseOctet b s = acceptFrame s.trib.parser s := by
  simp only [parseOctet, hp, parseCheck, hc]
  exact if_pos ((checkOctets_iff high b _).mpr hm)

/-! ### A framing error -/

/-- A framing error in HUNT is counted (R111). -/
theorem parseFramingError_hunt (hp : s.trib.parser.state = .hunt) :
    parseFramingError s = countLink (fun c => { c with framingErrors := c.framingErrors + 1 }) s :=
  if_pos hp

/-- A framing error outside HUNT is counted and drops the frame (R111). -/
theorem parseFramingError_frame_lost (hp : s.trib.parser.state ≠ .hunt) : parseFramingError s =
    dropFrame .framing (countLink (fun c => { c with framingErrors := c.framingErrors + 1 }) s) :=
  if_neg hp

end

/-- Settles O33, by the state of the parser: an octet that is taken raises nothing, one that fails drops the frame. -/
theorem parserTakesOctets : Obligations.ParserTakesOctets := by
  refine ⟨fun b row s h hr => ?_, fun s h => ⟨fun hp => ?_, fun hp hu => ?_⟩⟩
  · intro p crc taken dropped
    simp only [exec_goodOctet hr]
    refine ⟨fun hp => ⟨fun hb => ?_, fun hb => ?_⟩, fun hp => ⟨fun hb => ?_, fun add credit hu => ?_⟩, fun hp hl => ?_,
      fun high hp hl => ⟨fun hn => ?_, fun hn hu => ?_⟩, fun hp hl => ?_, fun hp hc => ?_, fun high hp hc hm hu => ?_⟩
    · exact perform_eq h (parseOctet_hunt_start hp hb) rfl
    · exact perform_eq h (parseOctet_hunt_other hp hb) rfl
    · exact perform_eq h (parseOctet_type_good hp hb) rfl
    · exact perform_dropFrame h (parseOctet_type_error hp (not_or.mpr ⟨add, credit⟩)) rfl hu
    · exact perform_eq h (parseOctet_length_first hp hl) rfl
    · exact perform_eq h (parseOctet_length_good hp hl ((acceptsPayload_iff _ _).mpr hn)) rfl
    · exact perform_dropFrame h (parseOctet_length_error hp hl (mt (acceptsPayload_iff _ _).mp hn)) rfl hu
    · exact perform_eq h (parseOctet_payload hp hl) rfl
    · exact perform_eq h (parseOctet_check_first hp hc) rfl
    · exact perform_dropFrame h (parseOctet_check_error hp hc hm) rfl hu
  · exact perform_eq h (parseFramingError_hunt hp) rfl
  · exact perform_dropFrame h (parseFramingError_frame_lost hp) rfl hu

section

variable {high b : Byte} {s : State}

/-! ### A frame accepted -/

/-- The part with an ADD counted as accepted and the parser in HUNT (R110). -/
def addAccepted (s : State) : State := { s with trib := { s.trib with
  parser := .hunting, counters := { s.trib.counters with addAccepted := s.trib.counters.addAccepted + 1 } } }

/-- The part with a CREDIT counted as accepted and the parser in HUNT (R110). -/
def creditAccepted (s : State) : State := { s with trib := { s.trib with
  parser := .hunting, counters := { s.trib.counters with creditAccepted := s.trib.counters.creditAccepted + 1 } } }

/-- An ADD whose check matches is counted and judged (R110). -/
theorem parseOctet_add (hp : s.trib.parser.state = .check) (ht : s.trib.parser.type = 0x11)
    (hc : s.trib.parser.checkOctets = [high]) (hm : high.toNat * 256 + b.toNat = s.trib.parser.crc.toNat) :
    parseOctet b s = judgeAdd s.trib.parser.buffer (addAccepted s) :=
  (parseOctet_check_good hp hc hm).trans (if_pos ht)

/-- A CREDIT whose check matches is counted and judged (R110). -/
theorem parseOctet_credit (hp : s.trib.parser.state = .check) (ht : s.trib.parser.type = 0x12)
    (hc : s.trib.parser.checkOctets = [high]) (hm : high.toNat * 256 + b.toNat = s.trib.parser.crc.toNat) :
    parseOctet b s = judgeCredit s.trib.parser.buffer (creditAccepted s) := by
  have notAdd : s.trib.parser.type ≠ Config.typeAdd := by
    rw [ht]
    decide
  exact (parseOctet_check_good hp hc hm).trans (if_neg notAdd)

/-! ### CREDIT -/

/-- A count of 1 to 32 goes to the delivery unit (R117). -/
theorem judgeCredit_good {n : Byte} (h : 1 ≤ n.toNat ∧ n.toNat ≤ 32) : judgeCredit [n] s = acceptCredits n.toNat s :=
  if_pos h

/-- Any other count drops the frame (R117). -/
theorem judgeCredit_error {n : Byte} (h : ¬ (1 ≤ n.toNat ∧ n.toNat ≤ 32)) : judgeCredit [n] s = dropFrame .value s :=
  if_neg h

end

/-- Settles O34, by whether the count is 1 to 32; neither READY nor the transmitter is looked at. -/
theorem creditsAreAccepted : Obligations.CreditsAreAccepted := by
  intro n high b s h hp ht hn hc hm
  have judged : parseOctet b s = judgeCredit [n] (creditAccepted s) := hn ▸ parseOctet_credit hp ht hc hm
  refine ⟨fun low top => ?_, fun outside hu => ?_⟩
  · exact perform_eq h (judged.trans (judgeCredit_good ⟨low, top⟩)) rfl
  · exact perform_dropFrame h (judged.trans (judgeCredit_error (by omega))) rfl hu

section

variable {tag circuit cls mark : Byte} {body : List Byte} {s : State}

/-! ### An ADD refused -/

/-- A refusal in the terms of the statements (R115, R119). -/
theorem refuseAdd_eq (tag circuit : Byte) (reason : RejectReason) (s : State) :
    refuseAdd tag circuit reason s = addRefused tag circuit reason.code reason s := by
  by_cases hc : circuit.toNat < 96
  · have named : circuitOf circuit = some ⟨circuit.toNat, hc⟩ := circuitOf_some circuit _ rfl
    simp only [refuseAdd, offerReject, countRefusedAdd, addRefused, named, hc, if_true]
    split <;> simp_all [raise, count, counted, changeRecord, countLink]
  · have unnamed : circuitOf circuit = none := circuitOf_none circuit (by omega)
    simp only [refuseAdd, offerReject, countRefusedAdd, addRefused, unnamed, hc, if_false]
    split <;> simp_all [raise, countLink]

/-! ### The values of an ADD -/

/-- A class above 3 or a mark above 1 drops the frame (R113). -/
theorem judgeAdd_value (h : ¬ (cls.toNat ≤ 3 ∧ mark.toNat ≤ 1)) :
    judgeAdd (tag :: circuit :: cls :: mark :: body) s = dropFrame .value s := by
  unfold judgeAdd
  dsimp only
  split
  · rename_i q m hq hm
    have hq := (classOf_iff cls q).mp hq
    have hm := ((flagOf_iff mark m).mp hm).1
    omega
  · rfl

/-- Good values and a body of 1 to 248 octets for a circuit the part has lead to admission (R113). -/
theorem judgeAdd_admits {c : Circuit} (hc : c.val = circuit.toNat) (h : cls.toNat ≤ 3 ∧ mark.toNat ≤ 1)
    (hl : 1 ≤ body.length ∧ body.length ≤ 248) : judgeAdd (tag :: circuit :: cls :: mark :: body) s =
      admitAdd tag c (Fin.ofNat 4 cls.toNat) (mark == 1) body s := by
  obtain ⟨q, m⟩ := h
  have whole : ¬ (body.length = 0 ∨ 248 < body.length) := by omega
  simp only [judgeAdd, at0, List.getD_cons_zero, List.getD_cons_succ, List.drop_succ_cons, List.drop_zero,
    classOf_val cls q, flagOf_val mark m, circuitOf_some circuit c hc, if_neg whole]

/-- Good values, but a body of the wrong length or a circuit the part does not have: refused with BAD_LENGTH (R113). -/
theorem judgeAdd_badLength (h : cls.toNat ≤ 3 ∧ mark.toNat ≤ 1)
    (hl : ¬ (1 ≤ body.length ∧ body.length ≤ 248) ∨ 95 < circuit.toNat) :
    judgeAdd (tag :: circuit :: cls :: mark :: body) s = addRefused tag circuit 5 .badLength s := by
  obtain ⟨q, m⟩ := h
  simp only [judgeAdd, at0, List.getD_cons_zero, List.getD_cons_succ, List.drop_succ_cons, List.drop_zero,
    classOf_val cls q, flagOf_val mark m]
  split
  · rename_i c hc
    have hc := (circuitOf_iff circuit c).mp hc
    have : c.val ≤ 95 := Nat.le_of_lt_succ c.isLt
    have broken : body.length = 0 ∨ 248 < body.length := by omega
    rw [if_pos broken]
    exact refuseAdd_eq ..
  · exact refuseAdd_eq ..

/-! ### Admission -/

section

variable {c : Circuit} {q : Class} {m : Bool}

/-- The first test: circuit 0, or a circuit that is not ACTIVE (R114). -/
theorem admitAdd_stopped (h : c = 0 ∨ (s.circuits.get c).active = false) :
    admitAdd tag c q m body s = addRefused tag (circuitOctet c) 1 .stopped s :=
  (if_pos h).trans (refuseAdd_eq ..)

/-- Past the first test. -/
theorem not_stopped (h0 : c ≠ 0) (active : (s.circuits.get c).active = true) :
    ¬ (c = 0 ∨ (s.circuits.get c).active = false) := by
  simp [h0, active]

/-- The second test: the circuit takes no ADD (R114). -/
theorem admitAdd_notAdd (h0 : c ≠ 0) (active : (s.circuits.get c).active = true)
    (enable : (s.circuits.get c).addEnable = false) :
    admitAdd tag c q m body s = addRefused tag (circuitOctet c) 2 .notAdd s :=
  (if_neg (not_stopped h0 active)).trans ((if_pos enable).trans (refuseAdd_eq ..))

/-- The third test: the add queue is full (R114). -/
theorem admitAdd_queueFull (h0 : c ≠ 0) (active : (s.circuits.get c).active = true)
    (enable : (s.circuits.get c).addEnable = true)
    (full : (s.circuits.get c).addDepth ≤ (s.addQueues.get c).length) :
    admitAdd tag c q m body s = addRefused tag (circuitOctet c) 3 .queueFull s := by
  have noRoom : hasRoom s c = false := Bool.eq_false_iff.mpr (mt (hasRoom_iff h0).mp (by omega))
  refine (if_neg (not_stopped h0 active)).trans ((if_neg ?_).trans ((if_pos noRoom).trans (refuseAdd_eq ..)))
  exact ne_false_of_eq_true enable

/-- Past the tests of the circuit and its add queue, an ADD the pool refuses is refused, after what the refusal of the
storage raises (R76, R114). -/
theorem admitAdd_noSpace {f : AllocFailure} (h0 : c ≠ 0) (active : (s.circuits.get c).active = true)
    (enable : (s.circuits.get c).addEnable = true)
    (room : (s.addQueues.get c).length < (s.circuits.get c).addDepth)
    (refused : enqueue ⟨.addQueued, c, q, m, none, body.length, .tributary⟩ body s = .error f) :
    admitAdd tag c q m body s =
      addRefused tag (circuitOctet c) 4 .noSpace (raiseRefusal f c body.length s) := by
  simp only [admitAdd, if_neg (not_stopped h0 active), enable, (hasRoom_iff h0).mpr room, refused, refuseAdd_eq,
    Bool.true_eq_false, if_false]
  rfl

/-- Past every test the message is in its add queue (R114). -/
theorem admitAdd_granted {d : DescNo} {t : State} (h0 : c ≠ 0) (active : (s.circuits.get c).active = true)
    (enable : (s.circuits.get c).addEnable = true)
    (room : (s.addQueues.get c).length < (s.circuits.get c).addDepth)
    (granted : enqueue ⟨.addQueued, c, q, m, none, body.length, .tributary⟩ body s = .ok (d, t)) :
    admitAdd tag c q m body s = t := by
  simp only [admitAdd, if_neg (not_stopped h0 active), enable, (hasRoom_iff h0).mpr room, granted,
    Bool.true_eq_false, if_false]

end

end

/-- Settles O35: the values, then the circuit, its add queue and the pool, the first test that fails deciding. -/
theorem addsAreJudged : Obligations.AddsAreJudged := by
  intro tag circuit cls mark high b body s h hp ht hn hc hm
  have judged : parseOctet b s = judgeAdd (tag :: circuit :: cls :: mark :: body) (addAccepted s) :=
    hn ▸ parseOctet_add hp ht hc hm
  have ends {t : State} (hj : judgeAdd (tag :: circuit :: cls :: mark :: body) (addAccepted s) = t) :
      exec (.add b) s = .next (takeOccurrences t) :=
    hj ▸ judged ▸ perform_quiet (parseOctet b) h
  refine ⟨fun bad hu => ?_, fun good broken => ends (judgeAdd_badLength good broken),
    fun c hcirc good whole => ?_⟩
  · exact perform_dropFrame h (judged.trans (judgeAdd_value bad)) rfl hu
  · have admits := judgeAdd_admits (tag := tag) (s := addAccepted s) hcirc good whole
    rw [← circuitOctet_val circuit c hcirc] at ends admits ⊢
    refine ⟨fun stopped => ?_, fun h0 active enable => ?_, fun h0 active enable full => ?_,
      fun h0 active enable room => ⟨fun f refused => ?_, fun d t granted => ?_⟩⟩
    · exact ends (admits.trans (admitAdd_stopped stopped))
    · exact ends (admits.trans (admitAdd_notAdd h0 active enable))
    · exact ends (admits.trans (admitAdd_queueFull h0 active enable full))
    · exact ends (admits.trans (admitAdd_noSpace h0 active enable room (enqueue_refused (allocate_refused refused))))
    · exact ends (admits.trans (admitAdd_granted h0 active enable room granted))

section

variable {s : State}

/-! ### A REJECT sent -/

/-- An idle transmitter takes the head reject entry and starts its frame (R118 to R120, R205). -/
theorem startReject_eq {e : RejectEntry} {rest : List RejectEntry} (idle : s.trib.tx = .idle)
    (waits : s.trib.rejects = e :: rest) : startReject s = { s with trib := { s.trib with
      rejects := rest, tx := .sendingReject, frame := frameOctets 0x02 [e.tag, e.circuit, e.reason.code] } } := by
  simp only [startReject, idle, waits, tFrame_eq]

/-- With a frame on the line or no reject entry waiting no REJECT starts (R118; log entry 4). -/
theorem startReject_unmet (h : s.trib.tx ≠ .idle ∨ s.trib.rejects = []) : startReject s = s := by
  unfold startReject
  split
  · rename_i idle waits
    rcases h with busy | empty
    · exact absurd idle busy
    · cases empty.symm.trans waits
  · rfl

/-- REJECT_SENT as its row takes it (R120). -/
theorem exec_rejectSent (s : State) : exec .rejectSent s = perform (fun t => if t.trib.tx = .sendingReject then
    idleTransmitter (countLink (fun c => { c with rejectsSent := c.rejectsSent + 1 }) t) else t) s := rfl

end

/-- Settles O36: each row looks at the transmitter, REJECT_START at the reject queue too, and raises nothing. -/
theorem rejectsAreSent : Obligations.RejectsAreSent := by
  intro e rest s h
  refine ⟨fun idle waits => ?_, fun unmet => ?_, fun sending => ?_, fun other => ?_⟩
  · exact perform_eq h (startReject_eq idle waits) rfl
  · exact perform_eq h (startReject_unmet unmet) rfl
  · exact (exec_rejectSent s).trans (perform_guarded h sending rfl)
  · exact (exec_rejectSent s).trans (perform_unmet h other)

end Sys2Proof.Machine
end

section
/-!
PROOF. The insertion side: what an emitter supplies in each of its states, and what its last check octet brings about
(R127 to R130, R135, R157, R202).
-/

namespace Sys2Proof.Machine

section

variable {c : Circuit} {d : DescNo} {x : Descriptor} {s : State}

/-! ### An idle emitter -/

/-- With an empty add queue an idle emitter supplies the idle octet (R127). -/
theorem emitterSupply_empty (idle : (s.emitters.get c).state = .idle) (empty : s.addQueues.get c = []) :
    emitterSupply c s = (0xC3, s) := by
  simp only [emitterSupply, idle, empty]

/-- With a message waiting an idle emitter takes the head and supplies the opener (R127). -/
theorem emitterSupply_opens {rest : List DescNo} (idle : (s.emitters.get c).state = .idle)
    (waits : s.addQueues.get c = d :: rest) : emitterSupply c s = (0x5A, emitterTake c d rest s) := by
  simp only [emitterSupply, idle, waits]

/-- The part with the head `d` of an add queue in emission: its descriptor EMITTING under the circuit's emit sequence,
which has advanced (R127, R130). -/
def takenForEmission (c : Circuit) (d : DescNo) (rest : List DescNo) (x : Descriptor) (s : State) : State :=
  { s with
    addQueues := s.addQueues.put c rest
    circuits := s.circuits.change c fun r => { r with emitSeq := (s.circuits.get c).emitSeq + 1 }
    pool := { s.pool with
      descs := s.pool.descs.put d (some { x with state := .emitting, seq := some (s.circuits.get c).emitSeq }) }
    emitters := s.emitters.put c ⟨.head, some d, 0, 0, 0, 0xFFFF⟩ }

/-- The take of the head of an add queue; on circuit 0 it makes an attempt due if an offer is held (R127, R130, R135). -/
theorem emitterTake_eq (rest : List DescNo) (hx : s.pool.descs.get d = some x) : emitterTake c d rest s =
    if c = 0 ∧ (s.arbiter.response.isSome = true ∨ s.arbiter.notice.isSome = true) then
      oweAttempt (takenForEmission c d rest x s)
    else takenForEmission c d rest x s := by
  have taken : setEmitter c { Emitter.idle with state := .head, desc := some d }
      (changeRecord c (fun r => { r with emitSeq := (s.circuits.get c).emitSeq + 1 })
        (changeDesc d (fun y => { y with state := .emitting, seq := some (s.circuits.get c).emitSeq })
          (setAddQueue c rest s))) = takenForEmission c d rest x s := by
    have kept : (setAddQueue c rest s).pool.descs.get d = some x := hx
    simp only [changeDesc, kept]
    rfl
  have offers : (takenForEmission c d rest x s).arbiter = s.arbiter := rfl
  simp only [emitterTake, taken, informRequesters, offers, Bool.or_eq_true]
  by_cases management : c = 0
  · simp only [management, true_and, if_true]
  · simp only [management, false_and, if_false]

/-! ### An emitter with a message -/

/-- An emitter that is not idle supplies the next octet of its message (R128). -/
theorem emitterSupply_message (hd : (s.emitters.get c).desc = some d) (hx : s.pool.descs.get d = some x)
    (busy : (s.emitters.get c).state ≠ .idle) : emitterSupply c s = emitNext c (s.emitters.get c) d x s := by
  unfold emitterSupply
  cases state : (s.emitters.get c).state with
  | idle => exact absurd state busy
  | head | body | check => simp only [hd, hx, Option.bind_some, Option.map_some]

/-- The second header octet in the terms of the statements (R202). -/
theorem headerOctet_eq (cls : Class) (seq : BitVec 4) (mark : Bool) :
    headerOctet cls seq mark = BitVec.ofNat 8 (64 * cls.val + 4 * seq.toNat + if mark then 2 else 0) := by
  rw [headerOctet, octet, Nat.mul_comm cls.val, Nat.mul_comm seq.toNat]

section

variable {e : Emitter}

/-- The first header octet is the length (R128, R202). -/
theorem emitNext_length (h : e.state = .head) (first : e.headerCount = 0) :
    emitNext c e d x s = (BitVec.ofNat 8 x.length,
      setEmitter c { e with headerCount := 1, crc := crcOctet e.crc (BitVec.ofNat 8 x.length) } s) := by
  simp only [emitNext, h]
  exact if_pos first

/-- The second header octet holds class, sequence and mark, and the body follows (R128, R202). -/
theorem emitNext_second {seq : BitVec 4} (hs : x.seq = some seq) (h : e.state = .head) (second : e.headerCount = 1) :
    emitNext c e d x s = (headerOctet x.cls seq x.mark,
      setEmitter c { e with state := .body, bodyCount := 0, crc := crcOctet e.crc (headerOctet x.cls seq x.mark) } s) := by
  have notFirst : e.headerCount ≠ 0 := by omega
  simp only [emitNext, h, hs, if_neg notFirst, Option.getD_some]

/-- A body octet; after the last one the check follows (R128). -/
theorem emitNext_body (h : e.state = .body) (more : e.bodyCount < x.length) :
    emitNext c e d x s = (bodyOctet s.pool.store x.chain e.bodyCount, setEmitter c { e with
      bodyCount := e.bodyCount + 1, crc := crcOctet e.crc (bodyOctet s.pool.store x.chain e.bodyCount), checkCount := 0
      state := if e.bodyCount + 1 = x.length then .check else .body } s) := by
  have whole : x.length ≤ e.bodyCount + 1 ↔ e.bodyCount + 1 = x.length := by omega
  simp only [emitNext, h, whole]

/-- The first check octet is the high one (R128). -/
theorem emitNext_check_high (h : e.state = .check) (first : e.checkCount = 0) :
    emitNext c e d x s = (BitVec.ofNat 8 (e.crc.toNat / 256), setEmitter c { e with checkCount := 1 } s) := by
  simp only [emitNext, h]
  exact if_pos first

/-- The second check octet is the low one, and the emission is complete (R128, R129). -/
theorem emitNext_check_low (h : e.state = .check) (second : e.checkCount = 1) :
    emitNext c e d x s = (BitVec.ofNat 8 e.crc.toNat, emissionComplete c d x s) := by
  have notFirst : e.checkCount ≠ 0 := by omega
  simp only [emitNext, h]
  exact if_neg notFirst

end

/-! ### An emission complete -/

/-- The noted response to a FULL reset brings the reset into effect (R157). -/
theorem emissionComplete_reset
    (noted : x.origin = .response ∧ s.engine.state = .resetting ∧ s.engine.noted = some d) :
    emissionComplete c d x s = fullReset s :=
  if_pos noted

/-- Any other message is counted and freed, and its emitter is idle again (R129). -/
theorem emissionComplete_counted (hx : s.pool.descs.get d = some x)
    (other : ¬ (x.origin = .response ∧ s.engine.state = .resetting ∧ s.engine.noted = some d)) :
    emissionComplete c d x s = { released d x (counted c (fun k => { k with
        emitted := k.emitted + 1, octetsEmitted := k.octetsEmitted + BitVec.ofNat 32 x.length }) s) with
      emitters := s.emitters.put c ⟨.idle, none, 0, 0, 0, 0xFFFF⟩ } := by
  have freed (f : CircuitCounters → CircuitCounters) : free d (count c f s) = released d x (counted c f s) :=
    free_eq_released hx
  have emitters (f : CircuitCounters → CircuitCounters) : (released d x (counted c f s)).emitters = s.emitters := by
    simp only [released, informed]
    split <;> rfl
  simp only [emissionComplete, if_neg other, freed, setEmitter, emitters]
  rfl

end

/-- Settles O37, by the state of the emitter: IDLE by its add queue, the others by the count of octets supplied. -/
theorem emittersSupplyMessages : Obligations.EmittersSupplyMessages := by
  refine ⟨fun c s idle => ⟨fun empty => emitterSupply_empty idle empty, fun d rest x waits hx => ?_⟩,
    fun c d x seq s hd hx hs => ?_⟩
  · intro seq
    rw [emitterSupply_opens idle waits, emitterTake_eq rest hx]
    split <;> rfl
  · intro e next length second octet
    have supplies (busy : e.state ≠ .idle) : emitterSupply c s = emitNext c e d x s := emitterSupply_message hd hx busy
    have header : headerOctet x.cls seq x.mark = second := headerOctet_eq ..
    refine ⟨fun h first => ?_, fun h last => ?_, fun h more => ?_, fun h first => ?_,
      fun h last => ⟨fun noted => ?_, fun other => ?_⟩⟩
    all_goals rw [supplies (by rw [h]; decide)]
    · exact emitNext_length h first
    · exact header ▸ emitNext_second hs h last
    · exact emitNext_body h more
    · exact emitNext_check_high h first
    · rw [emitNext_check_low h last, emissionComplete_reset noted]
    · rw [emitNext_check_low h last, emissionComplete_counted hx other]

end Sys2Proof.Machine
end

section
/-!
PROOF. Notices (R135, R184 to R187; log entry 22): the kind the selection names, the offer that follows it, and the body
of a notice.
-/

namespace Sys2Proof.Machine

/-! ### The selection -/

/-- With four entries on the stack the selection names none (R185). -/
theorem selectedKind_full {e : Events} (full : 4 ≤ e.stack.length) : selectedKind e = none :=
  if_pos full

/-- The kinds stand in the order of their numbers. -/
theorem EventKind.all_ascending : EventKind.all.Pairwise fun a b => a.num < b.num := by decide

/-- With room on the stack the selection names the candidate that it prefers to every other (R185). -/
theorem selectedKind_iff {e : Events} (room : e.stack.length < 4) (k : EventKind) :
    selectedKind e = some k ↔ isCandidate e k = true ∧ ∀ j, isCandidate e j = true → Better e k j := by
  have notFull : ¬ Config.stackDepth ≤ e.stack.length := Nat.not_le.mpr room
  rw [selectedKind, if_neg notFull, higherCandidate_fold e _ EventKind.all_ascending none (by simp)]
  simp only [reduceCtorEq, false_or, EventKind.mem_all, true_and]

section

variable {s : State} {held : NoticeOffer} {k : EventKind}

/-! ### The offer that follows the selection -/

/-- An offer as it would be formed now stands (R186). -/
theorem keepOrReplace_same {formed : NoticeOffer} (same : { held with tried := false } = formed) :
    keepOrReplace held formed s = s :=
  if_pos same

/-- An offer that would be formed otherwise now is replaced (R186; log entry 22). -/
theorem keepOrReplace_changed {formed : NoticeOffer} (changed : { held with tried := false } ≠ formed) :
    keepOrReplace held formed s = makeOffer formed s :=
  if_neg changed

/-- With no offer held and no kind selected nothing is done (R186). -/
theorem selectNotice_idle (h : s.arbiter.notice = none) (unselected : selectedKind s.events = none) :
    selectNotice s = s := by
  simp only [selectNotice, h, unselected]

/-- With no offer held one is made for the kind selected (R186). -/
theorem selectNotice_makes (h : s.arbiter.notice = none) (selected : selectedKind s.events = some k) :
    selectNotice s = makeOffer (newOffer s k) s := by
  simp only [selectNotice, h, selected]

/-- A new offer is withdrawn when no kind is selected (R186). -/
theorem selectNotice_withdraws (h : s.arbiter.notice = some held) (new : held.resend = false)
    (unselected : selectedKind s.events = none) : selectNotice s = withdrawOffer s := by
  simp only [selectNotice, h, new, unselected, Bool.false_eq_true, if_false]

/-- A new offer is judged against the one the kind selected would have now (R186). -/
theorem selectNotice_judges_new (h : s.arbiter.notice = some held) (new : held.resend = false)
    (selected : selectedKind s.events = some k) : selectNotice s = keepOrReplace held (newOffer s k) s := by
  simp only [selectNotice, h, new, selected, Bool.false_eq_true, if_false]

/-- A re-send offer is judged against the one the top entry would have now, whatever is selected (R186). -/
theorem selectNotice_judges_resend {top : StackEntry} {below : List StackEntry} (h : s.arbiter.notice = some held)
    (resend : held.resend = true) (hs : s.events.stack = top :: below) :
    selectNotice s = keepOrReplace held (resendOffer s top) s := by
  simp only [selectNotice, h, resend, hs, if_true]

/-! ### The body of a notice -/

/-- The fields of a notice body, its detail last (R187, R203). -/
theorem noticeBody_eq (s : State) (k : EventKind) (sequence : Byte) (level : Fin 8) :
    noticeBody s k sequence level =
      [s.nodeAddress.zeroExtend 8, 0x81, sequence, octet k.num.val, octet level.val,
        (s.events.records.get k.num).repeatCount, octet ((s.events.records.get k.num).lastTick.toNat / 256),
        octet (s.events.records.get k.num).lastTick.toNat] ++ noticeDetail k (s.events.records.get k.num) := rfl

/-- The detail of a notice: an absent one is no octets, but for CIRCUIT_FAULT an empty list with the flag clear (R187). -/
theorem noticeDetail_eq (k : EventKind) (r : EventRecord) : noticeDetail k r =
    match r.detail with
    | some octets => octets
    | none => if k = .circuitFault then [0, 0] else [] := by
  unfold noticeDetail
  cases r.detail <;> rfl

end

/-- Settles O50: the selection by its candidates, the offer by what is held and selected, and the body by its detail. -/
theorem noticesFollowTheSelection : Obligations.NoticesFollowTheSelection := by
  refine ⟨fun e k => ?_, fun s => ?_, fun k sequence level s => ?_⟩
  · intro level candidate
    refine ⟨selectedKind_full, fun room => ?_⟩
    rw [selectedKind_iff room]
    simp only [isCandidate_iff]
    rfl
  · intro offered fresh again
    refine ⟨fun h => ⟨selectNotice_idle h, fun k => selectNotice_makes h⟩,
      fun held h new => ⟨selectNotice_withdraws h new, fun k selected => ?_⟩, fun held top below h resend hs => ?_⟩
    · rw [selectNotice_judges_new h new selected]
      exact ⟨keepOrReplace_same, keepOrReplace_changed⟩
    · rw [selectNotice_judges_resend h resend hs]
      exact ⟨keepOrReplace_same, keepOrReplace_changed⟩
  · intro r
    rw [noticeBody_eq, noticeDetail_eq]
    rfl

end Sys2Proof.Machine
end

section
/-!
PROOF. OWNER_LOST and NOTICE_TIMEOUT (R151, R189, R190; log entries 4 and 6): the lease at its end, the top notice at its
timeout, and the two rows owed and not owed.
-/

namespace Sys2Proof.Machine

section

variable {s : State}

/-! ### The end of a lease -/

/-- A lease at its end leaves the record UNOWNED and raises OWNER_LOST with the old owner's id (R151). -/
theorem leaseEnd_owned {id : BitVec 4} {epoch : Word} {countdown : Option Nat}
    (ho : s.engine.owner = .owned id epoch countdown) :
    leaseEnd s = raise .ownerLost (some [id.zeroExtend 8]) (setOwner .unowned s) := by
  simp only [leaseEnd, ho]

/-! ### The timeout of the top notice -/

/-- The event unit with the top entry abandoned and the timer of the entry below restarted (R190). -/
def abandonedTop (e : Events) (below : List StackEntry) : Events :=
  { e with
    abandoned := e.abandoned + 1
    stack := match below with
      | [] => []
      | next :: more => { next with timer := e.timeout } :: more }

theorem popStack_abandoned {e : Events} {top : StackEntry} {below : List StackEntry} (hs : e.stack = top :: below) :
    { popStack e with abandoned := e.abandoned + 1 } = abandonedTop e below := by
  cases below <;> simp only [popStack, restartTop, hs, List.tail_cons, abandonedTop]

section

variable {top : StackEntry} {below : List StackEntry} (hs : s.events.stack = top :: below)

include hs

/-- With sends left the top notice is offered again (R190). -/
theorem noticeExpired_resends (h : top.sends < 1 + s.events.retries) :
    noticeExpired s = makeOffer (resendOffer s top) s := by
  simp only [noticeExpired, hs, h, if_true]

/-- With its sends used up the top notice is abandoned (R190). -/
theorem noticeExpired_abandons (h : 1 + s.events.retries ≤ top.sends) :
    noticeExpired s = selectNotice { s with events := abandonedTop s.events below } := by
  have used : ¬ top.sends < 1 + s.events.retries := Nat.not_lt.mpr h
  simp only [noticeExpired, hs, used, if_false, popStack_abandoned hs]
  rfl

/-- An expired top entry with no re-send held is taken as expired (R189, R190). -/
theorem topExpired_eq_true (ht : top.timer = 0) (hh : resendHeld s = false) : topExpired s = true := by
  simp [topExpired, hs, ht, hh]

end

/-! ### The rows -/

/-- A row of a step owed that raises nothing, with no age check under way. -/
theorem performOwed_silent {t : State} {f : State → State} {o : Owed} (h : Owing o s)
    (ho : o.attempts = 0 ∧ o.partTwo = false) (hf : f s = t) (ht : t.events.inbox = []) (ha : t.owed.ages = false) :
    performOwed f s = .next t := by
  obtain ⟨hr, rfl, hi⟩ := h
  rw [performOwed_eq f hr ho.1 ho.2 hi, hf, takeOccurrences_empty ht, endAgeCheck_none ha]

/-- NOTICE_TIMEOUT owed, with the entry whose timer expired still on top (R190). -/
theorem noticeTimeoutOwed_expired {top : StackEntry} {below : List StackEntry}
    (h : Owing { Owed.none with noticeTimeout := true } s) (hs : s.events.stack = top :: below) (ht : top.timer = 0)
    (hh : resendHeld s = false) : noticeTimeoutOwed s = noticeExpired { s with owed := .none } := by
  obtain ⟨-, ho, -⟩ := h
  have expired : topExpired { s with owed := .none } = true := topExpired_eq_true hs ht hh
  simp only [noticeTimeoutOwed, ho, if_true]
  exact if_pos expired

end

/-- Settles O32: OWNER_LOST by the lease at its end, NOTICE_TIMEOUT by the sends left, and both rows not owed. -/
theorem owedTimersAreTaken : Obligations.OwedTimersAreTaken := by
  intro s
  refine ⟨fun id epoch countdown h ho hu => ?_, fun top below h hs ht hh => ⟨fun left => ?_, fun used => ?_⟩,
    fun h => ⟨?_, ?_⟩⟩
  · have ended : ownerLostOwed s = raisedAll [(.ownerLost, some [id.zeroExtend 8])]
        (setOwner .unowned { s with owed := .none }) := by
      rw [ownerLostOwed, h.2.1, if_pos rfl]
      exact leaseEnd_owned (s := { s with owed := .none }) ho
    exact performOwed_raisedAll h ⟨rfl, rfl⟩ ended rfl rfl (by simpa using hu)
  · have sent := (noticeTimeoutOwed_expired h hs ht hh).trans (noticeExpired_resends hs left)
    exact performOwed_silent h ⟨rfl, rfl⟩ sent h.2.2 rfl
  · have ended := (noticeTimeoutOwed_expired h hs ht hh).trans (noticeExpired_abandons hs used)
    exact performOwed_silent h ⟨rfl, rfl⟩ ended (by simpa using h.2.2) (by simp [Owed.none])
  · exact performOwed_quiet h (ownerLostOwed_off (by rw [h.2.1]; rfl))
  · exact performOwed_quiet h (noticeTimeoutOwed_off (by rw [h.2.1]; rfl))

end Sys2Proof.Machine
end

section
/-!
PROOF. The codes (R147, R160, R170, R180, R201, R203, R204, R206): the request kinds with their lengths, the kinds that
modify, the numberings of the other named values, and a check code.
-/

namespace Sys2Proof.Machine

/-! ### Request kinds -/

/-- A kind named by an octet has that octet as its code (R206). -/
theorem RequestKind.code_of_ofCode {b : Byte} {k : RequestKind} (h : RequestKind.ofCode b = some k) : k.code = b := by
  simpa using List.find?_some h

theorem RequestKind.writePlan_allowsLength (n : Nat) :
    RequestKind.writePlan.allowsLength n = true ↔ 3 ≤ n ∧ n ≤ 67 ∧ n % 2 = 1 := by
  simp [RequestKind.allowsLength, and_assoc]

theorem RequestKind.ackEvents_allowsLength (n : Nat) :
    RequestKind.ackEvents.allowsLength n = true ↔ 1 ≤ n ∧ n ≤ 16 := by
  simp [RequestKind.allowsLength]

theorem RequestKind.loadCanned_allowsLength (n : Nat) :
    RequestKind.loadCanned.allowsLength n = true ↔ 4 ≤ n ∧ n ≤ 35 := by
  simp [RequestKind.allowsLength]

/-- The kinds that read, CLAIM, and READ_COUNTERS without clearing modify nothing; every other request does (R147,
R170). -/
theorem RequestKind.modifies_iff (k : RequestKind) (params : List Byte) : k.modifies params = true ↔
    k ∉ [.claim, .identify, .readPlan, .readCircuit, .readPool, .readSched, .readEvents, .readFaults, .readBindings] ∧
      (k = .readCounters → params.getD 1 0 ≠ 0) := by
  cases k with
  | readCounters =>
    have clears : RequestKind.readCounters.modifies params = true ↔ params.getD 1 0 ≠ 0 := bne_iff_ne
    rw [clears]
    simp
  | _ => simp [RequestKind.modifies]

/-! ### The check code -/

/-- The check code of the nine octets 31h to 39h (R201). -/
theorem crcOf_digits : crcOf [0x31, 0x32, 0x33, 0x34, 0x35, 0x36, 0x37, 0x38, 0x39] = 0x29B1 := by
  decide +kernel

/-- Settles O40: the rows of the table of request kinds one by one, the codes by evaluating each numbering. -/
theorem codesAreAsGiven : Obligations.CodesAreAsGiven := by
  refine ⟨?_, RequestKind.modifies_iff, ?_, crcOf_digits⟩
  · intro fixed
    refine ⟨fun row listed => ?_, ⟨rfl, RequestKind.writePlan_allowsLength⟩, ⟨rfl, RequestKind.ackEvents_allowsLength⟩,
      ⟨rfl, RequestKind.loadCanned_allowsLength⟩, fun b named => ?_⟩
    · simp only [fixed, List.mem_cons, List.not_mem_nil, or_false] at listed
      rcases listed with rfl | rfl | rfl | rfl | rfl | rfl | rfl | rfl | rfl | rfl | rfl | rfl | rfl | rfl | rfl | rfl |
        rfl | rfl | rfl | rfl | rfl | rfl | rfl | rfl | rfl | rfl <;> exact ⟨rfl, fun _ => beq_iff_eq⟩
    · obtain ⟨k, hk⟩ := Option.ne_none_iff_exists'.mp named
      rw [← RequestKind.code_of_ofCode hk]
      cases k <;> decide
  · intro numbered
    exact ⟨rfl, ⟨rfl, rfl, rfl⟩, rfl, rfl, rfl, ⟨rfl, fun _ => rfl⟩, rfl, rfl, rfl, rfl, rfl, rfl, rfl, rfl⟩

end Sys2Proof.Machine
end

section
/-!
PROOF. REQUEST_TAKE (R143 to R147, R151): what the take leaves, then the tests in their order, each with the outcome it
decides.
-/

namespace Sys2Proof.Machine

/-! ### The take -/

/-- A free and a change of the engine touch fields apart (R78). -/
theorem released_engine (d : DescNo) (x : Descriptor) (e : Engine) (s : State) :
    released d x { s with engine := e } = { released d x s with engine := e } := by
  simp only [released, informed]
  split <;> rfl

/-- `s` with the request of descriptor `d` copied into the engine and freed, `rest` still waiting (R143). -/
def requestCopied (d : DescNo) (rest : List DescNo) (x : Descriptor) (s : State) : State :=
  { released d x s with engine := { s.engine with queue := rest, state := .executing, inHand := some (bodyOf s x) } }

/-- What the copy leaves of the arbiter, the event unit and the node address (R78, R143). -/
theorem requestCopied_frame (d : DescNo) (rest : List DescNo) (x : Descriptor) (s : State) :
    (requestCopied d rest x s).arbiter = s.arbiter ∧ (requestCopied d rest x s).events = s.events ∧
    (requestCopied d rest x s).nodeAddress = s.nodeAddress := by
  simp only [requestCopied, released, ← informRequesters_eq, informRequesters_frame, and_self]

/-- A response offered when a request has been copied, with the engine in HOLDING and counted by `f` (R135, R154). -/
theorem requestCopied_offered (d : DescNo) (rest : List DescNo) (x : Descriptor) (s : State) (body : List Byte)
    (f : EngineCounters → EngineCounters) :
    setEngine .holding (offerResponse body (countEngine f (requestCopied d rest x s))) =
      { released d x s with
        engine := { s.engine with
          queue := rest, state := .holding, inHand := none, counters := f s.engine.counters }
        arbiter := { s.arbiter with response := some ⟨body, false⟩ }
        owed := { (released d x s).owed with attempts := (released d x s).owed.attempts + 1 } } := by
  have arbiter : (released d x s).arbiter = s.arbiter := (requestCopied_frame d rest x s).1
  simp only [requestCopied, setEngine, offerResponse, oweAttempt, setResponseOffer, countEngine, arbiter]

/-- The copy of a request, in the terms of the statements (R143). -/
theorem copyRequest_eq {d : DescNo} {x : Descriptor} {s : State} (rest : List DescNo)
    (hx : s.pool.descs.get d = some x) : copyRequest d rest (bodyOf s x) s = requestCopied d rest x s := by
  have freed (e : Engine) : free d { s with engine := e } = { released d x s with engine := e } :=
    (free_eq_released (s := { s with engine := e }) hx).trans (released_engine ..)
  rw [copyRequest, freed, requestCopied]

/-- In IDLE the head of the request queue is copied, freed and screened (R143). -/
theorem takeRequest_head {d : DescNo} {rest : List DescNo} {x : Descriptor} {s : State} (idle : s.engine.state = .idle)
    (waits : s.engine.queue = d :: rest) (hx : s.pool.descs.get d = some x) :
    takeRequest s = screenRequest (bodyOf s x) (requestCopied d rest x s) := by
  have body : messageBody s d = bodyOf s x := by simp [messageBody, hx]
  rw [← copyRequest_eq rest hx, ← body, takeRequest, idle, waits]

/-- Outside IDLE, and with no request waiting, nothing is taken (log entry 4). -/
theorem takeRequest_idle {s : State} (h : s.engine.state ≠ .idle ∨ s.engine.queue = []) : takeRequest s = s := by
  unfold takeRequest
  split
  next idle waits =>
    rcases h with h | h
    · exact absurd idle h
    · rw [h] at waits
      cases waits
  next => rfl

section

variable {request : List Byte} {s : State}

/-! ### Screening -/

/-- A request shorter than its fixed fields is counted and dropped (R144). -/
theorem screenRequest_short (h : request.length < 4) : screenRequest request s =
    setEngine .idle (countEngine (fun k => { k with malformed := k.malformed + 1 }) s) :=
  if_pos h

/-- A request for another node is counted and dropped (R144). -/
theorem screenRequest_foreign (h : 4 ≤ request.length) (foreign : request.getD 0 0 ≠ s.nodeAddress.zeroExtend 8) :
    screenRequest request s = setEngine .idle (countEngine (fun k => { k with foreign := k.foreign + 1 }) s) :=
  (if_neg (Nat.not_lt.mpr h)).trans (if_pos foreign)

/-- A request of full length for this node is judged (R144). -/
theorem screenRequest_judged (h : 4 ≤ request.length) (own : request.getD 0 0 = s.nodeAddress.zeroExtend 8) :
    screenRequest request s = judgeRequest request s :=
  (if_neg (Nat.not_lt.mpr h)).trans (if_neg (not_not_intro own))

/-! ### The tests of the judging, in plain terms -/

/-- The controller id in the id octet of a request (R203). -/
def senderOf (request : List Byte) : Nat := (request.getD 1 0).toNat / 16

/-- The four bits of the id octet that must be 0 are 0 (R203). -/
def CleanId (request : List Byte) : Prop := (request.getD 1 0).toNat % 16 = 0

/-- The cache holds the answer to this request (R145). -/
def Duplicates (request : List Byte) (entry : CacheEntry) : Prop :=
  entry.id.toNat = senderOf request ∧ CleanId request ∧ entry.tag = request.getD 2 0

/-- The request is of kind `k`, with a parameter length the kind allows (R146). -/
def FormOf (request : List Byte) (k : RequestKind) : Prop :=
  RequestKind.ofCode (request.getD 3 0) = some k ∧ k.allowsLength (request.length - 4) = true

/-- The sender of a request is the owner (R147). -/
def SenderOwns (request : List Byte) (o : Ownership) : Prop :=
  ∃ owner epoch countdown, o = .owned owner epoch countdown ∧ owner.toNat = senderOf request

theorem requestId_eq_iff (id : BitVec 4) (request : List Byte) :
    id = requestId request ↔ id.toNat = senderOf request := by
  rw [← BitVec.toNat_inj, requestId, requestId_toNat]
  rfl

theorem requestIdClean_iff (request : List Byte) : requestIdClean request = true ↔ CleanId request := beq_iff_eq

theorem matchesCache_iff (entry : CacheEntry) (request : List Byte) :
    matchesCache entry request = true ↔ Duplicates request entry := by
  rw [matchesCache, Bool.and_eq_true, Bool.and_eq_true, beq_iff_eq, beq_iff_eq, requestId_eq_iff, requestIdClean_iff,
    and_assoc]
  rfl

theorem goodIdOctet_iff (request : List Byte) :
    goodIdOctet request = true ↔ senderOf request ≠ 0 ∧ CleanId request := by
  rw [goodIdOctet, Bool.and_eq_true, bne_iff_ne, requestIdClean_iff]
  exact and_congr_left fun _ => requestId_zero _

theorem goodKind_iff (request : List Byte) (k : RequestKind) : goodKind request = some k ↔ FormOf request k := by
  have params : (requestParams request).length = request.length - 4 := List.length_drop
  rw [goodKind, params, FormOf, requestKindOctet, at0]
  cases RequestKind.ofCode (request.getD 3 0) with
  | none => simp
  | some named =>
    simp only [Option.ite_none_right_eq_some, Option.some.injEq]
    exact ⟨fun ⟨allowed, same⟩ => ⟨same, same ▸ allowed⟩, fun ⟨same, allowed⟩ => ⟨same ▸ allowed, same⟩⟩

theorem goodKind_none (h : ∀ k, ¬ FormOf request k) : goodKind request = none :=
  Option.eq_none_iff_forall_ne_some.mpr fun k hk => h k ((goodKind_iff request k).mp hk)

theorem ownedBy_iff (o : Ownership) (request : List Byte) :
    ownedBy o (requestId request) = true ↔ SenderOwns request o := by
  cases o with
  | unowned => simp [ownedBy, SenderOwns]
  | owned owner epoch countdown => simp [ownedBy, SenderOwns, requestId_eq_iff]

/-! ### The lease of the sender -/

/-- A request of another controller leaves the lease (R151). -/
theorem refreshLease_other (h : ¬ SenderOwns request s.engine.owner) : refreshLease (requestId request) s = s := by
  rw [← ownedBy_iff] at h
  unfold refreshLease
  split
  next => rfl
  next owner epoch countdown ho => exact if_neg fun same => h (by simp [ownedBy, ho, same])

/-- A request of the owner sets the countdown to the lease setting (R151). -/
theorem refreshLease_owner {owner : BitVec 4} {epoch : Word} {countdown : Option Nat}
    (ho : s.engine.owner = .owned owner epoch countdown) (sender : owner.toNat = senderOf request) :
    refreshLease (requestId request) s = setOwner (.owned owner epoch (leaseCountdown s.engine.lease)) s := by
  simp only [refreshLease, ho]
  exact if_pos ((requestId_eq_iff ..).mpr sender)

/-! ### Judging -/

/-- A duplicate is answered from the cache (R145). -/
theorem judgeRequest_duplicate {entry : CacheEntry} (hc : s.engine.cache = some entry)
    (duplicate : Duplicates request entry) : judgeRequest request s = setEngine .holding
      (offerResponse entry.body (countEngine (fun k => { k with duplicates := k.duplicates + 1 }) s)) := by
  simp only [judgeRequest, hc, Option.filter_some, (matchesCache_iff ..).mpr duplicate, if_true]

section

variable (fresh : ∀ entry, ¬ (s.engine.cache = some entry ∧ Duplicates request entry))

include fresh

theorem cacheFilter_fresh : (s.engine.cache.filter fun cache => matchesCache cache request) = none := by
  rw [Option.filter_eq_none_iff]
  exact fun entry hc hm => fresh entry ⟨hc, (matchesCache_iff ..).mp hm⟩

/-- A bad id octet is answered BAD_REQUEST and not recorded (R146). -/
theorem judgeRequest_badId (h : senderOf request = 0 ∨ ¬ CleanId request) :
    judgeRequest request s = answered request .badRequest [] false s := by
  have bad : goodIdOctet request = false := by
    rw [Bool.eq_false_iff, ne_eq, goodIdOctet_iff]
    exact fun good => h.elim good.1 (absurd good.2)
  simp only [judgeRequest, cacheFilter_fresh fresh, bad, Bool.not_false, if_true, respond_eq_answered]

variable (sender : senderOf request ≠ 0) (clean : CleanId request)

include sender clean

/-- An unknown kind and a parameter length the kind does not allow are answered BAD_REQUEST and recorded (R146). -/
theorem judgeRequest_badForm (h : ∀ k, ¬ FormOf request k) :
    judgeRequest request s = answered request .badRequest [] true s := by
  have good : goodIdOctet request = true := (goodIdOctet_iff request).mpr ⟨sender, clean⟩
  simp only [judgeRequest, cacheFilter_fresh fresh, good, goodKind_none h, Bool.not_true, Bool.false_eq_true, if_false,
    respond_eq_answered]

/-- A request of good form is judged on its kind and its sender (R147). -/
theorem judgeRequest_goodForm {k : RequestKind} (h : FormOf request k) : judgeRequest request s =
    if k.modifies (request.drop 4) && !ownedBy s.engine.owner (requestId request) then
      answered request .notOwner [] true s
    else refreshLease (requestId request) s := by
  have good : goodIdOctet request = true := (goodIdOctet_iff request).mpr ⟨sender, clean⟩
  simp only [judgeRequest, cacheFilter_fresh fresh, good, (goodKind_iff request k).mpr h, Bool.not_true,
    Bool.false_eq_true, if_false, respond_eq_answered, requestParams]

/-- A modifying request whose sender is not the owner is answered NOT_OWNER (R147). -/
theorem judgeRequest_notOwner {k : RequestKind} (h : FormOf request k) (modifies : k.modifies (request.drop 4) = true)
    (foreign : ¬ SenderOwns request s.engine.owner) :
    judgeRequest request s = answered request .notOwner [] true s := by
  rw [← ownedBy_iff] at foreign
  rw [judgeRequest_goodForm fresh sender clean h, if_pos (by simp [modifies, foreign])]

/-- A request that modifies nothing passes from any sender (R147). -/
theorem judgeRequest_reads {k : RequestKind} (h : FormOf request k) (reads : k.modifies (request.drop 4) = false)
    (foreign : ¬ SenderOwns request s.engine.owner) : judgeRequest request s = s := by
  rw [judgeRequest_goodForm fresh sender clean h, if_neg (by simp [reads]), refreshLease_other foreign]

/-- A request of the owner passes and sets the countdown (R147, R151). -/
theorem judgeRequest_owner {k : RequestKind} {owner : BitVec 4} {epoch : Word} {countdown : Option Nat}
    (h : FormOf request k) (ho : s.engine.owner = .owned owner epoch countdown) (own : owner.toNat = senderOf request) :
    judgeRequest request s = setOwner (.owned owner epoch (leaseCountdown s.engine.lease)) s := by
  have owns : ownedBy s.engine.owner (requestId request) = true :=
    (ownedBy_iff ..).mpr ⟨owner, epoch, countdown, ho, own⟩
  rw [judgeRequest_goodForm fresh sender clean h, if_neg (by simp [owns]), refreshLease_owner ho own]

end

end

/-- Settles O41: the row takes the head of the queue, and the first test that decides gives the outcome. -/
theorem requestsAreTaken : Obligations.RequestsAreTaken := by
  intro s hq
  refine ⟨fun h => perform_eq hq (takeRequest_idle h) rfl, fun d rest x idle waits hx => ?_⟩
  intro body id clean freed hit copied screened fresh known owns
  obtain ⟨arbiter, events, address⟩ := requestCopied_frame d rest x s
  have take {t : State} (h : screenRequest body copied = t) (ht : t.events = copied.events) :
      exec .requestTake s = .next t :=
    perform_eq hq ((takeRequest_head idle waits hx).trans h) (ht.trans events)
  have judge {t : State} (pass : screened) (h : judgeRequest body copied = t) (ht : t.events = copied.events) :
      exec .requestTake s = .next t :=
    take ((screenRequest_judged pass.1 (address ▸ pass.2)).trans h) ht
  refine ⟨fun short => take (screenRequest_short short) rfl, fun long other => ?_, fun entry pass h => ?_,
    fun h bad => ?_, fun h sender good unknown => ?_, fun k h sender good form =>
      ⟨fun modifies foreign => ?_, fun reads foreign => ?_, fun owner epoch countdown ho own => ?_⟩⟩
  · exact take (screenRequest_foreign long fun target => other ⟨long, target.trans (congrArg _ address)⟩) rfl
  · exact judge pass ((judgeRequest_duplicate (s := copied) h.1 h.2).trans (requestCopied_offered d rest x s ..)) rfl
  · exact judge h.1 (judgeRequest_badId h.2 bad) rfl
  · exact judge h.1 (judgeRequest_badForm h.2 sender good unknown) rfl
  · exact judge h.1 (judgeRequest_notOwner h.2 sender good form modifies foreign) rfl
  · exact judge h.1 (judgeRequest_reads h.2 sender good form reads foreign) rfl
  · exact judge h.1 (judgeRequest_owner (s := copied) h.2 sender good form ho own) rfl

end Sys2Proof.Machine
end

section
/-!
PROOF. The ownership requests (R148 to R151, R161 to R163): the lease settings, what the results say of the ownership
record, and CLAIM by its table.
-/

namespace Sys2Proof.Machine

/-! ### Lease settings -/

/-- The range of a lease setting in plain arithmetic (R148, R151). -/
theorem goodLease_iff (lease : Nat) : goodLease lease = true ↔ lease = 0 ∨ (50 ≤ lease ∧ lease ≤ 60000) := by
  rw [goodLease, Bool.or_eq_true, beq_iff_eq, Bool.and_eq_true, decide_eq_true_iff, decide_eq_true_iff]

/-- A countdown just set shows the lease setting, 0 where it is absent (R148, R161). -/
theorem leaseCountdown_getD (lease : Nat) : (leaseCountdown lease).getD 0 = lease := by
  unfold leaseCountdown
  split
  next h => exact h.symm
  next => rfl

theorem leaseLeft_owned (id : BitVec 4) (epoch : Word) (lease : Nat) :
    leaseLeft (.owned id epoch (leaseCountdown lease)) = lease := leaseCountdown_getD lease

/-! ### SET_LEASE -/

section

variable {high low : Byte} {s : State}

/-- SET_LEASE of a setting out of range is refused (R148, R163). -/
theorem setLeaseRun_range (h : ¬ goodLease (high.toNat * 256 + low.toNat) = true) :
    setLeaseRun [high, low] s = ⟨.range, [], s⟩ :=
  if_neg h

/-- SET_LEASE of a setting in range returns the setting and the countdown it leaves (R151, R163). -/
theorem setLeaseRun_inRange (h : goodLease (high.toNat * 256 + low.toNat) = true) :
    let t := writeLease (high.toNat * 256 + low.toNat) s
    setLeaseRun [high, low] s = ⟨.ok, octets2 t.engine.lease ++ octets2 (leaseLeft t.engine.owner), t⟩ :=
  if_pos h

/-- SET_LEASE in UNOWNED writes the setting alone (R151, R163). -/
theorem setLeaseRun_unowned (h : goodLease (high.toNat * 256 + low.toNat) = true) (ho : s.engine.owner = .unowned) :
    setLeaseRun [high, low] s = ⟨.ok, [high, low, 0, 0],
      { s with engine := { s.engine with lease := high.toNat * 256 + low.toNat } }⟩ := by
  have written : writeLease (high.toNat * 256 + low.toNat) s =
      { s with engine := { s.engine with lease := high.toNat * 256 + low.toNat } } := by simp only [writeLease, ho]
  rw [setLeaseRun_inRange h, written, octets2_of_two, ho]
  rfl

/-- SET_LEASE in OWNED writes the setting and sets the countdown to it (R151, R163). -/
theorem setLeaseRun_owned {id : BitVec 4} {epoch : Word} {countdown : Option Nat}
    (h : goodLease (high.toNat * 256 + low.toNat) = true) (ho : s.engine.owner = .owned id epoch countdown) :
    setLeaseRun [high, low] s = ⟨.ok, [high, low, high, low],
      { s with engine := { s.engine with
        lease := high.toNat * 256 + low.toNat
        owner := .owned id epoch (leaseCountdown (high.toNat * 256 + low.toNat)) } }⟩ := by
  have written : writeLease (high.toNat * 256 + low.toNat) s = { s with engine := { s.engine with
      lease := high.toNat * 256 + low.toNat
      owner := .owned id epoch (leaseCountdown (high.toNat * 256 + low.toNat)) } } := by
    simp only [writeLease, ho, setOwner]
  rw [setLeaseRun_inRange h, written, leaseLeft_owned, octets2_of_two]
  rfl

end

/-- Settles O42, request by request: SET_LEASE by its range and by the ownership state. -/
theorem ownershipRequestsAreAnswered : Obligations.OwnershipRequestsAreAnswered := by
  intro request s hq two owner left
  have ownerShown : ownerOctets s.engine.owner = owner := by
    cases ho : s.engine.owner <;> simp only [owner, ho] <;> rfl
  have leftShown : leaseLeft s.engine.owner = left := by
    cases ho : s.engine.owner with
    | unowned => simp only [left, ho, leaseLeft]
    | owned id epoch countdown => cases countdown <;> simp only [left, ho, leaseLeft, Option.getD]
  refine ⟨fun h => ?_, fun h => ?_, fun high low h hp => ?_⟩
  · have run : identifyRun (requestParams request) s = ⟨.ok, identifyResults s, s⟩ := rfl
    rw [identifyResults, ownerShown, leftShown] at run
    exact perform_answered hq h rfl run rfl
  · exact perform_answered hq h rfl (run := releaseRun) rfl rfl
  · intro n good
    refine ⟨fun inRange ho => ?_, fun id epoch countdown inRange ho => ?_, fun out => ?_⟩
    · exact perform_answered hq h hp (setLeaseRun_unowned ((goodLease_iff n).mpr inRange) ho) rfl
    · exact perform_answered hq h hp (setLeaseRun_owned ((goodLease_iff n).mpr inRange) ho) rfl
    · exact perform_answered hq h hp (setLeaseRun_range (mt (goodLease_iff n).mp out)) rfl

/-! ### CLAIM -/

section

variable {id : BitVec 4} {epoch : Word} {s : State}

/-- A CLAIM judged is that of the controller whose request is in hand (R149). -/
theorem claimRun_inHand {high low : Byte} {request : List Byte} (h : InHand .claim request s) :
    claimRun [high, low] s = claimBy (requestId request) (BitVec.ofNat 16 (high.toNat * 256 + low.toNat)) s := by
  obtain ⟨-, hand, -⟩ := h
  rw [claimRun, hand]
  rfl

/-- What a CLAIM granted returns: the new owner, its epoch and the lease setting (R149, R162). -/
theorem claimTaken_granted (id : BitVec 4) (epoch : Word) (s : State) : claimTaken (grantOwnership id epoch s) =
    ⟨.ok, [1, id.zeroExtend 8] ++ octets2 epoch.toNat ++ octets2 s.engine.lease, grantOwnership id epoch s⟩ := by
  have left : leaseLeft (grantOwnership id epoch s).engine.owner = s.engine.lease := leaseLeft_owned ..
  rw [claimTaken, accepted, claimResults, left]
  rfl

/-- An occurrence handed over does not show in what a CLAIM returns (R149, R162). -/
theorem claimTaken_raise (k : EventKind) (detail : Option (List Byte)) (s : State) :
    claimTaken (raise k detail s) = { claimTaken s with state := raisedAll [(k, detail)] s } := rfl

/-- In UNOWNED a CLAIM is granted (R149). -/
theorem claimBy_unowned (ho : s.engine.owner = .unowned) :
    claimBy id epoch s = claimTaken (grantOwnership id epoch s) := by
  simp only [claimBy, ho]

section

variable {owner : BitVec 4} {current : Word} {countdown : Option Nat}
  (ho : s.engine.owner = .owned owner current countdown)

include ho

/-- The owner renews at an epoch no lower than its own (R149). -/
theorem claimBy_renewed (same : owner = id) (h : current.toNat ≤ epoch.toNat) :
    claimBy id epoch s = claimTaken (grantOwnership id epoch s) := by
  have noLower : current ≤ epoch := h
  simp only [claimBy, ho, same, noLower, if_true]

/-- Another controller takes over at a higher epoch, with OWNER_CHANGED (R149). -/
theorem claimBy_takenOver (other : owner ≠ id) (h : current.toNat < epoch.toNat) :
    claimBy id epoch s = claimTaken (raise .ownerChanged
      (some ([owner.zeroExtend 8, id.zeroExtend 8] ++ octets2 epoch.toNat)) (grantOwnership id epoch s)) := by
  have higher : current < epoch := h
  simp only [claimBy, ho, other, higher, if_true, if_false]

/-- A lower epoch of the owner, and one no higher of another controller, are STALE (R149, R162). -/
theorem claimBy_stale
    (h : (owner = id ∧ epoch.toNat < current.toNat) ∨ (owner ≠ id ∧ epoch.toNat ≤ current.toNat)) :
    claimBy id epoch s = ⟨.stale, [1, owner.zeroExtend 8] ++ octets2 current.toNat ++ octets2 (countdown.getD 0), s⟩ := by
  have record : claimStale s =
      ⟨.stale, [1, owner.zeroExtend 8] ++ octets2 current.toNat ++ octets2 (countdown.getD 0), s⟩ := by
    simp only [claimStale, claimResults, ho, ownerOctets, leaseLeft]
  rw [← record]
  rcases h with ⟨same, lower⟩ | ⟨other, noHigher⟩
  · have low : ¬ current ≤ epoch := Nat.not_le.mpr lower
    simp only [claimBy, ho, same, low, if_true, if_false]
  · have low : ¬ current < epoch := Nat.not_lt.mpr noHigher
    simp only [claimBy, ho, other, low, if_false]

end

end

/-- Settles O43, row by row of the table of R149. -/
theorem claimsAreJudged : Obligations.ClaimsAreJudged := by
  intro high low request s hq h hp id epoch two granted
  have run {outcome : Executed} (judged : claimBy id epoch s = outcome) : claimRun [high, low] s = outcome :=
    (claimRun_inHand h).trans judged
  have shown : octets2 epoch.toNat = [high, low] := by
    rw [word_of_two, octets2_of_two]
  have grant := claimTaken_granted id epoch s
  rw [shown] at grant
  refine ⟨fun ho => ?_, fun owner current countdown ho => ⟨fun same noLower => ?_, fun other higher hu => ?_,
    fun stale => ?_⟩⟩
  · exact perform_answered hq h hp (run ((claimBy_unowned ho).trans grant)) rfl
  · exact perform_answered hq h hp (run ((claimBy_renewed ho same noLower).trans grant)) rfl
  · have changed := (claimBy_takenOver ho other higher).trans (claimTaken_raise ..)
    rw [grant, shown] at changed
    exact (perform_answered_raise hq h hp (run changed) rfl hu :)
  · exact perform_answered hq h hp (run (claimBy_stale ho stale)) rfl

end Sys2Proof.Machine
end

section
/-!
PROOF. The event unit and the fault list read, and the event unit set (R173, R174, R176, R185, R197, R203, R204).
-/

namespace Sys2Proof.Machine

/-! ### READ_FAULTS and CLEAR_FAULTS -/

/-- The fault list in octets: the overflow flag, the count, and each entry by its fields (R197, R204). -/
theorem faultSnapshot_eq (e : Events) : faultSnapshot e =
    [flagOctet e.overflow, octet e.faults.length] ++ e.faults.flatMap fun x =>
      [octet x.circuit.val, x.causes, octet (x.firstTick.toNat / 256), octet x.firstTick.toNat] := rfl

/-- Settles O53: READ_FAULTS by the octets of the fault list, CLEAR_FAULTS by the list it leaves. -/
theorem faultListIsReadAndCleared : Obligations.FaultListIsReadAndCleared := by
  intro request s hq
  refine ⟨fun h => ?_, fun h => ?_⟩
  · have run : readFaultsRun (requestParams request) s = ⟨.ok, faultSnapshot s.events, s⟩ := rfl
    rw [faultSnapshot_eq] at run
    exact perform_answered hq h rfl run rfl
  · have run : clearFaultsRun (requestParams request) s =
        ⟨.ok, [], { s with events := { s.events with faults := [], overflow := false } }⟩ := rfl
    exact perform_answered_inbox hq h rfl run rfl

/-! ### READ_EVENTS -/

/-- The detail of a record in the results: an absent one is no octets, CIRCUIT_FAULT's is the entry count and the
overflow flag (R173). -/
theorem reportedDetail_eq (k : EventKind) (detail : Option (List Byte)) : reportedDetail k detail =
    match detail with
    | none => []
    | some d => if k = .circuitFault then [d.getD 1 0, d.getD 0 0] else d := by
  cases detail <;> rfl

/-- A record in the results, field by field, its detail last (R173, R203). -/
theorem recordOctets_eq (e : Events) (k : EventKind) : recordOctets e k =
    [flagOctet (e.records.get k.num).pending, (e.records.get k.num).repeatCount,
      flagOctet (e.records.get k.num).enabled, octet (e.records.get k.num).level.val] ++
      octets2 (e.records.get k.num).lastTick.toNat ++
      [octet (reportedDetail k (e.records.get k.num).detail).length] ++
      reportedDetail k (e.records.get k.num).detail := rfl

/-- The results of READ_EVENTS: the settings, the stack from bottom to top, the records in kind order (R173, R203). -/
theorem eventsResults_eq (e : Events) : eventsResults e =
    [octet e.floor.val] ++ octets2 e.timeout ++ [octet e.retries, e.sequence, octet e.stack.length] ++
      e.stack.reverse.flatMap (fun x => [x.sequence, octet x.kind.num.val, octet x.level.val, octet x.sends] ++
        octets2 x.timer) ++ EventKind.all.flatMap (recordOctets e) := rfl

/-! ### WRITE_EVENT_CONFIG -/

theorem goodTimeout_iff (n : Nat) : goodTimeout n = true ↔ 10 ≤ n ∧ n ≤ 5000 := by
  rw [goodTimeout, Bool.and_eq_true, decide_eq_true_iff, decide_eq_true_iff]

/-- The floor an octet up to 7 gives. -/
theorem floorOf_some {b : Byte} (h : b.toNat ≤ 7) : ∃ floor, floorOf b = some floor ∧ floor.val = b.toNat :=
  ⟨_, dif_pos (Nat.lt_succ_of_le h), rfl⟩

/-- An octet above 7 gives no floor. -/
theorem floorOf_none {b : Byte} (h : ¬ b.toNat ≤ 7) : floorOf b = none :=
  dif_neg (mt Nat.le_of_lt_succ h)

/-- Sixteen settings meet the sixteen kinds, each once. -/
theorem kindSettings_pairwise {settings : List Byte} (h : settings.length = 16) :
    (EventKind.all.zip settings).Pairwise fun a b => a.1 ≠ b.1 := by
  have kinds : ((EventKind.all.zip settings).map Prod.fst).Pairwise (· ≠ ·) := by
    rw [List.map_fst_zip (Nat.le_of_eq (Eq.symm h) : EventKind.all.length ≤ settings.length)]
    decide
  exact List.pairwise_map.mp kinds

/-- Each kind meets the setting at the place of its number. -/
theorem kindSettings_mem {settings : List Byte} (h : settings.length = 16) (k : EventKind) :
    (k, settings.getD k.num.val 0) ∈ EventKind.all.zip settings := by
  have inside : k.num.val < settings.length := h ▸ k.num.isLt
  refine List.mem_of_getElem? (i := k.num.val) (List.getElem?_zip_eq_some.mpr ⟨EventKind.all_get k, ?_⟩)
  rw [List.getD_eq_getElem?_getD, List.getElem?_eq_getElem inside, Option.getD_some]

/-- The event unit with floor, timeout, retries and settings written (R174). -/
def configWritten (floor : Fin 8) (timeout retries : Nat) (settings : List Byte) (e : Events) : Events :=
  writeSettings { e with floor := floor, timeout := timeout, retries := retries } settings

section

variable (floor : Fin 8) (timeout retries : Nat) {settings : List Byte} (h : settings.length = 16) (e : Events)

include h

/-- A configuration of sixteen settings leaves all but the three values and the records (R174). -/
theorem configWritten_frame : configWritten floor timeout retries settings e = { e with
    floor := floor, timeout := timeout, retries := retries
    records := (configWritten floor timeout retries settings e).records } :=
  (settings_fold _ (kindSettings_pairwise h) _ .alignLost).1

/-- A configuration gives each record the enable and the level of its kind's setting, and leaves the rest of it (R174,
R203). -/
theorem configWritten_record (k : EventKind) :
    let b := settings.getD k.num.val 0
    let r := (configWritten floor timeout retries settings e).records.get k.num
    r.enabled = decide (128 ≤ b.toNat) ∧ r.level.val = b.toNat % 8 ∧
      r = { e.records.get k.num with enabled := r.enabled, level := r.level } := by
  intro b r
  obtain ⟨-, enable, level⟩ := setting_fields b
  have written : r = { e.records.get k.num with enabled := settingEnable b, level := settingLevel b } :=
    (settings_fold _ (kindSettings_pairwise h) _ k).2.1 b (kindSettings_mem h k)
  rw [written]
  exact ⟨enable, level, rfl⟩

end

/-- The values of a WRITE_EVENT_CONFIG are in their ranges (R174, R203). -/
def ConfigInRange (floor high low retries : Byte) (settings : List Byte) : Prop :=
  floor.toNat ≤ 7 ∧ 10 ≤ high.toNat * 256 + low.toNat ∧ high.toNat * 256 + low.toNat ≤ 5000 ∧ retries.toNat ≤ 7 ∧
    ∀ b ∈ settings, b.toNat % 128 < 8

section

variable {floor high low retries : Byte} {settings : List Byte}

/-- The tests of WRITE_EVENT_CONFIG after that of the floor, in plain arithmetic (R174, R203). -/
theorem configTests_iff : (goodTimeout (high.toNat * 256 + low.toNat) && decide (retries.toNat ≤ 7) &&
      settings.all goodSetting) = true ↔
    10 ≤ high.toNat * 256 + low.toNat ∧ high.toNat * 256 + low.toNat ≤ 5000 ∧ retries.toNat ≤ 7 ∧
      ∀ b ∈ settings, b.toNat % 128 < 8 := by
  simp only [Bool.and_eq_true, goodTimeout_iff, decide_eq_true_iff, List.all_eq_true, (setting_fields _).1, and_assoc]

/-- WRITE_EVENT_CONFIG of a value out of range is refused (R174). -/
theorem writeEventConfigRun_range (s : State) (h : ¬ ConfigInRange floor high low retries settings) :
    writeEventConfigRun (floor :: high :: low :: retries :: settings) s = ⟨.range, [], s⟩ := by
  by_cases hf : floor.toNat ≤ 7
  · obtain ⟨level, hlevel, -⟩ := floorOf_some hf
    have named : floorOf (at0 (floor :: high :: low :: retries :: settings) 0) = some level := hlevel
    simp only [writeEventConfigRun, named]
    exact if_neg fun tests => h ⟨hf, configTests_iff.mp tests⟩
  · have unnamed : floorOf (at0 (floor :: high :: low :: retries :: settings) 0) = none := floorOf_none hf
    simp only [writeEventConfigRun, unnamed]
    rfl

/-- WRITE_EVENT_CONFIG with every value in range writes them and makes the selection anew (R174, R185). -/
theorem writeEventConfigRun_inRange (s : State) {level : Fin 8} (hf : floorOf floor = some level)
    (h : ConfigInRange floor high low retries settings) :
    writeEventConfigRun (floor :: high :: low :: retries :: settings) s =
      ⟨.ok, [], selectNotice { s with
        events := configWritten level (high.toNat * 256 + low.toNat) retries.toNat settings s.events }⟩ := by
  obtain ⟨-, tests⟩ := h
  have named : floorOf (at0 (floor :: high :: low :: retries :: settings) 0) = some level := hf
  simp only [writeEventConfigRun, named]
  exact if_pos (configTests_iff.mpr tests)

end

/-- The waiting occurrences are not looked at when the selection is made anew. -/
theorem selectNotice_inbox {s t : State} (h : t.events.inbox = s.events.inbox) :
    (selectNotice t).events.inbox = s.events.inbox := by
  rw [← h]
  simp

/-- Settles O51: READ_EVENTS by its octets, WRITE_EVENT_CONFIG by the tests of its values and the records it leaves. -/
theorem eventUnitIsReadAndWritten : Obligations.EventUnitIsReadAndWritten := by
  refine ⟨fun request s hq h => ?_, fun floor high low retries settings request s hq h hp len => ?_⟩
  · have run : readEventsRun (requestParams request) s = ⟨.ok, eventsResults s.events, s⟩ := rfl
    simp only [eventsResults_eq, funext (recordOctets_eq s.events), reportedDetail_eq] at run
    exact perform_answered hq h rfl run rfl
  · intro timeout good
    refine ⟨fun inRange => ?_, fun out => perform_answered hq h hp (writeEventConfigRun_range s out) rfl⟩
    obtain ⟨level, named, value⟩ := floorOf_some inRange.1
    have kept := configWritten_frame level timeout retries.toNat len s.events
    have inbox : (configWritten level timeout retries.toNat settings s.events).inbox = s.events.inbox := by rw [kept]
    refine ⟨_, perform_answered_inbox hq h hp (writeEventConfigRun_inRange s named inRange) (selectNotice_inbox inbox),
      ?_, ?_, configWritten_record level timeout retries.toNat len s.events⟩
    · rw [kept]
    · rw [kept]
      exact value

end Sys2Proof.Machine
end

section
/-!
PROOF. Records and notices acknowledged (R175, R183, R185, R189, R191): ACK_EVENTS by the kinds its octets name, and
NOTICE_ACK by the top entry of the stack.
-/

namespace Sys2Proof.Machine

/-! ### ACK_EVENTS -/

section

variable {kinds : List EventKind} {octets : List Byte}
  (named : kinds.map (·.num.val) = octets.map (·.toNat))

include named

/-- A number is that of a kind named exactly when an octet carries it. -/
theorem numbered_iff (n : Nat) : (∃ k ∈ kinds, k.num.val = n) ↔ ∃ b ∈ octets, b.toNat = n := by
  rw [← List.mem_map, ← List.mem_map, named]

theorem contains_iff (k : EventKind) : kinds.contains k = octets.any (·.toNat == k.num.val) := by
  rw [Bool.eq_iff_iff, List.contains_iff_mem, List.any_eq_true]
  simp only [beq_iff_eq, ← numbered_iff named]
  exact ⟨fun h => ⟨k, h, rfl⟩, fun ⟨j, h, same⟩ => EventKind.num_injective (Fin.ext same) ▸ h⟩

/-- The kinds named, each counted once, are the numbers the octets carry (R175). -/
theorem namedKinds_length : (EventKind.all.filter kinds.contains).length =
    ((List.range 16).filter fun n => octets.any (·.toNat == n)).length := by
  have numbers : List.range 16 = EventKind.all.map (·.num.val) := by decide
  rw [numbers, List.filter_map, List.length_map]
  exact congrArg (fun p => (EventKind.all.filter p).length) (funext (contains_iff named))

/-- The records cleared are those whose numbers the octets carry (R175, R183). -/
theorem clearRecords_named (s : State) (i : Fin 16) : (clearRecords kinds s).events.records.get i =
    if ∃ b ∈ octets, b.toNat = i.val then
      { s.events.records.get i with pending := false, repeatCount := 0, detail := none }
    else s.events.records.get i := by
  rw [(clearRecords_spec kinds s).2 i]
  simp only [← numbered_iff named, Fin.ext_iff]

end

/-- ACK_EVENTS of kinds that are all known clears their records, counts each once, and makes the selection anew
(R175, R185). -/
theorem ackEventsRun_known {octets : List Byte} {kinds : List EventKind} (s : State)
    (h : kindsOf octets = some kinds) : ackEventsRun octets s =
      ⟨.ok, [octet (EventKind.all.filter kinds.contains).length], selectNotice (clearRecords kinds s)⟩ := by
  rw [ackEventsRun, h]
  rfl

/-- ACK_EVENTS of a kind above 15 is refused (R175). -/
theorem ackEventsRun_range {octets : List Byte} (s : State) (h : ∃ b ∈ octets, 15 < b.toNat) :
    ackEventsRun octets s = ⟨.range, [], s⟩ := by
  rw [ackEventsRun, kindsOf_none octets h]
  rfl

/-! ### NOTICE_ACK -/

/-- A stack with the timer of its top entry set to the full notice timeout (R189). -/
def topRestarted (timeout : Nat) : List StackEntry → List StackEntry
  | [] => []
  | next :: more => { next with timer := timeout } :: more

/-- What NOTICE_ACK returns of a stack: its length, and the sequence of its top entry, 0 with none (R175). -/
def stackOctets (stack : List StackEntry) : List Byte :=
  [octet stack.length, match stack with
    | [] => 0
    | next :: _ => next.sequence]

theorem noticeAckResults_eq (e : Events) : noticeAckResults e = stackOctets e.stack := by
  cases e
  rfl

/-- The restart of a timer does not show in the results. -/
theorem stackOctets_topRestarted (timeout : Nat) (stack : List StackEntry) :
    stackOctets (topRestarted timeout stack) = stackOctets stack := by
  cases stack <;> rfl

/-- `s` with its top entry acknowledged, before the selection is made anew: the entry popped with `below` under it, its
re-send withdrawn, its record cleared if asked (R191). -/
def topAcknowledged (clear : Bool) (top : StackEntry) (below : List StackEntry) (s : State) : State :=
  { s with
    arbiter := { s.arbiter with notice := if resendHeld s then none else s.arbiter.notice }
    events := { s.events with
      records := if clear then s.events.records.change top.kind.num EventRecord.clear else s.events.records
      stack := topRestarted s.events.timeout below } }

theorem popStack_eq {e : Events} {top : StackEntry} {below : List StackEntry} (h : e.stack = top :: below) :
    popStack e = { e with stack := topRestarted e.timeout below } := by
  cases below <;> simp only [popStack, restartTop, h, List.tail_cons, topRestarted]

section

variable {s : State} {top : StackEntry} {below : List StackEntry} {sequence clear : Byte}

/-- An acknowledgement pops the top entry and makes the selection anew (R191). -/
theorem acknowledgeTop_eq (flag : Bool) (h : s.events.stack = top :: below) :
    acknowledgeTop flag s = selectNotice (topAcknowledged flag top below s) := by
  simp only [acknowledgeTop, h, popStack_eq h, topAcknowledged]
  cases resendHeld s <;> cases flag <;> rfl

/-- NOTICE_ACK of a clear option that is no flag is refused (R175). -/
theorem noticeAckRun_range (h : 1 < clear.toNat) : noticeAckRun [sequence, clear] s = ⟨.range, [], s⟩ := by
  have unflagged : flagOf (at0 [sequence, clear] 1) = none := by
    rw [← Option.not_isSome_iff_eq_none, flagOf_isSome]
    exact Nat.not_le.mpr h
  rw [noticeAckRun, unflagged]
  rfl

/-- NOTICE_ACK of a sequence that is not the top entry's is refused with what the stack shows (R175). -/
theorem noticeAckRun_order (h : clear.toNat ≤ 1) (other : ∀ top ∈ s.events.stack.head?, top.sequence ≠ sequence) :
    noticeAckRun [sequence, clear] s = ⟨.order, stackOctets s.events.stack, s⟩ := by
  have flag : flagOf (at0 [sequence, clear] 1) = some (clear == 1) := flagOf_val clear h
  have unmatched : s.events.stack.head?.any (·.sequence == sequence) = false := by
    rw [Option.any_eq_false]
    exact fun top ht => beq_eq_false_iff_ne.mpr (other top ht)
  rw [noticeAckRun, flag, ← noticeAckResults_eq]
  exact if_neg (Bool.eq_false_iff.mp unmatched)

/-- NOTICE_ACK of the top entry's sequence acknowledges it and returns what is then on the stack (R175, R191). -/
theorem noticeAckRun_top (h : clear.toNat ≤ 1) (hs : s.events.stack = top :: below)
    (same : top.sequence = sequence) : noticeAckRun [sequence, clear] s =
      ⟨.ok, stackOctets below, selectNotice (topAcknowledged (clear == 1) top below s)⟩ := by
  have flag : flagOf (at0 [sequence, clear] 1) = some (clear == 1) := flagOf_val clear h
  have matched : s.events.stack.head?.any (·.sequence == sequence) = true := by simp [hs, same]
  have results : noticeAckResults (selectNotice (topAcknowledged (clear == 1) top below s)).events =
      stackOctets below := by
    simp [noticeAckResults_eq, topAcknowledged, stackOctets_topRestarted]
  rw [← results, ← acknowledgeTop_eq _ hs, noticeAckRun, flag]
  exact if_pos matched

end

/-- Settles O52: ACK_EVENTS by the kinds named, NOTICE_ACK by its clear option and the top entry. -/
theorem eventsAndNoticesAreAcknowledged : Obligations.EventsAndNoticesAreAcknowledged := by
  refine ⟨fun request s hq h => ?_, fun request s hq => ⟨fun h above => ?_, fun sequence clear h hp => ?_⟩⟩
  · intro octets known
    obtain ⟨kinds, found, named⟩ := kindsOf_some octets known
    obtain ⟨kept, -⟩ := clearRecords_spec kinds s
    have inbox : (clearRecords kinds s).events.inbox = s.events.inbox := by simp
    have run := ackEventsRun_known s found
    rw [namedKinds_length named] at run
    exact ⟨_, perform_answered_inbox hq h rfl run (selectNotice_inbox inbox), kept, clearRecords_named named s⟩
  · exact perform_answered hq h rfl (ackEventsRun_range s above) rfl
  · refine ⟨fun out => perform_answered hq h hp (noticeAckRun_range out) rfl, fun flag empty => ?_,
      fun top below flag hs => ⟨fun other => ?_, fun same => ?_⟩⟩
    · have run := noticeAckRun_order (s := s) (sequence := sequence) flag (by simp [empty])
      rw [empty] at run
      exact perform_answered hq h hp run rfl
    · have run := noticeAckRun_order (s := s) (sequence := sequence) flag (by simpa [hs] using other)
      rw [hs] at run ⊢
      exact perform_answered hq h hp run rfl
    · have done := perform_answered_inbox hq h hp (noticeAckRun_top flag hs same)
        (selectNotice_inbox (s := s) rfl)
      intro popped
      have acknowledged : topAcknowledged (clear == 1) top below s = popped := by
        simp only [topAcknowledged, beq_iff_eq, popped]
        cases below <;> rfl
      rw [acknowledged] at done
      cases below <;> exact done

end Sys2Proof.Machine
end

section
/-!
PROOF. Bindings and canned slots written and read (R177, R178, R193, R196; log entry 17): the binding ten octets describe,
the kinds other bindings name, and a binding in octets.
-/

namespace Sys2Proof.Machine

/-! ### WRITE_BINDING -/

theorem bindingIndexOf_iff (b : Byte) (i : Fin 6) : bindingIndexOf b = some i ↔ i.val = b.toNat := by
  unfold bindingIndexOf
  split
  · rw [Option.some.injEq, eq_comm, Fin.ext_iff]
  · next h =>
    simp only [reduceCtorEq, false_iff]
    exact fun same => h (same ▸ i.isLt)

/-- The octets of a WRITE_BINDING describe a binding (R177). -/
def Describes (kind action a b count ending armed enabled : Byte) (x : Binding) : Prop :=
  x.kind.num.val = kind.toNat ∧ kind.toNat ≤ 14 ∧ BindingAction.ofCode action a b = some x.action ∧
    x.count = count.toNat ∧ 1 ≤ x.count ∧ ending.toNat ≤ 1 ∧ x.endMode = (if ending = 0 then .notify else .silent) ∧
    armed.toNat ≤ 1 ∧ x.armed = (armed == 1) ∧ enabled.toNat ≤ 1 ∧ x.enabled = (enabled == 1)

section

variable {index used kind action a b count ending armed enabled : Byte} {s : State} {i : Fin 6} {x : Binding}

/-- The binding the parameters give is the one their octets describe (R177). -/
theorem bindingOf_iff (x : Binding) :
    bindingOf [index, used, kind, action, a, b, count, ending, armed, enabled] = some x ↔
      Describes kind action a b count ending armed enabled x := by
  have read : bindingOf [index, used, kind, action, a, b, count, ending, armed, enabled] =
      match boundKindOf kind, BindingAction.ofCode action a b, EndMode.ofCode ending, flagOf armed, flagOf enabled with
      | some kind, some action, some endMode, some armed, some enabled =>
        if count = 0 then none else some ⟨kind, action, count.toNat, endMode, armed, enabled⟩
      | _, _, _, _, _ => none := rfl
  have counts : count ≠ 0 ↔ 1 ≤ count.toNat := by bv_omega
  rw [read]
  constructor
  · intro h
    split at h
    · next hk ha he hr hn =>
      split at h
      · cases h
      · next nonzero =>
        cases h
        obtain ⟨number, bound⟩ := (boundKindOf_iff _ _).mp hk
        obtain ⟨ends, endMode⟩ := (EndMode.ofCode_iff _ _).mp he
        obtain ⟨armedFlag, isArmed⟩ := (flagOf_iff _ _).mp hr
        obtain ⟨enabledFlag, isEnabled⟩ := (flagOf_iff _ _).mp hn
        exact ⟨number, bound, ha, rfl, counts.mp nonzero, ends, endMode, armedFlag, isArmed, enabledFlag, isEnabled⟩
    · cases h
  · rintro ⟨number, bound, ha, total, atLeast, ends, endMode, armedFlag, isArmed, enabledFlag, isEnabled⟩
    have nonzero : count ≠ 0 := counts.mpr (total ▸ atLeast)
    rw [(boundKindOf_iff _ _).mpr ⟨number, bound⟩, ha, (EndMode.ofCode_iff _ _).mpr ⟨ends, endMode⟩,
      (flagOf_iff _ _).mpr ⟨armedFlag, isArmed⟩, (flagOf_iff _ _).mpr ⟨enabledFlag, isEnabled⟩]
    simp only [if_neg nonzero, ← total]

theorem boundElsewhere_iff {e : Events} {k : EventKind} : boundElsewhere e i k = true ↔
    ∃ j y, j ≠ i ∧ e.bindings.get j = some y ∧ y.kind = k := by
  simp [boundElsewhere, List.any_eq_true, Option.any_eq_true]

/-- WRITE_BINDING of an index or a use octet out of range is refused (R177). -/
theorem writeBindingRun_range (h : 5 < index.toNat ∨ 1 < used.toNat) :
    writeBindingRun [index, used, kind, action, a, b, count, ending, armed, enabled] s = ⟨.range, [], s⟩ := by
  have unread (i : Fin 6) (f : Bool) (hi : bindingIndexOf index = some i) (hf : flagOf used = some f) : False := by
    have inside := i.isLt
    rw [(bindingIndexOf_iff ..).mp hi] at inside
    have flag := ((flagOf_iff ..).mp hf).1
    omega
  unfold writeBindingRun
  split
  · next hi hf => exact (unread _ _ hi hf).elim
  · next hi hf => exact (unread _ _ hi hf).elim
  · rfl

variable (hi : i.val = index.toNat)

include hi

/-- WRITE_BINDING with use 0 puts the binding out of use, whatever the other octets hold (R177). -/
theorem writeBindingRun_unused (hu : used = 0) :
    writeBindingRun [index, used, kind, action, a, b, count, ending, armed, enabled] s =
      ⟨.ok, [], setBinding i none s⟩ := by
  have named : bindingIndexOf (at0 [index, used, kind, action, a, b, count, ending, armed, enabled] 0) = some i :=
    (bindingIndexOf_iff ..).mpr hi
  subst hu
  rw [writeBindingRun, named]
  rfl

/-- WRITE_BINDING with use 1 is judged on the binding its octets describe (R177). -/
theorem writeBindingRun_used (hu : used = 1) :
    writeBindingRun [index, used, kind, action, a, b, count, ending, armed, enabled] s =
      match bindingOf [index, used, kind, action, a, b, count, ending, armed, enabled] with
      | none => ⟨.range, [], s⟩
      | some x => if boundElsewhere s.events i x.kind then ⟨.state, [], s⟩ else ⟨.ok, [], setBinding i (some x) s⟩ := by
  have named : bindingIndexOf (at0 [index, used, kind, action, a, b, count, ending, armed, enabled] 0) = some i :=
    (bindingIndexOf_iff ..).mpr hi
  subst hu
  rw [writeBindingRun, named]
  rfl

/-- WRITE_BINDING of octets that describe no binding is refused (R177). -/
theorem writeBindingRun_undescribed (hu : used = 1)
    (h : ∀ x, ¬ Describes kind action a b count ending armed enabled x) :
    writeBindingRun [index, used, kind, action, a, b, count, ending, armed, enabled] s = ⟨.range, [], s⟩ := by
  have undescribed : bindingOf [index, used, kind, action, a, b, count, ending, armed, enabled] = none :=
    Option.eq_none_iff_forall_ne_some.mpr fun x given => h x ((bindingOf_iff x).mp given)
  rw [writeBindingRun_used hi hu, undescribed]

variable (hu : used = 1) (h : Describes kind action a b count ending armed enabled x)

include hu h

/-- WRITE_BINDING of a kind another binding names is refused (R177). -/
theorem writeBindingRun_taken (taken : ∃ j y, j ≠ i ∧ s.events.bindings.get j = some y ∧ y.kind = x.kind) :
    writeBindingRun [index, used, kind, action, a, b, count, ending, armed, enabled] s = ⟨.state, [], s⟩ := by
  rw [writeBindingRun_used hi hu, (bindingOf_iff x).mpr h]
  exact if_pos (boundElsewhere_iff.mpr taken)

/-- WRITE_BINDING of a kind no other binding names writes the binding (R177). -/
theorem writeBindingRun_written (free : ∀ j y, j ≠ i → s.events.bindings.get j = some y → y.kind ≠ x.kind) :
    writeBindingRun [index, used, kind, action, a, b, count, ending, armed, enabled] s =
      ⟨.ok, [], setBinding i (some x) s⟩ := by
  rw [writeBindingRun_used hi hu, (bindingOf_iff x).mpr h]
  refine if_neg fun taken => ?_
  obtain ⟨j, y, other, hy, same⟩ := boundElsewhere_iff.mp taken
  exact free j y other hy same

end

/-! ### READ_BINDINGS -/

/-- An action in octets: its code and its two operands, 0 where it has none (R177, R206). -/
theorem BindingAction.octets_eq (x : BindingAction) : [x.code, x.operandA, x.operandB] =
    match x with
    | .swap => [1, 0, 0]
    | .circuitStop c => [2, octet c.val, 0]
    | .circuitStart c => [3, octet c.val, 0]
    | .sendCanned n c => [4, octet n.val, octet c.val]
    | .flushClass q => [5, octet q.val, 0] := by
  cases x <;> rfl

theorem EndMode.code_eq (m : EndMode) : m.code = if m = .notify then 0 else 1 := by
  cases m <;> rfl

/-- A binding in octets: in use as WRITE_BINDING carries it, not in use with zeros (R177; log entry 17). -/
theorem bindingOctets_eq (e : Events) (i : Fin Config.bindings) : bindingOctets e i =
    match e.bindings.get i with
    | none => [octet i.val, 0, 0, 0, 0, 0, 0, 0, 0, 0]
    | some x => [octet i.val, 1, octet x.kind.num.val] ++ [x.action.code, x.action.operandA, x.action.operandB] ++
        [octet x.count, x.endMode.code, flagOctet x.armed, flagOctet x.enabled] := by
  unfold bindingOctets
  cases e.bindings.get i <;> rfl

/-! ### LOAD_CANNED -/

section

variable {slot cls mark : Byte} {body : List Byte} {s : State}

/-- LOAD_CANNED of values in range fills the slot and returns it with the length of the body (R178). -/
theorem loadCannedRun_filled {i : Fin 4} (hi : i.val = slot.toNat) (hc : cls.toNat ≤ 3) (hm : mark.toNat ≤ 1) :
    loadCannedRun (slot :: cls :: mark :: body) s = ⟨.ok, [slot, octet body.length],
      { s with events := { s.events with
        canned := s.events.canned.put i (some ⟨body, Fin.ofNat 4 cls.toNat, mark == 1⟩) } }⟩ := by
  have slotNamed : cannedSlotOf (at0 (slot :: cls :: mark :: body) 0) = some i := (cannedSlotOf_iff ..).mpr hi.symm
  have classNamed : classOf (at0 (slot :: cls :: mark :: body) 1) = some (Fin.ofNat 4 cls.toNat) := classOf_val cls hc
  have markNamed : flagOf (at0 (slot :: cls :: mark :: body) 2) = some (mark == 1) := flagOf_val mark hm
  simp only [loadCannedRun, slotNamed, classNamed, markNamed, hi, octet_toNat]
  rfl

/-- LOAD_CANNED of a value out of range is refused (R178). -/
theorem loadCannedRun_range (h : 3 < slot.toNat ∨ 3 < cls.toNat ∨ 1 < mark.toNat) :
    loadCannedRun (slot :: cls :: mark :: body) s = ⟨.range, [], s⟩ := by
  unfold loadCannedRun
  split
  · next i q m hi hc hm =>
    have slotRange : slot.toNat < 4 := (cannedSlotOf_iff slot i).mp hi ▸ i.isLt
    have classRange : cls.toNat < 4 := (classOf_iff cls q).mp hc ▸ q.isLt
    have markRange : mark.toNat ≤ 1 := ((flagOf_iff mark m).mp hm).1
    omega
  · rfl

end

/-- Settles O54: WRITE_BINDING by its index, its use and the binding described, READ_BINDINGS binding by binding,
LOAD_CANNED by its ranges. -/
theorem bindingsAreReadAndWritten : Obligations.BindingsAreReadAndWritten := by
  refine ⟨fun index used kind action a b count ending armed enabled request s hq h hp => ?_, fun request s hq => ?_⟩
  · intro circuit named written put
    have described (x : Binding) : written x ↔ Describes kind action a b count ending armed enabled x := by
      rw [Describes, BindingAction.ofCode_iff]
    refine ⟨fun out => perform_answered hq h hp (writeBindingRun_range out) rfl, fun i hi =>
      ⟨fun hu => ?_, fun hu unwritten => ?_, fun x hu hx => ⟨fun taken => ?_, fun free => ?_⟩⟩⟩
    · exact perform_answered_inbox hq h hp (writeBindingRun_unused hi hu) rfl
    · have undescribed (x : Binding) := mt (described x).mpr (unwritten x)
      exact perform_answered hq h hp (writeBindingRun_undescribed hi hu undescribed) rfl
    · exact perform_answered hq h hp (writeBindingRun_taken hi hu ((described x).mp hx) taken) rfl
    · exact perform_answered_inbox hq h hp (writeBindingRun_written hi hu ((described x).mp hx) free) rfl
  · intro flag
    refine ⟨fun h => ?_, fun slot cls mark body h hp => ⟨fun i hi hc hm => ?_, fun out => ?_⟩⟩
    · have run : readBindingsRun (requestParams request) s =
          ⟨.ok, (List.finRange Config.bindings).flatMap (bindingOctets s.events), s⟩ := rfl
      simp only [funext (bindingOctets_eq s.events), BindingAction.octets_eq, EndMode.code_eq] at run
      exact perform_answered hq h rfl run rfl
    · exact perform_answered_inbox hq h hp (loadCannedRun_filled hi hc hm) rfl
    · exact perform_answered hq h hp (loadCannedRun_range out) rfl

end Sys2Proof.Machine
end

section
/-!
PROOF. The law of the notice stack (R184, R185): it speaks of the stack and of the new offer alone. A kind the selection
names stands above every entry, which makes the law of a new offer, and that law is what its push needs; all other
operations leave the kinds and levels on the stack or drop entries of it.
-/

namespace Sys2Proof.Machine

/-! ### The stack -/

/-- The notice stack within four entries, strictly rising, of different kinds (R184). -/
def RisingStack (stack : List StackEntry) : Prop :=
  stack.length ≤ 4 ∧ stack.Pairwise (fun above below => below.level < above.level) ∧ (stack.map (·.kind)).Nodup

/-- A kind at a level may be pushed: there is room, every entry stands lower and is of another kind (R185). -/
def FitsOnTop (kind : EventKind) (level : Fin 8) (stack : List StackEntry) : Prop :=
  stack.length < 4 ∧ ∀ e ∈ stack, e.level < level ∧ e.kind ≠ kind

theorem stackLaw_iff (s : State) : StackLaw s ↔ RisingStack s.events.stack ∧
    ∀ o, s.arbiter.notice = some o → o.resend = false → FitsOnTop o.kind o.level s.events.stack := by
  simp only [StackLaw, RisingStack, FitsOnTop, and_assoc]

/-- What is pushed where it fits keeps the stack rising (R188). -/
theorem RisingStack.cons {e : StackEntry} {stack : List StackEntry} (h : RisingStack stack)
    (fits : FitsOnTop e.kind e.level stack) : RisingStack (e :: stack) := by
  obtain ⟨-, rising, distinct⟩ := h
  obtain ⟨room, above⟩ := fits
  refine ⟨room, List.pairwise_cons.mpr ⟨fun x hx => (above x hx).1, rising⟩, List.nodup_cons.mpr ⟨fun hm => ?_, distinct⟩⟩
  obtain ⟨x, hx, same⟩ := List.mem_map.mp hm
  exact (above x hx).2 same

/-- What the law sees of an entry: not its sends, its sequence or its timer. -/
def StackEntry.standing (e : StackEntry) : EventKind × Fin 8 := (e.kind, e.level)

/-- A stack that may have lost entries of another, and may hold other sends and timers. -/
def LeftOf (new old : List StackEntry) : Prop := (new.map StackEntry.standing).Sublist (old.map StackEntry.standing)

theorem LeftOf.refl (stack : List StackEntry) : LeftOf stack stack := List.Sublist.refl _

section

variable {new old : List StackEntry} (left : LeftOf new old)

include left

theorem LeftOf.length_le : new.length ≤ old.length := by
  simpa only [List.length_map] using List.Sublist.length_le left

theorem RisingStack.of_left (h : RisingStack old) : RisingStack new := by
  obtain ⟨room, rising, distinct⟩ := h
  have levels (stack : List StackEntry) : stack.Pairwise (fun above below => below.level < above.level) ↔
      (stack.map StackEntry.standing).Pairwise fun above below => below.2 < above.2 := by
    rw [List.pairwise_map]
    rfl
  have kinds (stack : List StackEntry) : stack.map (·.kind) = (stack.map StackEntry.standing).map Prod.fst := by
    rw [List.map_map]
    rfl
  refine ⟨Nat.le_trans left.length_le room, ?_, ?_⟩
  · rw [levels] at rising ⊢
    exact rising.sublist left
  · rw [kinds] at distinct ⊢
    exact distinct.sublist (left.map _)

theorem FitsOnTop.of_left {kind : EventKind} {level : Fin 8} (h : FitsOnTop kind level old) :
    FitsOnTop kind level new := by
  obtain ⟨room, above⟩ := h
  refine ⟨Nat.lt_of_le_of_lt left.length_le room, fun e he => ?_⟩
  obtain ⟨x, hx, same⟩ := List.mem_map.mp (left.subset (List.mem_map_of_mem he))
  obtain ⟨kind, level⟩ := Prod.mk.inj same
  rw [← kind, ← level]
  exact above x hx

end

/-- What drops entries of the stack, or changes sends and timers, and makes no offer keeps the law. -/
theorem StackLaw.of_left {s t : State} (hs : StackLaw s) (left : LeftOf t.events.stack s.events.stack)
    (offer : ∀ o, t.arbiter.notice = some o → s.arbiter.notice = some o) : StackLaw t := by
  rw [stackLaw_iff] at hs ⊢
  obtain ⟨rising, fits⟩ := hs
  exact ⟨rising.of_left left, fun o ho new => (fits o (offer o ho) new).of_left left⟩

/-- What leaves the stack and the offer keeps the law. -/
theorem StackLaw.of_eq {s t : State} (hs : StackLaw s)
    (h : t.events.stack = s.events.stack ∧ t.arbiter.notice = s.arbiter.notice) : StackLaw t :=
  hs.of_left (h.1 ▸ .refl _) fun _ ho => h.2 ▸ ho

/-! ### The offer -/

/-- An offer that is a re-send, or fits on top of the stack, keeps the law. -/
theorem StackLaw.offered {s : State} {o : NoticeOffer} (hs : StackLaw s)
    (fits : o.resend = false → FitsOnTop o.kind o.level s.events.stack) : StackLaw (makeOffer o s) := by
  rw [stackLaw_iff] at hs ⊢
  refine ⟨hs.1, ?_⟩
  rintro _ ⟨⟩
  exact fits

theorem StackLaw.withdrawn {s : State} (hs : StackLaw s) : StackLaw (withdrawOffer s) :=
  hs.of_left (.refl _) fun _ ho => nomatch ho

theorem StackLaw.keptOrReplaced {s : State} {formed : NoticeOffer} (held : NoticeOffer) (hs : StackLaw s)
    (fits : formed.resend = false → FitsOnTop formed.kind formed.level s.events.stack) :
    StackLaw (keepOrReplace held formed s) := by
  unfold keepOrReplace
  split
  · exact hs
  · exact hs.offered fits

/-- A kind that the selection names fits on top of a rising stack: it is above the top entry, and so above all (R185). -/
theorem selectedKind_fits {e : Events} {k : EventKind} (rising : RisingStack e.stack) (h : selectedKind e = some k) :
    FitsOnTop k (e.records.get k.num).level e.stack := by
  have room : e.stack.length < 4 := by
    refine Nat.lt_of_not_le fun full => ?_
    rw [selectedKind_full full] at h
    cases h
  obtain ⟨-, -, -, aboveTop, otherKind⟩ := (isCandidate_iff e k).mp ((selectedKind_iff room k).mp h).1
  refine ⟨room, fun x hx => ⟨?_, otherKind x hx⟩⟩
  obtain ⟨-, rising, -⟩ := rising
  cases hs : e.stack with
  | nil =>
    rw [hs] at hx
    cases hx
  | cons top below =>
    rw [hs] at hx rising aboveTop
    have higher : top.level < (e.records.get k.num).level := aboveTop top rfl
    rcases List.mem_cons.mp hx with rfl | hx
    · exact higher
    · exact Fin.lt_trans (List.rel_of_pairwise_cons rising hx) higher

theorem selectNotice_keeps_stackLaw {s : State} (hs : StackLaw s) : StackLaw (selectNotice s) := by
  have fits (k : EventKind) (h : selectedKind s.events = some k) :
      (newOffer s k).resend = false → FitsOnTop (newOffer s k).kind (newOffer s k).level s.events.stack :=
    fun _ => selectedKind_fits ((stackLaw_iff s).mp hs).1 h
  unfold selectNotice
  split
  · split
    · exact hs
    · rename_i k hk
      exact hs.offered (fits k hk)
  · rename_i held _
    split
    · split
      · exact hs
      · exact hs.keptOrReplaced held fun new => nomatch new
    · split
      · exact hs.withdrawn
      · rename_i k hk
        exact hs.keptOrReplaced held (fits k hk)

/-! ### What the stack loses and gains -/

theorem topRestarted_left (timeout : Nat) (stack : List StackEntry) : LeftOf (topRestarted timeout stack) stack := by
  cases stack <;> exact List.Sublist.refl _

theorem topRestarted_left_cons (timeout : Nat) (top : StackEntry) (below : List StackEntry) :
    LeftOf (topRestarted timeout below) (top :: below) :=
  (topRestarted_left timeout below).trans (List.sublist_cons_self _ _)

/-- The tick lowers the timer of the top entry at most (R189). -/
theorem tickNotice_left (s : State) : LeftOf (tickNotice s).events.stack s.events.stack := by
  unfold tickNotice
  split
  · exact .refl _
  · rename_i top below hs
    rw [hs]
    dsimp only
    split
    · rw [hs]
      exact .refl _
    · split <;> exact List.Sublist.refl _

/-- A notice entered: a new one fits on top, by the law of its offer, and a re-send changes the top entry's sends and
timer (R188, R190). -/
theorem noticeEntered_keeps_stackLaw {s : State} {o : NoticeOffer} (ho : s.arbiter.notice = some o) (hs : StackLaw s) :
    StackLaw (noticeEntered o (setNoticeOffer none s)) := by
  cases new : o.resend with
  | false =>
    rw [noticeEntered_new new]
    rw [stackLaw_iff] at hs
    obtain ⟨rising, fits⟩ := hs
    refine selectNotice_keeps_stackLaw ((stackLaw_iff _).mpr ⟨rising.cons (fits o ho new), ?_⟩)
    exact fun _ ho => nomatch ho
  | true =>
    refine selectNotice_keeps_stackLaw (hs.of_left ?_ fun _ ho => nomatch ho)
    show LeftOf (if o.resend then countResend s.events else pushNotice o s.events).stack s.events.stack
    rw [if_pos new]
    unfold countResend
    split
    · exact .refl _
    · rename_i h
      rw [h]
      exact List.Sublist.refl _

theorem noticeExpired_keeps_stackLaw {s : State} (hs : StackLaw s) : StackLaw (noticeExpired s) := by
  cases h : s.events.stack with
  | nil => simpa only [noticeExpired, h] using hs
  | cons top below =>
    rcases Nat.lt_or_ge top.sends (1 + s.events.retries) with sendsLeft | used
    · rw [noticeExpired_resends h sendsLeft]
      exact hs.offered fun new => nomatch new
    · rw [noticeExpired_abandons h used]
      refine selectNotice_keeps_stackLaw (hs.of_left ?_ fun _ ho => ho)
      rw [h]
      exact topRestarted_left_cons s.events.timeout top below

theorem acknowledgeTop_keeps_stackLaw {s : State} (clear : Bool) (hs : StackLaw s) :
    StackLaw (acknowledgeTop clear s) := by
  cases h : s.events.stack with
  | nil => simpa only [acknowledgeTop, h] using hs
  | cons top below =>
    rw [acknowledgeTop_eq clear h]
    refine selectNotice_keeps_stackLaw (hs.of_left ?_ fun o ho => ?_)
    · rw [h]
      exact topRestarted_left_cons s.events.timeout top below
    · dsimp only [topAcknowledged] at ho
      split at ho
      · cases ho
      · exact ho

theorem noticeAckRun_keeps_stackLaw {s : State} (params : List Byte) (hs : StackLaw s) :
    StackLaw (noticeAckRun params s).state := by
  unfold noticeAckRun
  split
  · exact hs
  · split
    · exact acknowledgeTop_keeps_stackLaw _ hs
    · exact hs

/-- The settings of the kinds leave the stack (R174). -/
theorem writeSettings_stack (e : Events) (settings : List Byte) : (writeSettings e settings).stack = e.stack := by
  unfold writeSettings
  induction EventKind.all.zip settings generalizing e with
  | nil => rfl
  | cons x l ih => exact ih _

theorem writeEventConfigRun_keeps_stackLaw {s : State} (params : List Byte) (hs : StackLaw s) :
    StackLaw (writeEventConfigRun params s).state := by
  unfold writeEventConfigRun
  dsimp only
  split
  · exact hs
  · split
    · exact selectNotice_keeps_stackLaw (hs.of_eq ⟨writeSettings_stack _ _, rfl⟩)
    · exact hs

theorem stackLaw_empty {s : State} (stack : s.events.stack = []) (offer : s.arbiter.notice = none) : StackLaw s :=
  stackLaw_reset.of_eq ⟨stack, offer⟩

/-! ### Every step -/

/-- Every operation keeps the law: those of the stack and the selection by the lemmas above, all others because they
leave both the stack and the offer. -/
theorem stackLaw_kept : Kept StackLaw where
  plain _ _ _ _ _ _ _ _ hs := hs
  trib _ _ _ hs := hs
  delivery _ _ _ _ _ _ hs := hs
  engine _ _ _ _ hs := hs
  events _ _ stack _ _ _ _ hs := hs.of_eq ⟨stack, rfl⟩
  response _ _ hs := hs
  record _ _ _ _ hs := hs
  desc _ _ _ _ hs := hs
  store _ _ _ _ hs := hs
  allocate _ _ _ _ ha hs := hs.of_eq (by simp [allocate_frame ha])
  enqueue _ _ _ _ _ _ he hs := hs.of_eq (by simp [enqueue_frame he])
  free _ _ hs := hs.of_eq (by simp)
  addQueue _ _ _ _ hs := hs
  fault _ _ _ hs := hs.of_eq (by simp)
  aligned _ _ hs := hs
  swap _ _ hs := hs.of_eq (by simp)
  revert _ _ hs := hs.of_eq (by simp)
  boundSwap _ hs := hs.of_eq (by simp)
  countdown _ _ hs := hs
  windowEnd _ _ hs := hs.of_eq (by simp)
  select _ hs := selectNotice_keeps_stackLaw hs
  tried _ o ho hs := by
    rw [stackLaw_iff] at hs ⊢
    refine ⟨hs.1, ?_⟩
    rintro _ ⟨⟩
    exact hs.2 o ho
  entered _ _ ho hs := noticeEntered_keeps_stackLaw ho hs
  noticeTick s hs := hs.of_left (tickNotice_left s) fun _ ho => by simpa using ho
  expired _ hs := noticeExpired_keeps_stackLaw hs
  succeeded _ _ _ _ hs := hs.of_eq (by simp)
  setLease _ _ hs := hs.of_eq (by simp)
  writePlan _ _ hs := hs.of_eq (by simp)
  copyPlan _ _ hs := hs.of_eq (by simp)
  armSwap _ _ hs := hs.of_eq (by simp)
  cancelSwap _ _ hs := hs.of_eq (by simp)
  confirmSwap _ _ hs := hs.of_eq (by simp)
  writeCircuit _ _ hs := hs.of_eq (by simp)
  writePool _ _ hs := hs.of_eq (by simp)
  writeSched _ _ hs := hs.of_eq (by simp)
  writeEventConfig _ params hs := writeEventConfigRun_keeps_stackLaw params hs
  noticeAck _ params hs := noticeAckRun_keeps_stackLaw params hs
  clearFaults _ _ hs := hs
  writeBinding _ _ hs := hs.of_eq (by simp)
  reset _ _ _ _ := stackLaw_empty rfl rfl
  pinReset _ _ := stackLaw_empty rfl rfl
  clearTraffic _ hs := hs

/-- Settles O59: every operation keeps the law, so every step does. -/
theorem everyStepKeepsTheStackLaw : Obligations.EveryStepKeepsTheStackLaw :=
  fun _ _ hs he => stackLaw_kept.step (fun _ _ hu => hu) hs he

end Sys2Proof.Machine
end

section
/-!
PROOF. Occurrences taken (R182, R194, R195; log entries 8 and 9): whether a binding acts, what its success and its failure
come to, and the occurrences of a step in their order.
-/

namespace Sys2Proof.Machine

/-! ### Whether a binding acts -/

/-- The binding at `i` acts on an occurrence: in use, it names the kind, is armed, enabled and not barred there, and the
kind is not BINDING_MISS (R182, R194; log entry 9). -/
def BindingActs (o : Occurrence) (e : Events) (i : Fin Config.bindings) (b : Binding) : Prop :=
  boundTo e o.kind = some i ∧ e.bindings.get i = some b ∧ b.armed = true ∧ b.enabled = true ∧ o.kind ≠ .bindingMiss ∧
    i ∉ o.barred

/-- `s` with an occurrence noted in its record and the inbox empty, as its binding finds it (R182). -/
def occurrenceNoted (o : Occurrence) (s : State) : State := recordOccurrence o.kind o.detail (setInbox [] s)

section

variable {o : Occurrence} {s t : State} {i : Fin Config.bindings} {b : Binding}

/-- Noting an occurrence does not change which binding acts on it. -/
theorem bindingActs_noted : BindingActs o (occurrenceNoted o s).events i b ↔ BindingActs o s.events i b := Iff.rfl

/-- The test of an action is that the binding found is armed, enabled and not barred, and the kind is not BINDING_MISS. -/
theorem actionTest_iff : (b.armed && b.enabled && !o.barred.contains i && o.kind != .bindingMiss) = true ↔
    b.armed = true ∧ b.enabled = true ∧ o.kind ≠ .bindingMiss ∧ i ∉ o.barred := by
  simp only [Bool.and_eq_true, Bool.not_eq_true', bne_iff_ne, and_assoc, ← Bool.not_eq_true, List.contains_iff_mem]
  exact and_congr_right' (and_congr_right' and_comm)

/-! ### The binding consulted -/

/-- Where no binding acts the state is left (R182). -/
theorem consultBinding_rests (h : ∀ i b, ¬ BindingActs o s.events i b) : consultBinding o s = (none, s) := by
  unfold consultBinding
  split
  · rfl
  · rename_i i named
    split
    · rfl
    · rename_i b inUse
      exact if_neg fun test => h i b ⟨named, inUse, actionTest_iff.mp test⟩

/-- A binding that acts performs its action, and then has succeeded or failed (R194, R195). -/
theorem consultBinding_acts (h : BindingActs o s.events i b) : consultBinding o s =
    match (performAction b.action s).1 with
    | none => (none, bindingSucceeded i b (performAction b.action s).2)
    | some f => (some i, bindingFailed i o.kind f (performAction b.action s).2) := by
  obtain ⟨named, inUse, test⟩ := h
  simp only [consultBinding, named, inUse]
  exact if_pos (actionTest_iff.mpr test)

theorem consultBinding_succeeds (h : BindingActs o s.events i b) (done : performAction b.action s = (none, t)) :
    consultBinding o s = (none, bindingSucceeded i b t) := by
  rw [consultBinding_acts h, done]

theorem consultBinding_fails {f : ActionFailure} (h : BindingActs o s.events i b)
    (refused : performAction b.action s = (some f, t)) : consultBinding o s = (some i, bindingFailed i o.kind f t) := by
  rw [consultBinding_acts h, refused]

/-! ### One occurrence -/

variable (rest : List Occurrence)

/-- What consulting the binding has raised follows what waits, with the bindings barred that the outcome bars, and the
selection is made anew (R182, R185; log entries 8 and 9). -/
theorem takeOccurrence_consulted {failed : Option (Fin Config.bindings)}
    (h : consultBinding o (occurrenceNoted o s) = (failed, t)) :
    takeOccurrence o rest s = selectNotice
      (setInbox (rest ++ t.events.inbox.map fun x => { x with barred := barredAfter o failed }) t) := by
  rw [occurrenceNoted] at h
  rw [takeOccurrence, h]

/-- An occurrence on which no binding acts is noted, and the selection is made anew (R182). -/
theorem takeOccurrence_rests (h : ∀ i b, ¬ BindingActs o s.events i b) :
    takeOccurrence o rest s = selectNotice (setInbox rest (occurrenceNoted o s)) := by
  rw [takeOccurrence_consulted rest (consultBinding_rests (s := occurrenceNoted o s) h)]
  have raised : (occurrenceNoted o s).events.inbox = [] := rfl
  rw [raised, List.map_nil, List.append_nil]

/-- What a success leaves of a binding: a count lower by one, and at 0 neither armed (NOTIFY) nor enabled (SILENT)
(R194). -/
theorem Binding.afterSuccess_eq (b : Binding) : b.afterSuccess =
    if b.count - 1 ≠ 0 then { b with count := b.count - 1 }
    else if b.endMode = .notify then { b with count := b.count - 1, armed := false }
    else { b with count := b.count - 1, enabled := false } := by
  rw [Binding.afterSuccess, ite_not]
  cases b.endMode <;> rfl

theorem Binding.leavesPending_iff (b : Binding) : b.leavesPending = true ↔ b.count - 1 = 0 ∧ b.endMode = .notify := by
  rw [Binding.leavesPending, Bool.and_eq_true, beq_iff_eq, beq_iff_eq]

/-- A success adjusts the binding, and clears the record unless it is the last of a NOTIFY binding (R194). -/
theorem bindingSucceeded_eq (i : Fin Config.bindings) (b : Binding) (t : State) : bindingSucceeded i b t =
    { t with events := { t.events with
      bindings := t.events.bindings.put i (some b.afterSuccess)
      records := if b.count - 1 = 0 ∧ b.endMode = .notify then t.events.records
        else t.events.records.change b.kind.num EventRecord.clear } } := by
  simp only [bindingSucceeded, ← b.leavesPending_iff]
  split <;> rfl

end

/-- Settles O48: whether the binding acts, then the outcome of its action; the occurrences of a step one after the
other, those that no binding names by the laws of the taking. -/
theorem occurrencesAreTaken : Obligations.OccurrencesAreTaken := by
  refine ⟨fun o rest s => ?_, fun s => ⟨takeOccurrences_empty, fun _ _ => takeOccurrences_cons, fun _ _ hi hu =>
    takeOccurrences_unbound hi hu, fun _ _ _ _ hi hu1 hu2 => takeOccurrences_unbound_two hi hu1 hu2⟩⟩
  intro noted acts waiting
  refine ⟨takeOccurrence_rests rest, fun i b t act done => ?_, fun i b f t act refused => ?_⟩
  · rw [takeOccurrence_consulted rest (consultBinding_succeeds (bindingActs_noted.mpr act) done), bindingSucceeded_eq,
      b.afterSuccess_eq]
    rfl
  · rw [takeOccurrence_consulted rest (consultBinding_fails (bindingActs_noted.mpr act) refused)]
    rfl

end Sys2Proof.Machine
end

section
/-!
PROOF. The machine's step and its commands: a step takes the command at the front of the queue (log entry 3), and every
command completes and leaves the queue (log entries 3 and 4).
-/

namespace Sys2Proof.Machine

/-! ### The step -/

/-- A step with a command waiting is that command on the queue's rest (log entry 3). -/
theorem step_of_pending_cons {s : State} {c : Instr} {rest : List Instr} (h : s.pending = c :: rest) :
    step s = exec c (s.withPending rest) := by
  rw [step, h]

/-- A step with no command waiting idles (log entry 3). -/
theorem step_of_pending_nil {s : State} (h : s.pending = []) : step s = .next s := by
  rw [step, h]

/-- Of two replacements of the queue the later one stands. -/
@[simp] theorem withPending_withPending (s : State) (l m : List Instr) :
    (s.withPending l).withPending m = s.withPending m := rfl

/-- Settles O1: the two cases of the queue, where the front command finds the queue replaced by its rest. -/
theorem stepTakesFrontCommand : Obligations.StepTakesFrontCommand := by
  refine ⟨fun c rest s => ?_, fun s h => step_of_pending_nil h⟩
  have front : (s.withPending (c :: rest)).pending = c :: rest := by simp
  rw [step_of_pending_cons front, withPending_withPending]

/-! ### Every command completes -/

/-- A command of the running part completes, whatever it does (log entry 4). -/
theorem perform_completes (f : State → State) (s : State) : ∃ t, perform f s = .next t := ⟨_, rfl⟩

/-- A step fallen due completes when it is taken by name, owed or not (log entry 4). -/
theorem performOwed_completes (f : State → State) (s : State) : ∃ t, performOwed f s = .next t := ⟨_, rfl⟩

/-- A row that asks for the level of RST_N first completes when it does at both levels (R3; log entry 4). -/
theorem completes_of_branches {rstN : Bool} {high low : Host.Outcome State Fault Refusal}
    (hh : ∃ t, high = .next t) (hl : ∃ t, low = .next t) : ∃ t, (if rstN then high else low) = .next t := by
  cases rstN
  · exact hl
  · exact hh

/-- Every command answers a next state: it is taken by `perform` or `performOwed`, or its row names the state
it leaves. -/
theorem exec_completes (i : Instr) (s : State) : ∃ t, exec i s = .next t := by
  cases i with
  | powerOnReset | resetPin | rstNRise | responseAdmitted | noticeAdmitted => exact ⟨_, rfl⟩
  | octetArrival | tiLpFall | tiLpRise | readyFall | readyRise =>
    exact completes_of_branches (perform_completes _ s) ⟨_, rfl⟩
  | stall c =>
    simp only [exec, execStall]
    split
    · exact performOwed_completes _ s
    · exact ⟨_, rfl⟩
  | ageOut q =>
    simp only [exec, execAgeOut]
    split
    · exact performOwed_completes _ s
    · exact ⟨_, rfl⟩
  | confirmWindowExpiry | creditStall | ownerLost | noticeTimeout => exact performOwed_completes _ s
  | _ => exact perform_completes _ s

/-! ### Every command leaves the queue -/

/-- No operation touches the queue of commands: the fields of `Kept` by the frames of the operations they speak of, and
the resets because they take the queue over (log entry 3). -/
theorem pending_kept (l : List Instr) : Kept (fun s => s.pending = l) where
  plain _ _ _ _ _ _ _ _ hs := hs
  trib _ _ _ hs := hs
  delivery _ _ _ _ _ _ hs := hs
  engine _ _ _ _ hs := hs
  events _ _ _ _ _ _ _ hs := hs
  response _ _ hs := hs
  record _ _ _ _ hs := hs
  desc _ _ _ _ hs := .trans (by simp) hs
  store _ _ _ _ hs := hs
  allocate _ _ _ _ ha hs := .trans (by simp [allocate_frame ha]) hs
  enqueue _ _ _ _ _ _ he hs := .trans (by simp [enqueue_frame he]) hs
  free _ _ hs := .trans (by simp) hs
  addQueue _ _ _ _ hs := hs
  fault _ _ _ hs := .trans (by simp) hs
  aligned _ _ hs := hs
  swap _ _ hs := .trans (by simp) hs
  revert _ _ hs := .trans (by simp) hs
  boundSwap _ hs := .trans (by simp) hs
  countdown _ _ hs := hs
  windowEnd _ _ hs := .trans (by simp) hs
  select _ hs := .trans (by simp) hs
  tried _ _ _ hs := hs
  entered _ _ _ hs := .trans (by simp) hs
  noticeTick _ hs := .trans (by simp) hs
  expired _ hs := .trans (by simp) hs
  succeeded _ _ _ _ hs := .trans (by simp) hs
  setLease _ _ hs := .trans (by simp) hs
  writePlan _ _ hs := .trans (by simp) hs
  copyPlan _ _ hs := .trans (by simp) hs
  armSwap _ _ hs := .trans (by simp) hs
  cancelSwap _ _ hs := .trans (by simp) hs
  confirmSwap _ _ hs := .trans (by simp) hs
  writeCircuit _ _ hs := .trans (by simp) hs
  writePool _ _ hs := .trans (by simp) hs
  writeSched _ _ hs := .trans (by simp) hs
  writeEventConfig _ _ hs := .trans (by simp) hs
  noticeAck _ _ hs := .trans (by simp) hs
  clearFaults _ _ hs := .trans (by simp) hs
  writeBinding _ _ hs := .trans (by simp) hs
  reset _ _ _ hs := hs
  pinReset _ hs := .trans (by simp) hs
  clearTraffic _ hs := hs

/-- A command leaves the queue as it finds it (log entry 3). -/
theorem exec_pending {i : Instr} {s t : State} (he : exec i s = .next t) : t.pending = s.pending :=
  (pending_kept s.pending).exec i rfl he

/-- Settles O3: every row answers a next state, and the queue is kept by every operation a row is made of. -/
theorem everyCommandCompletes : Obligations.EveryCommandCompletes := by
  intro i s
  obtain ⟨t, he⟩ := exec_completes i s
  exact ⟨t, he, exec_pending he⟩

end Sys2Proof.Machine
end
